-- ==== Sys2Proof/Word.lean ====
section
/-! DEFINITION. The word types of the device (R5, R6): bytes, 32- and 64-bit words, the 96-bit
instruction word, and per-thread collections of a group of 32 threads. -/

namespace Sys2Proof

abbrev Byte := BitVec 8
abbrev W16 := BitVec 16
abbrev W32 := BitVec 32
abbrev W64 := BitVec 64
/-- A 96-bit instruction word, word 0 in bits [31:0] (R6, R105). -/
abbrev IWord := BitVec 96

/-- One value for each of the 32 threads of a group. -/
abbrev Threads (α : Type) := Vector α 32

/-- One 32-bit vector register of a group (R60). -/
abbrev VReg := Threads W32

end Sys2Proof
end

