-- ==== Sys2Proof/Syntax.lean ====
section
/-! DEFINITION. The syntax: operands (R108 to R112), the variants that consecutive opcodes select
(R119), and `Instr`, one constructor per row of the opcode table: the 157 instructions of ZA4, the
six retired words, and the device's other indivisible steps (operations of the engines, of the
distributor, of the firmware and of the host), with the data that comes from outside each step. -/

namespace Sys2Proof

/-! ### Operands -/

/-- Operand permutation of a vector source (R110). -/
inductive Perm where
  | none
  | bf (k : BitVec 5)
  | rot (n : BitVec 5)
  | rev (k : BitVec 5)
  | rep (j : BitVec 5)
  /-- a mode and argument that name no permutation; no well-formed operand holds it -/
  | resv (mode : BitVec 3) (arg : BitVec 5)
deriving DecidableEq, Repr, Inhabited

/-- One operand field (R108): vector register, scalar register, immediate, or object. -/
inductive Operand where
  | vec (reg : BitVec 8) (perm : Perm) (neg abs : Bool)
  | scal (reg : BitVec 7)
  | imm (v : BitVec 20)
  | obj (cls : BitVec 4) (idx : BitVec 16)
deriving DecidableEq, Repr

/-- The all-zero field of an operand that an instruction does not use (R108). -/
def Operand.zero : Operand := .vec 0 .none false false

/-- The fields every instruction word carries beside its opcode (R105). -/
structure Enc where
  /-- guard negate -/
  gn : Bool
  /-- guard predicate -/
  gp : BitVec 4
  /-- rounding field (R113) -/
  rnd : BitVec 3
  /-- hint field (R114) -/
  hint : BitVec 12
  d : Operand
  a : Operand
  b : Operand
deriving DecidableEq, Repr

/-! ### Variants -/

/-- Width of a scalar form: .64 stands first in the opcode map. -/
inductive SWidth where | w64 | w32
deriving DecidableEq, Repr

/-- Width of a vector form: .32 stands first in the opcode map. -/
inductive VWidth where | w32 | w64
deriving DecidableEq, Repr

/-- Integer conditions in the order of R119. -/
inductive Cond where | eq | ne | lt | le | gt | ge | ltu | leu | gtu | geu
deriving DecidableEq, Repr

/-- Floating-point conditions in the order of R201. -/
inductive FCond where | eq | ne | lt | le | gt | ge | ord | unord
deriving DecidableEq, Repr

/-- Width of a scalar memory access (R179). -/
inductive MWidth where | b8 | b16 | b32 | b64
deriving DecidableEq, Repr

/-- Width of a zero-extending scalar load (R179). -/
inductive UWidth where | b8 | b16 | b32
deriving DecidableEq, Repr

/-- Element type of a floating-point form (R193). -/
inductive FType where | f32 | f16x2 | bf16x2
deriving DecidableEq, Repr

/-- Element type of VFCMP (R201). -/
inductive HType where | f32 | f16 | bf16
deriving DecidableEq, Repr

/-- VCVT forms in opcode order, destination before source (R197). -/
inductive CvtKind where
  | f32s32 | f32z32 | s32f32 | z32f32 | f32s64 | s64f32
  | f32f16 | f16f32 | f32bf16 | bf16f32 | s32s64 | s64s32
deriving DecidableEq, Repr

/-- VCVT8 forms in opcode order (R198). -/
inductive Cvt8Kind where
  | e4m3f32 | e4m3f32sat | e5m2f32 | e5m2f32sat | f32e4m3 | f32e5m2
deriving DecidableEq, Repr

/-- Reduction and scan operations in the order of R209. -/
inductive RedOp where
  | add | fadd | min | max | minu | maxu | and | or | xor | fmin | fmax
deriving DecidableEq, Repr

/-- Load widths of LDV and LDSH (R215). -/
inductive LdWidth where | s8 | z8 | s16 | z16 | b32 | b64 | b128
deriving DecidableEq, Repr

/-- Store widths of STV and STSH (R215). -/
inductive StWidth where | b8 | b16 | b32 | b64 | b128
deriving DecidableEq, Repr

/-- Atomic operations of a 32-bit form (R220). -/
inductive AtOp where | add | min | max | and | or | xor | exch | incwrap | fadd
deriving DecidableEq, Repr

/-- Atomic operations of a 64-bit form (R220). -/
inductive AtOp64 where | add | min | max | and | or | xor | exch
deriving DecidableEq, Repr

/-- A form of ATOM or ATOMR: the 32-bit operations, then the 64-bit ones (R119). -/
inductive AtForm where
  | f32 (op : AtOp)
  | f64 (op : AtOp64)
deriving DecidableEq, Repr

/-- A form of ATOMSH (R220). -/
inductive ShForm where
  | op (o : AtOp)
  | cas
deriving DecidableEq, Repr

/-- Scopes (R146). -/
inductive Scope where | grp | team | clu | dev | dom | sys
deriving DecidableEq, Repr

/-- Scopes of CFLUSH and CINV (R229). -/
inductive CScope where | clu | dev | dom | sys
deriving DecidableEq, Repr

/-- Fence kinds (R154). -/
inductive FenceKind where | acq | rel | ar
deriving DecidableEq, Repr

/-- Matrix format codes (R249). -/
inductive Fmt where | fp4 | int8 | e4m3 | e5m2 | bf16 | fp16
deriving DecidableEq, Repr

/-- MSTA formats (R249). -/
inductive MstaFmt where | f32 | bf16 | f16
deriving DecidableEq, Repr

/-! ### What comes from outside a step -/

/-- The function through which a host reaches the device: a port's PF, or VF k (R371). -/
structure Fn where
  port : Nat
  vf : Option Nat
deriving DecidableEq, Repr

/-- A register of BAR 0 of a function that comes in several copies: of a core, by its index in the partition (R388), or of a context
(R393). -/
structure RegAt where
  fn : Fn
  n : Nat
deriving DecidableEq, Repr

/-- An agent whose read of a sector that a berth holds is served by a snoop (R143): a group, a copy, or one outside the cores. -/
inductive Reader where
  | group (g : Nat)
  | copy (id : Nat)
  | outside
deriving DecidableEq, Repr

/-- The limiters' measured readings of one power interval (R358, R362, R365). -/
structure PowerReadings where
  /-- U: power that tokens do not cover, in W -/
  u : Nat
  /-- budget of the current limit, if it acts -/
  current : Option Nat
  /-- budget of the thermal limit, if it acts -/
  thermal : Option Nat
  /-- cadence requests made by the limiters -/
  cadReqs : List (BitVec 16)
  /-- measured energy in nJ: of each cluster with its static share, of each HBM stack, of each die's fabric (R365) -/
  clusters : List (Nat × Nat)
  hbm : List Nat
  fabric : List Nat
deriving DecidableEq, Repr

/-- Fields of a context descriptor (R301, R312, R341, R348). -/
structure CtxArgs where
  dom : Nat
  regions : List W64
  trapBase : W64
  wdlim : Nat
deriving DecidableEq, Repr

/-- A gate-table entry as its 64 bytes hold it (R277). -/
structure GateEntry where
  entry : W64
  callers : W64
  tdom : Byte
  nspass : Byte
  nvpass : Byte
  nsres : Byte
  nvres : Byte
  scrub : Byte
  nberth : Byte
  resv17 : Byte
  allow : W32
  /-- whether every byte from 0x1C up is zero -/
  resvZero : Bool
deriving DecidableEq, Repr

/-- A kernel record: the launch-descriptor bytes that precas made (R131). -/
abbrev KernelRec := List Byte

/-- A Preco object: version note, sections and exported gates (R135, R384). -/
structure PrecoObject where
  /-- the version note, byte 0 first -/
  note : Vector Byte 16
  /-- virtual base and bytes of each section -/
  sections : List (W64 × List Byte)
  kernels : List KernelRec
  /-- gate index and entry PC of each .gate -/
  gates : List (Nat × W64)
  /-- first instruction of each kernel that has a signature table, and the table's address (R134) -/
  sigblocks : List (W64 × W64)
deriving DecidableEq, Repr

/-- What a load command finds in host memory (R386): the object in the SIZE bytes at SRC, or none when the read failed. The
command's fields are in the function's command area. -/
structure LoadCmd where
  object : Option PrecoObject
deriving DecidableEq, Repr

/-- A register of a function: its BAR and its offset (R373, R377, R380). -/
structure BarAddr where
  bar : Nat
  off : Nat
deriving DecidableEq, Repr

/-- A port's link has been down for 1 s, and the function that claims what the port owns, if one does (R372). -/
structure LinkLoss where
  port : Nat
  claim : Option Fn
deriving DecidableEq, Repr

/-- A leaf and table entries that answer a page fault: physical address and value (R344). -/
abbrev TableWrites := List (Nat × W64)

/-- What a checkpoint's headers of one generation agree in (R351, R355). -/
structure CkptHead where
  gen : W32
  ndev : Nat
  shape : W64
  teams : Nat
  ranges : Nat
  bytes : Nat
  crc : W64
deriving DecidableEq, Repr

/-- A checkpoint slot of another device of a job, as that device answers a restore (R351, R352): its header, whether it
verifies, and its units, where they can be read. -/
structure PeerSlot where
  head : CkptHead
  verifies : Bool
  units : Option (List (List Byte))
deriving DecidableEq, Repr

/-- What another device of a job contributes to a generation (R350, R351): its index, its bytes, and how many teams and ranges
they hold. -/
structure CkptShare where
  index : Nat
  data : List Byte
  teams : Nat
  ranges : Nat
deriving DecidableEq, Repr

/-- A step of a partition's checkpoint, with the shares of the job's other devices. -/
structure SealArgs where
  part : Nat
  others : List CkptShare := []
deriving DecidableEq, Repr

/-- A checkpoint or restore request (R350, R352, R355). -/
structure CkptArgs where
  ctxs : List Nat
  ndev : Nat
  index : Nat
  ranges : List (Nat × Nat)
  replaced : Option Nat
  /-- of a restore: the slots of the job's other devices, as they answer -/
  peers : List (Nat × List PeerSlot) := []
deriving DecidableEq, Repr

/-- A returned energy snapshot (R367, R368). -/
structure SnapArgs where
  bytes : List Byte
  signature : List Byte
  fresh : Bool
deriving DecidableEq, Repr

/-- Object that a survey request names (R381). -/
inductive SurveyObj where
  | reg (fn : Fn) (addr : BarAddr)
  | queue (q : Nat)
  | groupImage (g : Nat)
  | teamImage (t : Nat)
  | eventRecord (n : Nat)
  | energy (part : Nat)
  | counters (part : Nat)
  | partState (part : Nat)
  | identity
  | corrected (stack : Nat)
  | pcap
  | cad (core : Nat)
deriving DecidableEq, Repr

/-- Kinds of access that reach the device's memory from outside (R336, R383, R222). -/
inductive OutsideAccess where
  | read (len : Nat)
  | write (data : List Byte) (poison : Bool)
  | fetchAdd (wide : Bool) (v : W64)
  | swap (wide : Bool) (v : W64)
  | cas (wide : Bool) (cmp new : W64)
  | atomic (form : AtForm) (v : W64)
deriving DecidableEq, Repr

/-- The part of a step that has no completion within 1 ms at a peer (R383). -/
inductive PeerTarget where
  | load (g : Nat)
  | store (g : Nat)
  | atom (g : Nat)
  | cpyr (core copy : Nat)
  /-- a store on its way from a cluster cache, from a berth's write-back set of a group, and from a berth of a team -/
  | writeBack (cluster sec : Nat)
  | set (g : Nat)
  | held (team sec : Nat)
deriving DecidableEq, Repr

/-! ### The instructions and steps -/

/-- One constructor per row of spec/opcode_table.json. -/
inductive Instr where
  -- scalar, control, vector, memory, matrix and system instructions (R119)
  | sadd (w : SWidth) (e : Enc)
  | ssub (w : SWidth) (e : Enc)
  | smul (w : SWidth) (e : Enc)
  | smulh (w : SWidth) (e : Enc)
  | smulhu (w : SWidth) (e : Enc)
  | sdiv (w : SWidth) (e : Enc)
  | sdivu (w : SWidth) (e : Enc)
  | srem (w : SWidth) (e : Enc)
  | sremu (w : SWidth) (e : Enc)
  | sand (w : SWidth) (e : Enc)
  | sor (w : SWidth) (e : Enc)
  | sxor (w : SWidth) (e : Enc)
  | sandn (w : SWidth) (e : Enc)
  | sshl (w : SWidth) (e : Enc)
  | sshr (w : SWidth) (e : Enc)
  | ssra (w : SWidth) (e : Enc)
  | srol (w : SWidth) (e : Enc)
  | smin (w : SWidth) (e : Enc)
  | smax (w : SWidth) (e : Enc)
  | sminu (w : SWidth) (e : Enc)
  | smaxu (w : SWidth) (e : Enc)
  | sclz (w : SWidth) (e : Enc)
  | sctz (w : SWidth) (e : Enc)
  | spopc (w : SWidth) (e : Enc)
  | sbrev (w : SWidth) (e : Enc)
  | sbfx (w : SWidth) (e : Enc)
  | sbfxu (w : SWidth) (e : Enc)
  | sbfi (w : SWidth) (e : Enc)
  | ssel (e : Enc)
  | smov (e : Enc)
  | smovi (e : Enc)
  | smovh (e : Enc)
  | scmp (c : Cond) (w : SWidth) (e : Enc)
  | sgetsr (e : Enc)
  | ssetsr (e : Enc)
  | sld (w : MWidth) (e : Enc)
  | sldu (w : UWidth) (e : Enc)
  | sst (w : MWidth) (e : Enc)
  | anch (e : Enc)
  | bra (e : Enc)
  | brz (e : Enc)
  | brnz (e : Enc)
  | brany (e : Enc)
  | brall (e : Enc)
  | brnone (e : Enc)
  | call (e : Enc)
  | calli (e : Enc)
  | ret (e : Enc)
  | jmpi (e : Enc)
  | loop (e : Enc)
  | nop (e : Enc)
  | yield (e : Enc)
  | exit (e : Enc)
  | vadd (w : VWidth) (e : Enc)
  | vsub (w : VWidth) (e : Enc)
  | vmul (e : Enc)
  | vmulh (e : Enc)
  | vmulhu (e : Enc)
  | vmad (e : Enc)
  | vand (e : Enc)
  | vor (e : Enc)
  | vxor (e : Enc)
  | vandn (e : Enc)
  | vshl (e : Enc)
  | vshr (e : Enc)
  | vsra (e : Enc)
  | vmin (e : Enc)
  | vmax (e : Enc)
  | vminu (e : Enc)
  | vmaxu (e : Enc)
  | vclz (e : Enc)
  | vpopc (e : Enc)
  | vbfx (e : Enc)
  | vbfxu (e : Enc)
  | vbfi (e : Enc)
  | vsel (e : Enc)
  | vmov (w : VWidth) (e : Enc)
  | vidx (e : Enc)
  | vfadd (t : FType) (e : Enc)
  | vfsub (t : FType) (e : Enc)
  | vfmul (t : FType) (e : Enc)
  | vfma (t : FType) (e : Enc)
  | vfmin (t : FType) (e : Enc)
  | vfmax (t : FType) (e : Enc)
  | vfdiv (t : FType) (e : Enc)
  | vfsqrt (t : FType) (e : Enc)
  | vfrcp (t : FType) (e : Enc)
  | vfrsq (t : FType) (e : Enc)
  | vfex2 (t : FType) (e : Enc)
  | vflg2 (t : FType) (e : Enc)
  | vfclass (t : FType) (e : Enc)
  | vcvt (k : CvtKind) (e : Enc)
  | vcvt8 (k : Cvt8Kind) (e : Enc)
  | vpk4 (e : Enc)
  | vupk4 (e : Enc)
  | vcmp (c : Cond) (e : Enc)
  | vfcmp (c : FCond) (t : HType) (e : Enc)
  | pand (e : Enc)
  | por (e : Enc)
  | pxor (e : Enc)
  | pnot (e : Enc)
  | pmovs (e : Enc)
  | psets (e : Enc)
  | pcnt (e : Enc)
  | vshfl (e : Enc)
  | xswap (e : Enc)
  | sred (op : RedOp) (e : Enc)
  | vscan (op : RedOp) (e : Enc)
  | ldv (w : LdWidth) (e : Enc)
  | stv (w : StWidth) (e : Enc)
  | ldsh (w : LdWidth) (e : Enc)
  | stsh (w : StWidth) (e : Enc)
  | atom (f : AtForm) (e : Enc)
  | acas (w : VWidth) (e : Enc)
  | atomr (f : AtForm) (e : Enc)
  | atomsh (f : ShForm) (e : Enc)
  | bbind (e : Enc)
  | bunbind (e : Enc)
  | bflush (e : Enc)
  | fence (sc : Scope) (k : FenceKind) (e : Enc)
  | ifence (e : Enc)
  | cflush (sc : CScope) (e : Enc)
  | cinv (sc : CScope) (e : Enc)
  | pref (e : Enc)
  | bar (e : Enc)
  | bara (e : Enc)
  | barw (e : Enc)
  | waita (e : Enc)
  | waitc (e : Enc)
  | barx (e : Enc)
  | cpy (e : Enc)
  | cpy2 (e : Enc)
  | cpyr (e : Enc)
  | mldw (f : Fmt) (t : Bool) (e : Enc)
  | mloop (e : Enc)
  | mrdy (e : Enc)
  | mbatch (e : Enc)
  | mwait (e : Enc)
  | mzero (e : Enc)
  | msta (f : MstaFmt) (e : Enc)
  | mlda (e : Enc)
  | mrda (e : Enc)
  | mwra (e : Enc)
  | qnt (e : Enc)
  | mfmt (e : Enc)
  | gcall (e : Enc)
  | gret (e : Enc)
  | trap (e : Enc)
  | tret (e : Enc)
  | sigchk (e : Enc)
  | reach (e : Enc)
  | lnch (e : Enc)
  | brk (e : Enc)
  | dbgm (e : Enc)
  | trc (e : Enc)
  | sleep (e : Enc)
  | emur (e : Enc)
  | vdot4 (w : IWord)
  | vswz (w : IWord)
  | sbar (w : IWord)
  | cpyl (w : IWord)
  | mma16 (w : IWord)
  | mmac16 (w : IWord)
  -- the device's other indivisible steps
  | illegalOpcode (w : IWord)
  | fetchFault
  | synthesisedGret (g : Nat)
  | trapPermitAcquire (g : Nat)
  | permitBackoffExpiry (g : Nat)
  | yieldExpiry (g : Nat)
  | sleepExpiry (g : Nat)
  | waitConditionMet (g : Nat)
  | waitRecheck (core : Nat)
  | xswapReceive (g h : Nat)
  | issueSelect (core : Nat)
  | tokenReservation (g : Nat)
  | issuePromotion (g : Nat)
  | towpathDelivery (core : Nat)
  | tokenClaim (core : Nat)
  | powerInterval (r : PowerReadings)
  | ratioChange (cluster : Nat)
  | energySnapshot (part : Nat)
  | placeTeam (part : Nat)
  | placeTrain (part : Nat)
  | placementWaitExpiry (part : Nat)
  | longWaitCheck (g : Nat)
  | leavingComplete (team : Nat)
  | returnTeam (part : Nat)
  | launchCompletion (launch : Nat)
  | watchdogExpiry (launch : Nat)
  | reachClear (g : Nat)
  | poundDrain (g : Nat)
  | poundStage (g : Nat)
  | poundEccError (core idx : Nat)
  | sensorEvent (cls cluster core sensor : Nat)
  | sensorSelfTest (cls cluster core sensor : Nat) (pass : Bool)
  | fenceComplete (g : Nat)
  | fenceRollback (g : Nat)
  | loadReturn (g : Nat)
  | atomReturn (g : Nat)
  | berthFill (team berth sector : Nat)
  | berthWriteback (team berth : Nat)
  | heldSectorSnoop (addr : Nat) (reader : Option Reader)
  | copySignal (core copy : Nat)
  | copyDone (core copy : Nat)
  | cpyrElement (core copy : Nat)
  | barrierComplete (team n : Nat)
  | peerTimeout (t : PeerTarget)
  | callStackSpill (g : Nat)
  | lineEviction (g line : Nat)
  | mooringReclaim (g line : Nat)
  | sequencerTransferStart (core : Nat)
  | sequencerTransferComplete (core : Nat)
  | mloopStepStart (core op : Nat)
  | rowInject (core macroNo : Nat)
  | stepEntry (core macroNo : Nat)
  | flitAdvance
  | linkCrcRetry (link plane : Nat)
  | routerFailure (die router : Nat)
  | dirtyLineError (line way : Nat)
  | invalidationComplete (id : Nat)
  | checkpointSeal (x : SealArgs)
  | createContext (fn : Fn) (x : CtxArgs)
  | destroyContext (fn : Fn) (ctx : Nat)
  | loadObject (fn : Fn) (x : LoadCmd)
  | writeGateEntry (fn : Fn) (idx : Nat) (x : GateEntry)
  | invalidate (fn : Fn) (ctx : Nat) (va : W64) (size : Nat)
  | pageFaultMap (fn : Fn) (g : Nat) (x : TableWrites)
  | pageFaultRefuse (fn : Fn) (g : Nat)
  | checkpoint (fn : Fn) (x : CkptArgs)
  | restore (fn : Fn) (x : CkptArgs)
  | createQueue (fn : Fn) (ctx q prio k : Nat) (ring : W64)
  | destroyQueue (fn : Fn) (q : Nat)
  | setQwin (fn : Fn) (v : W32)
  | returnEnergySnapshot (fn : Fn) (x : SnapArgs)
  | partitionReset (fn : Fn)
  | partitionDevice (fn : Fn) (n : Nat)
  | writePcap (fn : Fn) (v : W32)
  | setClusterRatio (fn : Fn) (cluster : Nat) (code : Nat)
  | transferOwnership (fn : Fn) (part : Nat)
  | attestationReport (fn : Fn) (nonce : List Byte)
  | setDomainMembership (fn : Fn) (index : Nat)
  | malformedCommand (fn : Fn) (code : Nat)
  | queueNoOperation (q : Nat)
  | queueLaunch (q : Nat)
  | queueWait (q : Nat)
  | queueWaitPoll (q : Nat)
  | queueWrite (q : Nat)
  | queueWriteValue (q : Nat)
  | queueSwitchIn (part : Nat)
  | queueSwitchOut (q : Nat)
  | qtailWrite (fn : Fn) (q : Nat) (v : W32)
  | trcctlWrite (at_ : RegAt) (v : W64)
  | debugHalt (at_ : RegAt) (v : W64)
  | debugResume (at_ : RegAt) (v : W64)
  | debugStep (at_ : RegAt) (v : W64)
  | registerWrite (fn : Fn) (addr : BarAddr) (v : W64)
  | traceTsd (core : Nat)
  | traceLoss (core : Nat)
  | surveyRequest (fn : Fn) (x : SurveyObj) (flush : Bool)
  | surveyFlushTimeout (core : Nat)
  | powerUp (link0 link1 : Bool)
  | firmwareGo (fn : Fn) (len : Nat)
  | ownerLinkDown (x : LinkLoss)
  | thavinFaultResolution (g : Nat) (x : TableWrites)
  | launchVerdict (g : Nat)
  | peerAccessArrival (dev addr : Nat) (x : OutsideAccess)
  | hostDmaAccess (fn : Fn) (addr : Nat) (x : OutsideAccess)
  | writebackSetComplete (g : Nat)
  | transportRetransmit (port seq : Nat)
deriving DecidableEq, Repr

end Sys2Proof
end

