-- ==== Sys2Proof/WellFormed.lean ====
section
/-! DEFINITION. What each instruction's fields may hold (R107 to R115, R119, R120 and the form tables
of the instruction chapters), and the checks 3 to 7 of R115 on a syntax term. -/

namespace Sys2Proof

/-- A group's allocation: what lies inside it decides check 7 (R60, R62, R112). -/
structure Alloc where
  vregs : Nat
  sregs : Nat
  berths : Nat
  tiles : Nat
  accs : Nat
deriving DecidableEq, Repr

/-- The largest allocation a launch may declare (R32). -/
def Alloc.full : Alloc := { vregs := 256, sregs := 128, berths := 16, tiles := 8, accs := 8 }

/-- What an immediate may be in a position. -/
inductive ImmRule where
  | no
  | any
  | range (lo hi : Int)
  /-- packed FP16 or BF16 position: [19:16] must be zero (R111) -/
  | packed
deriving DecidableEq, Repr

/-- What an operand position accepts (R108, R188). -/
structure Pos where
  /-- the field is used; an unused field must be all zero -/
  used : Bool
  vec : Bool
  /-- NEG and ABS are accepted (R109) -/
  fp : Bool
  /-- a destination takes no permutation and no modifier -/
  dst : Bool
  /-- registers of the operand; the number must be a multiple of it (R61, R215) -/
  width : Nat
  scal : Bool
  /-- registers of a copy command block (R237); 1 elsewhere -/
  block : Nat
  imm : ImmRule
  cls : Option Nat
  /-- class 0x5 position that is written: only writable registers (R63) -/
  wr : Bool
  /-- the operand may be left out, the field then being zero -/
  opt : Bool
deriving DecidableEq, Repr

namespace Pos

def none : Pos :=
  { used := false, vec := false, fp := false, dst := false, width := 1, scal := false, block := 1,
    imm := .no, cls := Option.none, wr := false, opt := false }
/-- scalar destination -/
def sd : Pos := { none with used := true, scal := true, dst := true }
/-- scalar or immediate -/
def si : Pos := { none with used := true, scal := true, imm := .any }
/-- scalar -/
def s : Pos := { none with used := true, scal := true }
/-- immediate -/
def i : Pos := { none with used := true, imm := .any }
/-- immediate in a range -/
def ir (lo hi : Int) : Pos := { none with used := true, imm := .range lo hi }
/-- object of a class -/
def o (c : Nat) : Pos := { none with used := true, cls := some c }
/-- vector destination of n registers -/
def vd (n : Nat) : Pos := { none with used := true, vec := true, dst := true, width := n }
/-- vector source of n registers -/
def v (n : Nat) : Pos := { none with used := true, vec := true, width := n }
/-- vector, scalar or immediate source -/
def vsi (n : Nat) : Pos := { none with used := true, vec := true, width := n, scal := true, imm := .any }
/-- the same in a floating-point position -/
def vsf : Pos := { vsi 1 with fp := true }
/-- the same in a packed position -/
def vsp : Pos := { vsi 1 with fp := true, imm := .packed }

end Pos

/-- Values of RND that an opcode accepts (R113). -/
inductive RndRule where | f | n | no
deriving DecidableEq, Repr

/-- Toll at issue (R120). -/
inductive Toll where
  | fixed (n : Nat)
  /-- 2+S -/
  | sectors
  /-- 0 at issue; the engine draws -/
  | engine
deriving DecidableEq, Repr

/-- A row of the opcode map: guard, rounding, toll, seal and operand positions. -/
structure Form where
  /-- T, per-thread -/
  t : Bool
  rnd : RndRule
  toll : Toll
  seals : Bool
  d : Pos
  a : Pos
  b : Pos
  /-- OPA and OPB hold a joined immediate of that many bits (R111) -/
  joined : Option Nat
deriving DecidableEq, Repr

namespace Form

/-- A uniform form with toll 0. -/
def u (d a b : Pos) : Form :=
  { t := false, rnd := .no, toll := .fixed 0, seals := false, d := d, a := a, b := b, joined := .none }
/-- A per-thread form. -/
def th (toll : Nat) (d a b : Pos) : Form :=
  { t := true, rnd := .no, toll := .fixed toll, seals := false, d := d, a := a, b := b, joined := .none }
/-- A per-thread floating-point form. -/
def fl (toll : Nat) (r : RndRule) (d a b : Pos) : Form := { th toll d a b with rnd := r }
/-- A per-thread form on global memory. -/
def mem (d a b : Pos) : Form := { th 0 d a b with toll := .sectors }

end Form

/-- Source position of a floating-point type (R111, R193). -/
def FType.pos : FType → Pos
  | .f32 => .vsf
  | .f16x2 => .vsp
  | .bf16x2 => .vsp

def HType.pos : HType → Pos
  | .f32 => .vsf
  | .f16 => .vsp
  | .bf16 => .vsp

/-- Registers of a vector width. -/
def VWidth.regs : VWidth → Nat
  | .w32 => 1
  | .w64 => 2

def LdWidth.regs : LdWidth → Nat
  | .b64 => 2
  | .b128 => 4
  | _ => 1

/-- Bytes per thread (R215). -/
def LdWidth.bytes : LdWidth → Nat
  | .s8 => 1
  | .z8 => 1
  | .s16 => 2
  | .z16 => 2
  | .b32 => 4
  | .b64 => 8
  | .b128 => 16

def StWidth.regs : StWidth → Nat
  | .b64 => 2
  | .b128 => 4
  | _ => 1

def StWidth.bytes : StWidth → Nat
  | .b8 => 1
  | .b16 => 2
  | .b32 => 4
  | .b64 => 8
  | .b128 => 16

/-- Store-data position: V only for .128 (R215). -/
def StWidth.pos (w : StWidth) : Pos :=
  match w with
  | .b128 => .v 4
  | w => .vsi w.regs

def AtForm.regs : AtForm → Nat
  | .f32 _ => 1
  | .f64 _ => 2

def AtForm.rnd : AtForm → RndRule
  | .f32 .fadd => .n
  | _ => .no

def ShForm.rnd : ShForm → RndRule
  | .op .fadd => .n
  | _ => .no

def ShForm.regs : ShForm → Nat
  | .cas => 2
  | .op _ => 1

/-- Whether a reduction is a floating-point one (R209). -/
def RedOp.isF : RedOp → Bool
  | .fadd => true
  | .fmin => true
  | .fmax => true
  | _ => false

def RedOp.toll (r : RedOp) : Nat := if r.isF then 2 else 1

/-- VCVT forms: rounding, destination, source and half selector (R197). -/
def CvtKind.form : CvtKind → Form
  | .f32s32 | .f32z32 => .fl 2 .f (.vd 1) (.vsi 1) .none
  | .s32f32 | .z32f32 => .fl 2 .f (.vd 1) .vsf .none
  | .f32s64 => .fl 2 .f (.vd 1) (.vsi 2) .none
  | .s64f32 => .fl 2 .f (.vd 2) .vsf .none
  | .f32f16 | .f32bf16 => .fl 2 .no (.vd 1) (.vsi 1) (.ir 0 1)
  | .f16f32 | .bf16f32 => .fl 2 .f (.vd 1) .vsf (.ir 0 1)
  | .s32s64 => .fl 2 .no (.vd 1) (.vsi 2) .none
  | .s64s32 => .fl 2 .no (.vd 2) (.vsi 1) .none

/-- VCVT8 forms (R198). -/
def Cvt8Kind.form : Cvt8Kind → Form
  | .f32e4m3 | .f32e5m2 => .fl 2 .no (.vd 1) (.vsi 1) (.ir 0 3)
  | _ => .fl 2 .f (.vd 1) .vsf (.ir 0 3)

/-- The form of each instruction (R119 and the form tables). The device's other steps have no word. -/
def form : Instr → Form
  | .sadd _ _ | .ssub _ _ | .smul _ _ | .smulh _ _ | .smulhu _ _ | .sdiv _ _ | .sdivu _ _ | .srem _ _
  | .sremu _ _ | .sand _ _ | .sor _ _ | .sxor _ _ | .sandn _ _ | .sshl _ _ | .sshr _ _ | .ssra _ _
  | .srol _ _ | .smin _ _ | .smax _ _ | .sminu _ _ | .smaxu _ _ | .sbfx _ _ | .sbfxu _ _
  | .sbfi _ _ => .u .sd .si .si
  | .sclz _ _ | .sctz _ _ | .spopc _ _ | .sbrev _ _ => .u .sd .si .none
  | .ssel _ => .u .sd .si .si
  | .smov _ => .u .sd .si .none
  | .smovi _ => { Form.u .sd .i .i with joined := some 40 }
  | .smovh _ => { Form.u .sd .i .i with joined := some 24 }
  | .scmp _ _ _ => .u .sd .si .si
  | .sgetsr _ => .u .sd (.o 5) .none
  | .ssetsr _ => .u { Pos.o 5 with wr := true, dst := true } .si .none
  | .sld _ _ | .sldu _ _ => .u .sd (.o 1) .si
  | .sst _ _ => .u (.o 1) .si .si
  | .anch _ => .u (.o 1) .s .si
  | .bra _ => .u .i .none .none
  | .brz _ | .brnz _ => .u .s .i .none
  | .brany _ | .brall _ | .brnone _ => .u (.o 0) .i .none
  | .call _ => .u .i .none .none
  | .calli _ => .u .s .none .none
  | .ret _ => .u .none .none .none
  | .jmpi _ => .u .s .none .none
  | .loop _ => .u .s .i .none
  | .nop _ => .u .none .none .none
  | .yield _ => .u { Pos.ir 0 4095 with opt := true } .none .none
  | .exit _ => .u .none .none .none
  | .vadd w _ | .vsub w _ => .th 1 (.vd w.regs) (.vsi w.regs) (.vsi w.regs)
  | .vmul _ | .vmulh _ | .vmulhu _ | .vmad _ | .vand _ | .vor _ | .vxor _ | .vandn _ | .vshl _ | .vshr _
  | .vsra _ | .vmin _ | .vmax _ | .vminu _ | .vmaxu _ | .vbfx _ | .vbfxu _ | .vbfi _
  | .vsel _ => .th 1 (.vd 1) (.vsi 1) (.vsi 1)
  | .vclz _ | .vpopc _ => .th 1 (.vd 1) (.vsi 1) .none
  | .vmov w _ => .th 1 (.vd w.regs) (.vsi w.regs) .none
  | .vidx _ => .th 1 (.vd 1) .si .none
  | .vfadd t _ | .vfsub t _ | .vfmul t _ | .vfma t _ => .fl 2 .f (.vd 1) t.pos t.pos
  | .vfmin t _ | .vfmax t _ => .fl 2 .no (.vd 1) t.pos t.pos
  | .vfdiv t _ => .fl 3 .f (.vd 1) t.pos t.pos
  | .vfsqrt t _ | .vfrcp t _ | .vfrsq t _ => .fl 3 .f (.vd 1) t.pos .none
  | .vfex2 t _ | .vflg2 t _ => .fl 3 .n (.vd 1) t.pos .none
  | .vfclass t _ => .fl 1 .no (.vd 1) t.pos .none
  | .vcvt k _ => k.form
  | .vcvt8 k _ => k.form
  | .vpk4 _ => .fl 2 .f (.vd 1) .vsf (.vsi 1)
  | .vupk4 _ => .fl 2 .no (.vd 1) (.vsi 1) (.vsi 1)
  | .vcmp _ _ => .th 1 { Pos.o 0 with dst := true } (.vsi 1) (.vsi 1)
  | .vfcmp _ t _ => .th 1 { Pos.o 0 with dst := true } t.pos t.pos
  | .pand _ | .por _ | .pxor _ => .th 0 { Pos.o 0 with dst := true } (.o 0) (.o 0)
  | .pnot _ => .th 0 { Pos.o 0 with dst := true } (.o 0) .none
  | .pmovs _ | .pcnt _ => .th 0 .sd (.o 0) .none
  | .psets _ => .th 0 { Pos.o 0 with dst := true } .si .none
  | .vshfl _ => .th 1 (.vd 1) (.v 1) (.vsi 1)
  | .xswap _ => { Form.th 1 (.vd 1) (.v 1) .s with seals := true }
  | .sred r _ => .fl r.toll (if r = .fadd then .n else .no) .sd { Pos.v 1 with fp := r.isF } .none
  | .vscan r _ => .fl r.toll (if r = .fadd then .f else .no) (.vd 1) { Pos.v 1 with fp := r.isF } .none
  | .ldv w _ => .mem (.vd w.regs) (.o 1) (.vsi 1)
  | .stv w _ => .mem (.o 1) (.vsi 1) w.pos
  | .ldsh w _ => .th 1 (.vd w.regs) (.o 2) (.vsi 1)
  | .stsh w _ => .th 1 (.o 2) (.vsi 1) w.pos
  | .atom f _ => { Form.mem (.vd f.regs) (.o 1) (.vsi 1) with seals := true, rnd := f.rnd }
  | .acas w _ => { Form.mem (.vd (2 * w.regs)) (.o 1) (.vsi 1) with seals := true }
  | .atomr f _ => { Form.mem (.o 1) (.vsi 1) (.vsi f.regs) with rnd := f.rnd }
  | .atomsh f _ => .fl 1 f.rnd (.vd f.regs) (.o 2) (.vsi 1)
  | .bbind _ => .u (.o 2) .s { Pos.s with opt := true }
  | .bunbind _ | .bflush _ => .u (.o 2) .none .none
  | .fence _ _ _ | .ifence _ => .u .none .none .none
  | .cflush _ _ | .cinv _ _ => .u (.o 1) .si .none
  | .pref _ => .th 1 (.o 1) (.vsi 1) .none
  | .bar _ | .bara _ | .barw _ => .u (.ir 0 7) .none .none
  | .waita _ => .u (.o 2) .si .si
  | .waitc _ => .u (.o 7) (.ir 0 65535) .none
  | .barx _ => .u (.ir 0 7) { Pos.si with imm := .range 0 524287 } .none
  | .cpy _ => { Form.u { Pos.s with block := 4 } .none .none with toll := .engine }
  | .cpy2 _ | .cpyr _ => { Form.u { Pos.s with block := 8 } .none .none with toll := .engine }
  | .mldw _ _ _ => { Form.u (.o 3) (.o 2) .si with toll := .engine, seals := true }
  | .mloop _ => { Form.u (.o 4) (.o 3) .s with toll := .engine, rnd := .n }
  | .mrdy _ => .u .none .none .none
  | .mbatch _ => .u .sd .none .none
  | .mwait _ => .u { Pos.si with imm := .range 0 15 } .none .none
  | .mzero _ => { Form.u (.o 4) .none .none with toll := .fixed 1 }
  | .msta f _ => { Form.u (.o 2) .si (.o 4) with toll := .engine, rnd := if f = .f32 then .no else .f }
  | .mlda _ => { Form.u (.o 4) (.o 2) .si with toll := .engine }
  | .mrda _ => .th 1 (.vd 1) (.o 4) { Pos.si with imm := .range 0 127 }
  | .mwra _ => .th 1 (.o 4) (.v 1) { Pos.si with imm := .range 0 127 }
  | .qnt _ => .fl 2 .n (.vd 2) { Pos.v 1 with fp := true } .s
  | .mfmt _ => .u .sd (.o 3) .none
  | .gcall _ => { Form.u (.o 6) .none .none with seals := true }
  | .gret _ => { Form.u .none .none .none with seals := true }
  | .trap _ => .u (.ir 0 65535) .none .none
  | .tret _ => .u (.ir 0 2) .none .none
  | .sigchk _ => { Form.u .none .i .i with joined := some 32 }
  | .reach _ => .u .none .none .none
  | .lnch _ => { Form.u .sd .s .none with seals := true }
  | .brk _ => .u (.ir 0 65535) .none .none
  | .dbgm _ => .u (.ir 0 7) .si .none
  | .trc _ => .u (.ir 0 65535) { Pos.si with opt := true } .none
  | .sleep _ => .u { Pos.si with imm := .range 0 524287 } .none .none
  | .emur _ => .u (.ir 0 1) .none .none
  | .vdot4 _ | .vswz _ => { Form.th 0 .none .none .none with seals := true }
  | .sbar _ | .cpyl _ | .mma16 _ | .mmac16 _ => { Form.u .none .none .none with seals := true }
  | _ => .u .none .none .none

/-- The fields of an instruction word; a retired word and the device's other steps have none. -/
def enc? : Instr → Option Enc
  | .sadd _ e | .ssub _ e | .smul _ e | .smulh _ e | .smulhu _ e | .sdiv _ e | .sdivu _ e | .srem _ e
  | .sremu _ e | .sand _ e | .sor _ e | .sxor _ e | .sandn _ e | .sshl _ e | .sshr _ e | .ssra _ e
  | .srol _ e | .smin _ e | .smax _ e | .sminu _ e | .smaxu _ e | .sclz _ e | .sctz _ e | .spopc _ e
  | .sbrev _ e | .sbfx _ e | .sbfxu _ e | .sbfi _ e | .ssel e | .smov e | .smovi e | .smovh e
  | .scmp _ _ e | .sgetsr e | .ssetsr e | .sld _ e | .sldu _ e | .sst _ e | .anch e | .bra e | .brz e
  | .brnz e | .brany e | .brall e | .brnone e | .call e | .calli e | .ret e | .jmpi e | .loop e | .nop e
  | .yield e | .exit e | .vadd _ e | .vsub _ e | .vmul e | .vmulh e | .vmulhu e | .vmad e | .vand e
  | .vor e | .vxor e | .vandn e | .vshl e | .vshr e | .vsra e | .vmin e | .vmax e | .vminu e | .vmaxu e
  | .vclz e | .vpopc e | .vbfx e | .vbfxu e | .vbfi e | .vsel e | .vmov _ e | .vidx e | .vfadd _ e
  | .vfsub _ e | .vfmul _ e | .vfma _ e | .vfmin _ e | .vfmax _ e | .vfdiv _ e | .vfsqrt _ e
  | .vfrcp _ e | .vfrsq _ e | .vfex2 _ e | .vflg2 _ e | .vfclass _ e | .vcvt _ e | .vcvt8 _ e | .vpk4 e
  | .vupk4 e | .vcmp _ e | .vfcmp _ _ e | .pand e | .por e | .pxor e | .pnot e | .pmovs e | .psets e
  | .pcnt e | .vshfl e | .xswap e | .sred _ e | .vscan _ e | .ldv _ e | .stv _ e | .ldsh _ e | .stsh _ e
  | .atom _ e | .acas _ e | .atomr _ e | .atomsh _ e | .bbind e | .bunbind e | .bflush e | .fence _ _ e
  | .ifence e | .cflush _ e | .cinv _ e | .pref e | .bar e | .bara e | .barw e | .waita e | .waitc e
  | .barx e | .cpy e | .cpy2 e | .cpyr e | .mldw _ _ e | .mloop e | .mrdy e | .mbatch e | .mwait e
  | .mzero e | .msta _ e | .mlda e | .mrda e | .mwra e | .qnt e | .mfmt e | .gcall e | .gret e | .trap e
  | .tret e | .sigchk e | .reach e | .lnch e | .brk e | .dbgm e | .trc e | .sleep e | .emur e => some e
  | _ => none

/-! ### The checks of R115 -/

/-- Why decode rejects a word (R115, R116); illegal-operand names the operand: 1 D, 2 A, 3 B. -/
inductive DecodeTrap where
  | retired
  | illegalOpcode
  | illegalHint
  | illegalEncoding
  | illegalOperand (n : Nat)
deriving DecidableEq, Repr

/-- Check 3: hint bits [3:0] are zero (R114). -/
def hintOk (e : Enc) : Bool := e.hint.extractLsb' 0 4 == 0

/-- Check 4: the opcode accepts the rounding field (R113). -/
def rndOk (r : RndRule) (e : Enc) : Bool :=
  match r with
  | .f => decide (e.rnd.toNat ≤ 6)
  | .n => decide (e.rnd.toNat ≤ 1)
  | .no => decide (e.rnd.toNat = 0)

/-- Check 5: the guard of a U instruction is GN 0 and GP 15 (R107). -/
def guardOk (f : Form) (e : Enc) : Bool := f.t || (!e.gn && e.gp == 15)

/-- Check 6 of one operand, on the syntax: an unused field is zero, mode 000 has argument 0, and a
packed immediate has [19:16] zero. -/
def zeroBitsOk (p : Pos) (o : Operand) : Bool :=
  match o with
  | .vec _ (.resv 0 _) _ _ => false
  | .imm v => if !p.used then false else p.imm != .packed || decide (v.toNat < 65536)
  | o => p.used || o == .zero

/-- The 40-bit value of a joined immediate (R111). DESIGN CHOICE (log 50): where only one of OPA and OPB is an immediate,
check 6 passes the value, and check 7 refuses the other field. -/
def joinedValue (e : Enc) : Nat :=
  match e.a, e.b with
  | .imm x, .imm y => x.toNat * 2 ^ 20 + y.toNat
  | _, _ => 0

/-- Check 6 of an instruction. -/
def zeroOk (f : Form) (e : Enc) : Bool :=
  zeroBitsOk f.d e.d && zeroBitsOk f.a e.a && zeroBitsOk f.b e.b &&
    (match f.joined with
     | some n => decide (joinedValue e < 2 ^ n)
     | none => true)

/-- A permutation in range (R110). -/
def Perm.ok : Perm → Bool
  | .none => true
  | .bf k => decide (k.toNat ≤ 4)
  | .rot n => decide (1 ≤ n.toNat) && decide (n.toNat ≤ 7)
  | .rev k => decide (1 ≤ k.toNat) && decide (k.toNat ≤ 5)
  | .rep _ => true
  | .resv _ _ => false

/-- Valid indexes of each object class inside the allocation (R112, R60, R62). -/
def objIndexOk (al : Alloc) (wr : Bool) (cls idx : Nat) : Bool :=
  match cls with
  | 0 => decide (idx < 16)
  | 1 => decide (idx < 8)
  | 2 => decide (idx < 16) && decide (idx < al.berths)
  | 3 => decide (idx < 8) && decide (idx < al.tiles)
  | 4 => decide (idx < 8) && decide (idx < al.accs)
  | 5 => decide (idx ≤ 0xD) && (!wr || idx == 0 || idx == 0xB || idx == 0xC)
  | 6 => decide (idx < 256)
  | 7 => decide (idx < 4)
  | _ => false

/-- Check 7 of one operand (R115). -/
def operandOk (al : Alloc) (p : Pos) (o : Operand) : Bool :=
  !p.used || (p.opt && o == .zero) ||
  match o with
  | .vec r pm neg abs =>
    p.vec && pm.ok && (!p.dst || pm == .none) && ((p.fp && !p.dst) || (!neg && !abs)) &&
      decide (r.toNat % p.width = 0) && decide (r.toNat + p.width ≤ al.vregs)
  | .scal r => p.scal && decide (r.toNat % p.block = 0) && decide (r.toNat + p.block ≤ al.sregs)
  | .imm v =>
    match p.imm with
    | .no => false
    | .any => true
    | .packed => true
    | .range lo hi => decide (lo ≤ v.toInt) && decide (v.toInt ≤ hi)
  | .obj c x =>
    match p.cls with
    | some k => c.toNat == k && objIndexOk al p.wr c.toNat x.toNat
    | none => false

/-- Checks 3 to 7 of R115 in order; `raw` says that a must-be-zero bit which the syntax does not hold is
set in the word. -/
def fieldChecks (al : Alloc) (f : Form) (raw : Bool) (e : Enc) : Option DecodeTrap :=
  if !hintOk e then some .illegalHint
  else if !rndOk f.rnd e then some .illegalEncoding
  else if !guardOk f e then some .illegalEncoding
  else if raw || !zeroOk f e then some .illegalEncoding
  else if !operandOk al f.d e.d then some (.illegalOperand 1)
  else if !operandOk al f.a e.a then some (.illegalOperand 2)
  else if !operandOk al f.b e.b then some (.illegalOperand 3)
  else none

/-- An instruction whose fields pass every check under an allocation. -/
def wellFormedIn (al : Alloc) (i : Instr) : Bool :=
  match enc? i with
  | some e => fieldChecks al (form i) false e == none
  | none => true

/-- An instruction whose fields pass every check under the largest allocation. -/
def WellFormed (i : Instr) : Bool := wellFormedIn Alloc.full i

end Sys2Proof
end

