-- ==== Sys2Proof/Decode.lean ====
section
/-! DEFINITION. From the 96-bit word to an instruction and back (R105 to R122): the opcode map, field
extraction, the decode checks in the order of R115, and the encoder. -/

namespace Sys2Proof

/-! ### The opcode map (R119) -/

/-- Consecutive codes: an instruction for each variant of a list, in its order. -/
def row {α : Type} (xs : List α) (f : α → Enc → Instr) : List (Enc → Instr) := xs.map f

def swidths : List SWidth := [.w64, .w32]
def vwidths : List VWidth := [.w32, .w64]
def conds : List Cond := [.eq, .ne, .lt, .le, .gt, .ge, .ltu, .leu, .gtu, .geu]
def fconds : List FCond := [.eq, .ne, .lt, .le, .gt, .ge, .ord, .unord]
def mwidths : List MWidth := [.b8, .b16, .b32, .b64]
def uwidths : List UWidth := [.b8, .b16, .b32]
def ftypes : List FType := [.f32, .f16x2, .bf16x2]
def htypes : List HType := [.f32, .f16, .bf16]
def cvtKinds : List CvtKind :=
  [.f32s32, .f32z32, .s32f32, .z32f32, .f32s64, .s64f32, .f32f16, .f16f32, .f32bf16, .bf16f32, .s32s64,
   .s64s32]
def cvt8Kinds : List Cvt8Kind := [.e4m3f32, .e4m3f32sat, .e5m2f32, .e5m2f32sat, .f32e4m3, .f32e5m2]
def redOps : List RedOp := [.add, .fadd, .min, .max, .minu, .maxu, .and, .or, .xor, .fmin, .fmax]
def ldWidths : List LdWidth := [.s8, .z8, .s16, .z16, .b32, .b64, .b128]
def stWidths : List StWidth := [.b8, .b16, .b32, .b64, .b128]
def atOps : List AtOp := [.add, .min, .max, .and, .or, .xor, .exch, .incwrap, .fadd]
def atOps64 : List AtOp64 := [.add, .min, .max, .and, .or, .xor, .exch]
def atForms : List AtForm := atOps.map .f32 ++ atOps64.map .f64
def shForms : List ShForm := atOps.map .op ++ [.cas]
def scopes : List Scope := [.grp, .team, .clu, .dev, .dom, .sys]
def cscopes : List CScope := [.clu, .dev, .dom, .sys]
def fenceKinds : List FenceKind := [.acq, .rel, .ar]
def fmts : List Fmt := [.fp4, .int8, .e4m3, .e5m2, .bf16, .fp16]
def mstaFmts : List MstaFmt := [.f32, .bf16, .f16]

/-- Pairs in lexicographic order. -/
def pairs {α β : Type} (xs : List α) (ys : List β) : List (α × β) := xs.flatMap fun x => ys.map fun y => (x, y)

/-- Opcodes from 0x000 up (R119). -/
def segScalar : List (Enc → Instr) :=
  [row swidths .sadd, row swidths .ssub, row swidths .smul, row swidths .smulh,
   row swidths .smulhu, row swidths .sdiv, row swidths .sdivu, row swidths .srem,
   row swidths .sremu, row swidths .sand, row swidths .sor, row swidths .sxor, row swidths .sandn,
   row swidths .sshl, row swidths .sshr, row swidths .ssra, row swidths .srol, row swidths .smin,
   row swidths .smax, row swidths .sminu, row swidths .smaxu, row swidths .sclz,
   row swidths .sctz, row swidths .spopc, row swidths .sbrev, row swidths .sbfx,
   row swidths .sbfxu, row swidths .sbfi, [.ssel, .smov, .smovi, .smovh],
   ((pairs conds swidths).map fun x => .scmp x.1 x.2), [.sgetsr, .ssetsr], row mwidths .sld,
   row uwidths .sldu, row mwidths .sst, [.anch]].flatten

/-- Opcodes from 0x080 up (R119). -/
def segControl : List (Enc → Instr) :=
  [[.bra, .brz, .brnz, .brany, .brall, .brnone, .call, .calli],
   [.ret, .jmpi, .loop, .nop, .yield, .exit]].flatten

/-- Opcodes from 0x100 up (R119). -/
def segVector : List (Enc → Instr) :=
  [row vwidths .vadd, row vwidths .vsub,
   [.vmul, .vmulh, .vmulhu, .vmad, .vand, .vor, .vxor, .vandn],
   [.vshl, .vshr, .vsra, .vmin, .vmax, .vminu, .vmaxu, .vclz],
   [.vpopc, .vbfx, .vbfxu, .vbfi, .vsel], row vwidths .vmov, [.vidx]].flatten

/-- Opcodes from 0x180 up (R119). -/
def segFloat : List (Enc → Instr) :=
  [row ftypes .vfadd, row ftypes .vfsub, row ftypes .vfmul, row ftypes .vfma, row ftypes .vfmin,
   row ftypes .vfmax, row ftypes .vfdiv, row ftypes .vfsqrt, row ftypes .vfrcp, row ftypes .vfrsq,
   row ftypes .vfex2, row ftypes .vflg2, row ftypes .vfclass, row cvtKinds .vcvt,
   row cvt8Kinds .vcvt8, [.vpk4, .vupk4]].flatten

/-- Opcodes from 0x200 up (R119). -/
def segPredicate : List (Enc → Instr) :=
  [row conds .vcmp, ((pairs fconds htypes).map fun x => .vfcmp x.1 x.2),
   [.pand, .por, .pxor, .pnot, .pmovs, .psets, .pcnt, .vshfl], [.xswap], row redOps .sred,
   row redOps .vscan].flatten

/-- Opcodes from 0x280 up (R119). -/
def segMemory : List (Enc → Instr) :=
  [row ldWidths .ldv, row stWidths .stv, row ldWidths .ldsh, row stWidths .stsh,
   row atForms .atom, row vwidths .acas, row atForms .atomr, row shForms .atomsh,
   [.bbind, .bunbind, .bflush], ((pairs scopes fenceKinds).map fun x => .fence x.1 x.2),
   [.ifence], row cscopes .cflush, row cscopes .cinv,
   [.pref, .bar, .bara, .barw, .waita, .waitc, .barx]].flatten

/-- Opcodes from 0x300 up (R119). -/
def segMatrix : List (Enc → Instr) :=
  [[.cpy, .cpy2, .cpyr], ((pairs fmts [false, true]).map fun x => .mldw x.1 x.2),
   [.mloop, .mrdy, .mbatch, .mwait, .mzero], row mstaFmts .msta,
   [.mlda, .mrda, .mwra, .qnt, .mfmt]].flatten

/-- Opcodes from 0x380 up (R119). -/
def segSystem : List (Enc → Instr) :=
  [[.gcall, .gret, .trap, .tret, .sigchk, .reach, .lnch, .brk],
   [.dbgm, .trc, .sleep, .emur]].flatten

/-- First code and instructions of each stretch of assigned codes; every other code is unassigned (R122)
or retired (R121). -/
def segments : List (Nat × List (Enc → Instr)) :=
  [(0x000, segScalar), (0x080, segControl), (0x100, segVector), (0x180, segFloat), (0x200, segPredicate), (0x280, segMemory), (0x300, segMatrix), (0x380, segSystem)]

/-- The instruction an assigned opcode selects. -/
def ofOpcode (opc : Nat) : Option (Enc → Instr) :=
  segments.findSome? fun g => if g.1 ≤ opc then g.2[opc - g.1]? else none

/-- The retired word an opcode names (R121). -/
def ofRetired (opc : Nat) (w : IWord) : Option Instr :=
  match opc with
  | 0x170 => some (.vdot4 w)
  | 0x270 => some (.vswz w)
  | 0x2F0 => some (.sbar w)
  | 0x370 => some (.cpyl w)
  | 0x371 => some (.mma16 w)
  | 0x372 => some (.mmac16 w)
  | _ => none

/-- Place of a variant in its list. -/
def place {α : Type} [DecidableEq α] (xs : List α) (x : α) : Nat := xs.idxOf x

/-- The opcode of an instruction (R119); 0x3FF, which is unassigned, for the device's other steps. -/
def opcode : Instr → Nat
  | .sadd w _ => 0x000 + place swidths w
  | .ssub w _ => 0x002 + place swidths w
  | .smul w _ => 0x004 + place swidths w
  | .smulh w _ => 0x006 + place swidths w
  | .smulhu w _ => 0x008 + place swidths w
  | .sdiv w _ => 0x00A + place swidths w
  | .sdivu w _ => 0x00C + place swidths w
  | .srem w _ => 0x00E + place swidths w
  | .sremu w _ => 0x010 + place swidths w
  | .sand w _ => 0x012 + place swidths w
  | .sor w _ => 0x014 + place swidths w
  | .sxor w _ => 0x016 + place swidths w
  | .sandn w _ => 0x018 + place swidths w
  | .sshl w _ => 0x01A + place swidths w
  | .sshr w _ => 0x01C + place swidths w
  | .ssra w _ => 0x01E + place swidths w
  | .srol w _ => 0x020 + place swidths w
  | .smin w _ => 0x022 + place swidths w
  | .smax w _ => 0x024 + place swidths w
  | .sminu w _ => 0x026 + place swidths w
  | .smaxu w _ => 0x028 + place swidths w
  | .sclz w _ => 0x02A + place swidths w
  | .sctz w _ => 0x02C + place swidths w
  | .spopc w _ => 0x02E + place swidths w
  | .sbrev w _ => 0x030 + place swidths w
  | .sbfx w _ => 0x032 + place swidths w
  | .sbfxu w _ => 0x034 + place swidths w
  | .sbfi w _ => 0x036 + place swidths w
  | .ssel _ => 0x038
  | .smov _ => 0x039
  | .smovi _ => 0x03A
  | .smovh _ => 0x03B
  | .scmp c w _ => 0x03C + 2 * place conds c + place swidths w
  | .sgetsr _ => 0x050
  | .ssetsr _ => 0x051
  | .sld w _ => 0x052 + place mwidths w
  | .sldu w _ => 0x056 + place uwidths w
  | .sst w _ => 0x059 + place mwidths w
  | .anch _ => 0x05D
  | .bra _ => 0x080
  | .brz _ => 0x081
  | .brnz _ => 0x082
  | .brany _ => 0x083
  | .brall _ => 0x084
  | .brnone _ => 0x085
  | .call _ => 0x086
  | .calli _ => 0x087
  | .ret _ => 0x088
  | .jmpi _ => 0x089
  | .loop _ => 0x08A
  | .nop _ => 0x08B
  | .yield _ => 0x08C
  | .exit _ => 0x08D
  | .vadd w _ => 0x100 + place vwidths w
  | .vsub w _ => 0x102 + place vwidths w
  | .vmul _ => 0x104
  | .vmulh _ => 0x105
  | .vmulhu _ => 0x106
  | .vmad _ => 0x107
  | .vand _ => 0x108
  | .vor _ => 0x109
  | .vxor _ => 0x10A
  | .vandn _ => 0x10B
  | .vshl _ => 0x10C
  | .vshr _ => 0x10D
  | .vsra _ => 0x10E
  | .vmin _ => 0x10F
  | .vmax _ => 0x110
  | .vminu _ => 0x111
  | .vmaxu _ => 0x112
  | .vclz _ => 0x113
  | .vpopc _ => 0x114
  | .vbfx _ => 0x115
  | .vbfxu _ => 0x116
  | .vbfi _ => 0x117
  | .vsel _ => 0x118
  | .vmov w _ => 0x119 + place vwidths w
  | .vidx _ => 0x11B
  | .vfadd t _ => 0x180 + place ftypes t
  | .vfsub t _ => 0x183 + place ftypes t
  | .vfmul t _ => 0x186 + place ftypes t
  | .vfma t _ => 0x189 + place ftypes t
  | .vfmin t _ => 0x18C + place ftypes t
  | .vfmax t _ => 0x18F + place ftypes t
  | .vfdiv t _ => 0x192 + place ftypes t
  | .vfsqrt t _ => 0x195 + place ftypes t
  | .vfrcp t _ => 0x198 + place ftypes t
  | .vfrsq t _ => 0x19B + place ftypes t
  | .vfex2 t _ => 0x19E + place ftypes t
  | .vflg2 t _ => 0x1A1 + place ftypes t
  | .vfclass t _ => 0x1A4 + place ftypes t
  | .vcvt k _ => 0x1A7 + place cvtKinds k
  | .vcvt8 k _ => 0x1B3 + place cvt8Kinds k
  | .vpk4 _ => 0x1B9
  | .vupk4 _ => 0x1BA
  | .vcmp c _ => 0x200 + place conds c
  | .vfcmp c t _ => 0x20A + 3 * place fconds c + place htypes t
  | .pand _ => 0x222
  | .por _ => 0x223
  | .pxor _ => 0x224
  | .pnot _ => 0x225
  | .pmovs _ => 0x226
  | .psets _ => 0x227
  | .pcnt _ => 0x228
  | .vshfl _ => 0x229
  | .xswap _ => 0x22A
  | .sred r _ => 0x22B + place redOps r
  | .vscan r _ => 0x236 + place redOps r
  | .ldv w _ => 0x280 + place ldWidths w
  | .stv w _ => 0x287 + place stWidths w
  | .ldsh w _ => 0x28C + place ldWidths w
  | .stsh w _ => 0x293 + place stWidths w
  | .atom f _ => 0x298 + place atForms f
  | .acas w _ => 0x2A8 + place vwidths w
  | .atomr f _ => 0x2AA + place atForms f
  | .atomsh f _ => 0x2BA + place shForms f
  | .bbind _ => 0x2C4
  | .bunbind _ => 0x2C5
  | .bflush _ => 0x2C6
  | .fence s k _ => 0x2C7 + 3 * place scopes s + place fenceKinds k
  | .ifence _ => 0x2D9
  | .cflush s _ => 0x2DA + place cscopes s
  | .cinv s _ => 0x2DE + place cscopes s
  | .pref _ => 0x2E2
  | .bar _ => 0x2E3
  | .bara _ => 0x2E4
  | .barw _ => 0x2E5
  | .waita _ => 0x2E6
  | .waitc _ => 0x2E7
  | .barx _ => 0x2E8
  | .cpy _ => 0x300
  | .cpy2 _ => 0x301
  | .cpyr _ => 0x302
  | .mldw f t _ => 0x303 + 2 * place fmts f + (if t then 1 else 0)
  | .mloop _ => 0x30F
  | .mrdy _ => 0x310
  | .mbatch _ => 0x311
  | .mwait _ => 0x312
  | .mzero _ => 0x313
  | .msta f _ => 0x314 + place mstaFmts f
  | .mlda _ => 0x317
  | .mrda _ => 0x318
  | .mwra _ => 0x319
  | .qnt _ => 0x31A
  | .mfmt _ => 0x31B
  | .gcall _ => 0x380
  | .gret _ => 0x381
  | .trap _ => 0x382
  | .tret _ => 0x383
  | .sigchk _ => 0x384
  | .reach _ => 0x385
  | .lnch _ => 0x386
  | .brk _ => 0x387
  | .dbgm _ => 0x388
  | .trc _ => 0x389
  | .sleep _ => 0x38A
  | .emur _ => 0x38B
  | .vdot4 _ => 0x170
  | .vswz _ => 0x270
  | .sbar _ => 0x2F0
  | .cpyl _ => 0x370
  | .mma16 _ => 0x371
  | .mmac16 _ => 0x372
  | _ => 0x3FF

/-! ### Fields (R105) -/

/-- OPC of a word. -/
def opcOf (w : IWord) : Nat := (w.extractLsb' 86 10).toNat

/-- A permutation from its mode and argument fields (R110). -/
def permOf (mode : BitVec 3) (arg : BitVec 5) : Perm :=
  match mode.toNat with
  | 0 => if arg = 0 then .none else .resv 0 arg
  | 1 => .bf arg
  | 2 => .rot arg
  | 3 => .rev arg
  | 4 => .rep arg
  | _ => .resv mode arg

/-- An operand field (R108). -/
def operandOf (f : BitVec 22) : Operand :=
  match (f.extractLsb' 20 2).toNat with
  | 0 => .vec (f.extractLsb' 12 8) (permOf (f.extractLsb' 9 3) (f.extractLsb' 4 5)) (f.getLsbD 3) (f.getLsbD 2)
  | 1 => .scal (f.extractLsb' 13 7)
  | 2 => .imm (f.extractLsb' 0 20)
  | _ => .obj (f.extractLsb' 16 4) (f.extractLsb' 0 16)

/-- A must-be-zero bit that `operandOf` does not keep: vector [1:0], scalar [12:0] (R108). -/
def rawBits (f : BitVec 22) : Bool :=
  match (f.extractLsb' 20 2).toNat with
  | 0 => f.extractLsb' 0 2 != 0
  | 1 => f.extractLsb' 0 13 != 0
  | _ => false

def opdOf (w : IWord) : BitVec 22 := w.extractLsb' 44 22
def opaOf (w : IWord) : BitVec 22 := w.extractLsb' 22 22
def opbOf (w : IWord) : BitVec 22 := w.extractLsb' 0 22

/-- The fields of a word beside its opcode. -/
def encOf (w : IWord) : Enc :=
  { gn := w.getLsbD 85, gp := w.extractLsb' 81 4, rnd := w.extractLsb' 78 3, hint := w.extractLsb' 66 12,
    d := operandOf (opdOf w), a := operandOf (opaOf w), b := operandOf (opbOf w) }

/-- Whether a word has a must-be-zero bit set that the syntax does not hold. -/
def rawOf (w : IWord) : Bool := rawBits (opdOf w) || rawBits (opaOf w) || rawBits (opbOf w)

/-! ### Decode -/

/-- Decode with the checks of R115 in order, under a group's allocation. A retired word is not checked
beyond its opcode. -/
def decodeIn (al : Alloc) (w : IWord) : Except DecodeTrap Instr :=
  match ofRetired (opcOf w) w with
  | some i => .ok i
  | none =>
    match ofOpcode (opcOf w) with
    | none => .error .illegalOpcode
    | some mk =>
      match fieldChecks al (form (mk (encOf w))) (rawOf w) (encOf w) with
      | some t => .error t
      | none => .ok (mk (encOf w))

/-- Decode under the largest allocation. -/
def decode (w : IWord) : Except DecodeTrap Instr := decodeIn Alloc.full w

/-- A 32-bit word from four bytes, little-endian (R6). -/
def word32 (b0 b1 b2 b3 : Byte) : W32 := b3 ++ b2 ++ b1 ++ b0

/-- The 96-bit word that twelve bytes of memory hold (R6, R105). -/
def wordOfBytes (bs : List Byte) : IWord :=
  match bs with
  | [a0, a1, a2, a3, b0, b1, b2, b3, c0, c1, c2, c3] =>
    word32 c0 c1 c2 c3 ++ word32 b0 b1 b2 b3 ++ word32 a0 a1 a2 a3
  | _ => 0

/-- Twelve bytes of a word, the first at the lowest address. -/
def bytesOfWord (w : IWord) : List Byte := (List.range 12).map fun n => w.extractLsb' (8 * n) 8

/-- Decode of twelve bytes; any other number of bytes is no instruction. -/
def decodeBytes (al : Alloc) (bs : List Byte) : Except DecodeTrap Instr :=
  if bs.length = 12 then decodeIn al (wordOfBytes bs) else .error .illegalOpcode

/-! ### Encode -/

/-- Mode and argument fields of a permutation (R110). -/
def Perm.bits : Perm → BitVec 8
  | .none => 0
  | .bf k => 1#3 ++ k
  | .rot n => 2#3 ++ n
  | .rev k => 3#3 ++ k
  | .rep j => 4#3 ++ j
  | .resv m g => m ++ g

/-- The 22-bit field of an operand (R108). -/
def Operand.bits : Operand → BitVec 22
  | .vec r p neg abs => 0#2 ++ r ++ p.bits ++ BitVec.ofBool neg ++ BitVec.ofBool abs ++ 0#2
  | .scal r => 1#2 ++ r ++ 0#13
  | .imm v => 2#2 ++ v
  | .obj c x => 3#2 ++ c ++ x

/-- A word from its opcode and its other fields (R105). -/
def packWord (opc : Nat) (e : Enc) : IWord :=
  BitVec.ofNat 10 opc ++ BitVec.ofBool e.gn ++ e.gp ++ e.rnd ++ e.hint ++ e.d.bits ++ e.a.bits ++ e.b.bits

/-- The word of an instruction; a retired word is itself, and the device's other steps have none. -/
def encode (i : Instr) : Option IWord :=
  match i with
  | .vdot4 w | .vswz w | .sbar w | .cpyl w | .mma16 w | .mmac16 w => some w
  | i => (enc? i).map (packWord (opcode i))

/-- The signature unit of a word (R118): OPC, GN, GP and RH. -/
def unitOf (w : IWord) : BitVec 16 := w.extractLsb' 81 15 ++ BitVec.ofBool (w.getLsbD 77)

/-- The instruction the decoder reads from a word of the opcode table's numbering: bits from `nbits` up
are zero, and the bytes lie as memory holds them (R6). -/
def decodeTableWord (nbits w : Nat) : Option Instr :=
  match decodeBytes Alloc.full (bytesOfWord (BitVec.ofNat 96 (w % 2 ^ nbits))) with
  | .ok i => some i
  | .error _ => none

end Sys2Proof
end

