-- ==== Sys2Proof/Config.lean ====
section
/-! DEFINITION. What the device fixes (R2, R12, R13) and the free values: values the spec leaves
open, held as opaque constants that nothing can evaluate. -/

namespace Sys2Proof.Config

/-- Clusters of the device: 4 dies of 12 (R12). -/
def clusters : Nat := 48
/-- Cores of one cluster (R12). -/
def coresPerCluster : Nat := 8
/-- Cores of the device (R2). -/
def cores : Nat := 384
/-- Group slots of one core (R13). -/
def slotsPerCore : Nat := 64
/-- Vector lines of one lane file (R36). -/
def linesPerLane : Nat := 384
/-- Scalar registers of one scheduler (R36). -/
def scalarsPerScheduler : Nat := 1024
/-- Stash bytes of one core (R13). -/
def stashBytes : Nat := 524288
/-- Entries of one core's pound (R323). -/
def poundEntries : Nat := 512
/-- Physical accumulators of one core (R13). -/
def physAccs : Nat := 24
/-- Capacity of one core's token reservoir (R47). -/
def reservoir : Nat := 256
/-- Wait-monitor entries of one cluster (R51). -/
def waitMonitor : Nat := 512
/-- Trap permits of one core (R343). -/
def trapPermits : Nat := 4
/-- Copy command slots of one core (R13, R239). -/
def copySlots : Nat := 16
/-- Instruction bytes (R106). -/
def instrBytes : Nat := 12
/-- Entries of one core's TLB and table entries its walker holds (R305). -/
def tlbEntries : Nat := 2048
/-- Table entries the walker of one core holds (R305). -/
def walkEntries : Nat := 64
/-- Sectors of a cluster cache of 4 MiB (R2, R14, R15). -/
def cacheSectors : Nat := 32768
/-- Lines of one slice of the shared cache, of 2 MiB (R2, R12, R14). -/
def sliceLines : Nat := 8192
/-- Sets of one slice: lines of one of its 16 ways (R335, R339). -/
def sliceSets : Nat := 512
/-- First physical address above device HBM (R300, R304). -/
def hbmEnd : Nat := 0x6000000000
/-- Bytes of one HBM stack (R300). -/
def stackBytes : Nat := 0xC00000000

/-! ### Free values (R9): some value of the destination's width. -/

/-- The n-th undefined 32-bit value. -/
opaque free32 : Nat → BitVec 32
/-- The n-th undefined 64-bit value. -/
opaque free64 : Nat → BitVec 64
/-- The n-th undefined byte. -/
opaque freeByte : Nat → BitVec 8
/-- The n-th choice the spec leaves open. -/
opaque freeBool : Nat → Bool
/-- The n-th natural number the spec leaves open (a measured quantity). -/
opaque freeNat : Nat → Nat

/-! ### What one part fixes and the spec does not give. -/

/-- Home slice (0 to 15 of its die half rows) of a physical line: a hash of bits [51:8] (R16). -/
opaque sliceHash : Nat → Nat
/-- Check symbol i of RS(68,64) over a codeword's other bytes: the code's generator is not given (R333). -/
opaque checkSymbol : Nat → List (BitVec 8) → BitVec 8
/-- Way (of 16) in which a slice holds a physical line (R335, R339). -/
opaque sliceWay : Nat → Nat
/-- Mesh plane (of 16) of a destination line of memory (R23). -/
opaque planeHash : Nat → Nat
/-- Mesh plane (of 16) of a stash line offset (R23). -/
opaque stashPlane : Nat → Nat
/-- Column of the slice position of a die's row that failed manufacturing test; a value that is no slice column
says that none did (R21). -/
opaque harvested : Nat → Nat → Nat
/-- Which of the minimal moves Thavin enters at boot in a routing table, where there are several: die, router,
index (R25). -/
opaque bootRoute : Nat → Nat → Nat → Nat
/-- RSA-4096 signature of a message with the device attestation key (R367, R374). -/
opaque signature : List Byte → Vector Byte 512
/-- Offsets of the GO and status words in the firmware window of BAR 2 (R373). -/
opaque goOffset : Nat
opaque statusOffset : Nat
/-- Whether a signature verifies under the vendor key (R373). -/
opaque vendorVerifies : List Byte → List Byte → Bool
/-- What follows CLK in an event record that is no sensor's: R330 gives it no class. -/
opaque eventTail : String → BitVec 64 → Nat → Vector Byte 24
/-- The public half of the device attestation key (R374). -/
opaque attestationKey : List Byte
/-- The non-zero code that the boot ROM reports when verification fails (R373). -/
opaque romFailure : List Byte → Nat
/-- Lane-cycle cadence request of a limiter given its measured reading (R361). -/
opaque cadenceRequest : Nat → Nat

/-- Region attribute entry of Thavin's firmware region (R346). -/
opaque firmwareRegion : BitVec 64
/-- Entry PC, in the firmware region, of Thavin's handler for a retired opcode (R346). -/
opaque handlerPc : Nat → BitVec 64
/-- Physical address of the emulation frame of a group slot: core, slot (R346). -/
opaque emulationFrame : Nat → Nat → Nat
/-- Virtual address, in the firmware region, of the emulation frame of a group slot: core, slot (R346). -/
opaque emulationVa : Nat → Nat → BitVec 64
/-- Start, in 64 KiB, of Thavin's image region of a partition's domain (R72, R78): partition, domain. -/
opaque imageRegion : Nat → Nat → Nat

end Sys2Proof.Config
end

