-- ==== Sys2Proof/Machine/State.lean ====
section
/-! DEFINITION. The state of the device: every piece of state the spec names, as plain data, and the
reasons a step can stop. Tables of things that come and go (contexts, launches, teams, groups, reaches)
are lists whose position is the thing's identifier; an entry is never removed, only marked. -/

namespace Sys2Proof.Machine

/-! ### Why a step stops -/

/-- Faults: a rule stops the machine. No rule of the spec does: every access and instruction has an outcome, a
trap or an answer, so the type is empty and no step answers a fault. -/
inductive Fault where
deriving DecidableEq, Repr

/-- Refusals: no meaning for the instruction in this state. -/
inductive Refusal where
  /-- An instruction whose meaning is not written yet, by its mnemonic. Safe: the model stops. -/
  | notModelled (mnemonic : String)
  /-- Raised by an instruction when no group is chosen to execute it (R167: a group executes an
  instruction). Safe: the model stops. -/
  | noGroup
deriving DecidableEq, Repr

/-! ### Memory -/

/-- A sparse memory: (address, byte) pairs with strictly rising addresses and no entry that holds what
an unlisted address reads as. Keys of global memory are `Place.key`. -/
abbrev Memory := List Host.Cell

/-- What an unlisted address reads as (R375: Thavin zero-fills HBM; R140: the stash is zero-filled). -/
def Memory.blank : Byte := 0

/-- The canonical form of a memory. -/
def Memory.wf : Memory → Bool
  | [] => true
  | [(_, b)] => b != Memory.blank
  | (a, b) :: (a', b') :: m => b != Memory.blank && decide (a < a') && Memory.wf ((a', b') :: m)

/-- Where a leaf entry puts a page (R303). -/
inductive Space where
  | hbm
  | host (port : Nat)
  | peer (dev : Nat)
deriving DecidableEq, Repr

/-- Number of a space in the global key of a byte. -/
def Space.code : Space → Nat
  | .hbm => 0
  | .host port => 1 + port
  | .peer dev => 3 + dev

/-- The key of the byte at physical address `pa` of a space: spaces are 2^52 bytes apart (R300). -/
def Space.key (sp : Space) (pa : Nat) : Nat := sp.code * 2 ^ 52 + pa

/-- The space of a key. -/
def Space.ofKey (k : Nat) : Space :=
  match k / 2 ^ 52 with
  | 0 => .hbm
  | n + 1 => if n < 2 then .host n else .peer (n - 2)

/-! ### Registers -/

/-- Permission bits of a leaf (R303). -/
structure Perms where
  r : Bool
  w : Bool
  x : Bool
deriving DecidableEq, Repr

/-- A translation register (R60, R72, R180); `perm` is what the core keeps beside it (R306), none until
the first use after a return has walked its base. -/
structure XReg where
  frame : BitVec 52
  limit : W64
  base : W64
  stale : Bool
  psz : BitVec 3
  space : Space
  perm : Option Perms
deriving DecidableEq, Repr

def XReg.entry : XReg :=
  { frame := 0, limit := 0, base := 0, stale := true, psz := 0, space := .hbm, perm := none }

/-- The trap frame of a group (R286). -/
structure TrapFrame where
  inHandler : Bool
  pc : W64
  s : Vector W64 5
  sp : BitVec 5
  sig : W32
  p14 : W32
  unit : BitVec 16
  /-- class code of the trap, for a synthesised GRET of cause 3 (R285), and its record as s0 to s4 hold it (R286, R287) -/
  cls : Nat
  info : List W64
deriving DecidableEq, Repr

def TrapFrame.empty : TrapFrame :=
  { inHandler := false, pc := 0, s := Vector.replicate 5 0, sp := 0, sig := 0, p14 := 0, unit := 0, cls := 0, info := [] }

/-- A berth table entry (R217). -/
structure Berth where
  base : Nat
  size : Nat
  bound : Bool
  gva : W64
deriving DecidableEq, Repr

def Berth.none : Berth := { base := 0, size := 0, bound := false, gva := 0 }

/-- The registers that a gate call hides and a squash restores (R66, R78). -/
structure Regs where
  s : Vector W64 128
  /-- scalar poison word (R72) -/
  sp : BitVec 128
  v : Vector VReg 256
  /-- vector poison block: bit t is the poison of thread t (R72) -/
  vp : Vector W32 256
  /-- p0 to p14; p15 has no storage (R61) -/
  p : Vector W32 15
  x : Vector XReg 8
  mode : W32
  sig : W32
  eflag : W32
  /-- call stack, innermost return PC first (R183) -/
  calls : List W64
  /-- outermost call-stack entries that lie in the image only (R183) -/
  spilled : Nat
  tf : TrapFrame
  /-- NEXT, the batch word (R256, R273) -/
  next : BitVec 4
  /-- open set: identifiers of sequencer operations (R256) -/
  openSet : List Nat
  /-- berth table of the gate frame; the team's table serves at gate depth 0 (R280) -/
  berths : Vector Berth 16
deriving DecidableEq, Repr

/-- MODE at entry: RM is RNE, all else clear (R39, R63). -/
def modeEntry : W32 := 1

/-- Register state at entry, before s0 and s1 (R39). -/
def Regs.entry : Regs :=
  { s := Vector.replicate 128 0, sp := 0, v := Vector.replicate 256 (Vector.replicate 32 0),
    vp := Vector.replicate 256 0, p := Vector.replicate 15 0, x := Vector.replicate 8 XReg.entry,
    mode := modeEntry, sig := 0, eflag := 0, calls := [], spilled := 0, tf := TrapFrame.empty, next := 0,
    openSet := [], berths := Vector.replicate 16 Berth.none }

/-- An open gate frame (R279): what the caller gets back. -/
structure GateFrame where
  saved : Regs
  retPc : W64
  gate : Nat
  dom : Nat
  ctx : Nat
  entry : GateEntry
  /-- count of the context's completed invalidations at the GCALL (R73) -/
  inval : Nat
  /-- identifiers below this were issued by the caller (R284) -/
  copyMark : Nat
deriving DecidableEq, Repr

/-- A group in emulation of a retired word (R346): its hidden registers and emulation frame (R347). -/
structure Emulation where
  saved : Regs
  dom : Nat
  pc : W64
  word : IWord
  mask : W32
  /-- count of the context's completed invalidations at the entry (R73) -/
  inval : Nat
  /-- a single step is under way, which the retired word is (R395) -/
  stepping : Bool
deriving DecidableEq, Repr

/-- An agent that writes a stash: a group, a copy or a sequencer operation. -/
inductive Src where
  | group (g : Nat)
  | copy (id : Nat)
  | op (id : Nat)
deriving DecidableEq, Repr

/-- What happens-before a point of a program (R148): of each agent named, its stash writes up to a stamp. -/
abbrev Clock := List (Src × Nat)

/-- What a value carries for those who read it (R148): the group that wrote it after a release, or whose copy did, the scope of
the release, and what happened before it. -/
structure Pub where
  by_ : Nat
  scope : Scope
  clk : Clock
deriving DecidableEq, Repr

/-- Everything that a squash restores for a group: program counter, registers and frames (R66, R71), and what
happens-before this point of its program (R148). -/
structure Arch where
  pc : W64
  regs : Regs
  frames : List GateFrame
  dom : Nat
  ctx : Nat
  emu : Option Emulation
  /-- what happens-before this point (R148), and what happened before its last MRDY (R263) -/
  hb : Clock
  rdy : Clock
  /-- what happened before its last release fence of each scope (R148) -/
  rel : List (Scope × Clock)
  /-- what the values that it has read carry, which an acquire takes over (R148) -/
  seen : List Pub
deriving DecidableEq, Repr

/-! ### Accumulators and weight slots -/

/-- An accumulator: elements other than +0.0, keyed by row × 128 + column, keys rising (R60). -/
abbrev Acc := List (Nat × W32)

/-- A weight slot (R60, R257): its macro, latched state and loaded panel. -/
structure WSlot where
  macroNo : Option Nat
  fmt : Option Fmt
  trans : Bool
  /-- format of the codes below, as loaded -/
  cells : Option Fmt
  loading : Bool
  /-- acceptance number of the MLDW that marked it loading (R252, R257) -/
  loadId : Nat
  /-- groups and PCs of squashed MLDWs to it that have yet to execute again: it stays loading (R257) -/
  redo : List (Nat × W64)
  /-- element codes, (k, n) at k × 128 + n (R75) -/
  elems : List Nat
  /-- block scales, block j of column n at 128 j + n -/
  scales : List Nat
  /-- band scales -/
  bands : List (BitVec 16)
  /-- reach of the MLDW that loaded it (R253) -/
  by_ : Option Nat
deriving DecidableEq, Repr

def WSlot.empty : WSlot :=
  { macroNo := none, fmt := none, trans := false, cells := none, loading := false, loadId := 0, redo := [], elems := [], scales := [], bands := [], by_ := none }

/-! ### Groups -/

/-- Group states (R41). -/
inductive GState where | run | wait | replay | halt | done
deriving DecidableEq, Repr

/-- What a group in WAIT waits for (R51). -/
inductive WaitFor where
  | barrier (n : Nat) (phase : W32)
  /-- the BARW wait that a BAR or BARA with PEND set makes first (R232) -/
  | barrierPend (n : Nat) (phase : W32)
  | stashWord (berth off : Nat) (val : W64)
  | counter (c lim : Nat)
  | batch (n : Nat)
  | batchSlot (n : Nat)
  | sleep (until_ : Nat)
  /-- the seal of a returning atomic waits for the group's incomplete fences too (R154) -/
  | sealing (fenced : Bool)
  | xswap (partner : Nat)
deriving DecidableEq, Repr

/-- A wait record (R72) with the time it began and whether it holds a wait-monitor entry (R51). -/
structure Wait where
  what : WaitFor
  since : Nat
  monitor : Bool
deriving DecidableEq, Repr

/-- Trap classes (R340). -/
inductive TrapClass where
  | illegalOpcode | illegalOperand | illegalEncoding | illegalHint | retired | pageFault | permission
  | poison | layout | gateDenied | breakpoint | watchpoint | trap | callStack | doubleFault | watchdog
deriving DecidableEq, Repr

/-- What a trap records (R286). -/
structure TrapInfo where
  cls : TrapClass
  operand : Nat
  imm : Nat
  s2 : W64
deriving DecidableEq, Repr

/-- An entry that made a walk fault (R303, R304): of the region attribute file, by its index, or of a table, by its physical
address. -/
inductive BadEntry where
  | region (n : Nat)
  | table (addr : Nat)
deriving DecidableEq, Repr

/-- A group in REPLAY (R42, R72, R343, R344). -/
structure Replay where
  cls : TrapClass
  va : W64
  /-- whether the group holds a trap permit -/
  permit : Bool
  /-- whether it was a fetch -/
  fetch : Bool
  /-- escalated for want of a handler (R342) -/
  fatal : Bool
  /-- the trap record of such an escalation, as s0 to s4 would hold it (R286, R342) -/
  info : List W64
  /-- the retired word (R346) -/
  word : IWord
  /-- the malformed entry that made a walk fault, where one did (R303) -/
  entry : Option BadEntry
  /-- front-end cycle at which its back-off elapses, when it was refused a permit -/
  backoff : Option Nat
deriving DecidableEq, Repr

/-- A reach of a group (R320): its head's snapshot and what its clearance waits for (R253). -/
structure Reach where
  id : Nat
  /-- snapshot and shadow copy at the head (R66) -/
  snap : Arch
  /-- end time and the W then in force, when it has ended (R319) -/
  ended : Option (Nat × Nat)
  /-- reaches it depends on (R159) -/
  deps : List Nat
  /-- distinct vector registers written (R321) -/
  written : List Nat
  /-- completion time of its last tagged matrix or copy write -/
  lastTag : Nat
  /-- accumulators as they stood before the reach first wrote them (R68) -/
  accPre : List (Nat × Acc × Option Nat)
  /-- incomplete fences of which the reach holds a speculative read (R155) -/
  spec : List Nat
  /-- nothing has executed in it yet -/
  fresh : Bool
  /-- operations of the most recent batch of each number, at the head (R256) -/
  batches : Vector (List Nat) 16
deriving DecidableEq, Repr

/-- A load whose data has not yet been written back (R215, R236). -/
structure PendLoad where
  reach : Nat
  /-- scalar destination, or first vector register and the number of registers -/
  dst : Nat ⊕ (Nat × Nat)
  /-- for each thread that loads: its index, its register values and poison -/
  vals : List (Nat × List W32 × Bool)
  sval : W64
  spoison : Bool
  /-- threads whose bytes come from a peer device, thread 0 for a scalar load (R383) -/
  peers : List Nat
  /-- codewords of device HBM that each of them reads (R333) -/
  cws : List (Nat × List Nat)
deriving DecidableEq, Repr

/-- An incomplete fence of a group (R154). -/
structure FenceRec where
  id : Nat
  scope : Scope
  kind : FenceKind
  /-- the reach the fence opened -/
  reach : Nat
  pc : W64
  /-- pound entries with a lower sequence number are the earlier writes -/
  seq : Nat
  /-- watched bytes of device HBM, each with the reach of its speculative read (R155) -/
  watch : List (Nat × Nat)
  /-- reaches whose watches have fired, for which the rollback is due (R156) -/
  fired : List Nat
deriving DecidableEq, Repr

/-- Where a register line lies (R57, R76): in its group's lane file, in a mooring of a core's lane file, or in the
image. -/
inductive LineAt where
  | cache
  | mooring (core lane : Nat)
  | image
deriving DecidableEq, Repr

/-- A vector line (R65, R67): one register of one group at one gate depth, 5 standing for an emulation. A register with no
line has not been written since its frame began and reads zero (R79). -/
structure Line where
  gid : Nat
  depth : Nat
  reg : Nat
  at_ : LineAt
  /-- the open reach whose first write replaced it: a pre-image (R67) -/
  pre : Option Nat
  /-- front-end cycle of its last use -/
  used : Nat
  /-- the image lags behind it (R70) -/
  dirty : Bool
deriving DecidableEq, Repr

/-- Registers and PC in the image of one gate depth (R72, R78). -/
structure FrameBlock where
  regs : Regs
  pc : W64
deriving DecidableEq, Repr

/-- A group's images as last written, one block for each gate depth (R72, R78): they may lag the cleared state (R70). -/
structure GImage where
  blocks : Vector FrameBlock 5
  /-- open gate frames, outermost first: return PC, gate and domain (R298) -/
  frames : List (W64 × Nat × Nat)
  /-- domain of the innermost frame, or of gate depth 0 -/
  dom : Nat
  live : W32
  st : GState
  held : Option GState
  wait : Option Wait
  replay : Option Replay
  /-- count of the context's completed invalidations when it was written (R73) -/
  inval : Nat
deriving DecidableEq, Repr

/-- A bytewise write of a store entry: key, byte, poison. -/
abbrev ByteWrite := Nat × Byte × Bool

/-- A snoop that is pending at a held sector (R143): the agent whose read it serves, none for a write, an atomic or a recall,
which release the sector; the invalidation that asks for the release (R310); and the reaches that it waits for, those open at
its arrival that had written the sector. -/
structure Snoop where
  reader : Option Reader
  inval : Option Nat
  awaits : List Nat
deriving DecidableEq, Repr

/-- A sector of HBM held by a bound berth (R141, R142). -/
structure Held where
  berth : Nat
  /-- gate frame's group × 8 + depth, or none for the team's own table -/
  frame : Option Nat
  /-- stash address and global address of the sector's first byte -/
  off : Nat
  va : W64
  /-- key of the sector's first byte -/
  key : Nat
  dirty : BitVec 128
  /-- pending snoops, in the order of their arrival (R143) -/
  snoops : List Snoop
  /-- readers whose snoop has been served, a reach opened since its arrival having written the sector anew, and that have yet
  to take the bytes written back (R143) -/
  served : List Reader
  /-- reach in which it was filled -/
  by_ : Option Nat
deriving DecidableEq, Repr

/-- A write-back set on its way (R226, R229, R236). -/
structure WbSet where
  scope : CScope
  ctx : Nat
  reach : Nat
  cleared : Bool
  /-- entries with a lower number are the earlier writes -/
  seq : Nat
  /-- dirty bytes of a berth, as BFLUSH or BUNBIND found them -/
  bytes : List ByteWrite
  /-- a CFLUSH range, a run for each page: address, key and bytes; none: every byte of the context -/
  range : Option (List (W64 × Nat × Nat))
  /-- the held sectors as they were, none for a CFLUSH -/
  held : List Held
deriving DecidableEq, Repr

/-- One thread's access of a returning atomic (R221): `cmp` is the compare value of a cas. -/
structure AtomReq where
  thread : Nat
  key : Nat
  va : W64
  form : AtForm
  v : W64
  cmp : Option W64
deriving DecidableEq, Repr

/-- A returning atomic that has issued and is not yet performed (R158, R223). -/
structure PendAtom where
  pc : W64
  sig0 : W32
  word : IWord
  reg : Nat
  wide : Bool
  reqs : List AtomReq
deriving DecidableEq, Repr

/-- A synthesised GRET that waits for its reaches, copies and berths (R285). -/
structure Synth where
  cause : Nat
  cls : Nat
deriving DecidableEq, Repr

structure Group where
  team : Nat
  gidx : Nat
  /-- slot of the core, its scheduler's number × 16 plus the place in it -/
  slot : Nat
  lane : Nat
  live : W32
  st : GState
  /-- state held before HALT (R42) -/
  held : Option GState
  arch : Arch
  /-- open reaches, oldest first (R320) -/
  reaches : List Reach
  wait : Option Wait
  replay : Option Replay
  /-- consecutive refused permits (R343) -/
  refused : Nat
  loads : List PendLoad
  /-- cld, cst, ccpy, ctile (R236) -/
  cld : Nat
  cst : Nat
  ccpy : Nat
  ctile : Nat
  /-- CFLUSH, BFLUSH and BUNBIND write-back sets on their way, oldest first (R229, R236) -/
  wbsets : List WbSet
  atom : Option PendAtom
  fences : List FenceRec
  /-- consecutive rollbacks on one fence and its PC (R156) -/
  rollbacks : Nat × W64
  /-- operations of the most recent batch of each number (R256) -/
  batches : Vector (List Nat) 16
  /-- PC of a SIGCHK that failed with no reach cleared since (R290) -/
  sigFail : Option W64
  /-- copies counted done (R148) -/
  doneHb : Clock
  /-- contexts whose frames the group has executed in, its own first (R299) -/
  visited : List Nat
  /-- LNCH verdict awaited (R292): the descriptor's address, the LNCH's PC and its sd -/
  verdict : Option (W64 × W64 × Nat)
  synth : Option Synth
  /-- frozen by a double fault (R345) -/
  frozen : Bool
  /-- not ready until this front-end cycle, by YIELD or YLD (R185, R114) -/
  yieldUntil : Nat
  /-- scalar registers whose value a uniform instruction still computes, and the front-end cycle from which they are
  available (R19) -/
  slow : List (Nat × Nat)
  /-- front-end cycle of the last issue or of entering RUN (R45) -/
  lastIssue : Nat
  /-- consecutive front-end cycles ready but not issued (R46) -/
  readyFor : Nat
  promoted : Bool
  /-- denied cycles (R48) -/
  denied : Nat
  /-- a halt has been requested, or a single step is under way (R395) -/
  haltReq : Bool
  stepping : Bool
  /-- the next execution goes without breakpoint matching, without watchpoint matching; this execution goes without the latter
  (R394, R396) -/
  skipIbp : Bool
  skipWatch : Bool
  unwatched : Bool
  /-- a resume executes the BRK at which the group halted once as a no-op (R397) -/
  brkPass : Bool
  /-- trace: previous mask (R398) -/
  prevMask : W32
  /-- its lines are evictable (R53, R56) -/
  evictable : Bool
deriving DecidableEq, Repr

/-! ### Teams and launches -/

/-- Team states (R43). -/
inductive TState where | queued | resident | leavingSwap | leavingPreempt | swapped | preempted | finished
deriving DecidableEq, Repr

/-- A completed phase of a barrier, kept while a reach that made an arrival, a credit or a BARX in it is
open, so that a squash can undo its completion (R234). -/
structure PhaseRec where
  arrived : BitVec 16
  expected : W64
  by_ : List Nat
  arr : List (Nat × Nat)
  clk : List (Nat × Nat × Clock)
deriving DecidableEq, Repr

/-- A barrier of a team (R231). -/
structure Barrier where
  arrived : BitVec 16
  pend : BitVec 16
  phase : W32
  expected : W64
  bytes : W64
  /-- reaches that made an arrival or a BARX in the phase (R234) -/
  by_ : List Nat
  /-- group index and entry number of each arrival: lower-numbered entries are its earlier writes (R232) -/
  arr : List (Nat × Nat)
  /-- reach of each arrival or credit, its scope, and what happens-before it (R148, R246) -/
  clk : List (Nat × Nat × Clock)
  /-- completed phases, newest first -/
  done : List PhaseRec
deriving DecidableEq, Repr

def Barrier.zero : Barrier :=
  { arrived := 0, pend := 0, phase := 0, expected := 0, bytes := 0, by_ := [], arr := [], clk := [], done := [] }

/-- An update of a barrier, as its undo entry records it (R234). -/
inductive BarDelta where
  | arrive (gidx : Nat) (pend : Bool)
  | credit (n : W64)
  | expect (n : W64)
  /-- a departure that cleared PEND of a group -/
  | depart (gidx : Nat)
deriving DecidableEq, Repr

/-- A saved MLOOP (R272). -/
structure Resume where
  /-- identifier of the operation, by which its batch or open set names it -/
  id : Nat
  gid : Nat
  base : Nat
  berth : Option Nat
  ctl : W64
  gidx : Nat
  acc : Nat
  slot : Nat
  batch : Option Nat
  next : Nat
  pc : W64
deriving DecidableEq, Repr

/-- Sequencer operations (R252); `at_` is a stash address, `base` that of the berth's window. -/
inductive SeqKind where
  /-- `again`: the slot was left loading by a squashed MLDW (R257) -/
  | mldw (slot : Nat) (fmt : Fmt) (trans : Bool) (at_ : Nat) (again : Bool)
  | mloop (acc : Nat) (ctl : W64) (slot0 base : Nat)
  | mzero (acc : Nat)
  | msta (acc : Nat) (fmt : MstaFmt) (rm : BitVec 3) (at_ : Nat)
  | mlda (acc : Nat) (at_ : Nat)
deriving DecidableEq, Repr

/-- A sequencer operation as the groups of its team know it (R263, R270): the stash bytes of its panels that were not
ordered before it, whether all of its results are undefined, and whether an MWRA met it. -/
structure OpRec where
  id : Nat
  gid : Nat
  kind : SeqKind
  dirty : List Nat
  whole : Bool
  berth : Option Nat
  mwra : Bool
  /-- its result has since been written over -/
  past : Bool
deriving DecidableEq, Repr

/-- A stash write: its agent and stamp, the open reach to which it belongs, and its bytes (R148). -/
structure WriteRec where
  src : Src
  stamp : Nat
  by_ : Option Nat
  base : Nat
  len : Nat
deriving DecidableEq, Repr

/-- A first touch of a sector through a bound berth, whose fill is on its way (R141): the touching group, the
berth and its frame, the sector's stash address, and its global address. -/
structure Fill where
  gid : Nat
  berth : Nat
  frame : Option Nat
  off : Nat
  va : W64
  /-- key to which the touch translated -/
  key : Nat
  /-- invalidations that have begun since, which release the sector once it is filled (R313) -/
  invals : List Nat
deriving DecidableEq, Repr

/-- A team image as last written (R74, R75). -/
structure TImage where
  st : TState
  berths : Vector Berth 16
  bars : Vector Barrier 8
  /-- cst and ccpy of each group (R74) -/
  counters : List (Nat × Nat)
  resume : List Resume
  slots : Vector WSlot 8
  /-- bytes of each weight slot's area, zeros where the list ends -/
  areas : Vector (List Byte) 8
  accs : Vector Acc 8
  stash : Memory
deriving DecidableEq, Repr

structure Team where
  launch : Nat
  x : Nat
  y : Nat
  z : Nat
  stage : Nat
  st : TState
  /-- core it is or was last resident on -/
  core : Nat
  /-- identifiers of its groups, group 0 first -/
  groups : List Nat
  stash : Memory
  /-- poisoned 4-byte stash words (R219) -/
  stashPoison : List Nat
  /-- reach that last logged each sector (R159) -/
  logged : List (Nat × Nat)
  berths : Vector Berth 16
  bars : Vector Barrier 8
  slots : Vector WSlot 8
  accs : Vector Acc 8
  /-- reach of each accumulator's last writer (R253) -/
  accBy : Vector (Option Nat) 8
  held : List Held
  fills : List Fill
  resume : List Resume
  /-- operations not finished for some group (R270) -/
  undone : List OpRec
  /-- the stash writes by which an operation can tell what was ordered before it (R263), and their counter -/
  wrote : List WriteRec
  tick : Nat
  /-- signal words: the address, the scope of the copy that wrote it, and what happens-before it (R148, R246) -/
  sigs : List (Nat × Nat × Clock)
  /-- what the values of stash bytes carry (R148) -/
  pubs : List (Nat × Pub)
  /-- order of leaving, for R44 -/
  left : Nat
  /-- a swapped team's group would leave WAIT or REPLAY (R53) -/
  returnable : Bool
  image : TImage
deriving DecidableEq, Repr

/-- The fields of a launch descriptor (R32). -/
structure Desc where
  nstage : Nat
  prio : Nat
  groups : Nat
  lastLive : Nat
  part : Nat
  signal : Bool
  gridX : Nat
  gridY : Nat
  gridZ : Nat
  vregs : Nat
  sregs : Nat
  stash : Nat
  berths : Nat
  tiles : Nat
  accs : Nat
  waitLimit : Nat
  arg : W64
  sigAddr : W64
  sigVal : W64
  entries : List W64
deriving DecidableEq, Repr

/-- Where a launch came from (R34). -/
inductive Source where
  | queue (q : Nat)
  | lnch (prio : Nat)
deriving DecidableEq, Repr

/-- An entry of the pairing table (R208): two groups and the pairs completed. -/
structure Pair where
  a : Nat
  b : Nat
  count : Nat
deriving DecidableEq, Repr

structure Launch where
  ctx : Nat
  part : Nat
  desc : Desc
  addr : W64
  src : Source
  prio : Nat
  /-- teams of every stage placed so far: next coordinate's linear index -/
  next : Nat
  teams : List Nat
  pairs : List Pair
  /-- time since which its next team has been unplaced, and whether R38's block is in force -/
  since : Nat
  blocking : Bool
  stopped : Bool
  finished : Bool
  /-- watchdog count in ns (R348) -/
  wd : Nat
deriving DecidableEq, Repr

/-! ### Cores -/

/-- One thread's access of an atomic (R221). -/
structure AtomAcc where
  key : Nat
  form : AtForm
  v : W64
deriving DecidableEq, Repr

/-- A copy command (R237 to R242). A run is a first address or key, and its bytes. -/
structure Copy where
  id : Nat
  gid : Nat
  reach : Nat
  pc : W64
  /-- gate depth and context at issue (R284) -/
  depth : Nat
  ctx : Nat
  /-- whether the issuing reach has cleared -/
  cleared : Bool
  /-- what happens-before it (R148) -/
  hb : Clock
  /-- entries of the group with a lower number are its earlier writes (R160) -/
  seq : Nat
  /-- 0 CPY, 1 CPY2, 2 CPYR -/
  form : Nat
  scope : Nat
  comp : Nat
  /-- source: a team's stash, or none for global keys -/
  src : Option Nat × List (Nat × Nat)
  /-- destinations, likewise -/
  dsts : List (Option Nat × List (Nat × Nat))
  /-- private windows that the copy resolved: team, frame, berth (R227) -/
  windows : List (Nat × Option Nat × Nat)
  /-- bytes as read and not yet written at every destination -/
  payload : List (Byte × Bool)
  /-- CPYR: operation, and the elements not yet performed with their poison -/
  rop : AtForm
  elems : List (AtomAcc × Bool)
  len : Nat
  /-- teams that receive the signal or credit, with the stash address of the signal word -/
  notify : List (Nat × Nat)
  sigKey : Option Nat
  sigVal : W64
  bar : Nat
  /-- payload read (own stash written, staged, or held for the pound); payload visible everywhere; signal performed -/
  landed : Bool
  applied : Bool
  signalled : Bool
  tokens : Nat
  /-- a window was reconfigured: the payload is undefined (R227) -/
  undef : Bool
  /-- the same for the windows of its signal word (R227) -/
  sigWindows : List (Nat × Option Nat × Nat)
  sigUndef : Bool
deriving DecidableEq, Repr

/-- Kinds of pound entry (R323). -/
inductive PKind where
  /-- one sector's bytes; `staged` when also pushed to tagged staging (R326) -/
  | store (sector : Nat) (bytes : List ByteWrite) (staged : Bool)
  /-- words of a partition's mailbox -/
  | mailbox (part : Nat) (ws : List (Nat × W64))
  | atomr (accs : List AtomAcc) (staged : Bool)
  /-- the elements of a CPYR in one sector, which its engine performs -/
  | elements (copy sector : Nat)
  | copyDesc (copy : Nat)
  /-- before-image of the bytes of one sector that the reach wrote, and of their words' poison, each with the number of its
  making -/
  | undoStash (team sector : Nat) (bytes : List (Nat × Byte × Nat)) (poison : List (Nat × Bool × Nat))
  | undoBerth (team idx : Nat) (old : Berth)
  /-- the bytes other than zero of a region that was set to zero, and its poisoned words (R279, R284) -/
  | undoRegion (team : Nat) (bytes : List (Nat × Byte)) (poison : List Nat)
  | undoBarrier (team n : Nat) (phase : W32) (d : BarDelta)
  | retAtom (pc : W64) (vals : List (Nat × W64)) (flags : W32)
  | retLnch (pc : W64) (code : BitVec 8)
  | received (pc : W64) (mask : W32) (v : VReg) (poison : W32)
deriving DecidableEq, Repr

/-- One entry of a core's pound: kind, tag and order (R323). -/
structure PEntry where
  kind : PKind
  gid : Nat
  reach : Nat
  ctx : Nat
  seq : Nat
  cleared : Bool
  /-- store instructions, by number, that the entry carries (cst of R236) -/
  ops : List Nat
  /-- 8-byte unit of a remote atomic's sector whose operand is in error: what it would change is poisoned (R327) -/
  bad : Option Nat
  /-- keys that a later store of the group's own through a bound berth has overwritten, each with that store's reach (R150) -/
  gone : List (Nat × Nat)
  /-- the group's last releases when it was made (R148) -/
  rel : List (Scope × Clock)
deriving DecidableEq, Repr

/-- A started step of an MLOOP that has not entered (R261). -/
structure MStep where
  k : Nat
  macroNo : Nat
  slot : Nat
  reach : Nat
  rows : Nat
  /-- lane cycle at which the step started, or its last row entered -/
  lastAt : Nat
  /-- the next row's toll is paid (R262) -/
  paid : Bool
  /-- the poisoned activation of the step has been told -/
  told : Bool
  /-- step values, rows in order -/
  vals : List (List W32)
deriving DecidableEq, Repr

structure SeqOp where
  id : Nat
  gid : Nat
  team : Nat
  pc : W64
  kind : SeqKind
  /-- reach of its instruction, and the reach it was tagged with at its start (R253) -/
  instrReach : Nat
  tag : Option Nat
  /-- next step to start, and next to enter; each entered step with its reach -/
  next : Nat
  entered : Nat
  steps : List MStep
  enteredBy : List (Nat × Nat)
  /-- its data is moving (R275) -/
  moving : Bool
  complete : Bool
  /-- berth of its stash bytes, and whether undefined values have been made of them (R227, R270) -/
  berth : Option Nat
  undef : Bool
deriving DecidableEq, Repr

/-- A reservation (R47): its group, toll and held tokens. -/
structure Resv where
  gid : Nat
  toll : Nat
  heldTok : Nat
deriving DecidableEq, Repr

/-- A TLB entry (R305). -/
structure TlbEntry where
  ctx : Nat
  /-- first virtual address and bytes of the page -/
  va : Nat
  size : Nat
  leaf : W64
deriving DecidableEq, Repr

/-- A table entry that the walker holds (R305). -/
structure WalkEntry where
  ctx : Nat
  addr : Nat
  entry : W64
deriving DecidableEq, Repr

/-- A 4-byte instruction word that the core holds (R164). -/
structure HeldWord where
  ctx : Nat
  va : Nat
  word : W32
  /-- launches from this number on were accepted after a load into the context and do not use the word (R384) -/
  before : Option Nat
deriving DecidableEq, Repr

/-- A trace packet (R389): type, slot, ICOUNT and fields A, B, C. -/
structure Packet where
  type : Nat
  slot : Nat
  icount : Nat
  a : W64
  b : W64
  c : W64
deriving DecidableEq, Repr

/-- What the trace unit keeps for a group slot (R389, R390): instructions since its last packet, packets since its last SYNC,
the reason of a SYNC that is due at its next issue, and whether a LOSS packet has been written since its last SYNC. -/
structure SlotTrace where
  icount : Nat
  sincePkt : Nat
  syncDue : Option Nat
  afterLoss : Bool
deriving DecidableEq, Repr

def SlotTrace.blank : SlotTrace := { icount := 0, sincePkt := 0, syncDue := none, afterLoss := false }

structure Core where
  free : Nat
  resv : List Resv
  cad : BitVec 16
  /-- front-end cycle from which each lane accepts an instruction (R18) -/
  laneFree : Vector Nat 16
  /-- front-end and lane cycles counted since reset -/
  fe : Nat
  lc : Nat
  tlb : List TlbEntry
  walk : List WalkEntry
  held : List HeldWord
  pound : List PEntry
  copies : List Copy
  ops : List SeqOp
  /-- physical accumulators in the free pool (R68) -/
  accFree : Nat
  /-- groups that hold a trap permit (R343) -/
  permits : List Nat
  /-- lane cycle from which the step-entry unit is free (R261), and the sequencer's tokens paid -/
  entryFree : Nat
  moved : Nat
  /-- ring fraction carried between deliveries (R370), numerator over the rate's denominator -/
  ringAcc : Nat
  /-- lane cycles to which the ring has brought its tokens (R370) -/
  fed : Nat
  /-- tokens spent in this interval, by context (R359), and by ballast -/
  spent : List (Nat × Nat)
  ballast : Nat
  /-- registers TRCCTL and TRCPTR (R388), dropped packets, time base of TSD (R389) -/
  trcctl : W64
  trcptr : W64
  dropped : Nat
  lossDue : Bool
  tsdBase : Nat
  tsdWrote : Bool
  slots : Vector SlotTrace 64
  /-- no new team is placed here (R317) -/
  outOfService : Bool
  /-- issue is stopped for a ratio change (R20) -/
  paused : Bool
  /-- front-end cycle from which the core re-examines its waiting groups again (R51) -/
  recheckAt : Nat
deriving DecidableEq, Repr

/-- A byte of a cluster-cache sector (R145): its value and whether it is dirty. -/
structure CByte where
  val : Byte
  dirty : Bool
deriving DecidableEq, Repr

/-- A sector of a cluster cache (R145). An absent byte is invalid. -/
structure CSector where
  /-- key of its first byte -/
  key : Nat
  bytes : Vector (Option CByte) 128
  /-- poison bit per 4-byte word (R332) -/
  poison : W32
  tag : Nat
  shared : Bool
  /-- context that last wrote to it (R335) -/
  writer : Nat
deriving DecidableEq, Repr

/-- Lane-to-front-end ratios (R17). -/
inductive Ratio where | half | one | two
deriving DecidableEq, Repr

structure Cluster where
  ratio : Ratio
  /-- requested ratio, for the next interval boundary (R364) -/
  ratioReq : Option Ratio
  /-- ratio being changed to: the interval boundary has come and issue is stopped (R20) -/
  target : Option Ratio
  cache : List CSector
deriving DecidableEq, Repr

/-- A ratio change is under way (R20). -/
def Cluster.changing (c : Cluster) : Bool := c.target.isSome

/-! ### Contexts, partitions, queues -/

/-- A debug block (R393): the 8-byte words at offsets 0x00 to 0xA0. -/
abbrev DebugBlock := Vector W64 21

structure Ctx where
  resident : Bool
  part : Nat
  dom : Nat
  regions : Vector W64 16
  trapBase : W64
  wdlim : Nat
  debug : DebugBlock
  kernels : List KernelRec
  /-- signature tables of the loaded kernels: first instruction, and address of the table (R134) -/
  sigblocks : List (W64 × W64)
  /-- invalidations of the context that have completed (R73) -/
  inval : Nat
deriving DecidableEq, Repr

def Ctx.absent : Ctx :=
  { resident := false, part := 0, dom := 0, regions := Vector.replicate 16 0, trapBase := 0, wdlim := 0,
    debug := Vector.replicate 21 0, kernels := [], sigblocks := [], inval := 0 }

/-- The five categories of energy (R365), in nJ. -/
structure Energy where
  coreDyn : Nat
  coreStatic : Nat
  hbm : Nat
  fabric : Nat
  idle : Nat
deriving DecidableEq, Repr

def Energy.zero : Energy := { coreDyn := 0, coreStatic := 0, hbm := 0, fabric := 0, idle := 0 }

/-- Counters of one series of energy snapshots (R366 to R368). -/
structure EnergyAcct where
  total : Energy
  /-- counters at the start of the current snapshot interval -/
  mark : Energy
  start : Nat
  /-- sequence number of the next snapshot -/
  seq : Nat
  fresh : Bool
  restart : Bool
deriving DecidableEq, Repr

def EnergyAcct.zero : EnergyAcct :=
  { total := Energy.zero, mark := Energy.zero, start := 0, seq := 0, fresh := true,
    restart := false }

/-- Status, and the answer, of the last command of a function (R380). -/
structure CmdReply where
  fn : Fn
  seq : Nat
  status : Nat
  data : List Byte
deriving DecidableEq, Repr

structure Part where
  /-- port that owns the partition (R372) -/
  owner : Nat
  qwin : BitVec 11
  /-- gate-table entries that are not all zero (R277) -/
  gates : List (Nat × GateEntry)
  mailbox : Vector W64 8
  energy : EnergyAcct
  /-- event counters of classes 1 to 5 (R330) -/
  events : Vector W64 5
  /-- closed to launches until its counters resume (R368, R376) -/
  closed : Bool
deriving DecidableEq, Repr

/-- Gate-table entry of all zeros, which is not VALID (R277). -/
def GateEntry.zero : GateEntry :=
  { entry := 0, callers := 0, tdom := 0, nspass := 0, nvpass := 0, nsres := 0, nvres := 0, scrub := 0,
    nberth := 0, resv17 := 0, allow := 0, resvZero := true }

def Part.fresh (owner : Nat) : Part :=
  { owner := owner, qwin := 0x60, gates := [], mailbox := Vector.replicate 8 0, energy := EnergyAcct.zero,
    events := Vector.replicate 5 0, closed := false }

/-- A hardware queue (R377 to R379). -/
structure Queue where
  assigned : Bool
  ctx : Nat
  part : Nat
  prio : Nat
  k : Nat
  ring : W64
  resident : Bool
  /-- live copies -/
  head : BitVec 16
  tail : BitVec 16
  /-- saved copies -/
  savedHead : BitVec 16
  savedTail : BitVec 16
  code : BitVec 8
  rejidx : BitVec 16
  resetFlag : Bool
  /-- entries of each QTAIL write not yet consumed and the time of the write, oldest first (R379) -/
  stamps : List (Nat × Nat)
  /-- a wait entry under way: word address and threshold (R378) -/
  waiting : Option (W64 × W64)
  /-- a write entry under way: word address, value -/
  writing : Option (W64 × W64)
deriving DecidableEq, Repr

def Queue.absent : Queue :=
  { assigned := false, ctx := 0, part := 0, prio := 0, k := 4, ring := 0, resident := false, head := 0,
    tail := 0, savedHead := 0, savedTail := 0, code := 0, rejidx := 0, resetFlag := false, stamps := [],
    waiting := none, writing := none }

/-- A pending invalidation (R310). -/
structure Inval where
  ctx : Nat
  va : W64
  /-- none: all of the context's mappings -/
  size : Option Nat
  /-- function whose command asked for it, and the command's sequence number (R380) -/
  fn : Option (Fn × Nat)
  /-- once the cores have dropped what they held of the old entry: entries and operations with lower numbers may have
  used it -/
  mark : Option (Nat × Nat)
  /-- the retired page for which Thavin asks, and the context that ended with it (R335, R339) -/
  page : Option (Nat × Nat)
  done : Bool
deriving DecidableEq, Repr

/-! ### Mesh, slices, sensors, power, firmware -/

/-- Place of a router on a die (R21, R22). -/
inductive RouterAt where
  | grid (row col : Nat)
  | edge (n : Nat)
deriving DecidableEq, Repr

/-- A destination of a packet: die and grid position (R25), and the local port there (R21: 0 the cluster cache or the
slice, 1 + c core c of the cluster); or the edge router (2 or 3) that is joined there (R22). -/
structure Dest where
  die : Nat
  row : Nat
  col : Nat
  port : Nat
  edge : Option Nat
deriving DecidableEq, Repr

/-- A flit in the mesh, latched at a router (R24, R28). -/
structure Flit where
  id : Nat
  /-- context whose traffic it carries -/
  ctx : Nat
  /-- reach tag (R29) -/
  tag : Option Nat
  die : Nat
  at_ : RouterAt
  plane : Nat
  /-- input port by which it came: 0 local, 1 north, 2 south, 3 east, 4 west, 6 edge, 7 transit channel -/
  inp : Nat
  dests : List Dest
  /-- mesh steps since it entered -/
  age : Nat
  /-- it waits in the router's multicast holding slot -/
  holding : Bool
deriving DecidableEq, Repr

/-- A router with its routing table (R25). `failed`: it has failed, or it is harvested and powered off (R21). -/
structure Router where
  die : Nat
  at_ : RouterAt
  table : Vector (BitVec 4) 64
  failed : Bool
deriving DecidableEq, Repr

/-- A line of the shared cache with dirty sectors, marked by a bit each (R14), and its owner tag (R335). -/
structure OwnedLine where
  line : Nat
  owner : Nat
  dirty : BitVec 2
deriving DecidableEq, Repr

/-- A sector in a slice's tagged staging (R326). -/
structure Staged where
  slice : Nat
  reach : Nat
  seq : Nat
  /-- key of the sector, cluster from which it came, and context -/
  sec : Nat
  cluster : Nat
  ctx : Nat
deriving DecidableEq, Repr

/-- A retry under way on a plane in one direction of a link (R29): how often, whether it takes this step, and the flit. -/
structure LinkRetry where
  link : Nat
  plane : Nat
  tries : Nat
  busy : Bool
  flit : Option Nat
deriving DecidableEq, Repr

/-- A disabled sensor (R317): class 1 strike, 2 droop, 3 clock; cluster, core and index. -/
structure SensorId where
  cls : Nat
  cluster : Nat
  core : Nat
  index : Nat
deriving DecidableEq, Repr

/-- What a host or Thavin receives (R284, R330, R341, R349, R367, R371). -/
inductive Record where
  | event (te cls index die cluster zone squashed restarted : Nat)
  /-- another event record: time, partition, kind and what it concerns -/
  | other (te : Nat) (part : Option Nat) (what : String) (addr : W64) (key : Nat)
  /-- a trap record, as s0 to s4 would hold it (R286, R342); the two of a double fault (R345) -/
  | trap (g : Nat) (info : List W64)
  | doubleFault (g : Nat) (first second : List W64)
  | terminated (ctx : Nat)
  | completionFault (desc sigAddr : W64) (cls : TrapClass)
  | watchdog (desc : W64) (count : Nat)
  | synth (g gate depth cause : Nat)
  | pageFault (g : Nat) (va : W64) (entry : Option BadEntry)
  | snapshot (part : Nat) (bytes sig : List Byte)
  | msix (fn : Fn) (vector : Nat)
  /-- a request that a function's port answers with Unsupported Request (R372) -/
  | unsupported (fn : Fn)
  /-- answer to an access from outside: its address, data and whether they are poisoned (R336, R383) -/
  | reply (dev : Nat) (addr : Nat) (data : List Byte) (poisoned : Bool)
  | routerFault (die router : Nat)
  | survey (data : List Byte) (incomplete reset : Bool)
  | zoneOut (cls cluster core : Nat)
  | controlCheck (g : Nat) (pc : W64) (entry : Option (W32 × W32))
deriving DecidableEq, Repr

/-- A generation in a checkpoint slot of this device (R351). -/
structure CkptSlot where
  head : CkptHead
  index : Nat
  teams : List Team
  groups : List Group
  launches : List (Nat × Launch)
  teamIds : List Nat
  groupIds : List Nat
  /-- counts of completed invalidations in the groups' images (R73) -/
  invals : List Nat
  ranges : List (Nat × List Byte)
  /-- the checkpoint's bytes, and the units of them that lie on this device -/
  data : List Byte
  units : List (List Byte)
  header : Option (List Byte)
deriving DecidableEq, Repr

/-- Progress of a checkpoint or its slots, per partition (R350). -/
structure CkptState where
  part : Nat
  slots : Vector (Option CkptSlot) 2
  pending : Option CkptArgs
  /-- the command under way: its function and its sequence number (R380) -/
  cmd : Option (Fn × Nat)
  /-- requests that wait for the generation before them to be sealed, with their commands, oldest first -/
  waiting : List (CkptArgs × Fn × Nat)
deriving DecidableEq, Repr

/-- Power state of the device (R373). -/
inductive Firmware where | off | rom | thavin
deriving DecidableEq, Repr

/-- The power controller (R357 to R363). -/
structure Power where
  pcap : W32
  pcapReq : Option W32
  /-- injection rate in tokens per front-end cycle per core: numerator over denominator -/
  rateNum : Nat
  rateDen : Nat
  interval : Nat
  throttled : Bool
  /-- spend of each die in the previous interval, and its consecutive intervals of ballast above P (R363) -/
  prevSpend : Vector Nat 4
  ballastRun : Vector Nat 4
  /-- the cap or a limit governs a die's ballast in this interval -/
  ballastOff : Vector Bool 4
  /-- highest sequence number of a snapshot emitted since power-up, for each partition index (R368) -/
  emitted : Vector (Option Nat) 8
deriving DecidableEq, Repr

/-- An XSWAP that has issued and waits for its pair (R206): sender, partner word, mask, captured register with its
poison, destination register and signature unit. -/
structure Send where
  gid : Nat
  partner : Nat
  mask : W32
  v : VReg
  poison : W32
  reg : Nat
  unit : BitVec 16
deriving DecidableEq, Repr

/-- Errors that a step meets in what it reads: codewords of HBM, each with the number of its code symbols in error (R333), the threads of a
register that were found in uncorrectable error (R65, R77), stash words that were, by team and number (R219, R332), sectors
whose end-to-end CRC does not match (R336), 4-byte words of cluster caches that were, by cluster and key / 4 (R332), and lines of
the shared cache that were as a way was drained (R339). -/
structure Errors where
  words : List (Nat × Nat)
  threads : W32
  stash : List (Nat × Nat) := []
  sectors : List Nat := []
  cached : List (Nat × Nat) := []
  lines : List Nat := []
deriving DecidableEq, Repr

def Errors.none : Errors := { words := [], threads := 0 }

/-- A stimulus: reference nanoseconds that pass, then a step of the device that comes about, with the errors that it meets. -/
structure Stim where
  dt : Nat
  ev : Instr
  ecc : Errors := .none
deriving DecidableEq, Repr

/-- The device. -/
structure State where
  /-- CLK: reference nanoseconds since device reset (R63) -/
  clk : Nat
  fw : Firmware
  /-- boot ROM's status word (R373) -/
  romStatus : Nat
  imageDigest : List Byte
  link0 : Bool
  link1 : Bool
  /-- device-owner port (R372) -/
  ownerPort : Nat
  /-- index in the load-store domain (R383) -/
  domIndex : Option Nat
  /-- next identifiers; reach 0 is none's -/
  nextReach : Nat
  nextSeq : Nat
  nextId : Nat
  /-- the model's counter of free values drawn -/
  freeCtr : Nat
  /-- steps of the device that come about next, in order -/
  agenda : List Stim
  /-- errors that the step under way meets -/
  ecc : Errors
  /-- for each scheduler about to issue, its candidates in the order of R46 -/
  selected : List (List Nat)
  /-- the group that executes -/
  cur : Nat
  /-- bytes at their points of coherence (R138), keyed by space and physical address -/
  mem : Memory
  /-- poisoned codewords: key / 64 (R334) -/
  poison : List Nat
  groups : List Group
  /-- the groups' images, and their vector lines (R65 to R72) -/
  images : List GImage
  lines : List Line
  teams : List Team
  launches : List Launch
  cores : List Core
  clusters : List Cluster
  ctxs : List Ctx
  parts : List Part
  queues : List Queue
  invals : List Inval
  routers : List Router
  flits : List Flit
  /-- die, router, plane, output, and the input port last granted it (R24) -/
  meshTurns : List (Nat × Nat × Nat × Nat × Nat)
  droppedFlits : Nat
  /-- retries on the die links (R29): direction l of link l leads to the die of the higher number, 4 + l back -/
  linkRetries : List LinkRetry
  owned : List OwnedLine
  staged : List Staged
  retiredWays : List (Nat × Nat)
  retiredPages : List Nat
  /-- corrected-error counter of each HBM stack (R333) -/
  corrected : Vector Nat 8
  sensorsOff : List SensorId
  records : List Record
  replies : List CmdReply
  /-- other host registers, by function and BAR 0 offset (R8) -/
  hostRegs : List (Fn × BarAddr × W64)
  power : Power
  ownerEnergy : EnergyAcct
  ckpts : List CkptState
  /-- XSWAP sends captured (R206) -/
  sends : List Send
  /-- what the values of global bytes carry, by key (R148) -/
  pubs : List (Nat × Pub)
  /-- survey requests waiting for cores to flush (R381) -/
  surveys : List (Fn × SurveyObj × List Nat × Bool)
  /-- bytes that each context read and wrote in each HBM stack in this interval (R365): context, stack, number -/
  traffic : List (Nat × Nat × Nat)
  /-- flit-hops of each context's traffic on each die: context, die, number -/
  hops : List (Nat × Nat × Nat)
  /-- group slots occupied × ns in each cluster: context, cluster, number -/
  slotNs : List (Nat × Nat × Nat)
deriving DecidableEq, Repr

/-! ### Reset -/

def Core.reset : Core :=
  { free := 0, resv := [], cad := 0, laneFree := Vector.replicate 16 0, fe := 0, lc := 0, tlb := [],
    walk := [], held := [], pound := [], copies := [], ops := [], accFree := 24, permits := [],
    entryFree := 0, moved := 0, ringAcc := 0, fed := 0, spent := [], ballast := 0, trcctl := 0, trcptr := 0,
    dropped := 0, lossDue := false, tsdBase := 0, tsdWrote := false, slots := Vector.replicate 64 SlotTrace.blank, outOfService := false,
    paused := false, recheckAt := 0 }

def Cluster.reset : Cluster := { ratio := .two, ratioReq := none, target := none, cache := [] }

/-- PCAP at reset: CAP is 1,800 W, BOOSTEN is 0 (R359). -/
def Power.reset : Power :=
  { pcap := 1800, pcapReq := none, rateNum := 2, rateDen := 1, interval := 0, throttled := false,
    prevSpend := Vector.replicate 4 0, ballastRun := Vector.replicate 4 0, ballastOff := Vector.replicate 4 false
    emitted := Vector.replicate 8 none }

/-- Column of a die's row that is harvested (R21). -/
def harvestedColumn (die row : Nat) : Nat :=
  let c := Config.harvested die row
  if c < 12 ∧ c % 4 ≠ 1 then c else 11

/-- Place of router n of a die: 0 to 47 the grid, 48 to 51 the edges, 52 the transit channel (R21, R22). -/
def routerPlace (n : Nat) : RouterAt := if n < 48 then .grid (n / 12) (n % 12) else .edge (n - 48)

/-- The routers of the device before Thavin writes their tables: the harvested ones are powered off (R21). -/
def blankRouters : List Router :=
  (List.range 212).map fun i =>
    let n := i % 53
    { die := i / 53, at_ := routerPlace n, table := Vector.replicate 64 0
      failed := decide (n < 48) && decide (n % 12 = harvestedColumn (i / 53) (n / 12)) }

/-- The device right after reset: without power-up its ROM has not run and no firmware is present (R373). -/
def State.reset : State :=
  { clk := 0, fw := .off, romStatus := 0, imageDigest := [], link0 := false, link1 := false,
    ownerPort := 0, domIndex := none, nextReach := 1, nextSeq := 0, nextId := 0, freeCtr := 0,
    agenda := [], ecc := .none, selected := [], cur := 0, mem := [], poison := [], groups := [], images := [], lines := [], teams := [],
    launches := [], cores := List.replicate Config.cores Core.reset,
    clusters := List.replicate Config.clusters Cluster.reset, ctxs := List.replicate 64 Ctx.absent,
    parts := [], queues := List.replicate 64 Queue.absent, invals := [], routers := blankRouters, flits := [],
    meshTurns := [], droppedFlits := 0, linkRetries := [], owned := [], staged := [], retiredWays := [],
    retiredPages := [], corrected := Vector.replicate 8 0, sensorsOff := [], records := [],
    replies := [], hostRegs := [], power := Power.reset, ownerEnergy := EnergyAcct.zero, ckpts := [],
    sends := [], pubs := [], surveys := [], traffic := [], hops := [], slotNs := [] }

end Sys2Proof.Machine
end

