-- ==== Sys2Proof/Machine/Mem.lean ====
section
/-! DEFINITION. Operations on a sparse memory and on little-endian values (R6), and the accessors by
which every meaning reads and changes the tables of the state. -/

namespace Sys2Proof.Machine

/-! ### Sparse memory -/

/-- The byte at an address. -/
def Memory.read : Memory → Nat → Byte
  | [], _ => Memory.blank
  | (k, b) :: m, a => if k = a then b else Memory.read m a

/-- Write one byte, keeping the canonical form. -/
def Memory.write : Memory → Nat → Byte → Memory
  | [], a, v => if v = Memory.blank then [] else [(a, v)]
  | (k, b) :: m, a, v =>
    if a < k then (if v = Memory.blank then (k, b) :: m else (a, v) :: (k, b) :: m)
    else if a = k then (if v = Memory.blank then m else (a, v) :: m)
    else (k, b) :: Memory.write m a v

/-- Write consecutive bytes. -/
def Memory.writeBytes (m : Memory) (a : Nat) : List Byte → Memory
  | [] => m
  | b :: bs => Memory.writeBytes (m.write a b) (a + 1) bs

/-- Read consecutive bytes. -/
def Memory.readBytes (m : Memory) (a n : Nat) : List Byte := (List.range n).map fun i => m.read (a + i)

/-- Write bytes at their own addresses, in order. -/
def Memory.writeAll (m : Memory) : List (Nat × Byte) → Memory
  | [] => m
  | (a, b) :: ws => Memory.writeAll (m.write a b) ws

/-! ### Little-endian values (R6) -/

def leNat : List Byte → Nat
  | [] => 0
  | b :: bs => b.toNat + 256 * leNat bs

def bytesLE : Nat → Nat → List Byte
  | 0, _ => []
  | n + 1, v => BitVec.ofNat 8 (v % 256) :: bytesLE n (v / 256)

def w32Of (bs : List Byte) : W32 := BitVec.ofNat 32 (leNat bs)
def w64Of (bs : List Byte) : W64 := BitVec.ofNat 64 (leNat bs)

/-- First byte of the 128-byte sector that holds a byte (R14). -/
def sectorOf (k : Nat) : Nat := k / 128 * 128

/-- Distinct elements, first occurrences kept. -/
def distinct (xs : List Nat) : List Nat :=
  xs.foldl (fun acc x => if acc.contains x then acc else acc ++ [x]) []

/-! ### Blank table entries: what a table reads as where it has no entry -/

def Desc.blank : Desc :=
  { nstage := 1, prio := 0, groups := 1, lastLive := 32, part := 0, signal := false, gridX := 1, gridY := 1,
    gridZ := 1, vregs := 8, sregs := 16, stash := 0, berths := 0, tiles := 0, accs := 0, waitLimit := 0,
    arg := 0, sigAddr := 0, sigVal := 0, entries := [] }

def Launch.fresh (ctx part : Nat) (d : Desc) (addr : W64) (src : Source) (prio now : Nat) : Launch :=
  { ctx := ctx, part := part, desc := d, addr := addr, src := src, prio := prio, next := 0, teams := [],
    pairs := [], since := now, blocking := false, stopped := false, finished := false, wd := 0 }

/-- A team at placement (R39): zero-filled stash, unconfigured berths, no latched slot, accumulators +0.0. -/
def Team.fresh (launch x y z stage core : Nat) : Team :=
  { launch := launch, x := x, y := y, z := z, stage := stage, st := .resident, core := core, groups := [],
    stash := [], stashPoison := [], logged := [], berths := Vector.replicate 16 Berth.none,
    bars := Vector.replicate 8 Barrier.zero, slots := Vector.replicate 8 WSlot.empty,
    accs := Vector.replicate 8 [], accBy := Vector.replicate 8 none, held := [], fills := [], resume := [], undone := [],
    wrote := [], tick := 0, sigs := [], pubs := [], left := 0,
    returnable := false
    image := { st := .resident, berths := Vector.replicate 16 Berth.none, bars := Vector.replicate 8 Barrier.zero, counters := []
               resume := [], slots := Vector.replicate 8 WSlot.empty, areas := Vector.replicate 8 [], accs := Vector.replicate 8 []
               stash := [] } }

def Arch.entry (pc : W64) (dom ctx : Nat) : Arch :=
  { pc := pc, regs := Regs.entry, frames := [], dom := dom, ctx := ctx, emu := none,
    hb := [], rdy := [], rel := [], seen := [] }

/-- A group at placement (R39), its image holding the entry state. -/
def Group.fresh (team gidx slot lane : Nat) (live : W32) (a : Arch) : Group :=
  { team := team, gidx := gidx, slot := slot, lane := lane, live := live, st := .run, held := none, arch := a,
    reaches := [], wait := none, replay := none, refused := 0, loads := [], cld := 0, cst := 0, ccpy := 0,
    ctile := 0, wbsets := [], atom := none, fences := [], rollbacks := (0, 0), batches := Vector.replicate 16 [],
    sigFail := none, doneHb := [], visited := [a.ctx], verdict := none, synth := none, frozen := false, yieldUntil := 0, lastIssue := 0,
    readyFor := 0, promoted := false, denied := 0, haltReq := false, stepping := false, skipIbp := false, skipWatch := false, unwatched := false, brkPass := false,
    slow := [], prevMask := live, evictable := false }

/-- An image area in which nothing has been written: zeros (R72). -/
def FrameBlock.zero : FrameBlock := { regs := { Regs.entry with mode := 0 }, pc := 0 }

/-- Image of a group at placement (R39, R72). -/
def GImage.fresh (live : W32) (a : Arch) : GImage :=
  { blocks := (Vector.replicate 5 FrameBlock.zero).set 0 { regs := a.regs, pc := a.pc }, frames := [], dom := a.dom, live := live, st := .run
    held := none, wait := none, replay := none, inval := 0 }

/-! ### Table accessors -/

namespace State

def grp (s : State) (g : Nat) : Group := s.groups[g]?.getD (Group.fresh 0 0 0 0 0 (Arch.entry 0 0 0))
def img (s : State) (g : Nat) : GImage := s.images[g]?.getD (GImage.fresh 0 (Arch.entry 0 0 0))
def tm (s : State) (t : Nat) : Team := s.teams[t]?.getD (Team.fresh 0 0 0 0 0 0)
def lch (s : State) (l : Nat) : Launch :=
  s.launches[l]?.getD (Launch.fresh 0 0 Desc.blank 0 (.queue 0) 0 0)
def cor (s : State) (c : Nat) : Core := s.cores[c]?.getD Core.reset
def clu (s : State) (c : Nat) : Cluster := s.clusters[c]?.getD Cluster.reset
def cx (s : State) (c : Nat) : Ctx := s.ctxs[c]?.getD Ctx.absent
def prt (s : State) (p : Nat) : Part := s.parts[p]?.getD (Part.fresh 0)
def que (s : State) (q : Nat) : Queue := s.queues[q]?.getD Queue.absent

def modG (s : State) (g : Nat) (f : Group → Group) : State := { s with groups := s.groups.modify g f }
def modImg (s : State) (g : Nat) (f : GImage → GImage) : State := { s with images := s.images.modify g f }
def modT (s : State) (t : Nat) (f : Team → Team) : State := { s with teams := s.teams.modify t f }
def modL (s : State) (l : Nat) (f : Launch → Launch) : State := { s with launches := s.launches.modify l f }
def modC (s : State) (c : Nat) (f : Core → Core) : State := { s with cores := s.cores.modify c f }
def modCl (s : State) (c : Nat) (f : Cluster → Cluster) : State := { s with clusters := s.clusters.modify c f }
def modX (s : State) (c : Nat) (f : Ctx → Ctx) : State := { s with ctxs := s.ctxs.modify c f }
def modP (s : State) (p : Nat) (f : Part → Part) : State := { s with parts := s.parts.modify p f }
def modQ (s : State) (q : Nat) (f : Queue → Queue) : State := { s with queues := s.queues.modify q f }
def record (s : State) (r : Record) : State := { s with records := s.records ++ [r] }

/-- Change a group's architected registers. -/
def modR (s : State) (g : Nat) (f : Regs → Regs) : State :=
  s.modG g fun x => { x with arch := { x.arch with regs := f x.arch.regs } }

/-- The team of a group, its core, cluster, launch, descriptor, and allocation (R60, R62, R280). -/
def teamOf (s : State) (g : Nat) : Team := s.tm (s.grp g).team
def coreOf (s : State) (g : Nat) : Nat := (s.teamOf g).core
def clusterOf (s : State) (g : Nat) : Nat := s.coreOf g / 8
def launchOf (s : State) (g : Nat) : Nat := (s.teamOf g).launch
def descOf (s : State) (g : Nat) : Desc := (s.lch (s.launchOf g)).desc
def regsOf (s : State) (g : Nat) : Regs := (s.grp g).arch.regs
def depthOf (s : State) (g : Nat) : Nat := (s.grp g).arch.frames.length

/-- Berths that a group may name: those of the innermost gate frame, or the launch's (R62). -/
def berthLimit (s : State) (g : Nat) : Nat :=
  match (s.grp g).arch.frames with
  | [] => (s.descOf g).berths
  | f :: _ => f.entry.nberth.toNat

def allocOf (s : State) (g : Nat) : Alloc :=
  { vregs := (s.descOf g).vregs, sregs := (s.descOf g).sregs, berths := s.berthLimit g,
    tiles := (s.descOf g).tiles, accs := (s.descOf g).accs }

/-- Whether a context is there to execute in: a resident one, or Thavin's (R312). -/
def present (s : State) (a : Nat) : Bool := a == 64 || (s.cx a).resident

/-- The context whose launch a group belongs to: its context at gate depth 0 (R283). -/
def homeCtx (s : State) (g : Nat) : Nat := (s.lch (s.launchOf g)).ctx

/-- The partition of a group. -/
def partOf (s : State) (g : Nat) : Nat := (s.lch (s.launchOf g)).part

/-- Draw one free value: the counter steps, and the values before it name the draw. -/
def draw (s : State) : Nat × State := (s.freeCtr, { s with freeCtr := s.freeCtr + 1 })

/-- Whether a group has slots on a core: its team is resident or leaving. -/
def resident (s : State) (t : Nat) : Bool :=
  match (s.tm t).st with
  | .resident | .leavingSwap | .leavingPreempt => true
  | _ => false

/-- Whether a group's team lets it issue: it is resident, or it leaves and waits for the end of the group's emulation (R353). -/
def goesOn (s : State) (g : Nat) : Bool :=
  (s.teamOf g).st == .resident || (s.resident (s.grp g).team && (s.grp g).arch.emu.isSome)

/-- Groups that occupy slots of a core, in slot order of no importance. -/
def groupsOn (s : State) (c : Nat) : List Nat :=
  (List.range s.groups.length).filter fun g =>
    s.resident (s.grp g).team && s.coreOf g == c

/-- The executing reach: the newest one, not yet ended (R320). -/
def curReach (s : State) (g : Nat) : Option Reach :=
  match (s.grp g).reaches.getLast? with
  | some r => if r.ended.isNone then some r else none
  | none => none

/-- Identifier of the newest open reach, the executing one if it has not ended; one that no reach bears where there
is none. -/
def reachId (s : State) (g : Nat) : Nat := ((s.grp g).reaches.getLast?.map (·.id)).getD s.nextReach

/-- Change a group's executing reach. -/
def modReach (s : State) (g : Nat) (f : Reach → Reach) : State :=
  s.modG g fun x => { x with reaches := x.reaches.modify (x.reaches.length - 1) f }

/-- Make a group's executing reach depend on reaches (R159). -/
def addDeps (s : State) (g : Nat) (rs : List Nat) : State :=
  let self := s.reachId g
  s.modReach g fun r => { r with deps := r.deps ++ rs.filter fun x => x != self && !r.deps.contains x }

end State

end Sys2Proof.Machine
end

