-- ==== Sys2Proof/Machine/Lines.lean ====
section
/-! DEFINITION. Register lines and group images (R57, R65 to R67, R70, R72, R76 to R80): where each vector register of a
group lies, how a lane file makes room, and what is written to an image. -/

namespace Sys2Proof.Machine

/-! ### Registers by gate depth (R78) -/

/-- Gate depth of the registers that a group executes with; 5 in an emulation (R346). -/
def Group.depth (x : Group) : Nat := if x.arch.emu.isSome then 5 else x.arch.frames.length

/-- Registers and PC that belong to a gate depth of a group (R78, R298): those that a gate call or an emulation hides, or
the executing ones. -/
def depthRegs (a : Arch) (d : Nat) : Regs × W64 :=
  match a.frames[a.frames.length - 1 - d]?, decide (d < a.frames.length) with
  | some f, true => (f.saved, f.retPc)
  | _, _ =>
    match a.emu with
    | some e => if d = 5 then (a.regs, a.pc) else (e.saved, e.pc)
    | none => (a.regs, a.pc)

/-- Change the registers of a gate depth. -/
def modDepth (a : Arch) (d : Nat) (f : Regs → Regs) : Arch :=
  if d < a.frames.length then
    { a with frames := a.frames.modify (a.frames.length - 1 - d) fun x => { x with saved := f x.saved } }
  else
    match a.emu with
    | some e => if d = 5 then { a with regs := f a.regs } else { a with emu := some { e with saved := f e.saved } }
    | none => { a with regs := f a.regs }

/-- Write one vector register of an image block. -/
def FrameBlock.setV (b : FrameBlock) (reg : Nat) (v : VReg) (po : W32) : FrameBlock :=
  { b with regs := { b.regs with v := b.regs.v.setIfInBounds reg v, vp := b.regs.vp.setIfInBounds reg po } }

/-- Change the block of a gate depth. -/
def GImage.modBlock (i : GImage) (d : Nat) (f : FrameBlock → FrameBlock) : GImage :=
  { i with blocks := i.blocks.setIfInBounds d (f (i.blocks[d]?.getD FrameBlock.zero)) }

/-- Whether registers have a block for a gate depth; 5 is an emulation's. -/
def Arch.has (a : Arch) (d : Nat) : Bool := decide (d ≤ a.frames.length) || (d == 5 && a.emu.isSome)

/-- The same place among the lines. -/
def Line.same (a b : Line) : Bool := a.gid == b.gid && a.depth == b.depth && a.reg == b.reg && a.pre == b.pre

namespace State

/-! ### Lane files (R65, R67) -/

/-- The lane file in which a line lies: core and lane. -/
def lineHome (s : State) (l : Line) : Option (Nat × Nat) :=
  match l.at_ with
  | .cache => some (s.coreOf l.gid, (s.grp l.gid).lane)
  | .mooring c k => some (c, k)
  | .image => none

/-- Free vector lines of a lane file. -/
def laneFree (s : State) (c k : Nat) : Nat :=
  Config.linesPerLane - (s.lines.filter fun l => s.lineHome l == some (c, k)).length

/-- The register cache capacity that a core advertises (R15, R57). -/
def freeLines (s : State) (c : Nat) : Nat := ((List.range 16).map (s.laneFree c)).foldl (· + ·) 0

/-- The core of the other seven of a core's cluster with the most free capacity, if any has some, ties to the lowest
(R57). -/
def mooringFor (s : State) (core : Nat) : Option Nat :=
  (((List.range 8).map (core / 8 * 8 + ·)).filter (· != core)).foldl (fun (b : Option Nat) c =>
    match b with
    | none => if s.freeLines c = 0 then none else some c
    | some d => if s.freeLines d < s.freeLines c then some c else b) none

/-- Lane of a mooring. DESIGN CHOICE (log 54): the one with the most free lines, ties to the lowest. -/
def mooringLane (s : State) (c : Nat) : Nat :=
  (List.range 16).foldl (fun b k => if s.laneFree c b < s.laneFree c k then k else b) 0

/-- What a line holds: its register at its depth, or as the head of the reach that replaced it found it. -/
def lineValue (s : State) (l : Line) : VReg × W32 :=
  let x := s.grp l.gid
  let r := match l.pre with
    | none => (depthRegs x.arch l.depth).1
    | some i => ((x.reaches.find? fun (q : Reach) => q.id == i).map fun (q : Reach) => (depthRegs q.snap l.depth).1).getD x.arch.regs
  (r.v[l.reg]?.getD (Vector.replicate 32 0), r.vp[l.reg]?.getD 0)

/-- Whether an open reach has written a line's register at its depth: that with which the group executes, or an emulation's that
has ended in it. -/
def lineWrote (s : State) (l : Line) (p : Nat → Bool) : Bool :=
  let d := (s.grp l.gid).depth
  (l.depth == d || l.depth == 5) && (s.grp l.gid).reaches.any fun r => p r.id && r.written.contains (if l.depth = d then l.reg else 256 + l.reg)

/-- Whether the map that the head of a reach snapshot points at a line: no reach from it on, up to the one that replaced the
line, has written the register (R66, R67). -/
def lineMapped (s : State) (l : Line) (r : Reach) : Bool :=
  r.snap.has l.depth && match l.pre with
    | none => !s.lineWrote l fun i => decide (r.id ≤ i)
    | some n => decide (r.id ≤ n) && !s.lineWrote l fun i => decide (r.id ≤ i) && decide (i < n)

/-- Whether a line is cleared (R70): no open reach has written it; a pre-image, when no reach older than the one that
replaced it has. The lines of an emulation have no image. -/
def lineCleared (s : State) (l : Line) : Bool :=
  decide (l.depth < 5) && match l.pre with
    | none => !s.lineWrote l fun _ => true
    | some i => !s.lineWrote l fun j => decide (j < i)

/-- Whether a pending load will write a line (R215). -/
def lineAwaited (s : State) (l : Line) : Bool :=
  (s.grp l.gid).loads.any fun q => match q.dst with
    | .inl _ => false
    | .inr (r, k) => decide (r ≤ l.reg) && decide (l.reg < r + k)

/-- Move a line. -/
def placeLine (s : State) (l : Line) (p : LineAt) : State :=
  { s with lines := s.lines.map fun x => if x.same l then { x with at_ := p } else x }

/-- Write a line to its image (R70, R72). -/
def writeLine (s : State) (l : Line) : State :=
  let v := s.lineValue l
  let s1 := s.modImg l.gid fun i => i.modBlock l.depth fun b => b.setV l.reg v.1 v.2
  { s1 with lines := s1.lines.map fun x => if x.same l then { x with at_ := .image, dirty := false } else x }

/-- A line leaves the lane file (R57, R76): an evictable one for a mooring where the cluster has room, any other for its
image. -/
def evictLine (s : State) (l : Line) : State :=
  match l.at_, (if (s.grp l.gid).evictable then s.mooringFor (s.coreOf l.gid) else none) with
  | .cache, some c => s.placeLine l (.mooring c (s.mooringLane c))
  | _, _ => s.writeLine l

/-- Insert by time of last use. -/
def insertUse (l : Line) : List Line → List Line
  | [] => [l]
  | x :: xs => if l.used < x.used then l :: x :: xs else x :: insertUse l xs

/-- Lines of a lane file that can leave it, in the order in which they do (R67): evictable ones, moorings, the cleared
ones least recently used, and cleared pre-images. DESIGN CHOICE (log 54): the place of the moorings in that order. -/
def laneVictims (s : State) (c k : Nat) : List Line :=
  let here := (s.lines.filter fun l => s.lineHome l == some (c, k) && s.lineCleared l && !s.lineAwaited l).foldl
    (fun acc l => insertUse l acc) []
  let cached := here.filter fun l => l.at_ == .cache
  (cached.filter fun l => (s.grp l.gid).evictable) ++ (here.filter fun l => l.at_ != .cache) ++
    (cached.filter fun l => !(s.grp l.gid).evictable && l.pre.isNone) ++
    cached.filter fun l => !(s.grp l.gid).evictable && l.pre.isSome

/-- Make room for one line where a lane file is full. -/
def makeRoom (s : State) (c k : Nat) : State :=
  if 0 < s.laneFree c k then s
  else
    match s.laneVictims c k with
    | [] => s
    | l :: _ => s.evictLine l

/-- The current line of a register of a group. -/
def lineOf (s : State) (g reg : Nat) : Option Line :=
  s.lines.find? fun l => l.gid == g && l.depth == (s.grp g).depth && l.reg == reg && l.pre.isNone

/-- A group uses registers: a line that lies elsewhere comes into its lane file (R76). -/
def useLines (s : State) (g : Nat) (regs : List Nat) : State :=
  regs.foldl (fun s reg =>
    match s.lineOf g reg with
    | none => s
    | some l =>
      let s1 := if l.at_ = .cache then s else s.makeRoom (s.coreOf g) (s.grp g).lane
      { s1 with lines := s1.lines.map fun x =>
          if x.same l then { x with at_ := .cache, used := (s.cor (s.coreOf g)).fe } else x }) s

/-- Registers are written in a reach: the first write of one takes a new line, and the line that it replaces is kept as
the reach's pre-image (R67, R79). Without an open reach the line is written where it is. -/
def takeLines (s : State) (g : Nat) (reach : Option Nat) (regs : List Nat) : State :=
  regs.foldl (fun s reg =>
    let new : Line := { gid := g, depth := (s.grp g).depth, reg := reg, at_ := .cache, pre := none
                        used := (s.cor (s.coreOf g)).fe, dirty := true }
    let old := match s.lineOf g reg with
      | none => s.lines
      | some l => match reach with
        | none => s.lines.filter fun x => !x.same l
        | some r => s.lines.map fun x => if x.same l then { x with pre := some r } else x
    let s1 := ({ s with lines := old } : State).makeRoom (s.coreOf g) (s.grp g).lane
    { s1 with lines := s1.lines ++ [new] }) s

/-- Whether a lane file has room for so many more lines (R67). -/
def laneHolds (s : State) (g n : Nat) : Bool :=
  n == 0 || decide (n ≤ s.laneFree (s.coreOf g) (s.grp g).lane + (s.laneVictims (s.coreOf g) (s.grp g).lane).length)

/-- Whether the lane file of a group has room for the lines that a write of registers takes (R67): one for each that its
newest reach has not written; without an open reach, for each that has no line there. -/
def regsRoom (s : State) (g : Nat) (regs : List Nat) : Bool :=
  let x := s.grp g
  s.laneHolds g (regs.filter fun r => match x.reaches.getLast? with
    | some q => !q.written.contains r
    | none => ((s.lineOf g r).map fun l => l.at_ != .cache).getD true).length

/-- The pre-images of a reach that clears are free (R67). -/
def freePre (s : State) (rid : Nat) : State := { s with lines := s.lines.filter fun l => l.pre != some rid }

/-- The maps point again at the pre-images of squashed reaches (R71), read before the groups restart: a register's line as the
oldest of them found it. -/
def restoreLines (s : State) (rs : List Nat) : State :=
  let older := fun (l : Line) (r : Nat) => s.lines.any fun x => x.gid == l.gid && x.depth == l.depth && x.reg == l.reg &&
    (x.pre.map fun i => rs.contains i && decide (i < r)) == some true
  { s with lines := s.lines.filterMap fun l =>
      match l.pre with
      | none => if s.lineWrote l rs.contains then none else some l
      | some r =>
        if !rs.contains r then some l
        else if older l r || s.lineWrote l fun i => rs.contains i && decide (i < r) then none
        else some { l with pre := none } }

/-- Lines of a frame or an emulation that ends: kept as pre-images of the reach in which it ends, or free (R80). -/
def endLines (s : State) (g d : Nat) (reach : Option Nat) : State :=
  { s with lines := s.lines.filterMap fun l =>
      if l.gid == g && l.depth == d && l.pre.isNone then reach.map fun r => { l with pre := some r, dirty := true } else some l }

/-- Groups that are gone have no lines. -/
def dropLines (s : State) (gs : List Nat) : State := { s with lines := s.lines.filter fun l => !gs.contains l.gid }

/-! ### Images (R70, R72) -/

/-- Register state of a group that has cleared: as its oldest open reach found it (R70). -/
def clearedArch (x : Group) : Arch :=
  match x.reaches with
  | [] => x.arch
  | r :: _ => r.snap

/-- A group's images with its cleared state (R70, R72): under open reaches that of their oldest head, where the group was
in RUN. -/
def writtenImage (i : GImage) (x : Group) (inval : Nat) : GImage :=
  let a := clearedArch x
  let now := x.reaches.isEmpty
  { blocks := Vector.ofFn fun d =>
      if d.val ≤ a.frames.length then { regs := (depthRegs a d.val).1, pc := (depthRegs a d.val).2 } else i.blocks[d]
    frames := a.frames.reverse.map fun f => (f.retPc, f.gate, f.dom)
    dom := ((a.emu.map (·.dom)).getD a.dom), live := x.live, st := if now then x.st else .run, held := if now then x.held else none
    wait := if now then x.wait else none, replay := if now then x.replay else none, inval := inval }

/-- Every dirty cleared line of a group, and the rest of its cleared state, go to its images (R70). -/
def flushImage (s : State) (g : Nat) : State :=
  let x := s.grp g
  let s1 := s.modImg g fun i => writtenImage i x (s.cx (clearedArch x).ctx).inval
  { s1 with lines := s1.lines.map fun l => if l.gid == g && s.lineCleared l && l.pre.isNone then { l with dirty := false } else l }

/-- Lines of a group all of whose registers lie in its images: those that are not zero. -/
def imageLines (g : Nat) (a : Arch) : List Line :=
  (List.range (a.frames.length + 1)).flatMap fun d =>
    let r := (depthRegs a d).1
    ((List.range 256).filter fun k => r.v[k]?.getD (Vector.replicate 32 0) != Vector.replicate 32 0 || r.vp[k]?.getD 0 != 0).map fun k =>
      { gid := g, depth := d, reg := k, at_ := .image, pre := none, used := 0, dirty := false }

/-- The registers, scalars and poison of the image of an ended frame read zero (R80). -/
def zeroBlock (s : State) (g d : Nat) : State := s.modImg g fun i => i.modBlock d fun _ => FrameBlock.zero

/-- A reach of a group clears in which a gate frame ended: the frame's image reads zero before it can be used again (R80). -/
def zeroEnded (s : State) (g : Nat) (r : Reach) (after : Arch) : State :=
  if after.frames.length < r.snap.frames.length then s.zeroBlock g r.snap.frames.length else s

end State

end Sys2Proof.Machine
end

