-- ==== Sys2Proof/Machine/Mesh.lean ====
section
/-! DEFINITION. Places on the mesh (R16, R21, R22, R300), the flits that memory traffic puts on it (R23), and what
the energy meters are told of the traffic (R365). -/

namespace Sys2Proof.Machine

/-! ### Places (R16, R21) -/

/-- Router of a cluster, and the local port of its cluster cache (R21). -/
def clusterPlace (cl : Nat) : Dest :=
  { die := cl / 12, row := cl % 12 / 3, col := 1 + 4 * (cl % 3), port := 0, edge := none }

/-- Local port of a core at its cluster's router (R21). -/
def corePlace (core : Nat) : Dest := { clusterPlace (core / 8) with port := 1 + core % 8 }

/-- Columns of a die's row that hold slices in service (R21). -/
def sliceColumns (die row : Nat) : List Nat :=
  (List.range 12).filter fun c => c % 4 != 1 && c != harvestedColumn die row

/-- Stack of a physical address of HBM (R300). -/
def stackOf (pa : Nat) : Nat := pa / Config.stackBytes

/-- Home slice of an HBM byte (R16): on the die of its stack, in the two rows nearest its controller. -/
def homePlace (pa : Nat) : Dest :=
  let k := stackOf pa
  let i := Config.sliceHash (pa / 256) % 16
  let row := 2 * (k % 2) + i / 8
  { die := k / 2, row := row, col := (sliceColumns (k / 2) row)[i % 8]?.getD 0, port := 0, edge := none }

/-- Grid position of a die in the package (R12). -/
def dieX (d : Nat) : Nat := d % 2
def dieY (d : Nat) : Nat := d / 2

/-- Row of a die's grid nearest its link in y (R22). DESIGN CHOICE (log 44): rows count along the package's y. -/
def linkRow (d : Nat) : Nat := if dieY d = 0 then 3 else 0

/-- Column in service nearest one side of a die's row. -/
def sideColumn (die row : Nat) (high : Bool) : Nat :=
  if high then (if harvestedColumn die row = 11 then 10 else 11) else if harvestedColumn die row = 0 then 1 else 0

/-- Grid positions in service at which an edge router joins its die's grid (R22). DESIGN CHOICE (log 44): columns count
along the package's x, E2 and E3 join at the side away from E0, and a harvested join passes to the next column of its
row or is left out. -/
def joins (die e : Nat) : List (Nat × Nat) :=
  match e with
  | 0 => [1, 2].map fun r => (r, sideColumn die r (dieX die == 0))
  | 1 => ([3, 8].filter fun c => c != harvestedColumn die (linkRow die)).map fun c => (linkRow die, c)
  | 2 => [0, 1].map fun r => (r, sideColumn die r (dieX die != 0))
  | _ => [2, 3].map fun r => (r, sideColumn die r (dieX die != 0))

/-- An edge router as seen from a row of its die: the join nearest that row, and the edge. -/
def edgePlace (die e row : Nat) : Dest :=
  let js := joins die e
  let j := (js.find? fun j => j.1 == row).getD (js.headD (0, 0))
  { die := die, row := j.1, col := j.2, port := 0, edge := some e }

/-- The edge router of an HBM byte's controller, as its home slice sees it (R16, R22). -/
def controllerPlace (pa : Nat) : Dest :=
  let h := homePlace pa
  edgePlace h.die (2 + stackOf pa % 2) h.row

/-- The edge router of a die's host or scale-out port (R22). -/
def portPlace (die : Nat) : Dest := edgePlace die 2 0

/-- The die of a host port (R12). -/
def portDie (port : Nat) : Nat := if port = 0 then 0 else 3

/-- The port to a peer. DESIGN CHOICE (log 44): the scale-out ports of CD1 serve the devices of even number. -/
def peerPlace (dev : Nat) : Dest := portPlace (1 + dev % 2)

/-- The port by which a byte that is not the device's own HBM is reached (R12). -/
def farPlace (key : Nat) : Dest :=
  match Space.ofKey key with
  | .hbm => homePlace key
  | .host p => portPlace (portDie p)
  | .peer d => peerPlace d

/-- Number of a grid router on its die (R25). -/
def gridIndex (row col : Nat) : Nat := row * 12 + col

/-- Whether a byte lies in a peer device's memory (R303, R383). -/
def isPeerKey (k : Nat) : Bool := decide (3 * 2 ^ 52 ≤ k)

/-- Number of the home slice of an HBM byte: 16 for each stack (R16). -/
def sliceOf (pa : Nat) : Nat := 16 * stackOf pa + Config.sliceHash (pa / 256) % 16

/-- Context that stands for no context: the owner of accesses from outside. -/
def noCtx : Nat := 64

/-- Tag of what a context of a partition has spent in this interval once its number has gone to another (R365, R369). -/
def endedTag (part : Nat) : Nat := noCtx + 1 + part

/-! ### Counting traffic (R365) -/

/-- Add to the count of two keys. -/
def addCount (xs : List (Nat × Nat × Nat)) (a b n : Nat) : List (Nat × Nat × Nat) :=
  if n = 0 then xs
  else if xs.any fun x => x.1 == a && x.2.1 == b then
    xs.map fun x => if x.1 = a ∧ x.2.1 = b then (a, b, x.2.2 + n) else x
  else xs ++ [(a, b, n)]

namespace State

/-- A stack's partition (R375). -/
def partOfStack (s : State) (k : Nat) : Option Nat :=
  if s.parts.isEmpty then none else some (k * s.parts.length / 8)

/-- Thavin receives an event record that is no sensor's, of a partition. -/
def tell (s : State) (part : Option Nat) (what : String) (addr : W64) (key : Nat) : State :=
  s.record (.other s.clk part what addr key)

/-- An event record about a byte of memory: it is of the partition whose stack holds the byte. -/
def tellAt (s : State) (what : String) (addr : W64) (key : Nat) : State :=
  s.tell (if key < Config.hbmEnd then s.partOfStack (stackOf key) else none) what addr key

/-- Partition that a tag's share is charged to; accesses from outside have none. -/
def tagPart (s : State) (t : Nat) : Option Nat :=
  if t < noCtx then some (s.cx t).part else if t = noCtx then none else some (t - noCtx - 1)

/-- A context's number goes to a new context: what the old one has spent in this interval stays its partition's (R365). -/
def retag (s : State) (c : Nat) : State :=
  let f := fun (t : Nat) => if t = c then endedTag (s.cx c).part else t
  { s with cores := s.cores.map fun k => { k with spent := k.spent.map fun x => (f x.1, x.2) }
           traffic := s.traffic.map fun x => (f x.1, x.2), hops := s.hops.map fun x => (f x.1, x.2)
           slotNs := s.slotNs.map fun x => (f x.1, x.2), flits := s.flits.map fun x => { x with ctx := f x.ctx } }

/-- Bytes of HBM are read or written for a context. -/
def chargeBytes (s : State) (ctx : Nat) (ks : List Nat) : State :=
  let hs := ks.filter fun k => decide (k < Config.hbmEnd)
  let t := (distinct (hs.map stackOf)).foldl (fun t k => addCount t ctx k ((hs.filter fun a => stackOf a == k).length)) s.traffic
  { s with traffic := t }

/-- Flits of a packet enter the mesh at a router, on the packet's plane (R23), and carry its reach tag (R29). -/
def inject (s : State) (ctx : Nat) (tag : Option Nat) (src : Dest) (dests : List Dest) (plane n : Nat) : State :=
  let f : Flit := { id := 0, ctx := ctx, tag := tag, die := src.die
                    at_ := match src.edge with
                      | some e => .edge e
                      | none => .grid src.row src.col
                    plane := plane % 16, inp := 0, dests := dests, age := 0, holding := false }
  let fs := (List.range n).map fun i => { f with id := s.nextId + i }
  { s with flits := s.flits ++ fs, nextId := s.nextId + n }

/-- One way of a memory packet: its plane is chosen by the line (R23). -/
def sendLine (s : State) (ctx : Nat) (tag : Option Nat) (src dest : Dest) (pa n : Nat) : State :=
  s.inject ctx tag src [dest] (Config.planeHash (pa / 256)) n

/-- Copies in tagged staging that satisfy a test are over: a commit or a drop that bears the reach's tag goes to their slices, and
they leave it (R29, R326). -/
def tagStaged (s : State) (over_ : Staged → Bool) : State :=
  let s1 := (s.staged.filter over_).foldl (fun s x => s.sendLine x.ctx (some x.reach) (clusterPlace x.cluster) (homePlace x.sec) x.sec 1) s
  { s1 with staged := s.staged.filter fun x => !over_ x }

/-- A sector moves between a cluster and its home slice, or its port: a request, and two flits of data the way it goes. The
slice fetches a line that it does not hold dirty from the line's HBM controller. -/
def moveSector (s : State) (ctx : Nat) (tag : Option Nat) (cl sec : Nat) (fill : Bool) : State :=
  if sec < Config.hbmEnd then
    let c := clusterPlace cl
    let h := homePlace sec
    if fill then
      let s1 := s.sendLine ctx tag c h sec 1
      let s2 := if s.owned.any fun o => o.line == sec / 256 then s1
        else (s1.sendLine ctx tag h (controllerPlace sec) sec 1).sendLine ctx tag (controllerPlace sec) h sec 2
      s2.sendLine ctx tag h c sec 2
    else s.sendLine ctx tag c h sec 2
  else if sec < 2 ^ 52 then s
  else
    let c := clusterPlace cl
    let h := farPlace sec
    if fill then (s.sendLine ctx tag c h sec 1).sendLine ctx tag h c sec 2 else s.sendLine ctx tag c h sec 2

/-- An access from outside goes to the home slices of its sectors, and its answer back (R22, R23). -/
def portTraffic (s : State) (port : Dest) (secs : List Nat) (write answer : Bool) : State :=
  secs.foldl (fun s sec =>
    let s1 := s.sendLine noCtx none port (homePlace sec) sec (if write then 2 else 1)
    if answer then s1.sendLine noCtx none (homePlace sec) port sec 2 else s1) s

/-- Data for a core's stash, with the stash address of its first byte. DEDUCED (log 67): the plane is chosen by the stash line alone, as
a multicast's is, so that packets to one line keep one plane (R23, R28). Flits of 64 bytes. -/
def sendStash (s : State) (ctx : Nat) (tag : Option Nat) (src : Dest) (core at_ bytes : Nat) : State :=
  s.inject ctx tag src [corePlace core] (Config.stashPlane (at_ / 256)) ((bytes + 63) / 64)

/-- Packets that bring the same data to one stash line offset of several cores: one for each die and 16 cores, its plane
chosen by the offset (R23, R28). -/
def multicast (s : State) (ctx : Nat) (tag : Option Nat) (src : Dest) (cores : List Nat) (at_ bytes : Nat) : State :=
  (List.range 4).foldl (fun s die =>
    let here := cores.filter fun c => c / 96 == die
    (List.range ((here.length + 15) / 16)).foldl (fun s i =>
      s.inject ctx tag src (((here.drop (16 * i)).take 16).map corePlace) (Config.stashPlane (at_ / 256)) ((bytes + 63) / 64)) s) s

end State

end Sys2Proof.Machine
end

