-- ==== Sys2Proof/Machine/Fp.lean ====
section
/-! DEFINITION. Number formats and arithmetic (R81 to R104): formats, rounding, flags, exact arithmetic,
conversions, the correctly rounded roots and transcendental operations. -/

namespace Sys2Proof.Machine.Fp

/-! ### Formats (R81) -/

/-- A floating-point format: exponent and mantissa widths, bias, the code of its largest finite value,
and the code of its infinity, which E4M3 does not have and delivers as its NaN (R94). -/
structure FFmt where
  eb : Nat
  mb : Nat
  bias : Nat
  maxCode : Nat
  infCode : Nat
  nan : Nat
  hasInf : Bool
  hasNan : Bool
deriving DecidableEq, Repr

def fp32 : FFmt := { eb := 8, mb := 23, bias := 127, maxCode := 0x7F7FFFFF, infCode := 0x7F800000, nan := 0x7FC00000, hasInf := true, hasNan := true }
def fp16 : FFmt := { eb := 5, mb := 10, bias := 15, maxCode := 0x7BFF, infCode := 0x7C00, nan := 0x7E00, hasInf := true, hasNan := true }
def bf16 : FFmt := { eb := 8, mb := 7, bias := 127, maxCode := 0x7F7F, infCode := 0x7F80, nan := 0x7FC0, hasInf := true, hasNan := true }
def e4m3 : FFmt := { eb := 4, mb := 3, bias := 7, maxCode := 0x7E, infCode := 0x7F, nan := 0x7F, hasInf := false, hasNan := true }
def e5m2 : FFmt := { eb := 5, mb := 2, bias := 15, maxCode := 0x7B, infCode := 0x7C, nan := 0x7E, hasInf := true, hasNan := true }
def fp4 : FFmt := { eb := 2, mb := 1, bias := 1, maxCode := 7, infCode := 7, nan := 0, hasInf := false, hasNan := false }

/-- Position of the sign bit. -/
def FFmt.signAt (f : FFmt) : Nat := f.eb + f.mb

/-- Exponent of the least significant bit of a subnormal. -/
def FFmt.qmin (f : FFmt) : Int := 1 - (f.bias : Int) - (f.mb : Int)

/-! ### Values -/

/-- The value a code stands for; a finite one is (−1)^neg × m × 2^e. -/
inductive FVal where
  | nan (signalling : Bool)
  | inf (neg : Bool)
  | fin (neg : Bool) (m : Nat) (e : Int)
deriving DecidableEq, Repr

/-- The value of a code (R81, R82). -/
def FFmt.value (f : FFmt) (c : Nat) : FVal :=
  let neg := c.testBit f.signAt
  let mag := c % 2 ^ f.signAt
  let m := mag % 2 ^ f.mb
  let ex := mag / 2 ^ f.mb
  if f.hasInf && ex == 2 ^ f.eb - 1 then
    if m = 0 then .inf neg else .nan (!m.testBit (f.mb - 1))
  else if f.hasNan && !f.hasInf && mag == f.nan then .nan false
  else if ex = 0 then .fin neg m f.qmin
  else .fin neg (m + 2 ^ f.mb) ((ex : Int) - (f.bias : Int) - (f.mb : Int))

/-- Whether a code is a subnormal. -/
def FFmt.isSub (f : FFmt) (c : Nat) : Bool :=
  let mag := c % 2 ^ f.signAt
  decide (0 < mag) && decide (mag < 2 ^ f.mb)

/-- A code with the sign of `neg` and the given magnitude code. -/
def FFmt.signed (f : FFmt) (neg : Bool) (mag : Nat) : Nat := if neg then mag + 2 ^ f.signAt else mag

/-- Input flush of R91. -/
def FFmt.flushIn (f : FFmt) (ftz : Bool) (c : Nat) : Nat :=
  if ftz && f.isSub c then c / 2 ^ f.signAt * 2 ^ f.signAt else c

/-! ### Flags (R90), in the order of MODE [12:8]: NV is bit 0. -/

abbrev Flags := BitVec 5

def fNV : Flags := 1
def fDZ : Flags := 2
def fOF : Flags := 4
def fUF : Flags := 8
def fNX : Flags := 16

/-- A result code with its flags. -/
structure Res where
  code : Nat
  flags : Flags
deriving DecidableEq, Repr

/-! ### Rounding (R88, R89) -/

/-- Rounding modes. -/
inductive RM where | rne | rtz | rup | rdn | rna | rod
deriving DecidableEq, Repr

/-- The mode of a rounding field; MODE.RM when the field is 000 (R88, R113). -/
def RM.ofField (rm : BitVec 3) : RM :=
  match rm.toNat with
  | 2 => .rtz
  | 3 => .rup
  | 4 => .rdn
  | 5 => .rna
  | 6 => .rod
  | _ => .rne

/-- Rounds the quotient `n` with remainder `r` of `2^sh` parts (and more below when `sticky`) to an
integer under a mode. -/
def roundInt (rm : RM) (neg : Bool) (n r sh : Nat) (sticky : Bool) : Nat :=
  let inexact := r != 0 || sticky
  let half := 2 ^ sh / 2
  match rm with
  | .rne => if 0 < sh && (decide (half < r) || (r == half && (sticky || n % 2 == 1))) then n + 1 else n
  | .rtz => n
  | .rup => if inexact && !neg then n + 1 else n
  | .rdn => if inexact && neg then n + 1 else n
  | .rna => if 0 < sh && decide (half ≤ r) then n + 1 else n
  | .rod => if inexact && n % 2 == 0 then n + 1 else n

/-- Largest finite value or infinity on overflow (R89); a saturating form gives the largest finite. -/
def overflow (f : FFmt) (rm : RM) (neg sat : Bool) : Nat :=
  let big := f.signed neg f.maxCode
  let inf := if f.hasInf then f.signed neg f.infCode else f.infCode
  if sat then big
  else
    match rm with
    | .rne | .rna => inf
    | .rtz | .rod => big
    | .rup => if neg then big else inf
    | .rdn => if neg then inf else big

/-- Rounds the exact non-zero value (−1)^neg × (q + s) × 2^e, 0 ≤ s < 1 and s > 0 exactly when
`sticky`, with its flags (R88 to R91). With `sticky`, q has more bits than the format. -/
def roundNonzero (f : FFmt) (rm : RM) (ftz sat : Bool) (neg : Bool) (q : Nat) (e : Int) (sticky : Bool) : Res :=
  let top : Int := (Nat.log2 q : Int) + e
  let u : Int := max (top - (f.mb : Int)) f.qmin
  let quot (u : Int) : Nat × Nat × Nat :=
    if u ≤ e then (q * 2 ^ (e - u).toNat, 0, 0)
    else (q / 2 ^ (u - e).toNat, q % 2 ^ (u - e).toNat, (u - e).toNat)
  let (n, r, sh) := quot u
  let n' := roundInt rm neg n r sh sticky
  let inexact := r != 0 || sticky
  let code := (u - f.qmin).toNat * 2 ^ f.mb + n'
  let nx := if inexact then fNX else 0
  if f.maxCode < code then { code := overflow f rm neg sat, flags := fOF ||| fNX }
  else
    let (k, s, t) := quot (top - (f.mb : Int))
    let k' := roundInt rm neg k s t sticky
    let tiny := decide (top < 1 - (f.bias : Int)) &&
      !(decide (top = -(f.bias : Int)) && k' == 2 ^ (f.mb + 1))
    if ftz && code != 0 && decide (code < 2 ^ f.mb) then
      { code := f.signed neg 0, flags := fUF ||| fNX }
    else { code := f.signed neg code, flags := nx ||| (if tiny && inexact then fUF else 0) }

/-- Rounds the exact finite value (−1)^neg × q × 2^e; a zero keeps the sign given. -/
def roundFin (f : FFmt) (rm : RM) (ftz sat : Bool) (neg : Bool) (q : Nat) (e : Int) : Res :=
  if q = 0 then { code := f.signed neg 0, flags := 0 } else roundNonzero f rm ftz sat neg q e false

/-- The canonical NaN of a format with flags. -/
def nanRes (f : FFmt) (fl : Flags) : Res := { code := f.nan, flags := fl }

/-- An infinity of a format. -/
def infRes (f : FFmt) (neg : Bool) (fl : Flags) : Res := { code := f.signed neg f.infCode, flags := fl }

/-- A zero of a format. -/
def zeroRes (f : FFmt) (neg : Bool) : Res := { code := f.signed neg 0, flags := 0 }

/-- NV when a signalling NaN is among the operands (R82, R90). -/
def snanFlag : List FVal → Flags
  | [] => 0
  | .nan true :: _ => fNV
  | _ :: vs => snanFlag vs

/-- Whether a value is a NaN. -/
def FVal.isNan : FVal → Bool
  | .nan _ => true
  | _ => false

/-! ### Arithmetic (R88, R92, R194, R195) -/

/-- Exact sum of two finite values, rounded. The sign of a zero sum follows R92. -/
def sumFin (f : FFmt) (rm : RM) (ftz : Bool) (n1 : Bool) (m1 : Nat) (e1 : Int) (n2 : Bool) (m2 : Nat) (e2 : Int) : Res :=
  let e := min e1 e2
  let x : Int := (m1 * 2 ^ (e1 - e).toNat : Nat)
  let y : Int := (m2 * 2 ^ (e2 - e).toNat : Nat)
  let s : Int := (if n1 then -x else x) + (if n2 then -y else y)
  if s = 0 then zeroRes f (if n1 == n2 then n1 else rm == .rdn)
  else roundFin f rm ftz false (decide (s < 0)) s.natAbs e

/-- x + y (R193). -/
def add (f : FFmt) (rm : RM) (ftz : Bool) (x y : FVal) : Res :=
  match x, y with
  | .nan a, y => nanRes f (snanFlag [.nan a, y])
  | x, .nan b => nanRes f (snanFlag [x, .nan b])
  | .inf a, .inf b => if a == b then infRes f a 0 else nanRes f fNV
  | .inf a, .fin _ _ _ => infRes f a 0
  | .fin _ _ _, .inf b => infRes f b 0
  | .fin n1 m1 e1, .fin n2 m2 e2 => sumFin f rm ftz n1 m1 e1 n2 m2 e2

/-- −x. -/
def FVal.neg : FVal → FVal
  | .nan s => .nan s
  | .inf n => .inf (!n)
  | .fin n m e => .fin (!n) m e

/-- x − y (R193). -/
def sub (f : FFmt) (rm : RM) (ftz : Bool) (x y : FVal) : Res := add f rm ftz x y.neg

/-- x × y (R193). -/
def mul (f : FFmt) (rm : RM) (ftz : Bool) (x y : FVal) : Res :=
  match x, y with
  | .nan a, y => nanRes f (snanFlag [.nan a, y])
  | x, .nan b => nanRes f (snanFlag [x, .nan b])
  | .inf a, .inf b => infRes f (a != b) 0
  | .inf a, .fin n m _ => if m = 0 then nanRes f fNV else infRes f (a != n) 0
  | .fin n m _, .inf b => if m = 0 then nanRes f fNV else infRes f (n != b) 0
  | .fin n1 m1 e1, .fin n2 m2 e2 => roundFin f rm ftz false (n1 != n2) (m1 * m2) (e1 + e2)

/-- The exact product when it is not a NaN: 0 × ∞ gives none. -/
def exactMul : FVal → FVal → Option FVal
  | .inf a, .inf b => some (.inf (a != b))
  | .inf a, .fin n m _ => if m = 0 then none else some (.inf (a != n))
  | .fin n m _, .inf b => if m = 0 then none else some (.inf (n != b))
  | .fin n1 m1 e1, .fin n2 m2 e2 => some (.fin (n1 != n2) (m1 * m2) (e1 + e2))
  | _, _ => some (.nan false)

/-- x × y + z, rounded once (R92, R194). -/
def fma (f : FFmt) (rm : RM) (ftz : Bool) (x y z : FVal) : Res :=
  match exactMul x y with
  | none => nanRes f fNV
  | some p =>
    if x.isNan || y.isNan || z.isNan then nanRes f (snanFlag [x, y, z]) else add f rm ftz p z

/-- minimumNumber, or maximumNumber when `mx` (R93): one of the operands' codes. -/
def minMax (f : FFmt) (mx : Bool) (ftz : Bool) (a b : Nat) : Res :=
  let x := f.value a
  let y := f.value b
  let nv := snanFlag [x, y]
  let fin (c : Nat) : Res :=
    if ftz && f.isSub c then { code := c / 2 ^ f.signAt * 2 ^ f.signAt, flags := fUF ||| fNX ||| nv }
    else { code := c, flags := nv }
  let key (c : Nat) : Int :=
    let mag : Int := (c % 2 ^ f.signAt : Nat)
    if c.testBit f.signAt then -mag - 1 else mag
  if x.isNan && y.isNan then nanRes f nv
  else if x.isNan then fin b
  else if y.isNan then fin a
  else if mx then (if key a < key b then fin b else fin a)
  else (if key b < key a then fin b else fin a)

/-- x ÷ y (R195). -/
def div (f : FFmt) (rm : RM) (ftz : Bool) (x y : FVal) : Res :=
  match x, y with
  | .nan a, y => nanRes f (snanFlag [.nan a, y])
  | x, .nan b => nanRes f (snanFlag [x, .nan b])
  | .inf _, .inf _ => nanRes f fNV
  | .inf a, .fin n _ _ => infRes f (a != n) 0
  | .fin n _ _, .inf b => zeroRes f (n != b)
  | .fin n1 m1 e1, .fin n2 m2 e2 =>
    if m2 = 0 then (if m1 = 0 then nanRes f fNV else infRes f (n1 != n2) fDZ)
    else if m1 = 0 then zeroRes f (n1 != n2)
    else roundNonzero f rm ftz false (n1 != n2) (m1 * 2 ^ 64 / m2) (e1 - e2 - 64) (m1 * 2 ^ 64 % m2 != 0)

/-- ⌊√n⌋ found from bit `k` − 1 of the root down. -/
def isqrtFrom (n : Nat) : Nat → Nat → Nat
  | 0, r => r
  | k + 1, r => isqrtFrom n k (if (r + 2 ^ k) * (r + 2 ^ k) ≤ n then r + 2 ^ k else r)

/-- ⌊√n⌋. -/
def isqrt (n : Nat) : Nat := isqrtFrom n (Nat.log2 n / 2 + 1) 0

/-- A finite value with an even exponent. -/
def evenExp (m : Nat) (e : Int) : Nat × Int := if e % 2 = 0 then (m, e) else (2 * m, e - 1)

/-- √x (R195). -/
def sqrt (f : FFmt) (rm : RM) (ftz : Bool) (x : FVal) : Res :=
  match x with
  | .nan a => nanRes f (snanFlag [.nan a])
  | .inf n => if n then nanRes f fNV else infRes f false 0
  | .fin n m e =>
    if m = 0 then zeroRes f n
    else if n then nanRes f fNV
    else
      let (m, e) := evenExp m e
      let q := isqrt (m * 2 ^ 80)
      roundNonzero f rm ftz false false q (e / 2 - 40) (q * q != m * 2 ^ 80)

/-- 1 ÷ x (R195). -/
def rcp (f : FFmt) (rm : RM) (ftz : Bool) (x : FVal) : Res :=
  match x with
  | .nan a => nanRes f (snanFlag [.nan a])
  | .inf n => zeroRes f n
  | .fin n m e => if m = 0 then infRes f n fDZ else div f rm ftz (.fin false 1 0) (.fin n m e)

/-- 1 ÷ √x (R195). -/
def rsq (f : FFmt) (rm : RM) (ftz : Bool) (x : FVal) : Res :=
  match x with
  | .nan a => nanRes f (snanFlag [.nan a])
  | .inf n => if n then nanRes f fNV else zeroRes f false
  | .fin n m e =>
    if m = 0 then infRes f n fDZ
    else if n then nanRes f fNV
    else
      let (m, e) := evenExp m e
      let q := isqrt (2 ^ 160 / m)
      roundNonzero f rm ftz false false q (-(e / 2) - 80) (q * q * m != 2 ^ 160)

/-! ### 2^x and log2 x, rounded to nearest-even (R92, R195) -/

/-- Product of bounds at scale 2^128. -/
def mulBound (a b : Nat × Nat) : Nat × Nat := (a.1 * b.1 / 2 ^ 128, a.2 * b.2 / 2 ^ 128 + 1)

/-- Bounds at scale 2^128 of 2 to the power of the k fraction bits of `fr`, highest first; `c` bounds 2
to the weight above the next bit. -/
def expBits (fr : Nat) : Nat → Nat × Nat → Nat × Nat → Nat × Nat
  | 0, _, acc => acc
  | k + 1, c, acc =>
    let c' := (isqrt (c.1 * 2 ^ 128), isqrt (c.2 * 2 ^ 128) + 1)
    expBits fr k c' (if fr.testBit k then mulBound acc c' else acc)

/-- 2^x: exact for an integer x; for any other x the value is irrational and lies strictly between
the bounds of `expBits`, whose roundings agree unless the free value is drawn. -/
def ex2 (f : FFmt) (ftz : Bool) (x : FVal) : Res :=
  match x with
  | .nan a => nanRes f (snanFlag [.nan a])
  | .inf n => if n then zeroRes f false else infRes f false 0
  | .fin n m e =>
    if m = 0 then roundFin f .rne ftz false false 1 0
    else
      let top : Int := (Nat.log2 m : Int) + e
      if 9 ≤ top then
        (if n then roundNonzero f .rne ftz false false (2 ^ 60) (-600) true
         else roundNonzero f .rne ftz false false 1 600 false)
      else if top < -30 then
        (if n then roundNonzero f .rne ftz false false (2 ^ 60 - 1) (-60) true
         else roundNonzero f .rne ftz false false (2 ^ 60) (-60) true)
      else
        let k := (-e).toNat
        let a : Int := if n then -((m * 2 ^ e.toNat : Nat) : Int) else ((m * 2 ^ e.toNat : Nat) : Int)
        let fr := (a % (2 ^ k : Nat)).toNat
        let ip := a / (2 ^ k : Nat)
        if fr = 0 then roundFin f .rne ftz false false 1 ip
        else
          let (lo, hi) := expBits fr k (2 ^ 129, 2 ^ 129) (2 ^ 128, 2 ^ 128)
          let r1 := roundNonzero f .rne ftz false false lo (ip - 128) true
          let r2 := roundNonzero f .rne ftz false false hi (ip - 128) true
          if r1 = r2 then r1 else { code := Config.freeNat m % 2 ^ f.signAt, flags := fNX }

/-- Fraction bits of log2 y, y in [1, 2) at scale 2^256, by repeated squaring. -/
def logBits : Nat → Nat → Nat → Nat
  | 0, _, r => r
  | k + 1, y, r =>
    let y2 := y * y / 2 ^ 256
    if 2 ^ 257 ≤ y2 then logBits k (y2 / 2) (2 * r + 1) else logBits k y2 (2 * r)

/-- log2 x: exact for a power of two; any other value is irrational. -/
def lg2 (f : FFmt) (ftz : Bool) (x : FVal) : Res :=
  match x with
  | .nan a => nanRes f (snanFlag [.nan a])
  | .inf n => if n then nanRes f fNV else infRes f false 0
  | .fin n m e =>
    if m = 0 then infRes f true fDZ
    else if n then nanRes f fNV
    else
      let l := Nat.log2 m
      let ip : Int := (l : Int) + e
      if m = 2 ^ l then roundFin f .rne ftz false (decide (ip < 0)) ip.natAbs 0
      else
        let r := logBits 140 (m * 2 ^ 256 / 2 ^ l) 0
        let s : Int := ip * 2 ^ 140 + r
        if 0 ≤ s then roundNonzero f .rne ftz false false s.toNat (-140) true
        else roundNonzero f .rne ftz false true ((-s).toNat - 1) (-140) true

/-! ### Conversions (R94, R95, R104) -/

/-- Converts a value to a format, saturating when `sat` (R94). FP4 always saturates and has no NaN. -/
def convert (f : FFmt) (rm : RM) (ftz sat : Bool) (x : FVal) : Res :=
  match x with
  | .nan s => if f.hasNan then nanRes f (if s then fNV else 0) else { code := 0, flags := fNV }
  | .inf n =>
    if sat then { code := f.signed n f.maxCode, flags := fNV }
    else if f.hasInf then infRes f n 0
    else { code := f.infCode, flags := fNV }
  | .fin n m e => roundFin f rm ftz sat n m e

/-- The value rounded to an integer under a mode, and whether that was inexact (R95). -/
def toInteger (rm : RM) (neg : Bool) (m : Nat) (e : Int) : Int × Bool :=
  if 0 ≤ e then
    let v : Int := (m * 2 ^ e.toNat : Nat)
    (if neg then -v else v, false)
  else
    let k := (-e).toNat
    let n := roundInt rm neg (m / 2 ^ k) (m % 2 ^ k) k false
    (if neg then -(n : Int) else (n : Int), m % 2 ^ k != 0)

/-- A conversion to an n-bit integer with least and largest value, under MODE.SAT (R95). -/
def convertInt (bits : Nat) (lo hi : Int) (sat : Bool) (rm : RM) (x : FVal) : Res :=
  let low (v : Int) : Nat := (v % (2 ^ bits : Nat)).toNat
  match x with
  | .nan _ => { code := 0, flags := fNV }
  | .inf n => { code := low (if sat && !n then hi else lo), flags := fNV }
  | .fin n m e =>
    let (v, inexact) := toInteger rm n m e
    if lo ≤ v ∧ v ≤ hi then { code := low v, flags := if inexact then fNX else 0 }
    else if sat then { code := low (if v < lo then lo else hi), flags := fNV }
    else { code := low v, flags := fNV }

/-- A conversion between integer widths under MODE.SAT, which raises no flag (R95). -/
def clampInt (bits : Nat) (sat : Bool) (v : Int) : Nat :=
  let lo : Int := -(2 ^ (bits - 1) : Nat)
  let hi : Int := (2 ^ (bits - 1) : Nat) - 1
  ((if sat then (if v < lo then lo else if hi < v then hi else v) else v) % (2 ^ bits : Nat)).toNat

/-- An integer to floating point (R95). -/
def ofInt (f : FFmt) (rm : RM) (v : Int) : Res := roundFin f rm false false (decide (v < 0)) v.natAbs 0

/-! ### Compares and classes (R196, R201) -/

/-- −1, 0 or 1 for two values that are not NaN; −0 equals +0. -/
def order (x y : FVal) : Int :=
  match x, y with
  | .inf a, .inf b => if a == b then 0 else if a then -1 else 1
  | .inf a, _ => if a then -1 else 1
  | _, .inf b => if b then 1 else -1
  | .fin n1 m1 e1, .fin n2 m2 e2 =>
    let e := min e1 e2
    let v1 : Int := (m1 * 2 ^ (e1 - e).toNat : Nat)
    let v2 : Int := (m2 * 2 ^ (e2 - e).toNat : Nat)
    let s1 := if n1 then -v1 else v1
    let s2 := if n2 then -v2 else v2
    if s1 < s2 then -1 else if s1 = s2 then 0 else 1
  | _, _ => 0

/-- Truth of a condition and NV (R201). -/
def compare (c : FCond) (x y : FVal) : Bool × Flags :=
  let un := x.isNan || y.isNan
  let quiet := snanFlag [x, y]
  let loud : Flags := if un then fNV else 0
  match c with
  | .eq => (!un && order x y == 0, quiet)
  | .ne => (un || order x y != 0, quiet)
  | .lt => (!un && decide (order x y < 0), loud)
  | .le => (!un && decide (order x y ≤ 0), loud)
  | .gt => (!un && decide (0 < order x y), loud)
  | .ge => (!un && decide (0 ≤ order x y), loud)
  | .ord => (!un, quiet)
  | .unord => (un, quiet)

/-- Bit of the class mask (R196). -/
def classOf (f : FFmt) (c : Nat) : Nat :=
  match f.value c with
  | .nan s => if s then 8 else 9
  | .inf n => if n then 0 else 7
  | .fin n m _ =>
    if m = 0 then (if n then 3 else 4)
    else if f.isSub c then (if n then 2 else 5)
    else (if n then 1 else 6)

/-! ### Scales (R84) and exact rationals -/

/-- An E3M5 code as a multiple of 2^-7; none for the NaN code (R84). -/
def e3m5 (c : Nat) : Option Nat :=
  if c = 0xFF then none
  else if c < 0x20 then some c
  else some ((c % 32 + 32) * 2 ^ (c / 32 - 1))

/-- A fraction with a positive denominator. -/
structure Q where
  num : Int
  den : Nat
deriving DecidableEq, Repr

def Q.zero : Q := { num := 0, den := 1 }
def Q.add (x y : Q) : Q := { num := x.num * y.den + y.num * x.den, den := x.den * y.den }
def Q.sub (x y : Q) : Q := { num := x.num * y.den - y.num * x.den, den := x.den * y.den }
def Q.mul (x y : Q) : Q := { num := x.num * y.num, den := x.den * y.den }
/-- x ÷ y for y ≠ 0. -/
def Q.div (x y : Q) : Q :=
  { num := x.num * y.den * (if y.num < 0 then -1 else 1), den := x.den * y.num.natAbs }
def Q.lt (x y : Q) : Bool := decide (x.num * y.den < y.num * x.den)
def Q.le (x y : Q) : Bool := decide (x.num * y.den ≤ y.num * x.den)
def Q.abs (x : Q) : Q := { x with num := x.num.natAbs }
def Q.eq (x y : Q) : Bool := decide (x.num * y.den = y.num * x.den)
/-- m × 2^e as a fraction. -/
def Q.ofDyadic (neg : Bool) (m : Nat) (e : Int) : Q :=
  let v : Int := (m * 2 ^ e.toNat : Nat)
  { num := if neg then -v else v, den := 2 ^ (-e).toNat }

/-- Four times a fraction's magnitude, rounded to FP4 codes: the nearest code with ties to an even
code, saturating (fp4_round of R98, R102). -/
def fp4Round (neg : Bool) (x : Q) : Nat :=
  let a := x.abs
  let c (n : Int) : Bool := Q.lt { num := n, den := 4 } a
  let ce (n : Int) : Bool := Q.le { num := n, den := 4 } a
  let mag := if ce 20 then 7 else if c 14 then 6 else if ce 10 then 5 else if c 7 then 4 else if ce 5 then 3
    else if c 3 then 2 else if ce 1 && c 1 then 1 else 0
  -- boundaries: 0.25 to 0 (even), 0.75 to 1 (even), 1.25 to 1, 1.75 to 2, 2.5 to 2, 3.5 to 4, 5 to 4
  let mag := if Q.eq a { num := 3, den := 4 } then 2 else if Q.eq a { num := 5, den := 4 } then 2
    else if Q.eq a { num := 7, den := 4 } then 4 else if Q.eq a { num := 10, den := 4 } then 4
    else if Q.eq a { num := 14, den := 4 } then 6 else if Q.eq a { num := 20, den := 4 } then 6 else mag
  if neg then mag + 8 else mag

/-- Magnitude of an FP4 code in halves (R82). -/
def fp4Halves (c : Nat) : Nat :=
  match c % 8 with
  | 0 => 0
  | 1 => 1
  | 2 => 2
  | 3 => 3
  | 4 => 4
  | 5 => 6
  | 6 => 8
  | _ => 12

/-- fp4_value of a code (R102). -/
def fp4Q (c : Nat) : Q :=
  { num := if 8 ≤ c % 16 then -(fp4Halves c : Int) else (fp4Halves c : Int), den := 2 }

end Sys2Proof.Machine.Fp
end

