-- ==== Sys2Proof/Machine/Tensor.lean ====
section
/-! DEFINITION. The arithmetic of the matrix engine (R99 to R101): panels (R250, R251), alignment of blocks, and
the step value. -/

namespace Sys2Proof.Machine

/-! ### Formats and panels -/

/-- Bits of an element (R75, R250). -/
def fmtBits (f : Fmt) : Nat :=
  match f with
  | .fp4 => 4
  | .int8 => 8
  | .e4m3 => 8
  | .e5m2 => 8
  | .bf16 => 16
  | .fp16 => 16

/-- W of a format (R99). -/
def fmtW (f : Fmt) : Nat :=
  match f with
  | .fp4 => 5
  | .int8 => 8
  | .e4m3 => 12
  | .e5m2 => 12
  | .bf16 => 16
  | .fp16 => 16

/-- Tokens of one activation row (R262). -/
def rowToll (f : Fmt) : Nat :=
  match f with
  | .fp4 => 6
  | .int8 => 10
  | .e4m3 => 14
  | .e5m2 => 14
  | .bf16 => 18
  | .fp16 => 18

/-- Whether a format has block and band scales (R250). -/
def fmtScaled (f : Fmt) : Bool := decide (fmtBits f ≠ 16)

/-- Format of a code (R249). -/
def fmtOf (n : Nat) : Option Fmt :=
  match n with
  | 0 => some .fp4
  | 1 => some .int8
  | 2 => some .e4m3
  | 3 => some .e5m2
  | 4 => some .bf16
  | 5 => some .fp16
  | _ => none

def fmtCode (f : Fmt) : Nat :=
  match f with
  | .fp4 => 0
  | .int8 => 1
  | .e4m3 => 2
  | .e5m2 => 3
  | .bf16 => 4
  | .fp16 => 5

/-- Bytes of the element area and of the whole panel: weights (R250) and activations (R251). -/
def weightArea (f : Fmt) : Nat := 2048 * fmtBits f
def weightBytes (f : Fmt) : Nat := if fmtScaled f then weightArea f + 2176 else weightArea f
def actArea (f : Fmt) : Nat := 512 * fmtBits f
def actBytes (f : Fmt) : Nat := if fmtScaled f then actArea f + 640 else actArea f

/-- Addresses of the bytes of element i of an area (R75). -/
def elemBytes (f : Fmt) (base i : Nat) : List Nat :=
  match fmtBits f with
  | 4 => [base + i / 2]
  | 8 => [base + i]
  | _ => [base + 2 * i, base + 2 * i + 1]

/-- Element code i of an area. -/
def elemCode (f : Fmt) (rd : Nat → Byte) (base i : Nat) : Nat :=
  match fmtBits f with
  | 4 => (rd (base + i / 2)).toNat / (if i % 2 = 1 then 16 else 1) % 16
  | 8 => (rd (base + i)).toNat
  | _ => (rd (base + 2 * i)).toNat + 256 * (rd (base + 2 * i + 1)).toNat

/-- A little-endian 16-bit value. -/
def half16 (rd : Nat → Byte) (a : Nat) : Nat := (rd a).toNat + 256 * (rd (a + 1)).toNat

/-- Value of an element code (R81, R82, R86). -/
def elemVal (f : Fmt) (c : Nat) : Fp.FVal :=
  match f with
  | .fp4 => Fp.fp4.value c
  | .int8 => .fin (decide (128 ≤ c)) (if 128 ≤ c then 256 - c else c) 0
  | .e4m3 => Fp.e4m3.value c
  | .e5m2 => Fp.e5m2.value c
  | .bf16 => Fp.bf16.value c
  | .fp16 => Fp.fp16.value c

/-- Canonical NaN code of BF16 and FP16. -/
def fmtNan (f : Fmt) : Nat :=
  match f with
  | .fp16 => Fp.fp16.nan
  | _ => Fp.bf16.nan

/-! ### Exact dyadic numbers -/

/-- m × 2^e. -/
structure Dy where
  m : Int
  e : Int
deriving DecidableEq, Repr

def Dy.zero : Dy := { m := 0, e := 0 }

def Dy.add (x y : Dy) : Dy :=
  let e := min x.e y.e
  { m := x.m * 2 ^ (x.e - e).toNat + y.m * 2 ^ (y.e - e).toNat, e := e }

def Dy.mul (x y : Dy) : Dy := { m := x.m * y.m, e := x.e + y.e }

/-- round_int_rne(m × 2^e) (R102). -/
def Dy.rint (x : Dy) : Int :=
  if 0 ≤ x.e then x.m * 2 ^ x.e.toNat
  else
    let d := 2 ^ (-x.e).toNat
    let a := x.m.natAbs
    let q := a / d
    let r := a % d
    let n := if d < 2 * r ∨ (2 * r = d ∧ q % 2 = 1) then q + 1 else q
    if x.m < 0 then -(n : Int) else n

/-- A finite value as a dyadic number; infinities and NaN give 0. -/
def Dy.of (v : Fp.FVal) : Dy :=
  match v with
  | .fin neg m e => { m := if neg then -(m : Int) else m, e := e }
  | _ => Dy.zero

/-- Round to FP32 to nearest-even, subnormals kept, an exact zero to +0.0 (R100). -/
def Dy.fp32 (x : Dy) : W32 :=
  if x.m = 0 then 0
  else BitVec.ofNat 32 (Fp.roundFin Fp.fp32 .rne false false (decide (x.m < 0)) x.m.natAbs x.e).code

/-! ### Alignment and the step value -/

/-- ⌊log2 |x|⌋ of a finite non-zero value. -/
def valExp (v : Fp.FVal) : Option Int :=
  match v with
  | .fin _ m e => if m = 0 then none else some (m.log2 + e)
  | _ => none

/-- align_block (R99): the integers, and the exponent of the power of two that scales them. -/
def alignBlock (f : Fmt) (xs : List Fp.FVal) : List Int × Int :=
  match f with
  | .fp4 => (xs.map fun x => Dy.rint { Dy.of x with e := (Dy.of x).e + 1 }, -1)
  | .int8 => (xs.map fun x => Dy.rint (Dy.of x), 0)
  | _ =>
    match xs.filterMap valExp with
    | [] => (xs.map fun _ => 0, 0)
    | e :: es =>
      let fe := es.foldl max e - (fmtW f - 2 : Nat)
      (xs.map fun x => Dy.rint { Dy.of x with e := (Dy.of x).e - fe }, fe)

/-- One side of a step: blocks of eight elements, block scales and the band scale. -/
structure Side where
  fmt : Fmt
  elems : List (List Fp.FVal)
  scales : List Nat
  band : Fp.FVal
deriving DecidableEq, Repr

/-- E3M5 code of 1.0 and a band scale of 1.0 (R84, R87). -/
def scaleOne : Nat := 0x60
def bandOne : Fp.FVal := .fin false 1 0

def fvInf (v : Fp.FVal) : Bool :=
  match v with
  | .inf _ => true
  | _ => false

def fvZero (v : Fp.FVal) : Bool :=
  match v with
  | .fin _ m _ => decide (m = 0)
  | _ => false

def fvNeg (v : Fp.FVal) : Bool :=
  match v with
  | .inf n => n
  | .fin n _ _ => n
  | .nan _ => false

/-- Signed infinity and the canonical NaN of FP32. -/
def fp32Inf (neg : Bool) : W32 := if neg then 0xFF800000 else 0x7F800000
def fp32Nan : W32 := 0x7FC00000

/-- The product of one block's integers and scales (R100). -/
def blockTerm (fa fw : Fmt) (x y : List Fp.FVal) (sa sw : Nat) : Dy :=
  let a := alignBlock fa x
  let w := alignBlock fw y
  { m := ((a.1.zip w.1).map fun p => p.1 * p.2).foldl (· + ·) 0 * ((Fp.e3m5 sa).getD 0 : Nat) * ((Fp.e3m5 sw).getD 0 : Nat)
    e := a.2 + w.2 - 14 }

/-- step_value of a row and a column (R100, R101). -/
def stepValue (a w : Side) : W32 :=
  let all := (a.elems.zip w.elems).zip (a.scales.zip w.scales)
  let used := all.filter fun b => b.2.1 != 0 && b.2.2 != 0
  if used.isEmpty then 0
  else
    let pairs := used.flatMap fun b => b.1.1.zip b.1.2
    let infs := (pairs.filter fun p => (fvInf p.1 && !fvZero p.2) || (fvInf p.2 && !fvZero p.1)).map fun p => fvNeg p.1 != fvNeg p.2
    let zeroOrInf := fun v => fvZero v || fvInf v
    let total := used.foldl (fun t b => t.add (blockTerm a.fmt w.fmt b.1.1 b.1.2 b.2.1 b.2.2)) Dy.zero
    if a.band.isNan || w.band.isNan || (used.any fun b => b.2.1 == 0xFF || b.2.2 == 0xFF) ||
        (pairs.any fun p => p.1.isNan || p.2.isNan || (fvInf p.1 && fvZero p.2) || (fvInf p.2 && fvZero p.1)) ||
        (!infs.isEmpty && (zeroOrInf a.band || zeroOrInf w.band)) || (infs.contains true && infs.contains false) ||
        (fvInf a.band && fvZero w.band) || (fvInf w.band && fvZero a.band) ||
        ((fvInf a.band || fvInf w.band) && infs.isEmpty && total.m == 0) then fp32Nan
    else
      let bandNeg := fvNeg a.band != fvNeg w.band
      match infs with
      | n :: _ => fp32Inf (n != bandNeg)
      | [] =>
        if fvInf a.band || fvInf w.band then fp32Inf (decide (total.m < 0) != bandNeg)
        else ((total.mul (Dy.of a.band)).mul (Dy.of w.band)).fp32

/-! ### Accumulators, slots and rows -/

/-- An accumulator element (R60); elements not listed are +0.0. -/
def Acc.get (a : Acc) (i : Nat) : W32 := ((a.find? fun x => x.1 == i).map (·.2)).getD 0

/-- An accumulator from the values of its 4,096 elements. -/
def Acc.make (f : Nat → W32) : Acc := (List.range 4096).filterMap fun i => if f i = 0 then none else some (i, f i)

/-- Add a step's values to an accumulator (R260): one rounding each, to nearest-even, subnormals kept. -/
def Acc.addStep (a : Acc) (rows : List (List W32)) : Acc :=
  let old := ((List.range 4096).map fun i => Acc.get a i).toArray
  let sv := (rows.flatten).toArray
  Acc.make fun i =>
    let r := Fp.add Fp.fp32 .rne false (Fp.fp32.value (old[i]?.getD 0).toNat) (Fp.fp32.value (sv[i]?.getD 0).toNat)
    BitVec.ofNat 32 r.code

/-- The weights of column n of a loaded slot (R257). -/
def slotColumn (w : WSlot) (f : Fmt) (n : Nat) : Side :=
  let es := w.elems.toArray
  let ss := w.scales.toArray
  { fmt := f
    elems := (List.range 16).map fun j => (List.range 8).map fun i => elemVal f (es[(8 * j + i) * 128 + n]?.getD 0)
    scales := (List.range 16).map fun j => if fmtScaled f then ss[128 * j + n]?.getD 0 else scaleOne
    band := if fmtScaled f then Fp.bf16.value (w.bands[n / 64]?.getD 0).toNat else bandOne }

/-- Row m of an activation panel at an address (R251). -/
def panelRow (f : Fmt) (rd : Nat → Byte) (at_ m : Nat) : Side :=
  { fmt := f
    elems := (List.range 16).map fun j => (List.range 8).map fun i => elemVal f (elemCode f rd at_ (128 * m + 8 * j + i))
    scales := (List.range 16).map fun j => if fmtScaled f then (rd (at_ + actArea f + 16 * m + j)).toNat else scaleOne
    band := if fmtScaled f then Fp.bf16.value (half16 rd (at_ + actArea f + 512)) else bandOne }

/-- Addresses of the bytes that a row of an activation panel reads. -/
def rowBytes (f : Fmt) (at_ m : Nat) : List Nat :=
  ((List.range 128).flatMap fun k => elemBytes f at_ (128 * m + k)) ++
    if fmtScaled f then ((List.range 16).map fun j => at_ + actArea f + 16 * m + j) ++ [at_ + actArea f + 512, at_ + actArea f + 513]
    else []

/-- Element (k, n) of a weight panel (R250). -/
def weightIndex (trans : Bool) (k n : Nat) : Nat := if trans then 128 * n + k else 128 * k + n

/-- Addresses of the bytes that column n of a weight panel reads. -/
def columnBytes (f : Fmt) (trans : Bool) (at_ n : Nat) : List Nat :=
  ((List.range 128).flatMap fun k => elemBytes f at_ (weightIndex trans k n)) ++
    if fmtScaled f then ((List.range 16).map fun j => at_ + weightArea f + 128 * j + n) ++
      [at_ + weightArea f + 2048 + 2 * (n / 64), at_ + weightArea f + 2049 + 2 * (n / 64)]
    else []

/-- A slot loaded from a weight panel (R257): a column with a poisoned word takes block scale 0xFF, or canonical NaN
elements where the format has no scales. -/
def loadSlot (w : WSlot) (f : Fmt) (trans : Bool) (rd : Nat → Byte) (bad : Nat → Bool) (at_ : Nat) : WSlot :=
  let worse := (List.range 128).map fun n => (columnBytes f trans at_ n).any bad
  let isBad := fun n => worse[n]?.getD false
  { w with
    loading := false
    cells := some f
    elems := (List.range 16384).map fun i =>
      if isBad (i % 128) && !fmtScaled f then fmtNan f else elemCode f rd at_ (weightIndex trans (i / 128) (i % 128))
    scales := if fmtScaled f then (List.range 2048).map fun i =>
        if isBad (i % 128) then 0xFF else (rd (at_ + weightArea f + i)).toNat
      else []
    bands := if fmtScaled f then (List.range 2).map fun c => BitVec.ofNat 16 (half16 rd (at_ + weightArea f + 2048 + 2 * c)) else [] }

/-! ### MLOOP control words (R258) -/

/-- Fields of a control word. -/
def ctlField (c : W64) (lo n : Nat) : Nat := c.toNat / 2 ^ lo % 2 ^ n

def ctlBerth (c : W64) : Nat := ctlField c 56 4
def ctlFmt (c : W64) : Option Fmt := fmtOf (ctlField c 53 3)
def ctlSlot (c : W64) (slot0 k : Nat) : Nat := (slot0 + k * ctlField c 50 3) % 8
def ctlSteps (c : W64) : Nat := ctlField c 32 16
/-- Offset of panel k in the berth. -/
def ctlPanel (c : W64) (k : Nat) : Int :=
  128 * ((ctlField c 0 16 : Int) + k * (BitVec.ofNat 16 (ctlField c 16 16)).toInt)

/-- Stash bytes that an operation reads, as first address and length of each run (R250, R251, R264). -/
def kindReads (k : SeqKind) : List (Nat × Nat) :=
  match k with
  | .mldw _ f _ a _ => [(a, weightBytes f)]
  | .mlda _ a => [(a, 16384)]
  | .mloop _ c _ base =>
    match ctlFmt c with
    | some f => (List.range (ctlSteps c)).map fun i => (((base : Int) + ctlPanel c i).toNat, actBytes f)
    | none => []
  | _ => []

/-- Bytes that an MSTA form writes (R265). -/
def mstaBytes (f : MstaFmt) : Nat :=
  match f with
  | .f32 => 16384
  | .bf16 => 8192
  | .f16 => 8192

/-- Stash bytes that an operation writes: first address and number. -/
def kindDest (k : SeqKind) : List (Nat × Nat) :=
  match k with
  | .msta _ f _ a => [(a, mstaBytes f)]
  | _ => []

/-- Whether an operation writes an accumulator, and whether it reads or writes it. -/
def kindWrites (k : SeqKind) (a : Nat) : Bool :=
  match k with
  | .mloop x _ _ _ => x == a
  | .mzero x => x == a
  | .mlda x _ => x == a
  | _ => false

def kindTouches (k : SeqKind) (a : Nat) : Bool :=
  kindWrites k a || match k with
    | .msta x _ _ _ => x == a
    | _ => false

end Sys2Proof.Machine
end

