-- ==== Sys2Proof/Machine/Translate.lean ====
section
/-! DEFINITION. Address translation (R300 to R309, R314): canonical addresses, regions, walks, the TLB and
the permissions of leaves. -/

namespace Sys2Proof.Machine

/-- What an access needs of a leaf (R307). -/
structure Need where
  r : Bool
  w : Bool
  x : Bool
deriving DecidableEq, Repr

def Need.load : Need := { r := true, w := false, x := false }
def Need.store : Need := { r := true, w := true, x := false }
def Need.fetch : Need := { r := false, w := false, x := true }

/-- Whether permissions grant an access. -/
def Perms.grant (p : Perms) (n : Need) : Bool := (!n.r || p.r) && (!n.w || p.w) && (!n.x || p.x)

/-- Canonical addresses: bits [63:57] equal bit 56 (R300). -/
def canonical (va : W64) : Bool := (va.extractLsb' 56 8 == 0) || (va.extractLsb' 56 8 == 0xFF)

/-- Region of an address (R301). -/
def regionIndex (va : W64) : Nat := (va.extractLsb' 53 4).toNat

/-- Bytes of a page (R301). -/
def pageBytes (psz : Nat) : Nat :=
  match psz with
  | 0 => 2 ^ 12
  | 1 => 2 ^ 16
  | 2 => 2 ^ 21
  | _ => 2 ^ 30

/-- Low bit and width of the index of each level (R302). -/
def walkGeometry (psz : Nat) : List (Nat × Nat) :=
  match psz with
  | 0 => [(50, 3), (37, 13), (24, 13), (12, 12)]
  | 1 => [(42, 11), (29, 13), (16, 13)]
  | 2 => [(47, 6), (34, 13), (21, 13)]
  | _ => [(43, 10), (30, 13)]

def field (w : W64) (lo n : Nat) : Nat := w.toNat / 2 ^ lo % 2 ^ n

/-- A table entry that is valid and well formed (R303, R304): the next table's address. -/
def tableNext (e : W64) : Option Nat :=
  let next := field e 16 36 * 2 ^ 16
  if field e 0 1 = 1 ∧ field e 52 12 = 0 ∧ field e 1 15 = 0 ∧ next < Config.hbmEnd then some next else none

/-- A leaf entry that is valid and well formed (R303). -/
def leafOk (psz : Nat) (e : W64) : Bool :=
  let mem := field e 4 2
  decide (field e 0 1 = 1) && decide (field e 52 8 = 0) && decide (field e 6 6 = 0) &&
  decide (mem ≠ 3) && !(e.getLsbD 2 && e.getLsbD 3) &&
  decide (field e 12 40 * 2 ^ 12 % pageBytes psz = 0) &&
  (match mem with
   | 0 => decide (field e 60 4 = 0)
   | 1 => decide (field e 61 3 = 0)
   | _ => true)

def leafPerms (e : W64) : Perms := { r := e.getLsbD 1, w := e.getLsbD 2, x := e.getLsbD 3 }

def leafSpace (e : W64) : Space :=
  match field e 4 2 with
  | 1 => .host (field e 60 1)
  | 2 => .peer (field e 60 4)
  | _ => .hbm

def leafFrame (e : W64) : Nat := field e 12 40 * 2 ^ 12

namespace State

/-- A page found by a walk. -/
structure Page where
  /-- first virtual address and bytes -/
  va : Nat
  size : Nat
  leaf : W64
deriving DecidableEq, Repr

/-- Address-space number that tags the TLB: the context, or 64 for the firmware region that a group in
emulation sees at VA[56:53] = 15 (R346). -/
def asid (s : State) (g : Nat) (va : W64) : Nat :=
  if (s.grp g).arch.emu.isSome && regionIndex va == 15 then 64 else (s.grp g).arch.ctx

/-- The region attribute entry that serves an address. -/
def regionEntry (s : State) (a : Nat) (va : W64) : W64 :=
  if a = 64 then (if regionIndex va = 15 then Config.firmwareRegion else 0) else (s.cx a).regions[regionIndex va]?.getD 0

/-- Entries of a table as the walker reads them: held, or at the home slice (R304, R305). -/
def tableEntry (s : State) (c a addr : Nat) (useHeld : Bool) : W64 :=
  match (s.cor c).walk.find? fun e => useHeld && e.ctx == a && e.addr == addr with
  | some e => e.entry
  | none => w64Of (s.mem.readBytes addr 8)

/-- Walk of the levels left (R302, R304): the leaf, or the entry at which the walk stopped; and the table
entries used. -/
def walkFrom (s : State) (c a : Nat) (va : W64) (psz : Nat) (useHeld : Bool) :
    List (Nat × Nat) → Nat → List WalkEntry → Option W64 × List WalkEntry
  | [], _, us => (none, us)
  | [(lo, n)], table, us =>
    let e := s.tableEntry c a (table + 8 * field va lo n) useHeld
    (if leafOk psz e then some e else none, us)
  | (lo, n) :: ls, table, us =>
    let addr := table + 8 * field va lo n
    let e := s.tableEntry c a addr useHeld
    match tableNext e with
    | none => (none, us)
    | some next => walkFrom s c a va psz useHeld ls next (us ++ [{ ctx := a, addr := addr, entry := e }])

/-- Whether an entry is malformed, valid or not (R303, R304): its layout is not that of its level. -/
def malformed (last : Bool) (psz : Nat) (e : W64) : Bool :=
  if last then !leafOk psz (e ||| 1) else (tableNext (e ||| 1)).isNone

/-- Physical address of the malformed entry at which a walk of the levels left stops, where one does (R303). -/
def badEntryFrom (s : State) (c a : Nat) (va : W64) (psz : Nat) : List (Nat × Nat) → Nat → Option Nat
  | [], _ => none
  | (lo, n) :: ls, table =>
    let addr := table + 8 * field va lo n
    let e := s.tableEntry c a addr true
    if malformed ls.isEmpty psz e then some addr
    else match tableNext e with
      | none => none
      | some next => badEntryFrom s c a va psz ls next

/-- The malformed entry that Thavin's record of a page fault names (R303): a region entry whose ROOT lies outside device HBM
(R304), or one of a table. -/
def badEntry (s : State) (c a : Nat) (va : W64) : Option BadEntry :=
  let r := s.regionEntry a va
  let psz := field r 52 3
  let root := field r 16 36 * 2 ^ 16
  if !canonical va then none
  else if root ≥ Config.hbmEnd then some (.region (regionIndex va))
  else if !r.getLsbD 63 || decide (psz > 3) then none
  else (s.badEntryFrom c a va psz (walkGeometry psz) root).map .table

/-- Whether a leaf maps a 64 KiB page that Thavin has retired, for which it invalidates every leaf (R335). -/
def retired (s : State) (psz : Nat) (e : W64) : Bool :=
  let f := leafFrame e
  leafSpace e == .hbm && s.retiredPages.any fun p => decide (p * 65536 < f + pageBytes psz) && decide (f < (p + 1) * 65536)

/-- A walk (R301 to R304). A leaf of a retired page counts as invalid (R335). -/
def walkPage (s : State) (c a : Nat) (va : W64) (useHeld : Bool) : Option Page × List WalkEntry :=
  let r := s.regionEntry a va
  let psz := field r 52 3
  let root := field r 16 36 * 2 ^ 16
  if !r.getLsbD 63 || decide (psz > 3) || decide (root ≥ Config.hbmEnd) then (none, [])
  else
    match s.walkFrom c a va psz useHeld (walkGeometry psz) root [] with
    | (some e, us) =>
      if s.retired psz e then (none, us) else
      (some { va := va.toNat / pageBytes psz * pageBytes psz, size := pageBytes psz, leaf := e }, us)
    | (none, us) => (none, us)

/-- First and end address of the HBM stacks of a partition: 8 / P consecutive stacks (R375). -/
def partHbm (s : State) (p : Nat) : Nat × Nat :=
  let n := 8 / max 1 s.parts.length
  (p * n * Config.stackBytes, (p + 1) * n * Config.stackBytes)

/-- Whether a page's HBM frame lies outside the stacks of a context's partition (R375). -/
def foreign (s : State) (a : Nat) (pg : Page) : Bool :=
  let f := leafFrame pg.leaf
  let h := s.partHbm (s.cx a).part
  leafSpace pg.leaf == .hbm && a != 64 && (decide (f < h.1) || decide (h.2 < f + pg.size))

/-- Permissions of a page for a context: an HBM frame outside its partition's stacks grants none (R375). -/
def pagePerms (s : State) (a : Nat) (pg : Page) : Perms :=
  if s.foreign a pg then { r := false, w := false, x := false } else leafPerms pg.leaf

/-- The key of an address in a page. -/
def Page.key (pg : Page) (va : W64) : Nat :=
  (leafSpace pg.leaf).key (leafFrame pg.leaf + (va.toNat - pg.va))

/-- Place of a byte of a context's memory, whatever its leaf grants; a frame outside the partition's stacks is no place of it
(R375, R380). -/
def placeOf (s : State) (a : Nat) (va : W64) : Option Nat :=
  if canonical va then
    match (s.walkPage 0 a va false).1 with
    | some pg => if s.foreign a pg then none else some (pg.key va)
    | none => none
  else none

/-- The last n elements of a list. -/
def lastN {α : Type} (n : Nat) (xs : List α) : List α := xs.drop (xs.length - n)

/-- Hold a page and walker entries in a core's TLB, replacing an entry of the same page; the oldest entries
leave when it is full (R305). -/
def fillTlb (s : State) (c a : Nat) (pg : Page) (us : List WalkEntry) : State :=
  s.modC c fun k =>
    { k with
      tlb := lastN Config.tlbEntries
        (k.tlb.filter (fun (e : TlbEntry) => !(e.ctx == a && e.va == pg.va)) ++
          [{ ctx := a, va := pg.va, size := pg.size, leaf := pg.leaf }])
      walk := lastN Config.walkEntries
        (k.walk.filter (fun (e : WalkEntry) => !us.any fun u => u.ctx == e.ctx && u.addr == e.addr) ++ us) }

/-- Outcomes of a translation (R307). -/
inductive Xl where
  | ok (key : Nat) (pg : Page)
  | page
  | perm
deriving DecidableEq, Repr

/-- The one re-walk that bypasses the TLB and the held table entries (R307, R314). -/
def rewalk (s : State) (c a : Nat) (n : Need) (va : W64) : Xl × State :=
  match s.walkPage c a va false with
  | (some pg, us) => if (s.pagePerms a pg).grant n then (.ok (pg.key va) pg, s.fillTlb c a pg us) else (.perm, s)
  | (none, _) => (.perm, s)

/-- The TLB entry that covers an address (R305). -/
def tlbFind (s : State) (c a : Nat) (va : W64) : Option Page :=
  ((s.cor c).tlb.find? fun e => e.ctx == a && decide (e.va ≤ va.toNat) && decide (va.toNat < e.va + e.size)).map
    fun e => { va := e.va, size := e.size, leaf := e.leaf }

/-- Translate an address through the TLB of a core (R300, R305, R307). -/
def translate (s : State) (c a : Nat) (n : Need) (va : W64) : Xl × State :=
  if !canonical va then (.perm, s)
  else
    match s.tlbFind c a va with
    | some pg => if (s.pagePerms a pg).grant n then (.ok (pg.key va) pg, s) else s.rewalk c a n va
    | none =>
      match s.walkPage c a va true with
      | (none, _) => (.page, s)
      | (some pg, us) =>
        if (s.pagePerms a pg).grant n then (.ok (pg.key va) pg, s.fillTlb c a pg us) else s.rewalk c a n va

/-- Bytes from an address to the end of the run of pages mapped physically contiguously with the same
permissions, up to `want` bytes; at most `fuel` further pages are looked at (R180). -/
def runLength (s : State) (c a : Nat) (va : W64) (pg : Page) (want : Nat) : Nat → Nat
  | 0 => pg.va + pg.size - va.toNat
  | fuel + 1 =>
    let here := pg.va + pg.size - va.toNat
    if want ≤ here then here
    else
      let nva : W64 := BitVec.ofNat 64 (pg.va + pg.size)
      if pg.va + pg.size < 2 ^ 64 ∧ canonical nva then
        match (s.walkPage c a nva true).1 with
        | some q =>
          if leafSpace q.leaf = leafSpace pg.leaf ∧ leafFrame q.leaf = leafFrame pg.leaf + pg.size ∧
              s.pagePerms a q = s.pagePerms a pg
          then here + s.runLength c a nva q (want - here) fuel
          else here
        | none => here
      else here

/-- What ANCH writes for a base and a length (R180): frame and limit 0 where the base does not map. -/
def anchor (s : State) (c a : Nat) (base len : W64) : XReg :=
  let psz : BitVec 3 := BitVec.ofNat 3 (field (s.regionEntry a base) 52 3)
  let off : XReg := { frame := 0, limit := 0, base := base, stale := false, psz := psz, space := .hbm, perm := none }
  if !canonical base then { off with perm := some { r := false, w := false, x := false } }
  else
    match (s.walkPage c a base true).1 with
    | none => { off with perm := some { r := false, w := false, x := false } }
    | some pg =>
      { off with
        frame := BitVec.ofNat 52 (leafFrame pg.leaf + (base.toNat - pg.va))
        limit := BitVec.ofNat 64 (min len.toNat (s.runLength c a base pg len.toNat (len.toNat / 4096 + 1)))
        space := leafSpace pg.leaf
        perm := some (s.pagePerms a pg) }

/-- A translation register ready for use: the stale path re-anchors its base with the stored limit, and the
first use after a return recovers the kept permissions; a base that no longer maps leaves frame and limit 0 (R306). -/
def usableX (s : State) (g n : Nat) : XReg × State :=
  let x := (s.regsOf g).x[n]?.getD XReg.entry
  let c := s.coreOf g
  if x.stale then
    let y := s.anchor c (s.asid g x.base) x.base x.limit
    (y, s.modR g fun r => { r with x := r.x.setIfInBounds n y })
  else
    match x.perm with
    | some _ => (x, s)
    | none =>
      let z := s.anchor c (s.asid g x.base) x.base x.limit
      let y := if (s.walkPage c (s.asid g x.base) x.base true).1.isSome && canonical x.base then { x with perm := z.perm } else z
      (y, s.modR g fun r => { r with x := r.x.setIfInBounds n y })

/-- Frame path or TLB path of one access of `n` bytes at offset `o` (R213, R314): the key of each byte, or
the fault and its address. -/
def locate (s : State) (g : Nat) (x : XReg) (need : Need) (o : W64) (n : Nat) :
    Except (Bool × W64) (List Nat) × State :=
  let va := x.base + o
  let c := s.coreOf g
  let viaFrame := o.toInt ≥ 0 ∧ o.toNat + n ≤ x.limit.toNat
  if viaFrame ∧ (x.perm.getD { r := false, w := false, x := false }).grant need then
    (.ok ((List.range n).map fun i => x.space.key (x.frame.toNat + o.toNat + i)), s)
  else
    let tr := fun (s : State) (v : W64) => if viaFrame then s.rewalk c (s.asid g v) need v else s.translate c (s.asid g v) need v
    match tr s va with
    | (.perm, s) => (.error (false, va), s)
    | (.page, s) => (.error (true, va), s)
    | (.ok k pg, s) =>
      if va.toNat + n ≤ pg.va + pg.size then (.ok ((List.range n).map (k + ·)), s)
      else
        let next := BitVec.ofNat 64 (pg.va + pg.size)
        match tr s next with
        | (.perm, s) => (.error (false, next), s)
        | (.page, s) => (.error (true, next), s)
        | (.ok k2 _, s) =>
          let first := pg.va + pg.size - va.toNat
          (.ok ((List.range n).map fun i => if i < first then k + i else k2 + (i - first)), s)

end State

end Sys2Proof.Machine
end

