-- ==== Sys2Proof/Machine/Access.lean ====
section
/-! DEFINITION. Data on its way between a group and memory: points of coherence and their poison (R138,
R334), cluster caches (R144, R145), the pound (R157, R323), the stash with its log and held sectors (R140 to
R143, R159), watches (R155) and watchpoints (R394). -/

namespace Sys2Proof.Machine

/-- Why an instruction does not commit. -/
inductive Stop where
  /-- a trap of R340 -/
  | trap (t : TrapInfo)
  /-- a page fault at an address -/
  | page (va : W64)
  /-- a page or permission fault at an address, after the core has rewritten a translation register (R306) -/
  | kept (n : Nat) (x : XReg) (page : Bool) (va : W64)
  /-- the group is not ready: nothing happens -/
  | hold
  /-- the group first enters WAIT at the instruction -/
  | await (w : WaitFor)
  /-- the group is not ready until sectors of bound berths are filled (R141) -/
  | fill (t : Nat) (fs : List Fill)
  /-- the instruction's whole outcome is this state, and it commits nothing further -/
  | goto (s : State)
deriving DecidableEq, Repr

def TrapInfo.of (c : TrapClass) : TrapInfo := { cls := c, operand := 0, imm := 0, s2 := 0 }
/-- The poison-consumed trap names the operand that was poisoned, the first of those listed (R205, R286). -/
def TrapInfo.poisonOf (xs : List (Nat × Bool)) : TrapInfo :=
  { cls := .poison, operand := ((xs.find? (·.2)).map (·.1)).getD 0, imm := 0, s2 := 0 }
def TrapInfo.operandN (n : Nat) : TrapInfo := { cls := .illegalOperand, operand := n, imm := 0, s2 := 0 }
def TrapInfo.at_ (c : TrapClass) (va : W64) : TrapInfo := { cls := c, operand := 0, imm := 0, s2 := va }

/-- A berth fault: berth in [51:48] and offset in [19:0] of s2 (R218, R286). -/
def TrapInfo.berth (b : Nat) (o : W64) : TrapInfo :=
  .at_ .permission (BitVec.ofNat 64 (b * 2 ^ 48 + o.toNat % 2 ^ 20))

/-- A number of n bits from its bits. -/
def bitsNat : Nat → (Nat → Bool) → Nat
  | 0, _ => 0
  | n + 1, p => bitsNat n p + if p n then 2 ^ n else 0

/-- A word over the 32 threads. -/
def maskOf (p : Nat → Bool) : W32 := BitVec.ofNat 32 (bitsNat 32 p)

/-- Put a value into a list of keyed writes, the later write standing (R152). -/
def putByte (ws : List ByteWrite) (w : ByteWrite) : List ByteWrite := ws.filter (fun x => x.1 != w.1) ++ [w]

def mergeBytes (old new : List ByteWrite) : List ByteWrite := new.foldl putByte old

/-- Apply an atomic operation of a form to an old value (R221); fadd with its flags. -/
def atApply32 (op : AtOp) (old b : W32) : W32 × BitVec 5 :=
  match op with
  | .add => (old + b, 0)
  | .min => (if old.slt b then old else b, 0)
  | .max => (if old.slt b then b else old, 0)
  | .and => (old &&& b, 0)
  | .or => (old ||| b, 0)
  | .xor => (old ^^^ b, 0)
  | .exch => (b, 0)
  | .incwrap => (if b.toNat ≤ old.toNat then 0 else old + 1, 0)
  | .fadd =>
    let r := Fp.add Fp.fp32 .rne false (Fp.fp32.value old.toNat) (Fp.fp32.value b.toNat)
    (BitVec.ofNat 32 r.code, r.flags)

def atApply64 (op : AtOp64) (old b : W64) : W64 :=
  match op with
  | .add => old + b
  | .min => if old.slt b then old else b
  | .max => if old.slt b then b else old
  | .and => old &&& b
  | .or => old ||| b
  | .xor => old ^^^ b
  | .exch => b

/-- Bytes of an atomic form. -/
def atBytes : AtForm → Nat
  | .f32 _ => 4
  | .f64 _ => 8

/-- New value of an atomic form on the old bytes, with its flags. -/
def atApply (f : AtForm) (old v : W64) : W64 × BitVec 5 :=
  match f with
  | .f32 op => let r := atApply32 op (old.setWidth 32) (v.setWidth 32); (r.1.setWidth 64, r.2)
  | .f64 op => (atApply64 op old v, 0)

namespace State

/-! ### Points of coherence -/

/-- Whether the byte's codeword is poisoned (R334). -/
def pocPoison (s : State) (k : Nat) : Bool := s.poison.contains (k / 64)

/-- A sector that a berth of another team holds dirty, or held and is writing back, blocks a read but for that of a reader whose
snoop has been served; a held one blocks every write (R143). -/
def readBlocked (s : State) (own : Option Nat) (who : Reader) (sec : Nat) : Bool :=
  (s.teams.zipIdx.any fun t => some t.2 != own && t.1.held.any fun h => h.key == sec && h.dirty != 0 && !h.served.contains who) ||
    s.groups.any fun x => some x.team != own && x.wbsets.any fun b => b.held.any fun h => h.key == sec && h.dirty != 0

/-- A reader takes the bytes that its served snoops wrote back (R143). -/
def takeServed (s : State) (who : Reader) (secs : List Nat) : State :=
  if s.teams.any fun t => t.held.any fun h => secs.contains h.key && h.served.contains who then
    let take := fun (h : Held) => if secs.contains h.key then { h with served := h.served.filter (· != who) } else h
    { s with teams := s.teams.map fun t => { t with held := t.held.map take } }
  else s

def writeBlocked (s : State) (sec : Nat) : Bool :=
  (s.teams.any fun t => t.held.any fun h => h.key == sec) ||
    s.groups.any fun x => x.wbsets.any fun b => b.held.any fun h => h.key == sec && h.dirty != 0

/-- Fire the watches that cover bytes, but for those of some groups (R155). -/
def fireWatch (s : State) (exc : Nat → Bool) (ks : List Nat) : State :=
  { s with groups := s.groups.zipIdx.map fun (x, i) =>
      if exc i then x
      else { x with fences := x.fences.map fun f =>
        { f with fired := f.fired ++ distinct ((f.watch.filter fun w => ks.contains w.2 && !f.fired.contains w.1).map (·.1)) } } }

/-- Lines that a slice can hold, in the ways that are in use (R2, R12, R335). -/
def sliceRoom (s : State) (n : Nat) : Nat :=
  Config.sliceLines - Config.sliceSets * (distinct ((s.retiredWays.filter fun w => w.1 == n).map (·.2))).length

/-- Flits of 64 bytes in the dirty sectors of a line (R14, R23). -/
def OwnedLine.flits (x : OwnedLine) : Nat := 2 * ((if x.dirty.getLsbD 0 then 1 else 0) + if x.dirty.getLsbD 1 then 1 else 0)

/-- The dirty sectors of lines of the shared cache are written to their HBM stack and leave it (R14). -/
def writeLines (s : State) (ls : List OwnedLine) : State :=
  ls.foldl (fun (s : State) x =>
    { s with owned := s.owned.filter fun y => y.line != x.line }.sendLine x.owner none (homePlace (256 * x.line))
      (controllerPlace (256 * x.line)) (256 * x.line) (OwnedLine.flits x)) s

/-- Slices whose dirty lines exceed the slice's size write their oldest ones to their HBM stack (R2, R12). DESIGN CHOICE
(log 17): the order of eviction. -/
def boundSlices (s : State) (slices : List Nat) : State :=
  if s.owned.length ≤ Config.sliceLines ∧ s.retiredWays = [] then s
  else
    slices.foldl (fun s n =>
      let mine := s.owned.filter fun x => sliceOf (256 * x.line) == n
      s.writeLines (mine.take (mine.length - s.sliceRoom n))) s

/-- A set of bytes arrives at its points of coherence (R139, R334, R335): a line that another context dirtied is written back
first. -/
def pocWrite (s : State) (exc : Nat → Bool) (ctx : Nat) (ws : List ByteWrite) : State :=
  let ws := ws.map fun w => if s.ecc.sectors.contains (w.1 / 128) then (w.1, w.2.1, true) else w
  let cws := distinct (ws.map fun w => w.1 / 64)
  let lines := distinct ((ws.filter fun w => w.1 < 2 ^ 52).map fun w => w.1 / 256)
  let s := s.writeLines (s.owned.filter fun x => lines.contains x.line && x.owner != ctx)
  let pois := cws.foldl (fun (p : List Nat) (c : Nat) =>
      if (ws.any fun w => w.1 / 64 == c && w.2.2) = true then (if p.contains c then p else p ++ [c])
      else if ((List.range 64).all fun i => ws.any fun w => w.1 == c * 64 + i) = true then p.filter (· != c)
      else p) s.poison
  let bits := fun (l : Nat) => ((if ws.any (fun w => w.1 / 128 == 2 * l) then 1 else 0) ||| (if ws.any (fun w => w.1 / 128 == 2 * l + 1) then 2 else 0) : BitVec 2)
  let old := fun (l : Nat) => ((s.owned.find? fun x => x.line == l).map (·.dirty)).getD 0
  let own := lines.foldl (fun (o : List OwnedLine) (l : Nat) =>
      o.filter (fun (x : OwnedLine) => x.line != l) ++ if ctx < noCtx then [{ line := l, owner := ctx, dirty := old l ||| bits l }] else []) s.owned
  let s1 : State := { s with mem := s.mem.writeAll (ws.map fun w => (w.1, w.2.1)), poison := pois, owned := own }
  ((s1.boundSlices (lines.map fun l => sliceOf (256 * l))).chargeBytes ctx (ws.map fun w => w.1)).fireWatch exc (ws.map fun w => w.1)

/-! ### Cluster cache (R144, R145) -/

def csector (s : State) (cl sec : Nat) : Option CSector := (s.clu cl).cache.find? fun x => x.key == sec

/-- Dirty bytes of a cached sector that satisfy a test. -/
def dirtyOf (x : CSector) (p : Nat → Bool) : List ByteWrite :=
  (List.range 128).filterMap fun i =>
    match (x.bytes[i]?).getD none with
    | some b => if b.dirty && p (x.key + i) then some (x.key + i, b.val, x.poison.getLsbD (i / 4)) else none
    | none => none

/-- A cluster cache that holds more than its size evicts a sector (R2, R15), a dirty one being written back (R139). A sector
that a berth holds is not written while it is held (R143). DESIGN CHOICE (log 17): the clean sector longest in the cache
goes, or the longest of all. -/
def evictSector (s : State) (cl : Nat) : State :=
  let cache := (s.clu cl).cache
  if cache.length ≤ Config.cacheSectors then s
  else
    let dirty := fun (x : CSector) => dirtyOf x fun _ => true
    let drop := fun (s : State) (x : CSector) => s.modCl cl fun c => { c with cache := c.cache.filter fun y => y.key != x.key }
    match cache.find? fun x => (dirty x).isEmpty with
    | some x => drop s x
    | none =>
      match cache.find? fun x => !s.writeBlocked x.key with
      | some x => drop ((s.pocWrite (fun g => s.clusterOf g == cl) x.writer (dirty x)).moveSector x.writer none cl x.key false) x
      | none => s

/-- A sector enters a cluster cache, or changes there. -/
def putSector (s : State) (cl : Nat) (x : CSector) : State :=
  (s.modCl cl fun c => { c with cache := c.cache.filter (fun (y : CSector) => y.key != x.key) ++ [x] }).evictSector cl

/-- The byte and its state in the cache. -/
def cbyte (s : State) (cl k : Nat) : Option CByte :=
  match s.csector cl (sectorOf k) with
  | some x => (x.bytes[k % 128]?).getD none
  | none => none

/-- Poison words of a sector as the point of coherence gives them. -/
def pocPoisonWords (s : State) (sec : Nat) : W32 :=
  (if s.pocPoison sec then 0xFFFF else 0) ||| (if s.pocPoison (sec + 64) then 0xFFFF0000 else 0)

/-- Fetch the invalid bytes of a sector for a context (R145): a fill of a sector with no valid byte sets the tag and clears
SHARED; with bytes of another context left, SHARED is set. DEDUCED (log 18): R145's fill is of a sector that holds nothing. -/
def fillSector (s : State) (cl ctx : Nat) (tag : Option Nat) (sec : Nat) : State :=
  match s.csector cl sec with
  | none =>
    ((s.chargeBytes ctx ((List.range 128).map (sec + ·))).moveSector ctx tag cl sec true).putSector cl
      { key := sec, bytes := Vector.ofFn fun i => some { val := s.mem.read (sec + i), dirty := false },
        poison := s.pocPoisonWords sec, tag := ctx, shared := false, writer := ctx }
  | some x =>
    let gaps := ((List.range 128).filter fun i => (x.bytes[i]?).getD none == none).map (sec + ·)
    let first := decide (128 ≤ gaps.length)
    ((s.chargeBytes ctx gaps).moveSector ctx tag cl sec true).putSector cl
      { x with
        bytes := Vector.ofFn fun i => some ((x.bytes[i]).getD { val := s.mem.read (sec + i), dirty := false })
        poison := (x.poison &&& maskOf fun w => (List.range 4).any fun j => (x.bytes[4 * w + j]?).getD none != none) |||
          (s.pocPoisonWords sec &&& maskOf fun w => (List.range 4).any fun j => (x.bytes[4 * w + j]?).getD none == none)
        tag := if first then ctx else x.tag
        shared := !first && (x.shared || x.tag != ctx) }

/-- A sector is used by a context that did not fill it (R145). -/
def shareSector (s : State) (cl ctx sec : Nat) : State :=
  match s.csector cl sec with
  | none => s
  | some x => s.putSector cl { x with shared := x.shared || x.tag != ctx }

/-- Bytes written into a cluster cache become dirty (R144, R145). -/
def cacheWriteSector (s : State) (cl ctx sec : Nat) (ws : List ByteWrite) : State :=
  let x := (s.csector cl sec).getD
    { key := sec, bytes := Vector.replicate 128 none, poison := 0, tag := ctx, shared := false, writer := ctx }
  let find := fun k => ws.find? fun w => w.1 == k
  s.putSector cl
    { x with
      bytes := Vector.ofFn fun i =>
        match find (sec + i) with
        | some w => some { val := w.2.1, dirty := true }
        | none => x.bytes[i]
      poison := maskOf fun w =>
        let here := (List.range 4).map fun j => find (sec + 4 * w + j)
        let new := here.any fun o => match o with | some y => y.2.2 | none => false
        if here.all Option.isSome then new else x.poison.getLsbD w || new
      shared := x.shared || x.tag != ctx
      writer := ctx }

def cacheWrite (s : State) (exc : Nat → Bool) (cl ctx : Nat) (ws : List ByteWrite) : State :=
  ((distinct (ws.map fun w => sectorOf w.1)).foldl
    (fun s sec => s.cacheWriteSector cl ctx sec (ws.filter fun w => sectorOf w.1 == sec)) s).fireWatch exc
    (ws.map (·.1))

/-- Whether a sector belongs to a context (R145). -/
def belongs (x : CSector) (ctx : Nat) : Bool := x.tag == ctx || x.shared

/-- Write back the dirty bytes of a cluster cache that satisfy a test; they stay as clean bytes (R139). A
sector that a berth holds is not written while it is held (R143). -/
def writeBack (s : State) (cl : Nat) (sel : CSector → Bool) (p : Nat → Bool) : State :=
  ((s.clu cl).cache.filter fun x => sel x && !s.writeBlocked x.key).foldl
    (fun s x =>
      let ws := dirtyOf x p
      if ws.isEmpty then s
      else
        ((s.pocWrite (fun g => s.clusterOf g == cl) x.writer ws).moveSector x.writer none cl x.key false).putSector cl
          { x with bytes := x.bytes.zipIdx.map fun (b, i) =>
              match b with
              | some v => if p (x.key + i) then some { v with dirty := false } else some v
              | none => none }) s

/-- Whether some dirty byte that satisfies a test is left. -/
def anyDirty (s : State) (cl : Nat) (sel : CSector → Bool) (p : Nat → Bool) : Bool :=
  (s.clu cl).cache.any fun x => sel x && !(dirtyOf x p).isEmpty

/-- Keys of the clean bytes of a cluster cache that satisfy a test. -/
def cleanKeys (s : State) (cl : Nat) (sel : CSector → Bool) (p : Nat → Bool) : List Nat :=
  (s.clu cl).cache.flatMap fun x =>
    if sel x then (List.range 128).filterMap fun i =>
      match (x.bytes[i]?).getD none with
      | some v => if !v.dirty && p (x.key + i) then some (x.key + i) else none
      | none => none
    else []

/-- Invalidate the clean bytes that satisfy a test (R145, R229). -/
def invalidate (s : State) (cl : Nat) (sel : CSector → Bool) (p : Nat → Bool) : State :=
  s.modCl cl fun c =>
    { c with cache := c.cache.map fun x =>
        if sel x then
          { x with bytes := x.bytes.zipIdx.map fun (b, i) =>
              match b with
              | some v => if !v.dirty && p (x.key + i) then none else some v
              | none => none }
        else x }

/-- The clean bytes of a sector that a berth holds, or held, leave its cluster's cache, so that the cluster meets the bytes
that the berth writes back (R144, R150). -/
def dropClean (s : State) (cl sec : Nat) : State :=
  if (s.clu cl).cache.any fun x => x.key == sec then s.invalidate cl (fun x => x.key == sec) fun _ => true else s

/-- Remove bytes from every cluster cache before an atomic access, dirty bytes being written back first
(R147). -/
def purge (s : State) (ks : List Nat) : State :=
  (List.range Config.clusters).foldl
    (fun s cl =>
      if (s.clu cl).cache.any fun x => ks.any fun k => sectorOf k == x.key then
        (s.writeBack cl (fun _ => true) ks.contains).invalidate cl (fun _ => true) ks.contains
      else s) s

/-! ### Pound (R323) -/

/-- Entries of a core's pound. -/
def poundOf (s : State) (g : Nat) : List PEntry := (s.cor (s.coreOf g)).pound

def modPound (s : State) (g : Nat) (f : List PEntry → List PEntry) : State :=
  s.modC (s.coreOf g) fun c => { c with pound := f c.pound }

/-- Append an entry of a reach of a group. -/
def addEntryFor (s : State) (g rid : Nat) (k : PKind) (ops : List Nat) : State :=
  let e : PEntry := { kind := k, gid := g, reach := rid, ctx := (s.grp g).arch.ctx, seq := s.nextSeq,
                      cleared := false, ops := ops, bad := none, gone := [], rel := (s.grp g).arch.rel }
  { s.modPound g (· ++ [e]) with nextSeq := s.nextSeq + 1 }

/-- Append an entry of the group's executing reach. -/
def addEntry (s : State) (g : Nat) (k : PKind) (ops : List Nat) : State := s.addEntryFor g (s.reachId g) k ops

/-- A record from which an instruction would re-execute (R207, R223, R292); once no reach is open that a squash could take,
none is needed. -/
def addRecord (s : State) (g : Nat) (k : PKind) : State := if (s.grp g).reaches.isEmpty then s else s.addEntry g k []

/-- Whether an entry of a group's executing reach is a store or a remote atomic of one sector. -/
def onSector (s : State) (g sec : Nat) (e : PEntry) : Bool :=
  e.gid == g && e.reach == s.reachId g && e.ctx == (s.grp g).arch.ctx &&
    match e.kind with
    | .store x _ _ => x == sec
    | .atomr accs _ => accs.any fun a => sectorOf a.key == sec
    | _ => false

/-- Bytes of one sector enter the pound; stores to one sector in one reach merge (R323), unless a remote atomic of the
reach on that sector came between, so that the entries drain in program order (R325). -/
def poundSector (s : State) (g op sec : Nat) (ws : List ByteWrite) : State :=
  match ((s.poundOf g).filter (s.onSector g sec)).getLast? with
  | some { kind := .store _ _ _, seq := n, .. } =>
    let s1 := s.modPound g fun p => p.map fun e =>
      if e.seq = n then
        match e.kind with
        | .store x bs _ => { e with kind := .store x (mergeBytes bs ws) false, ops := e.ops ++ [op] }
        | _ => e
      else e
    s1.tagStaged fun x => x.seq == n
  | _ => s.addEntry g (.store sec ws false) [op]

/-- A store instruction's bytes enter the pound and count on cst (R157, R236). -/
def poundStore (s : State) (g : Nat) (ws : List ByteWrite) : State :=
  let s1 := (distinct (ws.map fun w => sectorOf w.1)).foldl
    (fun s' sec => s'.poundSector g s.nextId sec (ws.filter fun w => sectorOf w.1 == sec)) s
  { s1.modG g fun x => { x with cst := if ws.isEmpty then x.cst else x.cst + 1 } with nextId := s.nextId + 1 }

/-- Whether an entry of the pound writes a byte. -/
def PEntry.carries (e : PEntry) (k : Nat) : Bool :=
  match e.kind with
  | .store _ ws _ => ws.any fun w => w.1 == k
  | .atomr accs _ => accs.any fun a => decide (a.key ≤ k) && decide (k < a.key + atBytes a.form)
  | _ => false

/-- Whether an entry still stands for a byte: no later store of its group's own has overwritten it in the stash (R150). -/
def PEntry.stands (e : PEntry) (k : Nat) : Bool := !e.gone.any fun o => o.1 == k

/-- Value of a byte, with poison, as a group's own pound entries leave it (R157). -/
def overlay (ps : List PEntry) (base : Nat → Byte × Bool) : Nat → Byte × Bool :=
  ps.foldl (fun (v : Nat → Byte × Bool) e =>
      match e.kind with
      | .store _ ws _ => fun k =>
        match ws.find? fun w => w.1 == k && PEntry.stands e k with
        | some w => (w.2.1, w.2.2)
        | none => v k
      | .atomr accs _ => accs.foldl (fun (v : Nat → Byte × Bool) a => fun k =>
          if a.key ≤ k ∧ k < a.key + atBytes a.form ∧ PEntry.stands e k = true then
            let old := w64Of ((List.range (atBytes a.form)).map fun i => (v (a.key + i)).1)
            ((atApply a.form old a.v).1.extractLsb' (8 * (k - a.key)) 8, (v k).2)
          else v k) v
      | _ => v) base

/-- A byte as a cluster has it: in its cache, or at the point of coherence. -/
def clusterByte (s : State) (cl k : Nat) : Byte × Bool :=
  match s.cbyte cl k with
  | some b => (b.val, ((s.csector cl (sectorOf k)).map fun x => x.poison.getLsbD (k % 128 / 4)).getD false)
  | none => (s.mem.read k, s.pocPoison k)

/-- Where a team's own berths have a byte of global memory dirty: its stash address (R143). -/
def ownHeld (s : State) (tid k : Nat) : Option Nat :=
  (s.tm tid).held.findSome? fun h => if h.key ≤ k ∧ k < h.key + 128 ∧ h.dirty.getLsbD (k - h.key) then some (h.off + (k - h.key)) else none

/-- A byte that one of a team's own write-back sets brings to its point of coherence (R226), the newest one. -/
def ownSet (s : State) (tid k : Nat) : Option (Byte × Bool) :=
  ((s.tm tid).groups.flatMap fun g => (s.grp g).wbsets.filterMap fun b =>
    (b.bytes.find? fun w => w.1 == k).map fun w => (b.seq, w.2)).foldl
    (fun (o : Option (Nat × Byte × Bool)) x => match o with
      | none => some x
      | some y => if y.1 ≤ x.1 then some x else some y) none |>.map (·.2)

/-- A byte of global memory as the agents of a team read it: dirty in a berth of their own or on its way from there, or as
their cluster has it. DEDUCED (log 57): R143 snoops a holder for agents outside its team. -/
def teamByte (s : State) (tid cl k : Nat) : Byte × Bool :=
  match s.ownHeld tid k with
  | some a => ((s.tm tid).stash.read a, (s.tm tid).stashPoison.contains (a / 4 * 4))
  | none => (s.ownSet tid k).getD (s.clusterByte cl k)

/-- Stash bytes from which a team's agents read global bytes. -/
def ownBytes (s : State) (tid : Nat) (ks : List Nat) : List Nat := ks.filterMap (s.ownHeld tid)

/-- A byte as the group reads it: its own pound entries over what its team's agents read (R157). -/
def viewByte (s : State) (g k : Nat) : Byte × Bool :=
  overlay ((s.poundOf g).filter fun e => e.gid == g) (s.teamByte (s.grp g).team (s.clusterOf g)) k

/-- Codewords of device HBM that a group's read of bytes takes there: those of bytes that no write in a cache or in its own
entries covers (R333). -/
def hbmWords (s : State) (g : Nat) (ks : List Nat) : List Nat :=
  let own := (s.poundOf g).filter fun e => e.gid == g
  let held := fun (k : Nat) => ((s.cbyte (s.clusterOf g) k).map (·.dirty)).getD false || (s.ownHeld (s.grp g).team k).isSome ||
    own.any fun e => match e.kind with
      | .store _ ws _ => ws.any fun w => w.1 == k
      | _ => false
  distinct ((ks.filter fun k => decide (k < Config.hbmEnd) && !held k).map (· / 64))

/-- Whether a byte's value waits for a remote atomic of the group's own that has not been performed: its result is known
only then (R151). -/
def awaitsAtomic (ps : List PEntry) (k : Nat) : Bool :=
  ps.foldl (fun (b : Bool) e =>
    match e.kind with
    | .store _ ws _ => b && !ws.any fun w => w.1 == k
    | .atomr accs _ => accs.foldl (fun (b : Bool) a =>
        if a.key ≤ k ∧ k < a.key + atBytes a.form ∧ PEntry.stands e k = true then
          match a.form with
          | .f32 .exch => false
          | .f64 .exch => false
          | _ => true
        else b) b
    | _ => b) false

/-- Entries of a group that leave the pound whatever it goes on to do: those of its executing reach stay until the next head
(R248). -/
def goingEntries (s : State) (g : Nat) : List PEntry :=
  (s.poundOf g).filter fun e => e.gid == g && !(s.curReach g).any fun r => r.id == e.reach

/-- Reaches that have logged sectors of stash bytes (R159). -/
def stashWriters (s : State) (tid : Nat) (as : List Nat) : List Nat :=
  let secs := as.map sectorOf
  distinct (((s.tm tid).logged.filter fun l => secs.contains l.1).map (·.2))

/-- A group has read values that carry something: a later acquire of it takes that over (R148). -/
def hear (s : State) (g : Nat) (ps : List Pub) : State :=
  let new := ps.eraseDups.filter fun p => p.by_ != g && !(s.grp g).arch.seen.contains p
  if new.isEmpty then s else s.modG g fun x => { x with arch := { x.arch with seen := x.arch.seen ++ new } }

/-- A read of stash bytes makes the reading reach depend on the reaches that logged them (R159). -/
def stashDepend (s : State) (g : Nat) (as : List Nat) : State :=
  (s.addDeps g (s.stashWriters (s.grp g).team as)).hear g (((s.teamOf g).pubs.filter fun p => as.contains p.1).map (·.2))

/-- A read of global bytes that the team's own berths have dirty depends on the reaches that wrote them (R159). -/
def ownDepend (s : State) (g : Nat) (ks : List Nat) : State :=
  let as := s.ownBytes (s.grp g).team ks
  if as.isEmpty then s else s.stashDepend g as

/-- A group reads global bytes, but for those that its own entries still hold (R148, R157). -/
def hearGlobal (s : State) (g : Nat) (ks : List Nat) : State :=
  s.hear g ((s.pubs.filter fun p => ks.contains p.1 && !(s.goingEntries g).any fun e => PEntry.carries e p.1).map (·.2))

/-- Fences of a group that make later reads speculative (R155). -/
def specFences (s : State) (g : Nat) : List FenceRec := (s.grp g).fences.filter fun f => f.kind != .rel

/-- Make global bytes readable by a group: cache fills, snoops that must come first, and the watch of a
speculative read (R143, R145, R155). DEDUCED (log 58): a read of bytes under a remote atomic of the group's own waits for it, but
for one of the executing reach, whose result it reads (R157). -/
def prepRead (s : State) (g : Nat) (ks : List Nat) : Except Stop State :=
  let cl := s.clusterOf g
  let ctx := (s.grp g).arch.ctx
  let secs := distinct (ks.map sectorOf)
  let missing := fun s sec => ks.any fun k => sectorOf k == sec && (s.cbyte cl k).isNone
  let tid := (s.grp g).team
  let s := secs.foldl (fun s sec => if s.writeBlocked sec then s.dropClean cl sec else s) s
  let spec := !(s.specFences g).isEmpty
  if ks.isEmpty then .ok s
  else if spec && (ks.any fun k => 2 ^ 52 ≤ k) then .error .hold
  else if spec && decide (4 ≤ (s.grp g).rollbacks.1) && (s.specFences g).any (fun f => f.pc == (s.grp g).rollbacks.2)
  then .error .hold
  else if secs.any fun sec => missing s sec && s.readBlocked (some tid) (.group g) sec then .error .hold
  else if ks.any (awaitsAtomic (s.goingEntries g)) then .error .hold
  else
    let s1 := (((secs.foldl (fun s sec => if missing s sec then s.fillSector cl ctx (some (s.reachId g)) sec else s.shareSector cl ctx sec) s).takeServed
      (.group g) secs).ownDepend g ks).hearGlobal g ks
    if spec then
      .ok ((s1.modG g fun x => { x with fences := x.fences.map fun f =>
              if f.kind = .rel then f
              else { f with watch := f.watch ++ (ks.map fun k => (s.reachId g, k)).filter fun w => !f.watch.contains w } }).modReach g
            fun r => { r with spec := r.spec ++ ((s.specFences g).map (·.id)).filter fun i => !r.spec.contains i })
    else .ok s1

/-! ### Watchpoints (R393, R394) -/

/-- A range of a debug block that watches an access. -/
def watchWord (blk : DebugBlock) (lo addr n : Nat) (write : Bool) (bits : Nat) : Bool :=
  (List.range 4).any fun i =>
    let base := field (blk[lo + 2 * i]?.getD 0) 0 bits
    let c := blk[lo + 2 * i + 1]?.getD 0
    let len := field c 0 32
    decide (len ≠ 0) && c.getLsbD (if write then 33 else 32) && decide (base < addr + n) && decide (addr < base + len)

/-- The lowest watched access of a list, if matching is not suppressed; `lo` is 12 for global addresses and
4 for stash addresses. An emulation executes in Thavin's domain (R346). -/
def watchHit (s : State) (g lo bits : Nat) (accs : List (W64 × Nat)) (rd wr : Bool) : Option W64 :=
  let blk := (s.cx (s.grp g).arch.ctx).debug
  if (s.grp g).unwatched || (s.grp g).arch.emu.isSome then none
  else
    (accs.find? fun a => (rd && watchWord blk lo a.1.toNat a.2 false bits) ||
      (wr && watchWord blk lo a.1.toNat a.2 true bits)).map (·.1)

/-! ### Global accesses of a group (R213, R214) -/

/-- Locate every access of an instruction, each with its own address; the lowest faulting thread's fault is
raised (R214). -/
def locateAll (s : State) (g : Nat) (x : XReg) (need : Need) (n : Nat) :
    List W64 → Except Stop (List (List Nat) × State)
  | [] => .ok ([], s)
  | o :: os =>
    match s.locate g x need o n with
    | (.error (true, va), _) => .error (.page va)
    | (.error (false, va), _) => .error (.trap (.at_ .permission va))
    | (.ok ks, s') =>
      match s'.locateAll g x need n os with
      | .error e => .error e
      | .ok (kss, s'') => .ok (ks :: kss, s'')

/-- Steps 2 and 3 of R214 for global accesses at offsets of a translation register: watchpoints of what the access does, a
read, a write or both (R393, R394), then translation. -/
def globalAccess (s : State) (g xn : Nat) (need : Need) (n : Nat) (rd wr : Bool) (os : List W64) :
    Except Stop (List (List Nat) × State) :=
  if os.isEmpty then .ok ([], s)
  else
    let (x, s1) := s.usableX g xn
    match s.watchHit g 12 64 (os.map fun o => (x.base + o, n)) rd wr with
    | some a => .error (.trap (.at_ .watchpoint a))
    | none =>
      match s1.locateAll g x need n os with
      | .error (.page va) => .error (if x = ((s.regsOf g).x[xn]?.getD XReg.entry) then .page va else .kept xn x true va)
      | .error (.trap t) => .error (if x = ((s.regsOf g).x[xn]?.getD XReg.entry) then .trap t else .kept xn x false t.s2)
      | r => r

/-! ### Happens-before (R148) -/

end State

/-- Whether a clock holds a write of an agent with a stamp. -/
def Clock.covers (c : Clock) (src : Src) (stamp : Nat) : Bool := c.any fun x => x.1 == src && decide (stamp ≤ x.2)

/-- A clock with one more agent's writes up to a stamp. -/
def Clock.add (c : Clock) (x : Src × Nat) : Clock := if c.covers x.1 x.2 then c else c.filter (fun y => y.1 != x.1) ++ [x]

/-- Both clocks together. -/
def Clock.join (c d : Clock) : Clock := d.foldl Clock.add c

/-- An agent that writes a stash, what happens-before its write, what the values that it writes carry, and whether it changes
them atomically. -/
structure Writer where
  src : Src
  clk : Clock
  pubs : List Pub := []
  rmw : Bool := false

/-- What the values of some places carry after a write of them: a write replaces it, an atomic adds to it (R148). -/
def putPubs (xs : List (Nat × Pub)) (ks : List Nat) (rmw : Bool) (ps : List Pub) : List (Nat × Pub) :=
  (if rmw then xs else xs.filter fun p => !ks.contains p.1) ++ ks.flatMap fun k => ps.map fun p => (k, p)

/-- What a group's write carries, by its last releases. -/
def pubsOf (g : Nat) (rel : List (Scope × Clock)) : List Pub := rel.map fun r => { by_ := g, scope := r.1, clk := r.2 }

/-- Consecutive addresses as runs, last first. -/
def runsOf (as : List Nat) : List (Nat × Nat) :=
  as.foldl (fun rs a =>
    match rs with
    | (b, n) :: rest => if a = b + n then (b, n + 1) :: rest else (a, 1) :: rs
    | [] => [(a, 1)]) []

/-- Addresses of a run that lie in some ranges. -/
def within (rs : List (Nat × Nat)) (base len : Nat) : List Nat :=
  rs.flatMap fun r => (List.range (min (r.1 + r.2) (base + len) - max r.1 base)).map (max r.1 base + ·)

namespace State

/-- What happens-before the next instruction of a group, its own earlier writes among it. -/
def clockOf (s : State) (g : Nat) : Clock :=
  (s.grp g).arch.hb.add (.group g, (s.tm (s.grp g).team).tick)

/-- Something happens-before the rest of a group's program (R148). -/
def joinHb (s : State) (g : Nat) (c : Clock) : State :=
  if c.isEmpty then s else s.modG g fun x => { x with arch := { x.arch with hb := x.arch.hb.join c } }

/-- A group as a writer. -/
def groupWriter (s : State) (g : Nat) : Writer :=
  { src := .group g, clk := (s.grp g).arch.hb, pubs := pubsOf g (s.grp g).arch.rel }

/-- Global bytes have been written; their values carry something (R148). -/
def publish (s : State) (ks : List Nat) (rmw : Bool) (ps : List Pub) : State := { s with pubs := putPubs s.pubs ks rmw ps }

/-- The same of stash bytes of a team. -/
def publishStash (s : State) (tid : Nat) (as : List Nat) (rmw : Bool) (ps : List Pub) : State :=
  s.modT tid fun t => { t with pubs := putPubs t.pubs as rmw ps }

/-- A stash write takes its place in the order of its agent's writes (R148). A write of the same agent in the same reach to
the same bytes stands for the older one. -/
def noteWrite (s : State) (tid : Nat) (src : Src) (by_ : Option Nat) (rs : List (Nat × Nat)) : State :=
  s.modT tid fun t =>
    let n := match src with
      | .group _ => t.tick + 1
      | _ => 0
    { t with
      tick := t.tick + 1
      wrote := (t.wrote.filter fun (w : WriteRec) => !(w.src == src && w.by_ == by_ &&
          rs.any fun r => decide (r.1 ≤ w.base) && decide (w.base + w.len ≤ r.1 + r.2))) ++
        rs.map fun r => { src := src, stamp := n, by_ := by_, base := r.1, len := r.2 } }

/-! ### Stash -/

/-- The berth table that a group sees (R279, R280): its team's, or its gate frame's. -/
def berthTable (s : State) (g : Nat) : Vector Berth 16 :=
  match (s.grp g).arch.frames, (s.grp g).arch.emu with
  | [], _ => (s.teamOf g).berths
  | _ :: _, some e => e.saved.berths
  | _ :: _, none => (s.grp g).arch.regs.berths

def berthOf (s : State) (g b : Nat) : Berth := (s.berthTable g)[b]?.getD Berth.none

/-- Stash offset from which BASE counts (R280). -/
def regionBase (s : State) (g : Nat) : Nat :=
  match (s.grp g).arch.frames with
  | [] => 0
  | f :: _ => (s.descOf g).stash - ((s.grp g).gidx + 1) * f.entry.allow.toNat

/-- The stash address of an access through a berth, if it lies inside the window (R218). -/
def window (s : State) (g b : Nat) (o : W64) (n : Nat) : Option Nat :=
  let t := s.berthOf g b
  if b < s.berthLimit g ∧ o.toInt ≥ 0 ∧ o.toNat + n ≤ t.size then some (s.regionBase g + t.base + o.toNat) else none

/-- Log the before-image of stash bytes of one sector for a reach (R159, R323): one entry a sector, each
byte as it stood before the reach first wrote it. -/
def logSector (s : State) (g rid tid sec : Nat) (as : List Nat) : State :=
  let t := s.tm tid
  let mine := fun (e : PEntry) => e.reach == rid &&
    match e.kind with
    | .undoStash t' x _ _ => t' == tid && x == sec
    | _ => false
  let words := distinct (as.map fun a => a / 4 * 4)
  let s1 :=
    if (s.poundOf g).any mine then
      { s.modPound g fun p => p.map fun e =>
        if mine e then
          match e.kind with
          | .undoStash t' x bs ps =>
            let bs' := (as.filter fun a => !bs.any fun b => b.1 == a).map fun a => (a, t.stash.read a, s.nextSeq)
            let ps' := (words.filter fun w => !ps.any fun q => q.1 == w).map fun w => (w, t.stashPoison.contains w, s.nextSeq)
            { e with kind := .undoStash t' x (bs ++ bs') (ps ++ ps') }
          | _ => e
        else e with nextSeq := s.nextSeq + 1 }
    else
      s.addEntryFor g rid (.undoStash tid sec (as.map fun a => (a, t.stash.read a, s.nextSeq))
        (words.map fun w => (w, t.stashPoison.contains w, s.nextSeq))) []
  s1.modT tid fun t => { t with logged := if t.logged.contains (sec, rid) then t.logged else t.logged ++ [(sec, rid)] }

/-- Bits of a sector's bytes among some addresses. -/
def sectorBits (off : Nat) (as : List Nat) : BitVec 128 :=
  as.foldl (fun (d : BitVec 128) a => if off ≤ a ∧ a < off + 128 then d ||| (1#128 <<< (a - off)) else d) 0

/-- Mark bytes of held sectors dirty (R141). -/
def markDirty (s : State) (tid : Nat) (as : List Nat) : State :=
  s.modT tid fun t => { t with held := t.held.map fun h =>
    { h with dirty := h.dirty ||| sectorBits h.off as } }

/-- Bytes of draws that one operation may take: the stash has fewer. -/
def drawMany (s : State) : Nat × State := (s.freeCtr, { s with freeCtr := s.freeCtr + Config.stashBytes })

/-- A slot whose panel bytes were written meanwhile: the affected cells and scales are undefined. -/
def smearSlot (w : WSlot) (f : Fmt) (tr : Bool) (a n : Nat) (hit : List Nat → Bool) : WSlot :=
  { w with
    elems := w.elems.zipIdx.map fun x =>
      if hit (elemBytes f a (weightIndex tr (x.2 / 128) (x.2 % 128))) = true then (Config.free32 (n + x.2)).toNat % 2 ^ fmtBits f
      else x.1
    scales := w.scales.zipIdx.map fun x =>
      if hit [a + weightArea f + x.2] = true then (Config.freeByte (n + x.2)).toNat else x.1
    bands := w.bands.zipIdx.map fun x =>
      if hit [a + weightArea f + 2048 + 2 * x.2, a + weightArea f + 2049 + 2 * x.2] = true then (Config.free32 (n + x.2)).setWidth 16
      else x.1 }

/-- An accumulator some of whose elements are undefined. -/
def smearAcc (v : Acc) (n : Nat) (hit : Nat → Bool) : Acc :=
  Acc.make fun i => if hit i = true then Config.free32 (n + i) else Acc.get v i

/-- Results of a team's operation that a write to its panel bytes, or a reconfiguration of its berth, has made undefined (R270). -/
def smear (s : State) (tid : Nat) (o : OpRec) : State :=
  if o.dirty.isEmpty && !o.whole then s
  else
    let (n, s1) := s.drawMany
    let hit : List Nat → Bool := fun as => o.whole || as.any fun a => o.dirty.contains a
    match o.kind with
    | .mldw slot f tr a _ =>
      s1.modT tid fun t =>
        { t with slots := t.slots.setIfInBounds slot (smearSlot (t.slots[slot]?.getD WSlot.empty) f tr a n hit) }
    | .mlda k a =>
      s1.modT tid fun t => { t with accs := t.accs.setIfInBounds k (smearAcc (t.accs[k]?.getD []) n fun i =>
        hit ((List.range 4).map fun b => a + 4 * i + b)) }
    | .mloop k c _ base =>
      match ctlFmt c with
      | none => s
      | some f =>
        let rows := (List.range 32).filter fun m => (List.range (ctlSteps c)).any fun i =>
          hit (rowBytes f (((base : Int) + ctlPanel c i).toNat) m)
        s1.modT tid fun t => { t with accs := t.accs.setIfInBounds k (smearAcc (t.accs[k]?.getD []) n fun i => rows.contains (i / 128)) }
    | .msta _ _ _ _ =>
      if !o.whole then s
      else s1.modT tid fun t => { t with stash := t.stash.writeAll ((kindDest o.kind).flatMap fun r =>
        (List.range r.2).map fun i => (r.1 + i, Config.freeByte (n + i))) }
    | _ => s

/-- Results of operations that are finished for their own group, and not for the agent that makes their inputs undefined, become
undefined where they still stand (R270). -/
def smearLate (s : State) (tid : Nat) (ids : List Nat) : State :=
  ((s.tm tid).undone.filter fun o => ids.contains o.id && !o.past && (s.grp o.gid).arch.hb.covers (.op o.id) 0).foldl (fun s o => s.smear tid o) s

/-- A write of bytes that a sequencer operation reads, the operation being unfinished for the writer (R163, R270): what it
affects is undefined, in results that were finished for their own group too. -/
def raceMark (s : State) (tid : Nat) (w : Writer) (runs : List (Nat × Nat)) : State :=
  let hits := fun (o : OpRec) => if w.clk.covers (.op o.id) 0 then [] else runs.flatMap fun r => within (kindReads o.kind) r.1 r.2
  (s.modT tid fun t => { t with undone := t.undone.map fun o => { o with dirty := o.dirty ++ hits o } }).smearLate tid
    (((s.tm tid).undone.filter fun o => !(hits o).isEmpty).map (·.id))

/-- Global keys of stash bytes that lie in held sectors. -/
def heldKeys (s : State) (tid : Nat) (as : List Nat) : List Nat :=
  (s.tm tid).held.flatMap fun h => (as.filter fun a => decide (h.off ≤ a) && decide (a < h.off + 128)).map fun a => h.key + (a - h.off)

/-- Write bytes of a team's stash, with the poison of each byte's word (R219), logged for a reach of a group
while that reach is open (R159). -/
def stashStore (s : State) (tid : Nat) (log : Option (Nat × Nat)) (ws : List ByteWrite) : State :=
  let s1 : State := match log with
    | some (g, rid) => (distinct (ws.map fun (w : ByteWrite) => sectorOf w.1)).foldl
        (fun (s : State) sec =>
          s.logSector g rid tid sec (distinct ((ws.filter fun (w : ByteWrite) => sectorOf w.1 == sec).map fun w => w.1))) s
    | none => s
  let words := distinct (ws.map fun w => w.1 / 4 * 4)
  (s1.modT tid fun t =>
      { t with
        stash := t.stash.writeAll (ws.map fun w => (w.1, w.2.1))
        stashPoison := (t.stashPoison.filter fun w => !words.contains w) ++
          words.filter fun w => ws.any fun x => x.1 / 4 * 4 == w && x.2.2 }).markDirty tid (ws.map (·.1))

/-- A store of a group through a bound berth overwrites what its own earlier entries have for the same bytes (R150). -/
def supersede (s : State) (g rid : Nat) (ks : List Nat) : State :=
  s.modPound g fun p => p.map fun e =>
    if e.gid = g then { e with gone := e.gone ++ (ks.filter (PEntry.carries e)).map fun k => (k, rid) } else e

/-- A write of a group or an engine: what it leaves undefined (R163), its place in its agent's order, and the watches that it
fires through a bound berth (R155). -/
def stashPut (s : State) (tid : Nat) (w : Writer) (log : Option (Nat × Nat)) (ws : List ByteWrite) : State :=
  let as := ws.map (·.1)
  let rs := runsOf as
  let s1 := (((s.stashStore tid log ws).raceMark tid w rs).noteWrite tid w.src (log.map (·.2)) rs).publishStash tid as w.rmw w.pubs
  let ks := s1.heldKeys tid as
  if ks.isEmpty then s1
  else
    let s2 := match w.src, log with
      | .group i, some (_, rid) => s1.supersede i rid ks
      | _, _ => s1
    s2.fireWatch (fun i => w.src == .group i) ks

/-- Write stash bytes at issue in the group's executing reach. -/
def stashWrite (s : State) (g : Nat) (ws : List ByteWrite) (rmw : Bool := false) : State :=
  s.stashPut (s.grp g).team { s.groupWriter g with rmw := rmw } (some (g, s.reachId g)) ws

/-- A stash byte and the poison of its word. -/
def stashByte (s : State) (tid a : Nat) : Byte × Bool :=
  ((s.tm tid).stash.read a, (s.tm tid).stashPoison.contains (a / 4 * 4))

/-- Destinations of the team's MSTAs that are unfinished for a group (R270). -/
def openDest (s : State) (g : Nat) : List (Nat × Nat) :=
  ((s.teamOf g).undone.filter fun o => !(s.grp g).arch.hb.covers (.op o.id) 0).flatMap fun o => kindDest o.kind

/-- Global key of a stash byte that lies in a held sector. -/
def heldKeyAt (s : State) (tid a : Nat) : Option Nat :=
  (s.tm tid).held.findSome? fun h => if h.off ≤ a ∧ a < h.off + 128 then some (h.key + (a - h.off)) else none

/-- A stash byte as a group reads it: in a sector that a bound berth holds under the group's own pound entries (R150, R157), and
undefined in the destination of an unfinished MSTA (R270). -/
def groupByte (s : State) (g n a : Nat) : Byte × Bool :=
  let tid := (s.grp g).team
  let b := match s.heldKeyAt tid a with
    | some k => overlay ((s.poundOf g).filter fun e => e.gid == g) (fun k' => s.stashByte tid (a + k' - k)) k
    | none => s.stashByte tid a
  if (s.openDest g).any fun r => decide (r.1 ≤ a) && decide (a < r.1 + r.2) then (Config.freeByte (n + a), b.2) else b

/-- Free values for the reads of a group's instruction, where it may need some. -/
def drawReads (s : State) (g : Nat) : Nat × State := if (s.openDest g).isEmpty then (s.freeCtr, s) else s.drawMany

/-- Gate frame that owns the group's berths, as the held sectors name it: its group and its depth. -/
def frameTag (s : State) (g : Nat) : Option Nat := if s.depthOf g = 0 then none else some (8 * g + s.depthOf g)

/-- Context of the gate frame that a held sector names. -/
def frameCtx (s : State) (n : Nat) : Nat :=
  let x := (s.grp (n / 8)).arch
  if x.frames.length ≤ n % 8 then x.ctx else ((x.frames[x.frames.length - n % 8 - 1]?).map (·.ctx)).getD x.ctx

/-- Context whose address space a berth table belongs to: a gate frame's, or the team's own (R280). -/
def tableCtx (s : State) (tid : Nat) (frame : Option Nat) : Nat :=
  match frame with
  | some n => s.frameCtx n
  | none => (s.lch (s.tm tid).launch).ctx

/-- Whether a bound berth holds the sector of a stash address, no releasing snoop pending (R141, R143). -/
def holds (s : State) (g b a : Nat) : Bool :=
  (s.teamOf g).held.any fun h => h.berth == b && h.frame == s.frameTag g && h.off == sectorOf a && h.snoops.all fun q => q.reader.isSome

/-- Sectors of a stash access that its bound berth does not hold. -/
def unheld (s : State) (g b a n : Nat) : List Nat :=
  (distinct ((List.range n).map fun i => sectorOf (a + i))).filter fun sec => !s.holds g b sec

/-- The address at which a global access that begins at one address faults in a later sector: the first byte of a page that the
access crosses into, else its own (R213). -/
def faultVa (s : State) (g : Nat) (va sec : W64) : W64 :=
  if sec.toNat % pageBytes (field (s.regionEntry (s.asid g sec) sec) 52 3) = 0 ∧ va < sec then sec else va

/-- Steps 2 and 3 of R214 for stash accesses through a berth: windows, watchpoints, then the fills of a
bound berth. A fill that faults is reported as a global access at GVA + o; an access whose sector is not
held waits for its fill (R141, R219). DEDUCED (log 59): a fill asks for read permission only, being a read (R141), whatever
touches the sector. -/
def stashAccess (s : State) (g b n : Nat) (rd wr : Bool) (os : List W64) : Except Stop (List Nat × State) :=
  match os.find? fun o => (s.window g b o n).isNone with
  | some o => .error (.trap (.berth b o))
  | none =>
    let as := os.map fun o => (s.window g b o n).getD 0
    match s.watchHit g 4 19 (as.map fun a => (BitVec.ofNat 64 a, n)) rd wr with
    | some a => .error (.trap (.at_ .watchpoint a))
    | none =>
      let t := s.berthOf g b
      if !t.bound then .ok (as, s)
      else
        let va := fun a => t.gva + BitVec.ofNat 64 (a - (s.regionBase g + t.base))
        let c := s.coreOf g
        let lacking := as.flatMap fun a => (s.unheld g b a n).map fun sec => (a, sec)
        match lacking.findSome? fun a =>
            match (s.translate c (s.asid g (va a.2)) Need.load (va a.2)).1 with
            | .ok _ _ => none
            | .page => some (Stop.page (s.faultVa g (va a.1) (va a.2)))
            | .perm => some (Stop.trap (.at_ .permission (s.faultVa g (va a.1) (va a.2)))) with
        | some e => .error e
        | none =>
          let tid := (s.grp g).team
          if lacking.isEmpty then .ok (as, s.stashDepend g (as.flatMap fun a => (List.range n).map (a + ·)))
          else
            .error (.fill tid ((distinct (lacking.map (·.2))).filterMap fun a =>
              match (s.translate c (s.asid g (va a)) Need.load (va a)).1 with
              | .ok k _ => some { gid := g, berth := b, frame := s.frameTag g, off := a, va := va a, key := sectorOf k, invals := [] }
              | _ => none))

/-- Translation registers of a context come back into use: an invalidation of it that is under way waits for what they may
still be used for (R73, R310). -/
def reInval (s : State) (a : Nat) : State :=
  if s.invals.any fun i => i.ctx == a && !i.done && i.mark.isSome then
    { s with invals := s.invals.map fun i => if i.ctx = a ∧ i.done = false then { i with mark := none } else i }
  else s

/-! ### Entries of the engines (R323) -/

/-- Undo entries that a write of stash bytes in a reach would add: one for each sector that it has not logged. -/
def undoNeed (s : State) (tid rid : Nat) (rs : List (Nat × Nat)) : Nat :=
  ((distinct (rs.flatMap fun r => (List.range ((r.1 % 128 + r.2 + 127) / 128)).map fun i => sectorOf r.1 + 128 * i)).filter fun sec =>
    !(s.tm tid).logged.contains (sec, rid)).length

end State

end Sys2Proof.Machine
end

