-- ==== Sys2Proof/Machine/Ops.lean ====
section
/-! DEFINITION. The shared operations of the machine: tokens (R45 to R48), trace packets (R388 to R391,
R398), reaches and squashes (R320, R329, R71), taking an exception and returning from it (R286, R289,
R340 to R345), synthesised returns (R285), the end of a context (R342), and the execution frame (R167). -/

namespace Sys2Proof.Machine

/-! ### Barriers (R234) -/

/-- Undo the completion of the newest completed phase. -/
def Barrier.uncomplete (b : Barrier) : Barrier :=
  match b.done with
  | [] => b
  | p :: ps =>
    { b with phase := b.phase - 1, arrived := b.arrived ||| p.arrived, bytes := b.bytes + p.expected
             expected := b.expected + p.expected, by_ := p.by_ ++ b.by_, arr := p.arr ++ b.arr, clk := p.clk ++ b.clk, done := ps }

/-- Undo an update that a reach made in a phase: first the completions that came after it. -/
def Barrier.revert (b : Barrier) (rid : Nat) (ph : W32) (d : BarDelta) : Barrier :=
  let b := (List.range (b.phase - ph).toNat).foldl (fun x _ => x.uncomplete) b
  let b := { b with by_ := b.by_.filter (· != rid), clk := b.clk.filter fun x => x.1 != rid }
  match d with
  | .arrive g pend =>
    { b with arrived := b.arrived &&& ~~~(1#16 <<< g), arr := b.arr.filter (fun a => a.1 != g)
             pend := if pend then b.pend &&& ~~~(1#16 <<< g) else b.pend }
  | .credit n => { b with bytes := b.bytes - n }
  | .expect n => { b with expected := b.expected - n }
  | .depart g => { b with pend := b.pend ||| (1#16 <<< g) }

namespace State

/-! ### Trace (R388 to R391, R398) -/

/-- Packets that fit in a core's ring. -/
def ringCapacity (k : Core) : Nat := 2 ^ (16 + field k.trcctl 12 4) / 32

/-- Room in a core's ring (R391). -/
def ringRoom (k : Core) : Bool :=
  decide ((field k.trcptr 0 32 + 2 ^ 32 - field k.trcptr 32 32) % 2 ^ 32 ≠ ringCapacity k)

def packetBytes (p : Packet) : List Byte :=
  bytesLE 1 p.type ++ bytesLE 1 p.slot ++ bytesLE 2 p.icount ++ bytesLE 4 0 ++ bytesLE 8 p.a.toNat ++
    bytesLE 8 p.b.toNat ++ bytesLE 8 p.c.toNat

/-- Memory with one packet at the place that WR names in a core's ring (R388). -/
def ringMem (s : State) (c : Nat) (p : Packet) : Memory :=
  let k := s.cor c
  s.mem.writeBytes (field k.trcctl 16 36 * 2 ^ 16 + 32 * (field k.trcptr 0 32 % ringCapacity k)) (packetBytes p)

/-- WR stepped by a packet (R388). -/
def stepWr (k : Core) : Core :=
  { k with trcptr := BitVec.ofNat 64 (field k.trcptr 32 32 * 2 ^ 32 + (field k.trcptr 0 32 + 1) % 2 ^ 32), tsdWrote := true }

/-- Write one packet into a core's ring and step WR (R388). -/
def ringWrite (s : State) (c : Nat) (p : Packet) : State :=
  let s1 := s.modC c stepWr
  { s1 with mem := s.ringMem c p }

/-- What the trace unit keeps for a group's slot. -/
def slotTrace (s : State) (g : Nat) : SlotTrace := ((s.cor (s.coreOf g)).slots[(s.grp g).slot]?).getD SlotTrace.blank

def modTrace (s : State) (g : Nat) (f : SlotTrace → SlotTrace) : State :=
  let i := (s.grp g).slot
  s.modC (s.coreOf g) fun k => { k with slots := k.slots.setIfInBounds i (f ((k.slots[i]?).getD SlotTrace.blank)) }

/-- A SYNC falls due at the next issue of the slot in which a group is (R390); the highest reason stands (R398). -/
def syncDue (s : State) (g reason : Nat) : State :=
  if s.resident (s.grp g).team then s.modTrace g fun x => { x with syncDue := some (max reason (x.syncDue.getD 0)) } else s

/-- The LOSS packet of a core: the number of packets dropped (R391). -/
def lossPacket (k : Core) : Packet :=
  { type := 5, slot := 0xFF, icount := 0, a := BitVec.ofNat 64 k.dropped, b := 0, c := 0 }

/-- The LOSS packet is written and the count starts again (R391). -/
def writeLoss (s : State) (n : Nat) : State :=
  (s.ringWrite n (lossPacket (s.cor n))).modC n fun k => { k with dropped := 0, lossDue := false }

/-- The next packet of every slot of a core owes a SYNC (R390). -/
def oweSync (s : State) (n : Nat) : State :=
  s.modC n fun k => { k with slots := k.slots.map fun x => { x with afterLoss := true } }

/-- When room has returned after drops, a LOSS packet with the count comes first, and every slot owes a SYNC with its next
packet (R390, R391). -/
def flushLoss (s : State) (n : Nat) : State :=
  if (s.cor n).lossDue && ringRoom (s.cor n) then (s.writeLoss n).oweSync n else s

/-- Whether a packet of a core finds room, once the LOSS packet that may be due has gone (R391). -/
def packetRoom (s : State) (n : Nat) : Bool := ringRoom ((s.flushLoss n).cor n)

/-- A packet without room is dropped and counted (R391). -/
def dropPacket (s : State) (n : Nat) : State := s.modC n fun k => { k with dropped := k.dropped + 1, lossDue := true }

/-- Write a packet of a core, after the LOSS packet that may be due (R391). -/
def corePacket (s : State) (n : Nat) (p : Packet) : State :=
  if s.packetRoom n then (s.flushLoss n).ringWrite n p else (s.flushLoss n).dropPacket n

/-- A slot's counts after a packet of its own was written (R389). -/
def packetCounts (s : State) (g type : Nat) : State :=
  s.modTrace g fun x => { x with icount := 0, sincePkt := if type = 1 then 0 else x.sincePkt + 1 }

/-- A packet of a group with its instruction count, which saturates (R389, R398). -/
def groupPacket (s : State) (g type : Nat) (a b c : W64) : Packet :=
  { type := type, slot := (s.grp g).slot, icount := min 65535 (s.slotTrace g).icount, a := a, b := b, c := c }

/-- Emit one packet of a group (R389, R391, R398). -/
def emit (s : State) (g type : Nat) (a b c : W64) : State :=
  if !(s.cor (s.coreOf g)).trcctl.getLsbD 0 then s
  else
    let s1 := s.corePacket (s.coreOf g) (s.groupPacket g type a b c)
    if s.packetRoom (s.coreOf g) then s1.packetCounts g type else s1

/-- A SYNC packet with its reason (R389, R390); one that is dropped is no base for a TSD. -/
def emitSync (s : State) (g : Nat) (pc : W64) (reason : Nat) : State :=
  let x := s.grp g
  let s1 := s.emit g 1 pc (BitVec.ofNat 64 s.clk) (BitVec.ofNat 64 (x.prevMask.toNat + reason * 2 ^ 32))
  (s1.modC (s.coreOf g) fun k => if k.trcctl.getLsbD 0 && s.packetRoom (s.coreOf g) then { k with tsdBase := s.clk } else k).modTrace g
    fun y => { y with syncDue := none, afterLoss := false }

/-- Reasons of R390 for which a SYNC comes before so many other packets of an issue: what has befallen the slot, the
65,535th instruction, the 256th packet, and with any packet a LOSS before it. -/
def syncReasons (x : SlotTrace) (pkts : Nat) : List Nat :=
  let rs := x.syncDue.toList ++ (if x.icount = 65535 then [8] else []) ++ (if pkts ≠ 0 ∧ 255 ≤ x.sincePkt then [0] else [])
  if x.afterLoss && (pkts != 0 || !rs.isEmpty) then rs ++ [6] else rs

/-- The packets of an issue: a LOSS that is due, a SYNC that is, and the issue's own (R390, R391, R398). -/
def tracePackets (s : State) (g : Nat) (pc : W64) (pkts : List (Nat × W64 × W64 × W64)) : State :=
  let s1 := if !pkts.isEmpty || !(syncReasons (s.slotTrace g) 0).isEmpty then s.flushLoss (s.coreOf g) else s
  let s2 := match syncReasons (s1.slotTrace g) pkts.length with
    | [] => s1
    | r :: rs => s1.emitSync g pc (rs.foldl max r)
  pkts.foldl (fun s p => s.emit g p.1 p.2.1 p.2.2.1 p.2.2.2) s2

/-- The trace of one issue: a LOSS that is due before any packet, a SYNC that is due, the change of a per-thread instruction's mask, and the
instruction's own packet (R389 to R391, R398). -/
def traceIssue (s : State) (g : Nat) (pc : W64) (mask : Option W32) (own : Option (Nat × W64 × W64 × W64)) : State :=
  if !(s.cor (s.coreOf g)).trcctl.getLsbD 0 then
    match mask with
    | some m => s.modG g fun x => { x with prevMask := m }
    | none => s
  else
    let s0 := s.modTrace g fun x => { x with icount := x.icount + 1 }
    let x := s.grp g
    let maskPkt : List (Nat × W64 × W64 × W64) :=
      match mask with
      | some m => if m = x.prevMask then [] else [(3, (m ^^^ x.prevMask).setWidth 64, 0, 0)]
      | none => []
    let pkts := maskPkt ++ own.toList
    let s2 := s0.tracePackets g pc pkts
    match mask with
    | some m => s2.modG g fun x => { x with prevMask := m }
    | none => s2

/-! ### Tokens (R45 to R48, R359) -/

/-- Whether a toll is payable by a group (R45). -/
def payable (s : State) (g toll : Nat) : Bool :=
  let k := s.cor (s.coreOf g)
  match k.resv.find? fun r => r.gid == g with
  | some r => decide (toll ≤ r.heldTok)
  | none => decide (toll ≤ k.free)

/-- Count tokens to a context in this interval (R283, R359). -/
def addSpent (xs : List (Nat × Nat)) (ctx n : Nat) : List (Nat × Nat) :=
  if n = 0 then xs
  else if xs.any fun x => x.1 == ctx then xs.map fun x => if x.1 = ctx then (ctx, x.2 + n) else x
  else xs ++ [(ctx, n)]

/-- Take the toll of an issue from the group's reservation, which ends, or from the free tokens (R46, R47). -/
def payToll (s : State) (g toll : Nat) : State :=
  let ctx := s.homeCtx g
  s.modC (s.coreOf g) fun k =>
    match k.resv.find? fun r => r.gid == g with
    | some r =>
      { k with free := min Config.reservoir (k.free + (r.heldTok - toll)), spent := addSpent k.spent ctx toll
               resv := k.resv.filter fun r => r.gid != g }
    | none => { k with free := k.free - toll, spent := addSpent k.spent ctx toll }

/-- A reservation ends without an issue: its held tokens become free (R48). -/
def dropResv (s : State) (g : Nat) : State :=
  (s.modC (s.coreOf g) fun k =>
    { k with free := min Config.reservoir (k.free + ((k.resv.filter fun r => r.gid == g).map (·.heldTok)).sum)
             resv := k.resv.filter fun r => r.gid != g }).modG g
    fun x => { x with denied := 0, promoted := false, readyFor := 0 }

/-! ### Reaches (R320, R328) -/

/-- The window of a group's partition (R318). -/
def windowOf (s : State) (g : Nat) : Nat := (s.prt (s.partOf g)).qwin.toNat

/-- The executing reach ends here, without opening another (R328). -/
def endReach (s : State) (g : Nat) : State :=
  match s.curReach g with
  | none => s
  | some _ => s.modReach g fun r => { r with ended := some (s.clk, s.windowOf g) }

/-- A head ends the executing reach and opens a new one, whose snapshot is taken here (R66, R320). -/
def openHead (s : State) (g : Nat) : State :=
  let s1 := s.endReach g
  { s1.modG g fun x =>
      { x with reaches := x.reaches ++
          [{ id := s.nextReach, snap := x.arch, ended := none, deps := [], written := [], lastTag := 0, accPre := []
             spec := [], fresh := true, batches := x.batches }] } with nextReach := s.nextReach + 1 }

/-- A group's share of its core's pound (R324). -/
def share (s : State) (g : Nat) : Nat := max 8 (Config.poundEntries / max 1 (s.groupsOn (s.coreOf g)).length)

/-- Entries of a group in its core's pound. -/
def poundCount (s : State) (g : Nat) : Nat := ((s.poundOf g).filter fun e => e.gid == g).length

/-! ### Squash (R329, R71, R156, R271) -/

/-- Reaches that a squash takes with it: younger reaches of the same group and dependent reaches of any
group, repeated until nothing changes (R159, R329). -/
def squashClosure (s : State) : Nat → List Nat → List Nat
  | 0, rs => rs
  | n + 1, rs =>
    let more := s.groups.flatMap fun x =>
      let ids := x.reaches.map (·.id)
      let hit := x.reaches.filter fun r => rs.contains r.id || r.deps.any rs.contains
      match hit with
      | [] => []
      | r :: _ => (ids.dropWhile (· != r.id)).filter fun i => !rs.contains i
    if more.isEmpty then rs else s.squashClosure n (rs ++ distinct more)

/-- Rounds after which the closure stands: each but the first adds a reach, and a group has at most two open (R320). -/
def squashRounds (s : State) : Nat := 2 * s.groups.length + 1

/-- The oldest of the numbered before-images of each place. -/
def oldestImages {α : Type} (xs : List (Nat × α × Nat)) : List (Nat × α) :=
  (xs.filter fun x => xs.all fun y => y.1 != x.1 || decide (x.2.2 ≤ y.2.2)).map fun x => (x.1, x.2.1)

/-- A team's stash bytes, and the poison of its words, as they stood before the writes that some entries log (R159, R329). -/
def stashImages (es : List PEntry) (tid : Nat) : List (Nat × Byte) :=
  oldestImages (es.flatMap fun e => match e.kind with
    | .undoStash t _ bs _ => if t = tid then bs else []
    | _ => [])

def poisonImages (es : List PEntry) (tid : Nat) : List (Nat × Bool) :=
  oldestImages (es.flatMap fun e => match e.kind with
    | .undoStash t _ _ ps => if t = tid then ps else []
    | _ => [])

/-- Undo the logged stash writes of a team: every byte is again as the oldest of its before-images has it, as if they were
undone newest first (R329). -/
def undoStashes (s : State) (es : List PEntry) (tid : Nat) : State :=
  let pois := poisonImages es tid
  s.modT tid fun t =>
    { t with stash := t.stash.writeAll (stashImages es tid)
             pubs := t.pubs.filter fun p => !(stashImages es tid).any fun x => x.1 == p.1
             stashPoison := (t.stashPoison.filter fun w => !pois.any fun q => q.1 == w) ++ (pois.filter (·.2)).map (·.1) }

/-- Undo one entry of a squashed reach, but for logged stash bytes (R159, R227, R234, R329). -/
def undoEntry (s : State) (e : PEntry) : State :=
  match e.kind with
  | .undoBerth tid i b => s.modT tid fun t => { t with berths := t.berths.setIfInBounds i b }
  | .undoRegion tid bytes pois => s.modT tid fun t =>
      { t with stash := t.stash.writeAll bytes, stashPoison := t.stashPoison ++ pois }
  | .undoBarrier tid n ph d => s.modT tid fun t =>
      { t with bars := t.bars.setIfInBounds n (((t.bars[n]?).getD Barrier.zero).revert e.reach ph d) }
  | _ => s

/-- Undo entries, which are given newest first (R329). -/
def undoAll (s : State) (es : List PEntry) : State :=
  let tids := distinct (es.filterMap fun e => match e.kind with
    | .undoStash t _ _ _ => some t
    | _ => none)
  es.foldl undoEntry (tids.foldl (fun s t => s.undoStashes es t) s)

/-- Put back the sectors that a withdrawn write-back set took from the berths (R226, R227). -/
def reHold (held : List Held) (b : WbSet) : List Held :=
  b.held.foldl (fun (hs : List Held) h =>
    if hs.any fun x => x.off == h.off && x.frame == h.frame && x.berth == h.berth then
      hs.map fun x => if x.off == h.off && x.frame == h.frame && x.berth == h.berth then { x with dirty := x.dirty ||| h.dirty } else x
    else hs ++ [h]) held

/-- Whether a pound entry is a record from which an instruction re-executes (R207, R223, R292), and its PC. -/
def recordPc (e : PEntry) : Option W64 :=
  match e.kind with
  | .retAtom pc _ _ => some pc
  | .retLnch pc _ => some pc
  | .received pc _ _ _ => some pc
  | _ => none

/-- A sequencer operation under a squash (R271): withdrawn, rewound to its first squashed step, started again,
or untouched. -/
def squashOp (rs : List Nat) (o : SeqOp) : Option SeqOp :=
  if rs.contains o.instrReach then none
  else
    match o.kind with
    | .mloop _ _ _ _ =>
      let ks := ((o.steps.filter fun m => rs.contains m.reach).map (·.k)) ++
        ((o.enteredBy.filter fun m => rs.contains m.2).map (·.1))
      match ks with
      | [] => some o
      | k :: ks =>
        let k0 := ks.foldl min k
        some { o with next := k0, entered := min o.entered k0, steps := o.steps.filter (fun x => x.k < k0)
                      enteredBy := o.enteredBy.filter (fun x => x.1 < k0), complete := false }
    | _ =>
      match o.tag with
      | some t => if rs.contains t then some { o with tag := none, moving := false, complete := false } else some o
      | none => some o

/-- A group for which a halt is due and no reach is open enters HALT (R395). DESIGN CHOICE (log 68): a wait that it holds keeps its
monitor entry and its start. -/
def haltNow (s : State) (g : Nat) : State :=
  let x := s.grp g
  if x.haltReq && x.reaches.isEmpty && x.atom.isNone && x.verdict.isNone then
    (s.dropResv g).modG g fun x =>
      if x.st = .halt then x else { x with held := some x.st, st := .halt, haltReq := false, stepping := false }
  else s

/-- A group is to stop: it enters HALT at its instruction once every open reach has cleared (R395, R397). -/
def requestHalt (s : State) (g : Nat) : State :=
  ((s.endReach g).modG g fun x => { x with haltReq := true, stepping := false }).haltNow g

/-- A group returns to RUN: its issue age counts from here (R45). -/
def enterRun (s : State) (g : Nat) : State :=
  s.modG g fun x => { x with st := .run, wait := none, replay := none, lastIssue := (s.cor (s.coreOf g)).fe, readyFor := 0 }

/-- The group of a squashed reach restarts at the head of its oldest squashed reach (R71, R329 step 5); a slot stays loading until
a squashed MLDW to it has executed again (R69, R257). -/
def restartGroup (s : State) (rs : List Nat) (g : Nat) : State :=
  let x := s.grp g
  match x.reaches.find? fun r => rs.contains r.id with
  | none => s
  | some r0 =>
    let gone := (s.poundOf g).filter fun e => e.gid == g && rs.contains e.reach
    let ops := distinct (gone.flatMap (·.ops))
    let cops := (s.cor (s.coreOf g)).copies.filter fun c => c.gid == g && !c.cleared && rs.contains c.reach
    let qops := (s.cor (s.coreOf g)).ops.filter fun o => o.gid == g && rs.contains o.instrReach
    let qids := qops.map (·.id)
    let ntile := (qops.filter fun o => !o.complete && match o.kind with | .mloop _ _ _ _ => false | _ => true).length
    let again := ((s.cor (s.coreOf g)).ops.filter fun o => o.gid == g && o.complete && !rs.contains o.instrReach &&
      match o.kind, o.tag with
      | .mloop _ _ _ _, _ => false
      | _, some t => rs.contains t
      | _, none => false).length
    let lds := x.loads.filter fun l => rs.contains l.reach
    let pre := (x.reaches.filter fun r => rs.contains r.id).flatMap (·.accPre)
    let wbs := x.wbsets.filter fun b => !b.cleared && rs.contains b.reach
    let redo := fun (w : Nat) => (qops.filter fun o => match o.kind with
      | .mldw n _ _ _ _ => n == w
      | _ => false)
    let s1 := s.modT x.team fun t =>
      { t with held := (wbs.foldl reHold t.held).filter fun h => match h.by_ with | some r => !rs.contains r | none => true
               logged := t.logged.filter fun l => !rs.contains l.2
               undone := t.undone.filter fun o => !qids.contains o.id
               slots := Vector.ofFn fun i => match redo i.val with
                 | [] => t.slots[i]
                 | o :: os =>
                   { t.slots[i] with loading := true, redo := t.slots[i].redo ++ (o :: os).map fun o => (o.gid, o.pc)
                                     loadId := if t.slots[i].loading then min t.slots[i].loadId o.id else o.id }
               wrote := t.wrote.filter fun w => match w.by_ with | some r => !rs.contains r | none => true }
    let s2 := s1.modC (s.coreOf g) fun k => { k with accFree := k.accFree + pre.length }
    (s2.modG g fun y =>
      { y with
        arch := r0.snap
        reaches := y.reaches.filter fun r => !rs.contains r.id
        st := match y.st with
          | .halt => .halt
          | _ => .run
        held := match y.st with
          | .halt => some .run
          | _ => none
        wait := none
        replay := none
        loads := y.loads.filter fun l => !rs.contains l.reach
        cld := y.cld - lds.length
        cst := y.cst - ops.length - wbs.length
        wbsets := y.wbsets.filter fun b => b.cleared || !rs.contains b.reach
        atom := none
        ccpy := y.ccpy - cops.length
        ctile := y.ctile - ntile + again
        fences := (y.fences.filter fun f => !rs.contains f.reach).map fun f =>
          { f with watch := f.watch.filter (fun w => !rs.contains w.1), fired := f.fired.filter fun r => !rs.contains r }
        batches := r0.batches.map fun b => b.filter fun i => !qids.contains i
        slow := []
        verdict := none
        synth := if !r0.snap.frames.isEmpty && !s.present r0.snap.ctx then some { cause := 6, cls := 0 } else none
        frozen := false
        haltReq := y.haltReq || y.stepping
        stepping := false
        skipIbp := false
        skipWatch := false
        brkPass := false
        lastIssue := (s.cor (s.coreOf g)).fe }).haltNow g |>.syncDue g 4

/-- An accumulator's value and last writer with the writes of squashed reaches taken out: `pre` lists, for each
reach that wrote it, the value and the writer that it found (R68, R71). -/
def unwrite (rs : List Nat) (pre : List (Nat × Acc × Option Nat)) : Nat → Acc × Option Nat → Acc × Option Nat
  | 0, v => v
  | n + 1, v =>
    match v.2 with
    | none => v
    | some r =>
      if rs.contains r then
        match pre.find? fun p => p.1 == r with
        | some p => unwrite rs pre n p.2
        | none => v
      else v

/-- The accumulators of a team return to what the squashed reaches found, and so do the pre-images that surviving
reaches keep (R68, R71). -/
def restoreAccs (s : State) (rs : List Nat) (tid : Nat) : State :=
  let rcs := (s.tm tid).groups.flatMap fun g => (s.grp g).reaches
  let preOf := fun (k : Nat) => rcs.flatMap fun r => (r.accPre.filter fun p => p.1 == k).map fun p => (r.id, p.2)
  let back := fun (k : Nat) (v : Acc × Option Nat) => unwrite rs (preOf k) (rcs.length + 1) v
  let s1 := s.modT tid fun t =>
    let vs := (List.range 8).map fun k => back k (t.accs[k]?.getD [], t.accBy[k]?.getD none)
    { t with accs := Vector.ofFn fun k => (vs[k.val]?.getD ([], none)).1, accBy := Vector.ofFn fun k => (vs[k.val]?.getD ([], none)).2 }
  (s.tm tid).groups.foldl (fun s g => s.modG g fun x =>
    { x with reaches := x.reaches.map fun r => { r with accPre := r.accPre.map fun p => (p.1, back p.1 p.2) } }) s1

/-- Squash a closed set of reaches: undo newest first, discard their entries, copies, staged payload, sends
and matrix work, and restart the groups (R329 steps 3 to 5, R156). Records kept for re-execution stay. -/
def squash (s : State) (rs : List Nat) : State :=
  let hit := fun (e : PEntry) => rs.contains e.reach && !e.cleared
  let s1 := s.undoAll (s.cores.flatMap fun k => (k.pound.filter hit).reverse)
  let gs := (List.range s.groups.length).filter fun g => (s.grp g).reaches.any fun r => rs.contains r.id
  let s2 := gs.foldl (fun s g => s.restartGroup rs g)
    (((distinct (gs.map fun g => (s.grp g).team)).foldl (fun s t => s.restoreAccs rs t) s1).restoreLines rs)
  let s3 := s2.tagStaged fun x => rs.contains x.reach
  { s3 with
    cores := s3.cores.map fun k =>
      { k with
        pound := (k.pound.filter fun e => !hit e || (recordPc e).isSome).map fun e =>
          { e with gone := e.gone.filter fun o => !rs.contains o.2 }
        copies := k.copies.filter fun c => c.cleared || !rs.contains c.reach
        ops := k.ops.filterMap (squashOp rs) }
    sends := s3.sends.filter fun x => !gs.contains x.gid }

/-- Entries of a core's pound for the records that returning atomics, launches and sends under way will need (R323, R324). -/
def owedRecords (s : State) (core : Nat) : Nat :=
  ((s.groupsOn core).map fun g => (if (s.grp g).atom.isSome then 1 else 0) + (if (s.grp g).verdict.isSome then 1 else 0) +
    if s.sends.any fun x => x.gid == g then 1 else 0).sum

/-- Entries of a core's pound that are taken (R323). -/
def poundUsed (s : State) (core : Nat) : Nat := (s.cor core).pound.length + s.owedRecords core

/-- Open reaches of a core that wait for work of its engines (R253). -/
def engineReaches (s : State) (core : Nat) : List Nat :=
  let k := s.cor core
  ((k.copies.filter fun c => !c.landed || !c.signalled).map (·.reach)) ++ ((k.ops.filter fun o => !o.complete).filterMap (·.tag)) ++
    k.ops.flatMap fun o => o.steps.map (·.reach)

/-- Whether the pound has room for the entries that an engine makes for a copy, a signal or a store of the sequencer; it waits
for entries to leave. DEDUCED (log 10): where every entry belongs to a reach that cannot clear before the work is done, the
work goes on, since that wait would never end. -/
def engineRoom (s : State) (core n : Nat) : Bool :=
  let p := (s.cor core).pound
  decide (s.poundUsed core + n ≤ Config.poundEntries) ||
    p.all fun e => !e.cleared && (s.squashClosure s.squashRounds (s.engineReaches core)).contains e.reach

/-- Squash reaches and everything that depends on them. -/
def squashAll (s : State) (rs : List Nat) : State :=
  s.squash (s.squashClosure s.squashRounds rs)

/-! ### The end of a context (R342) -/

/-- Physical accumulators and slots that a team took come back to its core, but for the permit of a page fault under service
(R343); the reservoir is emptied when the last team leaves (R357). -/
def freeCore (s : State) (t : Nat) : State :=
  let d := (s.lch (s.tm t).launch).desc
  let gs := (s.tm t).groups
  let served := fun (g : Nat) => ((s.grp g).replay.map fun r => r.permit && r.cls == .pageFault) == some true
  s.modC (s.tm t).core fun k =>
    { k with accFree := k.accFree + d.accs, permits := k.permits.filter (fun g => !gs.contains g || served g), ops := k.ops.filter (fun o => o.team != t)
             resv := k.resv.filter fun r => !gs.contains r.gid
             free := if (s.groupsOn (s.tm t).core).all gs.contains then 0 else k.free }

/-- Groups stop for good with their team, and what it had of its core is free (R43, R68, R357). -/
def killTeam (s : State) (t : Nat) : State :=
  let gs := (s.tm t).groups
  let held := ((gs.flatMap fun g => (s.grp g).reaches.flatMap (·.accPre))).length
  let s0 := if s.resident t then s.modC (s.tm t).core fun k => { k with accFree := k.accFree + held } else s
  let s1 := gs.foldl (fun s g =>
    ((s.dropResv g).modG g fun x =>
      { x with st := .done, wait := none, replay := none, loads := [], reaches := [], fences := [], synth := none
               verdict := none, atom := none, haltReq := false, wbsets := [] })) s0
  let core := fun (k : Core) =>
    { k with pound := k.pound.filter (fun e => !gs.contains e.gid), copies := k.copies.filter (fun x => !gs.contains x.gid)
             ops := k.ops.filter (fun o => o.team != t), permits := k.permits.filter (fun g => !gs.contains g) }
  let freed := if s.resident t then s1.freeCore t else s1
  let dropped := freed.tagStaged fun x => s.cores.any fun k => k.pound.any fun e => gs.contains e.gid && e.seq == x.seq
  let s2 : State := { dropped with cores := dropped.cores.map core }
  { s2.modT t fun x => { x with st := .finished, held := [], fills := [], resume := [] } with
    sends := s2.sends.filter fun x => !gs.contains x.gid
    lines := s2.lines.filter fun l => !gs.contains l.gid
    selected := s2.selected.map fun c => c.filter fun g => !gs.contains g }

/-- Whether a team's work is all done (R40, R186). -/
def teamDone (s : State) (t : Nat) : Bool :=
  let k := s.cor (s.tm t).core
  ((s.tm t).groups.all fun g =>
    let x := s.grp g
    x.st == .done && x.reaches.isEmpty && x.loads.isEmpty && x.wbsets.isEmpty && x.atom.isNone) &&
  !(k.copies.any fun c => (s.grp c.gid).team == t) && !(k.ops.any fun o => o.team == t && !o.complete) &&
  (s.tm t).resume.isEmpty

/-- A team whose last group is DONE and whose work is over is FINISHED, and its resources are free (R43, R186). -/
def tidyTeam (s : State) (t : Nat) : State :=
  match (s.tm t).st with
  | .resident | .leavingSwap | .leavingPreempt =>
    if s.teamDone t then
      ((s.freeCore t).dropLines (s.tm t).groups).modT t fun x =>
        { x with st := .finished, held := x.held.filter (fun h => h.dirty != 0), fills := [], returnable := false }
    else s
  | _ => s

/-- A synthesised GRET becomes due: the group issues nothing until it is performed (R285). A group in HALT stays there until
a debugger resumes it (R42). -/
def startSynth (s : State) (g cause cls : Nat) : State :=
  let halted := (s.grp g).st == .halt
  let s1 := (((s.endReach g).enterRun g).modG g fun x =>
    { x with synth := some { cause := cause, cls := cls }, st := if halted then .halt else .run, held := if halted then some .run else none }).modC (s.coreOf g)
    fun k => { k with permits := k.permits.filter (· != g) }
  if (s.teamOf g).st = .swapped then s1.modT (s.grp g).team fun t => { t with returnable := true } else s1

/-- Thavin terminates a context (R342): its teams, pound entries, staged sectors and queued launches are
discarded, and no completion word is written; frames of it that other contexts opened end by a synthesised
GRET with cause 6 (R297). Its queues belong to no context from then on (R385). -/
def terminateCtx (s : State) (ctx : Nat) : State :=
  let mine := (List.range s.launches.length).filter fun l => (s.lch l).ctx == ctx && !(s.lch l).finished
  let ts := (List.range s.teams.length).filter fun t => mine.contains (s.tm t).launch && (s.tm t).st != .finished
  let s1 := ts.foldl killTeam s
  let s2 := mine.foldl (fun s l => s.modL l fun x => { x with stopped := true, finished := true, pairs := [] }) s1
  let s3 : State := { s2.modX ctx (fun x => { x with resident := false }) with
    queues := s2.queues.map fun (q : Queue) => if q.ctx = ctx then { q with ctx := noCtx, waiting := none, writing := none } else q }
  let gs := (List.range s3.groups.length).filter fun g =>
    (s3.grp g).arch.ctx == ctx && (s3.grp g).arch.frames.length != 0 && (s3.tm (s3.grp g).team).st != .finished
  (gs.foldl (fun s g => s.startSynth g 6 0) s3).record (.terminated ctx)

/-! ### Taking an exception (R286, R340 to R345) -/

/-- Code of a trap class (R340). -/
def classCode : TrapClass → Nat
  | .illegalOpcode => 1
  | .illegalOperand => 2
  | .illegalEncoding => 3
  | .illegalHint => 4
  | .retired => 5
  | .pageFault => 6
  | .permission => 7
  | .poison => 8
  | .layout => 9
  | .gateDenied => 10
  | .breakpoint => 11
  | .watchpoint => 12
  | .trap => 13
  | .callStack => 14
  | .doubleFault => 15
  | .watchdog => 16

/-- Class of a code (R340); a code that names no deliverable class has no handler (R341). -/
def classOfCode (n : Nat) : TrapClass :=
  match n with
  | 1 => .illegalOpcode
  | 2 => .illegalOperand
  | 3 => .illegalEncoding
  | 4 => .illegalHint
  | 6 => .pageFault
  | 7 => .permission
  | 8 => .poison
  | 9 => .layout
  | 10 => .gateDenied
  | 11 => .breakpoint
  | 12 => .watchpoint
  | 13 => .trap
  | 14 => .callStack
  | _ => .retired

/-- An escalated trap: the group is in REPLAY, its executing reach ended so that the trap seals (R340, R343). A page fault
keeps the malformed entry that its record names (R303). -/
def enterReplay (s : State) (g : Nat) (cls : TrapClass) (va : W64) (fetch : Bool) : State :=
  ((s.endReach g).dropResv g).modG g fun x =>
    { x with st := .replay, wait := none
             replay := some { cls := cls, va := va, permit := false, fetch := fetch, fatal := false, info := [], word := 0, backoff := none
                              entry := if cls = .pageFault then s.badEntry (s.coreOf g) (s.asid g va) va else none }
             skipIbp := false, skipWatch := false }

/-- The trap record in s0 to s4 (R286). -/
def trapRecord (t : TrapInfo) (depth : Nat) (pc : W64) (w : IWord) : List W64 :=
  [BitVec.ofNat 64 (classCode t.cls + t.operand * 2 ^ 16 + depth % 16 * 2 ^ 24 + t.imm % 2 ^ 16 * 2 ^ 32), pc, t.s2,
   (w.extractLsb' 0 64), (w.extractLsb' 64 32).setWidth 64]

/-- Delivery to a handler (R286): the trap frame takes s0 to s4, their poison, p14 and SIG, and the
trapping instruction's PC and unit; s0 to s4 hold the record, SIG is 0, and the handler's PC follows. -/
def enterHandler (s : State) (g : Nat) (t : TrapInfo) (pc : W64) (w : IWord) (handler : W64) : State :=
  let rec5 := trapRecord t (s.depthOf g) pc w
  (s.modG g fun x =>
    let r := x.arch.regs
    { x with
      arch := { x.arch with
        pc := handler
        regs := { r with
          tf := { inHandler := true, pc := pc, s := Vector.ofFn fun i => r.s[i.val]?.getD 0, sp := r.sp.extractLsb' 0 5
                  sig := r.sig, p14 := r.p[14], unit := unitOf w, cls := classCode t.cls, info := rec5 }
          s := rec5.zipIdx.foldl (fun (v : Vector W64 128) y => v.setIfInBounds y.2 y.1) r.s
          sp := r.sp &&& ~~~(0x1F#128)
          sig := 0 } }
      skipIbp := false, skipWatch := false }).syncDue g 2

/-- A double fault (R345): the group is frozen, both records go to the host, and the context or the frame
ends. -/
def doubleFault (s : State) (g : Nat) (first : TrapClass) (info second : List W64) : State :=
  let s1 := (s.modG g fun x => { x with frozen := true }).record (.doubleFault g info second)
  if s.depthOf g = 0 then s1.terminateCtx (s.homeCtx g) else s1.startSynth g 7 (classCode first)

/-- An in-context trap for which there is no handler is escalated with its own class and its record (R342). -/
def noHandler (s : State) (g : Nat) (t : TrapInfo) (info : List W64) : State :=
  (s.enterReplay g t.cls t.s2 false).modG g fun x => { x with replay := x.replay.map fun r => { r with fatal := true, info := info } }

/-- Keys of the twelve bytes at an address, or the first fault: page or permission, and its address (R106). -/
def fetchKeys (s : State) (c g : Nat) (pc : W64) : Except (Bool × W64) (List Nat) × State :=
  let tr := fun (s : State) (v : W64) => s.translate c (s.asid g v) Need.fetch v
  match tr s pc with
  | (.page, s1) => (.error (true, pc), s1)
  | (.perm, s1) => (.error (false, pc), s1)
  | (.ok k pg, s1) =>
    if pc.toNat + 12 ≤ pg.va + pg.size then (.ok ((List.range 12).map (k + ·)), s1)
    else
      let n := pg.va + pg.size - pc.toNat
      let v2 := pc + BitVec.ofNat 64 n
      match tr s1 v2 with
      | (.page, s2) => (.error (true, v2), s2)
      | (.perm, s2) => (.error (false, v2), s2)
      | (.ok k2 _, s2) => (.ok ((List.range 12).map fun i => if i < n then k + i else k2 + (i - n)), s2)

/-- The outcome of reading a trap-table entry (R341): a fault of the read, or of the handler's first fetch, has its class and
its address (R345). -/
inductive Entry where
  | handler (pc : W64)
  | none
  | faults (cls : TrapClass) (va : W64)
  | unfetched (cls : TrapClass) (pc va : W64)
deriving DecidableEq, Repr

/-- Read a context's trap-table entry through its address space, and translate the handler's first fetch, all twelve
bytes of it (R106, R341, R345). -/
def trapEntry (s : State) (g : Nat) (cls : TrapClass) : Entry :=
  let a := (s.grp g).arch.ctx
  let base := (s.cx a).trapBase
  let c := s.coreOf g
  if base = 0 ∨ cls = .retired ∨ cls = .doubleFault ∨ cls = .watchdog then .none
  else
    let va := base + BitVec.ofNat 64 (8 * classCode cls)
    match (s.translate c (s.asid g va) Need.load va).1 with
    | .page => .faults .pageFault va
    | .perm => .faults .permission va
    | .ok k _ =>
      let h := w64Of ((List.range 8).map fun i => (s.viewByte g (k + i)).1)
      if h = 0 ∨ field h 0 2 ≠ 0 then .none
      else
        match (s.fetchKeys c g h).1 with
        | .ok _ => .handler h
        | .error (page, v) => .unfetched (if page then .pageFault else .permission) h v

/-- TAKE AN EXCEPTION: a trap of a group at an instruction, which commits nothing (R282, R286, R287, R340
to R345). A breakpoint or watchpoint routed to the host halts the group instead (R394); a trap of an
emulation handler ends the emulated context (R346). DEDUCED (log 30): of a double fault's second record, the PC and the
words are the trapping instruction's for the table read, and the handler's PC and no words for its fetch. -/
def takeTrap (s : State) (g : Nat) (t : TrapInfo) (pc : W64) (w : IWord) : State :=
  let ctl := (s.cx (s.grp g).arch.ctx).debug[20]
  let s0 := s.modG g fun x => { x with skipIbp := false, skipWatch := false, brkPass := false }
  let d := s.depthOf g
  let info := trapRecord t d pc w
  let after := fun (s' : State) => if (s.grp g).stepping then s'.requestHalt g else s'
  if (t.cls = .breakpoint ∧ ctl.getLsbD 0) ∨ (t.cls = .watchpoint ∧ ctl.getLsbD 1) then
    (s0.modG g fun x => { x with skipIbp := true, skipWatch := t.cls == .watchpoint, brkPass := t.cls == .breakpoint && w.extractLsb' 86 10 == 0x387 }).requestHalt g
  else if (s.grp g).arch.emu.isSome then
    s0.terminateCtx (s.grp g).arch.ctx
  else if (s.regsOf g).tf.inHandler then
    if d = 0 then
      ((s0.record (.trap g (s.regsOf g).tf.info)).record (.trap g info)).terminateCtx (s.homeCtx g)
    else s0.startSynth g 4 (classCode t.cls)
  else
    match s.trapEntry g t.cls with
    | .handler h => after (s0.enterHandler g t pc w h)
    | .none => s0.noHandler g t info
    | .faults c va => s0.doubleFault g t.cls info (trapRecord (.at_ c va) d pc w)
    | .unfetched c h va => s0.doubleFault g t.cls info (trapRecord (.at_ c va) d h 0)

/-- RETURN FROM AN EXCEPTION (R289, R394, R396; DEDUCED, log 55: after a breakpoint the watchpoints are still checked): s0 to s4 with their poison, p14 and SIG come back from the trap frame
and IN-HANDLER clears; a skip feeds the trapping instruction's unit, which `feed` does, and goes past it. -/
def leaveHandler (s : State) (g : Nat) (skip : Bool) (feed : W32 → BitVec 16 → W32) : State :=
  (s.modG g fun x =>
    let r := x.arch.regs
    let f := r.tf
    { x with
      arch := { x.arch with
        pc := if skip then f.pc + 12 else f.pc
        regs := { r with
          s := (List.range 5).foldl (fun (v : Vector W64 128) i => v.setIfInBounds i (f.s[i]?.getD 0)) r.s
          sp := (r.sp &&& ~~~(0x1F#128)) ||| f.sp.setWidth 128
          p := r.p.set 14 f.p14
          sig := if skip then feed f.sig f.unit else f.sig
          tf := { f with inHandler := false } } }
      skipIbp := !skip && (f.cls == classCode .breakpoint || f.cls == classCode .watchpoint)
      skipWatch := !skip && f.cls == classCode .watchpoint }).syncDue g 2

/-- The permit of a group is given back by the core that granted it (R343). -/
def releasePermit (s : State) (g : Nat) : State :=
  { s with cores := s.cores.map fun k => { k with permits := k.permits.filter (· != g) } }

end State

end Sys2Proof.Machine
end

