-- ==== Sys2Proof/Machine/Flags.lean ====
section
/-! DEFINITION. Flag computations: the sticky flags of MODE (R63, R64, R90), MODE's fields, EFLAG, the
signature SIG (R118, R331), DOMAIN, and the writes of special registers (R176 to R178). -/

namespace Sys2Proof.Machine

/-! ### Signature (R331) -/

/-- One bit step of the CRC. -/
def sigBit (sig : W32) : W32 :=
  if sig.getLsbD 0 then (sig >>> 1) ^^^ 0x82F63B78 else sig >>> 1

/-- One byte into the CRC. -/
def sigByte (sig : W32) (b : Byte) : W32 :=
  sigBit (sigBit (sigBit (sigBit (sigBit (sigBit (sigBit (sigBit (sig ^^^ b.setWidth 32))))))))

/-- Feed a signature unit, low byte first (R331). -/
def sigFeed (sig : W32) (unit : BitVec 16) : W32 :=
  sigByte (sigByte sig (unit.extractLsb' 0 8)) (unit.extractLsb' 8 8)

/-! ### MODE (R63) -/

def modeRm (m : W32) : BitVec 3 := m.extractLsb' 0 3
def modeFtzi (m : W32) : Bool := m.getLsbD 4
def modeFtzo (m : W32) : Bool := m.getLsbD 5
def modeSat (m : W32) : Bool := m.getLsbD 6

/-- Bits of MODE that are not reserved. -/
def modeMask : W32 := 0x1F77

/-- OR flags, in the order of MODE [12:8], into MODE (R64, R90). -/
def modeOr (m : W32) (f : Fp.Flags) : W32 := m ||| (f.setWidth 32 <<< 8)

/-- The rounding mode that a rounding field and MODE.RM give (R88, R113). -/
def rmOf (rnd : BitVec 3) (m : W32) : Fp.RM := if rnd = 0 then .ofField (modeRm m) else .ofField rnd

/-- A written value that sets RM to 0 or 7 is refused (R64). -/
def modeWriteOk (v : W32) : Bool := modeRm v != 0 && modeRm v != 7

/-- Value of MODE after a write of its RW fields (R63). -/
def modeWrite (v : W32) : W32 := v &&& modeMask

/-- EFLAG after a W1C write of its two bits (R63, R64). -/
def eflagWrite (old v : W32) : W32 := old &&& ~~~(v &&& 3)

/-- The MODE that a callee starts with (R279). -/
def modeCallee (keep : Bool) (m : W32) : W32 := if keep then m &&& 0x77 else modeEntry

/-- DOMAIN of a group (R63): gate depth and the executing domain. -/
def domainWord (depth dom : Nat) : W32 := BitVec.ofNat 32 (depth % 8 * 256 + dom % 64)

namespace State

/-- OR flags into a group's MODE at commit (R64, R90). -/
def raiseFlags (s : State) (g : Nat) (f : Fp.Flags) : State :=
  s.modR g fun r => { r with mode := modeOr r.mode f }

/-- Feed an instruction's unit into a group's SIG (R118, R167). -/
def feedSig (s : State) (g : Nat) (unit : BitVec 16) : State :=
  s.modR g fun r => { r with sig := sigFeed r.sig unit }

end State

end Sys2Proof.Machine
end

