-- ==== Sys2Proof/Machine/Operands.lean ====
section
/-! DEFINITION. Operand forms (R107 to R112, R168, R213) and register writes (R169): vector registers under
permutation and sign modifiers, scalars, immediates by position, predicates, masks, offsets and store data. -/

namespace Sys2Proof.Machine

/-- Position types of R168. -/
inductive PTy where | i32 | i64 | f32 | p16
deriving DecidableEq, Repr

/-- Source thread of a permuted read (R110). -/
def permIndex (p : Perm) (t : Nat) : Nat :=
  match p with
  | .none => t
  | .bf k => t ^^^ 2 ^ k.toNat
  | .rot n => 8 * (t / 8) + (t + n.toNat) % 8
  | .rev k => t ^^^ (2 ^ k.toNat - 1)
  | .rep j => j.toNat
  | .resv _ _ => t

/-- An immediate in a position (R111). -/
def immValue (ty : PTy) (v : BitVec 20) : W64 :=
  match ty with
  | .i32 => (v.signExtend 32).setWidth 64
  | .i64 => v.signExtend 64
  | .f32 => (v ++ (0 : BitVec 12)).setWidth 64
  | .p16 => (v.extractLsb' 0 16 ++ v.extractLsb' 0 16).setWidth 64

/-- ABS then NEG on a sign bit (R109). -/
def signMod (v : W32) (bit : W32) (neg abs : Bool) : W32 :=
  let a := if abs then v &&& ~~~bit else v
  if neg then a ^^^ bit else a

/-- Sign modifiers by position (R109). -/
def absNeg (ty : PTy) (v : W32) (neg abs : Bool) : W32 :=
  match ty with
  | .p16 => signMod v 0x80008000 neg abs
  | _ => signMod v 0x80000000 neg abs

/-- Thread t of a vector register. -/
def Regs.vt (r : Regs) (reg t : Nat) : W32 := ((r.v[reg]?).getD (Vector.replicate 32 0))[t]?.getD 0

/-- Poison of thread t of a vector register. -/
def Regs.vpt (r : Regs) (reg t : Nat) : Bool := (r.vp[reg]?.getD 0).getLsbD t

/-- A scalar register and its poison. -/
def Regs.sv (r : Regs) (n : Nat) : W64 := r.s[n]?.getD 0
def Regs.spo (r : Regs) (n : Nat) : Bool := r.sp.getLsbD n

/-- A predicate; p15 reads all ones (R61). -/
def Regs.pv (r : Regs) (n : Nat) : W32 := if n = 15 then 0xFFFFFFFF else r.p[n]?.getD 0

/-- operand_read (R168): value and poison of an operand for a thread. -/
def readOp (r : Regs) (ty : PTy) (o : Operand) (t : Nat) : W64 × Bool :=
  match o with
  | .vec reg p neg abs =>
    let u := permIndex p t
    match ty with
    | .i64 => (r.vt (reg.toNat + 1) u ++ r.vt reg.toNat u, r.vpt reg.toNat u || r.vpt (reg.toNat + 1) u)
    | _ => ((absNeg ty (r.vt reg.toNat u) neg abs).setWidth 64, r.vpt reg.toNat u)
  | .scal n =>
    let v := r.sv n.toNat
    (if ty = .i64 then v else (v.setWidth 32).setWidth 64, r.spo n.toNat)
  | .imm v => (immValue ty v, false)
  | .obj _ _ => (0, false)

/-- The low 32 bits that an operand gives a thread. -/
def read32 (r : Regs) (ty : PTy) (o : Operand) (t : Nat) : W32 × Bool :=
  let x := readOp r ty o t
  (x.1.setWidth 32, x.2)

/-- An offset (R213): V as INT32 sign-extended, S whole, I sign-extended. -/
def readOff (r : Regs) (o : Operand) (t : Nat) : W64 × Bool :=
  match o with
  | .vec _ _ _ _ => let x := read32 r .i32 o t; (x.1.signExtend 64, x.2)
  | o => readOp r .i64 o t

/-- Store data of a thread (R215): its low n bytes, and its poison. -/
def readData (r : Regs) (o : Operand) (n t : Nat) : List Byte × Bool :=
  match o, decide (n = 16) with
  | .vec reg p _ _, true =>
    let u := permIndex p t
    ((List.range 4).flatMap fun i => bytesLE 4 (r.vt (reg.toNat + i) u).toNat,
      (List.range 4).any fun i => r.vpt (reg.toNat + i) u)
  | o, _ =>
    let x := readOp r (if n = 8 then .i64 else .i32) o t
    (bytesLE n x.1.toNat, x.2)

/-- Register, object and immediate fields. -/
def opReg : Operand → Nat
  | .vec r _ _ _ => r.toNat
  | .scal r => r.toNat
  | .imm v => v.toNat
  | .obj _ x => x.toNat

/-- A signed immediate. -/
def opImm : Operand → Int
  | .imm v => v.toInt
  | _ => 0

/-- The effective mask (R107): LIVE with the guard predicate or its negation. -/
def effMask (x : Group) (e : Enc) : W32 :=
  let p := x.arch.regs.pv e.gp.toNat
  x.live &&& (if e.gn then ~~~p else p)

/-- Threads of a mask, in increasing index. -/
def threadsOf (m : W32) : List Nat := (List.range 32).filter fun t => m.getLsbD t

/-! ### Register writes (R169) -/

/-- Write a vector register in the threads of a mask. -/
def Regs.setV (r : Regs) (reg : Nat) (m : W32) (f : Nat → W32 × Bool) : Regs :=
  { r with
    v := r.v.setIfInBounds reg (Vector.ofFn fun t => if m.getLsbD t.val then (f t.val).1 else r.vt reg t.val)
    vp := r.vp.setIfInBounds reg (maskOf fun t => if m.getLsbD t then (f t).2 else r.vpt reg t) }

/-- Write a scalar register with its poison. -/
def Regs.setS (r : Regs) (n : Nat) (v : W64) (p : Bool) : Regs :=
  { r with s := r.s.setIfInBounds n v
           sp := if p then r.sp ||| (1#128 <<< n) else r.sp &&& ~~~(1#128 <<< n) }

/-- Write the bits of a mask in a predicate; p15 discards the write (R61). -/
def Regs.setP (r : Regs) (n : Nat) (m v : W32) : Regs :=
  { r with p := r.p.setIfInBounds n ((r.pv n &&& ~~~m) ||| (v &&& m)) }

namespace State

/-- Vector registers are written in a group's newest reach (R321): the first write of each takes a line (R67). -/
def noteV (s : State) (g : Nat) (regs : List Nat) : State :=
  let r := (s.grp g).reaches.getLast?
  let new := regs.filter fun x => !((r.map (·.written)).getD []).contains x
  (s.modReach g fun r => { r with written := r.written ++ new }).takeLines g (r.map (·.id)) new

/-- write_back of a vector register in the threads of a mask. -/
def putV (s : State) (g reg : Nat) (m : W32) (f : Nat → W32 × Bool) : State :=
  if m = 0 then s else (s.modR g fun r => r.setV reg m f).noteV g [reg]

/-- write_back of a 64-bit pair in the threads of a mask. -/
def putV64 (s : State) (g reg : Nat) (m : W32) (f : Nat → W64 × Bool) : State :=
  (s.putV g reg m fun t => ((f t).1.setWidth 32, (f t).2)).putV g (reg + 1) m
    fun t => ((f t).1.extractLsb' 32 32, (f t).2)

def putS (s : State) (g n : Nat) (v : W64) (p : Bool) : State := s.modR g fun r => r.setS n v p

def putP (s : State) (g n : Nat) (m v : W32) : State := s.modR g fun r => r.setP n m v

end State

/-- The global access of a T instruction (R215, R220): translation register, offset and bytes per thread. -/
def memShape : Instr → Option (Operand × Operand × Nat)
  | .ldv w e => some (e.a, e.b, w.bytes)
  | .stv w e => some (e.d, e.a, w.bytes)
  | .atom f e => some (e.a, e.b, atBytes f)
  | .acas w e => some (e.a, e.b, 4 * w.regs)
  | .atomr f e => some (e.d, e.a, atBytes f)
  | _ => none

/-- Distinct 128-byte sectors that accesses of n bytes touch. -/
def sectorsTouched (n : Nat) (addrs : List W64) : Nat :=
  (distinct (addrs.flatMap fun a => [a.toNat / 128, (a + BitVec.ofNat 64 (n - 1)).toNat / 128])).length

/-- The toll at issue (R120): 2+S counts sectors beyond the first from the operand values. -/
def tollOf (r : Regs) (m : W32) (i : Instr) : Nat :=
  match (form i).toll with
  | .fixed n => n
  | .engine => 0
  | .sectors =>
    match memShape i with
    | none => 2
    | some (x, o, n) =>
      let base := (r.x[opReg x]?.getD XReg.entry).base
      2 + (sectorsTouched n ((threadsOf m).map fun t => base + (readOff r o t).1) - 1)

/-! ### Scoreboard (R45) -/

/-- Vector and scalar registers that an operand names, given its position. -/
def operandRegs (p : Pos) (o : Operand) : List Nat × List Nat :=
  match o with
  | .vec r _ _ _ => (if p.used then (List.range p.width).map (r.toNat + ·) else [], [])
  | .scal r => ([], (List.range p.block).map (r.toNat + ·))
  | _ => ([], [])

/-- Front-end cycles until the scalar result of a uniform instruction is available (R19). -/
def uniformLatency : Instr → Nat
  | .smul _ _ => 4
  | .smulh _ _ => 4
  | .smulhu _ _ => 4
  | .sdiv _ _ => 20
  | .sdivu _ _ => 20
  | .srem _ _ => 20
  | .sremu _ _ => 20
  | _ => 1

/-- Whether a source or destination of the instruction, in some front-end cycle, is the destination of a load not yet
written back (R215) or of a uniform instruction whose result is not yet available (R19). -/
def scoreboardBusy (x : Group) (i : Instr) (e : Enc) (fe : Nat) : Bool :=
  let f := form i
  let us := [operandRegs f.d e.d, operandRegs f.a e.a, operandRegs f.b e.b]
  (x.loads.any fun l =>
    match l.dst with
    | .inl n => us.any fun u => u.2.contains n
    | .inr (r, k) => us.any fun u => u.1.any fun v => r ≤ v && v < r + k) ||
    x.slow.any fun q => decide (fe < q.2) && us.any fun u => u.2.contains q.1

/-- Vector registers that an instruction names, and those of them that it writes. -/
def vecRegs (i : Instr) (e : Enc) : List Nat × List Nat :=
  let f := form i
  let us := [(f.d, e.d), (f.a, e.a), (f.b, e.b)]
  (distinct (us.flatMap fun u => (operandRegs u.1 u.2).1),
    distinct ((us.filter fun u => u.1.dst).flatMap fun u => (operandRegs u.1 u.2).1))

/-- Lines that an instruction still needs in its group's lane file (R67, R76): those of its registers that lie elsewhere,
and one for each register that it is the first of its reach to write. -/
def State.linesNeeded (s : State) (g : Nat) (i : Instr) (e : Enc) : Nat :=
  let rs := vecRegs i e
  let written := ((((s.grp g).reaches.getLast?).map (·.written)).getD [])
  (rs.1.filter fun r => ((s.lineOf g r).map fun l => l.at_ != .cache).getD false).length +
    (rs.2.filter fun r => !written.contains r).length

end Sys2Proof.Machine
end

