-- ==== Sys2Proof/Machine/Frame.lean ====
section
/-! DEFINITION. The execution frame (R167): what every instruction's meaning is wrapped in. An instruction
seals, opens a head, waits for readiness, pays, feeds SIG and has its effect; it commits whole, or traps, or
faults, or leaves the group not ready. -/

namespace Sys2Proof.Machine

/-- What an effect is told of its issue. -/
structure Cx where
  g : Nat
  pc : W64
  e : Enc
  /-- effective mask of a T instruction; LIVE of a U instruction -/
  mask : W32
  /-- SIG before the instruction's own unit -/
  sig0 : W32
deriving DecidableEq, Repr

/-- An instruction's effect on a state whose group's PC and SIG have already moved on. -/
abbrev Eff := Cx → State → Except Stop State

/-- Control-transfer or marker packet of an issue (R389). -/
abbrev Tr := Cx → State → Option (Nat × W64 × W64 × W64)

def Tr.none : Tr := fun _ _ => Option.none

/-- The word of an instruction of the frame (R286 records it). -/
def wordOf (i : Instr) : IWord := (encode i).getD 0

/-- RH and YLD of the hint field (R114). -/
def hintRh (e : Enc) : Bool := e.hint.getLsbD 11
def hintYld (e : Enc) : Bool := e.hint.getLsbD 10

/-- Instructions that open a reach head immediately before themselves (R154, R291). -/
def opensHead : Instr → Bool
  | .fence _ _ _ => true
  | .reach _ => true
  | _ => false

/-- The returning atomics (R120, R158). -/
def isReturning : Instr → Bool
  | .atom _ _ => true
  | .acas _ _ => true
  | _ => false

namespace State

/-- Wait-monitor entries in use in a cluster (R51). DESIGN CHOICE (log 68): a group halted in WAIT keeps its entry, and one that came
back in WAIT holds it in its new cluster, past 512 where need be. -/
def monitorsUsed (s : State) (cl : Nat) : Nat :=
  ((List.range s.groups.length).filter fun g =>
    s.clusterOf g == cl && match (s.grp g).wait with | some w => w.monitor | none => false).length

/-- A group enters WAIT, with a wait-monitor entry when one is free (R51). -/
def enterWait (s : State) (g : Nat) (w : WaitFor) : State :=
  let m := decide (s.monitorsUsed (s.clusterOf g) < Config.waitMonitor)
  (s.dropResv g).modG g fun x => { x with st := .wait, wait := some { what := w, since := s.clk, monitor := m } }

/-- A group that has come to its next instruction: its head, or the end that a seal makes, comes about now (R167). -/
def atBoundary (s : State) (g : Nat) : Bool :=
  let x := s.grp g
  x.st == .run && !x.frozen && !x.haltReq && x.synth.isNone && x.verdict.isNone && x.atom.isNone && s.goesOn g &&
    !(s.cor (s.coreOf g)).paused

/-- Conditions of R45 and R399 that do not depend on the toll: a group that can take an instruction. -/
def canTake (s : State) (g : Nat) (i : Instr) (e : Enc) : Bool :=
  let x := s.grp g
  let k := s.cor (s.coreOf g)
  s.atBoundary g && decide (x.yieldUntil ≤ k.fe) && !scoreboardBusy x i e k.fe &&
    (!(form i).t || decide ((k.laneFree[x.lane]?.getD 0) ≤ k.fe))

/-! ### Seals and heads (R320, R328) -/

/-- Whether the executing reach was opened before the group's next instruction, and nothing has executed in it. -/
def freshHead (s : State) (g : Nat) : Bool :=
  match s.curReach g with
  | some r => r.fresh && r.snap.pc == (s.grp g).arch.pc
  | none => false

/-- Whether a head opens before an instruction, whatever it does (R114, R120, R154, R291, R320). -/
def headNeeded (s : State) (g : Nat) (i : Instr) (e : Enc) : Bool :=
  !s.freshHead g && (hintRh e || (form i).seals || opensHead i || (s.curReach g).isNone)

/-- A head; one that would open a third reach ends the executing one and stalls (R320). -/
def headOrEnd (s : State) (g : Nat) : State := if 2 ≤ (s.grp g).reaches.length then s.endReach g else s.openHead g

/-- Whether a seal waits for the group's open reaches (R328), that of a returning atomic also for its incomplete fences
(R154). -/
def sealWaits (s : State) (g : Nat) (i : Instr) : Bool :=
  (form i).seals && ((!(s.grp g).reaches.isEmpty && !(s.freshHead g && (s.grp g).reaches.length == 1)) ||
    (isReturning i && !(s.grp g).fences.isEmpty))

/-- What precedes the wait for readiness (R167): the seal's wait, or the head. -/
def prepare (s : State) (g : Nat) (i : Instr) (e : Enc) : State :=
  if s.sealWaits g i then (s.endReach g).enterWait g (.sealing (isReturning i))
  else if s.headNeeded g i e then s.headOrEnd g
  else s

/-- Whether the instruction may then go on to its readiness. -/
def prepared (s : State) (g : Nat) (i : Instr) (e : Enc) : Bool :=
  !s.sealWaits g i && (!s.headNeeded g i e || decide ((s.grp g).reaches.length < 2))

/-- Front-end cycles for which an instruction occupies its lane (R18). -/
def laneBusy (r : Ratio) : Nat :=
  match r with
  | .two => 4
  | .one => 8
  | .half => 16

/-- Bookkeeping of an issue, before its effect: the lane, the issue age and denial, matching that is suppressed, trace (R18, R45,
R46, R48, R389, R394). -/
def markIssue (s : State) (g : Nat) (pc : W64) (mask : Option W32) (own : Option (Nat × W64 × W64 × W64)) : State :=
  let c := s.coreOf g
  let fe := (s.cor c).fe
  let s1 := s.modG g fun x =>
    { x with lastIssue := fe, denied := 0, readyFor := 0, promoted := false, skipIbp := false, skipWatch := false, unwatched := x.skipWatch
             reaches := x.reaches.map fun r => { r with fresh := false } }
  let s2 := match mask with
    | some _ => s1.modC c fun k =>
        { k with laneFree := k.laneFree.setIfInBounds (s.grp g).lane (fe + laneBusy (s.clu (c / 8)).ratio) }
    | none => s1
  s2.traceIssue g pc mask own

/-- A breakpoint that the host has routed to itself: the group only enters HALT, and the instruction is not issued (R394,
R397). -/
def breakHalts (s : State) (g : Nat) (cls : TrapClass) : Bool :=
  cls == .breakpoint && ((s.cx (s.grp g).arch.ctx).debug[20]).getLsbD 0

/-- Room for the pound entries and counters that an effect left (R324, R236). -/
def roomFor (s : State) (g : Nat) : Bool :=
  let x := s.grp g
  decide (s.poundUsed (s.coreOf g) ≤ Config.poundEntries) && decide (x.cld ≤ 65535) && decide (x.cst ≤ 65535) &&
    decide (x.ccpy ≤ 65535) && decide (x.ctile ≤ 65535)

/-- An effect that added no pound entry needs none (R324). -/
def roomKept (s s' : State) (g : Nat) : Bool :=
  let x := s'.grp g
  decide (s'.poundUsed (s'.coreOf g) ≤ s.poundUsed (s.coreOf g)) && decide (x.cld ≤ 65535) && decide (x.cst ≤ 65535) &&
    decide (x.ccpy ≤ 65535) && decide (x.ctile ≤ 65535)

/-- The automatic head is due before an instruction whose effect led from one state to another (R321). -/
def headDue (s s' : State) (g : Nat) : Bool :=
  decide (64 < (((s'.curReach g).map (·.written)).getD []).length) ||
    (decide (s.poundCount g < s'.poundCount g) && decide (s.share g < 2 * s'.poundCount g))

/-- Pound entries that an instruction makes whatever its operands hold (R323). -/
def surelyPounds (i : Instr) : Nat :=
  match i with
  | .cpy _ => 1
  | .cpy2 _ => 1
  | .cpyr _ => 1
  | .bbind _ => 1
  | _ => 0

/-- The automatic head is due before an instruction whose registers a pending result holds back, or which is not ready for
another reason (R321). DEDUCED (log 24): how many sectors it would store to is not known then, so that the vector registers that
it writes and the entries that it makes in any case decide. -/
def headDueStatic (s : State) (g : Nat) (i : Instr) (e : Enc) : Bool :=
  let w := ((s.curReach g).map (·.written)).getD []
  !s.freshHead g && ((decide (effMask (s.grp g) e ≠ 0) && decide (64 < w.length + ((vecRegs i e).2.filter fun r => !w.contains r).length)) ||
    (decide (surelyPounds i ≠ 0) && decide (s.share g < 2 * (s.poundCount g + surelyPounds i))))

/-- YLD of an issued instruction that leaves its group in RUN: not ready in the next 8 front-end cycles (R114). -/
def yieldHint (s : State) (g : Nat) (e : Enc) : State :=
  let fe := (s.cor (s.coreOf g)).fe
  if hintYld e && (s.grp g).st == .run then s.modG g fun x => { x with yieldUntil := max x.yieldUntil (fe + 9) } else s

/-- A scalar result that takes longer than a cycle is awaited (R19). -/
def markSlow (s : State) (g : Nat) (i : Instr) (e : Enc) : State :=
  let fe := (s.cor (s.coreOf g)).fe
  if uniformLatency i = 1 then s
  else s.modG g fun x => { x with slow := (x.slow.filter fun q => decide (fe < q.2)) ++ [(opReg e.d, fe + uniformLatency i)] }

/-- After commit: the latency of the result (R19), YLD (R114), no BRK to pass any more (R397), and the end of a single step
(R395). -/
def afterCommit (s : State) (g : Nat) (i : Instr) (e : Enc) : State :=
  let s1 := ((s.markSlow g i e).yieldHint g e).modG g fun x => { x with brkPass := false }
  if (s.grp g).stepping && (s.grp g).st == .run then s1.requestHalt g else s1

/-- Outcome of one attempt to issue. -/
inductive Tried where
  /-- not ready, and this is all that happens; `due`: the automatic head is due before the instruction -/
  | waits (due : Bool) (s : State)
  /-- the effect would leave more pound entries, or need more lines, than there are -/
  | noRoom (s : State)
  | committed (s : State)
  | other (s : State)
deriving DecidableEq, Repr

/-- What the effect sees: SIG fed and the PC moved on (R167). -/
def begun (s : State) (g : Nat) (w : IWord) : State :=
  (s.feedSig g (unitOf w)).modG g fun x => { x with arch := { x.arch with pc := x.arch.pc + 12 } }

/-- Whether a pending load would still write a register that a trap record uses (R286). -/
def recordAwaited (x : Group) : Bool :=
  x.loads.any fun l => match l.dst with
    | .inl n => decide (n < 5)
    | .inr _ => false

/-- A state in which some fills have been made: what an instruction that waits for them would do (R321). -/
def withHeld (s : State) (t : Nat) (fs : List Fill) : State :=
  s.modT t fun y => { y with held := y.held ++ fs.map fun f =>
    { berth := f.berth, frame := f.frame, off := f.off, va := f.va, key := f.key, dirty := 0, snoops := [], served := [], by_ := none } }

/-- One attempt (R167) from a state `s0` in which a head may have opened since `s`. -/
def attempt (s s0 : State) (i : Instr) (e : Enc) (tr : Tr) (eff : Eff) (g : Nat) : Tried :=
  let x := s.grp g
  let f := form i
  let m := if f.t then effMask x e else x.live
  let c : Cx := { g := g, pc := x.arch.pc, e := e, mask := m, sig0 := x.arch.regs.sig }
  let s0' := (s0.useLines g (vecRegs i e).1).payToll g (tollOf x.arch.regs m i)
  let s1 := s0'.markIssue g c.pc (if f.t then some m else none) (tr c s)
  let out := eff c (s1.begun g (wordOf i))
  let static := s0.headDueStatic g i e
  if !s0.laneHolds g (s0.linesNeeded g i e) then
    (match out with
     | .ok s2 => .noRoom s2
     | _ => .waits static s0)
  else match out with
  | .error .hold => .waits static s0
  | .error (.await w) => .other (s0.enterWait g w)
  | .error (.fill t fs) =>
    let due := match eff c ((s1.begun g (wordOf i)).withHeld t fs) with
      | .ok s2 => !s0.freshHead g && s0.headDue s2 g
      | _ => static
    .waits due (s0.modT t fun y =>
      { y with fills := y.fills ++ fs.filter fun f => !y.fills.any fun z => z.berth == f.berth && z.frame == f.frame && z.off == f.off })
  | .error (.goto s') => .other s'
  | .error (.page va) => .other (s1.enterReplay g .pageFault va false)
  | .error (.kept n y page va) =>
    let s2 := s1.modR g fun r => { r with x := r.x.setIfInBounds n y }
    if page then .other (s2.enterReplay g .pageFault va false)
    else if recordAwaited x then .waits false s0
    else .other ((s2.takeTrap g (.at_ .permission va) c.pc (wordOf i)).yieldHint g e)
  | .error (.trap t) =>
    if recordAwaited x then .waits false s0
    else .other (((if s.breakHalts g t.cls then s0' else s1).takeTrap g t c.pc (wordOf i)).yieldHint g e)
  | .ok s2 =>
    if s2.roomFor g || s0.roomKept s2 g then .committed (s2.afterCommit g i e) else .noRoom s2

/-- The state after an attempt that was to issue in a reach whose head may have opened just now. -/
def afterAttempt (s0 : State) : Tried → State
  | .waits _ s' => s'
  | .noRoom _ => s0
  | .other s' => s'
  | .committed s' => s'

/-- Whether an attempt shows that the automatic head is due (R321). -/
def Tried.due (s0 : State) (g : Nat) : Tried → Bool
  | .waits d _ => d
  | .noRoom s' => !s0.freshHead g && s0.headDue s' g
  | .committed s' => !s0.freshHead g && s0.headDue s' g
  | _ => false

/-- Whether a group that has come to an instruction is ready for it and can pay (R45). -/
def issuable (s : State) (g : Nat) (i : Instr) (e : Enc) : Bool :=
  let x := s.grp g
  s.canTake g i e && s.payable g (tollOf x.arch.regs (if (form i).t then effMask x e else x.live) i)

/-- The state after the executing group is given an instruction (R167): its seal's wait or its head, which is that of R321
where the attempt would need it; then the instruction, if the group is ready and can pay. -/
def issueState (s : State) (i : Instr) (e : Enc) (tr : Tr) (eff : Eff) (g : Nat) : State :=
  let x := s.grp g
  let ready := s.issuable g i e
  if !s.atBoundary g then s
  else
    let s0 := s.prepare g i e
    if !s.prepared g i e then s0
    else if scoreboardBusy x i e (s.cor (s.coreOf g)).fe then (if s0.headDueStatic g i e then s0.headOrEnd g else s0)
    else
      let t := s.attempt s0 i e tr eff g
      if t.due s0 g then
        if 2 ≤ (s0.grp g).reaches.length then s0.endReach g
        else if ready then (s0.openHead g).afterAttempt (s.attempt (s0.openHead g) i e tr eff g)
        else s0.openHead g
      else if ready then s0.afterAttempt t
      else s0

end State

/-- The frame: the executing group takes the instruction (R167). -/
def issueT (i : Instr) (e : Enc) (tr : Tr) (eff : Eff) (s : State) : Host.Outcome State Fault Refusal :=
  match s.groups[s.cur]? with
  | none => .refused .noGroup
  | some _ => .next (s.issueState i e tr eff s.cur)

def issue (i : Instr) (e : Enc) (eff : Eff) (s : State) : Host.Outcome State Fault Refusal :=
  issueT i e Tr.none eff s

end Sys2Proof.Machine
end

