-- ==== Sys2Proof/Machine/Scalar.lean ====
section
/-! DEFINITION. Scalar instructions (R171 to R178): arithmetic, logic, bit fields, moves, selects, compares
and special registers. -/

namespace Sys2Proof.Machine

abbrev Out := Host.Outcome State Fault Refusal

/-! ### Integer operations on n bits -/

/-- Signed and unsigned quotients and remainders, which never trap (R172). -/
def divS {n : Nat} (a b : BitVec n) : BitVec n := if b = 0 then BitVec.allOnes n else a.sdiv b
def divU {n : Nat} (a b : BitVec n) : BitVec n := if b = 0 then BitVec.allOnes n else a / b
def remS {n : Nat} (a b : BitVec n) : BitVec n := if b = 0 then a else a.srem b
def remU {n : Nat} (a b : BitVec n) : BitVec n := if b = 0 then a else a % b

/-- High halves of the signed and unsigned products. -/
def mulHS {n : Nat} (a b : BitVec n) : BitVec n := BitVec.ofInt n (a.toInt * b.toInt / 2 ^ n)
def mulHU {n : Nat} (a b : BitVec n) : BitVec n := BitVec.ofNat n (a.toNat * b.toNat / 2 ^ n)

def minS {n : Nat} (a b : BitVec n) : BitVec n := if b.slt a then b else a
def maxS {n : Nat} (a b : BitVec n) : BitVec n := if a.slt b then b else a
def minU {n : Nat} (a b : BitVec n) : BitVec n := if b.ult a then b else a
def maxU {n : Nat} (a b : BitVec n) : BitVec n := if a.ult b then b else a

/-- Leading zeros; n for 0. -/
def clzBv {n : Nat} (a : BitVec n) : BitVec n := BitVec.ofNat n (if a = 0 then n else n - 1 - a.toNat.log2)

/-- Trailing zeros of the low bits looked at; their number when all are 0. -/
def ctzNat : Nat → Nat → Nat
  | 0, _ => 0
  | k + 1, a => if a % 2 = 1 then 0 else 1 + ctzNat k (a / 2)

def ctzBv {n : Nat} (a : BitVec n) : BitVec n := BitVec.ofNat n (ctzNat n a.toNat)

/-- Number of 1 bits. -/
def popNat : Nat → Nat → Nat
  | 0, _ => 0
  | k + 1, a => a % 2 + popNat k (a / 2)

def popBv {n : Nat} (a : BitVec n) : BitVec n := BitVec.ofNat n (popNat n a.toNat)

/-- Bit i moved to bit n − 1 − i. -/
def brevBv {n : Nat} (a : BitVec n) : BitVec n := BitVec.ofNat n (bitsNat n fun i => a.getLsbD (n - 1 - i))

/-- Position and number of bits of a field control word (R173). -/
def fieldPos {n : Nat} (b : BitVec n) : Nat := b.toNat % n
def fieldLen {n : Nat} (b : BitVec n) : Nat := min (b.toNat / 256 % 128) (n - fieldPos b)

def bfx {n : Nat} (a b : BitVec n) : BitVec n :=
  let k := fieldLen b
  let v := a.toNat / 2 ^ fieldPos b % 2 ^ k
  BitVec.ofNat n (if k ≠ 0 ∧ 2 ^ (k - 1) ≤ v then 2 ^ n - 2 ^ k + v else v)

def bfxu {n : Nat} (a b : BitVec n) : BitVec n := BitVec.ofNat n (a.toNat / 2 ^ fieldPos b % 2 ^ fieldLen b)

/-- Bits of d replaced by the low bits of a (R173). -/
def bfi {n : Nat} (d a b : BitVec n) : BitVec n :=
  let p := fieldPos b
  let k := fieldLen b
  BitVec.ofNat n (d.toNat % 2 ^ p + a.toNat % 2 ^ k * 2 ^ p + d.toNat / 2 ^ (p + k) * 2 ^ (p + k))

/-- Conditions of R119 on n-bit values (R175, R200). -/
def condHolds {n : Nat} (c : Cond) (a b : BitVec n) : Bool :=
  match c with
  | .eq => a == b
  | .ne => a != b
  | .lt => a.slt b
  | .le => a.sle b
  | .gt => b.slt a
  | .ge => b.sle a
  | .ltu => a.ult b
  | .leu => a.ule b
  | .gtu => b.ult a
  | .geu => b.ule a

/-! ### Shared shapes -/

/-- Value and poison of a scalar operand. -/
def sArg (s : State) (c : Cx) (o : Operand) : W64 × Bool := readOp (s.regsOf c.g) .i64 o 0

/-- An operation at a form's width; a .32 result is sign-extended (R170). -/
def atWidth (w : SWidth) (op : ∀ n, BitVec n → BitVec n → BitVec n) (a b : W64) : W64 :=
  match w with
  | .w64 => op 64 a b
  | .w32 => (op 32 (a.setWidth 32) (b.setWidth 32)).signExtend 64

/-- The three-operand forms of R171. -/
def sBin (w : SWidth) (op : ∀ n, BitVec n → BitVec n → BitVec n) : Eff := fun c s =>
  let a := sArg s c c.e.a
  let b := sArg s c c.e.b
  .ok (s.putS c.g (opReg c.e.d) (atWidth w op a.1 b.1) (a.2 || b.2))

/-- The unary forms of R171. -/
def sUn (w : SWidth) (op : ∀ n, BitVec n → BitVec n) : Eff := fun c s =>
  let a := sArg s c c.e.a
  .ok (s.putS c.g (opReg c.e.d) (atWidth w (fun n x _ => op n x) a.1 0) a.2)

/-- SADD (R171). -/
def execSadd (w : SWidth) (e : Enc) (s : State) : Out := issue (.sadd w e) e (sBin w (fun _ a b => a + b)) s

/-- SSUB (R171). -/
def execSsub (w : SWidth) (e : Enc) (s : State) : Out := issue (.ssub w e) e (sBin w (fun _ a b => a - b)) s

/-- SMUL (R171). -/
def execSmul (w : SWidth) (e : Enc) (s : State) : Out := issue (.smul w e) e (sBin w (fun _ a b => a * b)) s

/-- SMULH (R171). -/
def execSmulh (w : SWidth) (e : Enc) (s : State) : Out := issue (.smulh w e) e (sBin w (fun _ => mulHS)) s

/-- SMULHU (R171). -/
def execSmulhu (w : SWidth) (e : Enc) (s : State) : Out := issue (.smulhu w e) e (sBin w (fun _ => mulHU)) s

/-- SDIV (R172). -/
def execSdiv (w : SWidth) (e : Enc) (s : State) : Out := issue (.sdiv w e) e (sBin w (fun _ => divS)) s

/-- SDIVU (R172). -/
def execSdivu (w : SWidth) (e : Enc) (s : State) : Out := issue (.sdivu w e) e (sBin w (fun _ => divU)) s

/-- SREM (R172). -/
def execSrem (w : SWidth) (e : Enc) (s : State) : Out := issue (.srem w e) e (sBin w (fun _ => remS)) s

/-- SREMU (R172). -/
def execSremu (w : SWidth) (e : Enc) (s : State) : Out := issue (.sremu w e) e (sBin w (fun _ => remU)) s

/-- SAND (R171). -/
def execSand (w : SWidth) (e : Enc) (s : State) : Out := issue (.sand w e) e (sBin w (fun _ a b => a &&& b)) s

/-- SOR (R171). -/
def execSor (w : SWidth) (e : Enc) (s : State) : Out := issue (.sor w e) e (sBin w (fun _ a b => a ||| b)) s

/-- SXOR (R171). -/
def execSxor (w : SWidth) (e : Enc) (s : State) : Out := issue (.sxor w e) e (sBin w (fun _ a b => a ^^^ b)) s

/-- SANDN (R171). -/
def execSandn (w : SWidth) (e : Enc) (s : State) : Out := issue (.sandn w e) e (sBin w (fun _ a b => a &&& ~~~b)) s

/-- SSHL (R171). -/
def execSshl (w : SWidth) (e : Enc) (s : State) : Out := issue (.sshl w e) e (sBin w (fun n a b => a <<< (b.toNat % n))) s

/-- SSHR (R171). -/
def execSshr (w : SWidth) (e : Enc) (s : State) : Out := issue (.sshr w e) e (sBin w (fun n a b => a >>> (b.toNat % n))) s

/-- SSRA (R171). -/
def execSsra (w : SWidth) (e : Enc) (s : State) : Out := issue (.ssra w e) e (sBin w (fun n a b => a.sshiftRight (b.toNat % n))) s

/-- SROL (R171). -/
def execSrol (w : SWidth) (e : Enc) (s : State) : Out := issue (.srol w e) e (sBin w (fun n a b => a.rotateLeft (b.toNat % n))) s

/-- SMIN (R171). -/
def execSmin (w : SWidth) (e : Enc) (s : State) : Out := issue (.smin w e) e (sBin w (fun _ => minS)) s

/-- SMAX (R171). -/
def execSmax (w : SWidth) (e : Enc) (s : State) : Out := issue (.smax w e) e (sBin w (fun _ => maxS)) s

/-- SMINU (R171). -/
def execSminu (w : SWidth) (e : Enc) (s : State) : Out := issue (.sminu w e) e (sBin w (fun _ => minU)) s

/-- SMAXU (R171). -/
def execSmaxu (w : SWidth) (e : Enc) (s : State) : Out := issue (.smaxu w e) e (sBin w (fun _ => maxU)) s

/-- SBFX (R173). -/
def execSbfx (w : SWidth) (e : Enc) (s : State) : Out := issue (.sbfx w e) e (sBin w (fun _ => bfx)) s

/-- SBFXU (R173). -/
def execSbfxu (w : SWidth) (e : Enc) (s : State) : Out := issue (.sbfxu w e) e (sBin w (fun _ => bfxu)) s

/-- SCLZ (R171). -/
def execSclz (w : SWidth) (e : Enc) (s : State) : Out := issue (.sclz w e) e (sUn w (fun _ => clzBv)) s

/-- SCTZ (R171). -/
def execSctz (w : SWidth) (e : Enc) (s : State) : Out := issue (.sctz w e) e (sUn w (fun _ => ctzBv)) s

/-- SPOPC (R171). -/
def execSpopc (w : SWidth) (e : Enc) (s : State) : Out := issue (.spopc w e) e (sUn w (fun _ => popBv)) s

/-- SBREV (R171). -/
def execSbrev (w : SWidth) (e : Enc) (s : State) : Out := issue (.sbrev w e) e (sUn w (fun _ => brevBv)) s

/-- SBFI reads sd as a third source (R173). DESIGN CHOICE (log 50): with a width of 0 a .32 form writes sd's low half as
any .32 result is written, sign-extended (R170). -/
def sbfiEff (w : SWidth) : Eff := fun c s =>
  let d := sArg s c c.e.d
  let a := sArg s c c.e.a
  let b := sArg s c c.e.b
  .ok (s.putS c.g (opReg c.e.d)
    (match w with
     | .w64 => bfi d.1 a.1 b.1
     | .w32 => (bfi (d.1.setWidth 32) (a.1.setWidth 32) (b.1.setWidth 32)).signExtend 64) (d.2 || a.2 || b.2))

/-- SBFI (R173). -/
def execSbfi (w : SWidth) (e : Enc) (s : State) : Out := issue (.sbfi w e) e (sbfiEff w) s

/-- SSEL: D is condition and destination (R174). -/
def sselEff : Eff := fun c s =>
  let d := sArg s c c.e.d
  let x := if d.1 ≠ 0 then sArg s c c.e.a else sArg s c c.e.b
  .ok (s.putS c.g (opReg c.e.d) x.1 (d.2 || x.2))

/-- SSEL (R174). -/
def execSsel (e : Enc) (s : State) : Out := issue (.ssel e) e sselEff s

/-- SMOV (R174). -/
def execSmov (e : Enc) (s : State) : Out :=
  issue (.smov e) e (fun c s => let a := sArg s c c.e.a; .ok (s.putS c.g (opReg c.e.d) a.1 a.2)) s

/-- SMOVI: the signed 40-bit joined immediate (R174). -/
def execSmovi (e : Enc) (s : State) : Out :=
  issue (.smovi e) e
    (fun c s => .ok (s.putS c.g (opReg c.e.d) ((BitVec.ofNat 40 (joinedValue c.e)).signExtend 64) false)) s

/-- SMOVH: 24 bits above the low 40 of sd (R174). -/
def execSmovh (e : Enc) (s : State) : Out :=
  issue (.smovh e) e
    (fun c s =>
      let d := sArg s c c.e.d
      .ok (s.putS c.g (opReg c.e.d) (BitVec.ofNat 24 (joinedValue c.e) ++ d.1.extractLsb' 0 40) d.2)) s

/-- SCMP.cond (R175). -/
def scmpEff (cd : Cond) (w : SWidth) : Eff := fun c s =>
  let a := sArg s c c.e.a
  let b := sArg s c c.e.b
  let h := match w with
    | .w64 => condHolds cd a.1 b.1
    | .w32 => condHolds cd (a.1.setWidth 32) (b.1.setWidth 32)
  .ok (s.putS c.g (opReg c.e.d) (if h then 1 else 0) (a.2 || b.2))

/-- SCMP (R175). -/
def execScmp (cd : Cond) (w : SWidth) (e : Enc) (s : State) : Out := issue (.scmp cd w e) e (scmpEff cd w) s

/-! ### Special registers (R63, R176, R177) -/

/-- Value of a special register as SGETSR reads it; SIG is read before the SGETSR's own unit is fed (R177). -/
def specialValue (s : State) (c : Cx) (i : Nat) : W64 :=
  let x := s.grp c.g
  let t := s.teamOf c.g
  match i with
  | 0x0 => x.arch.regs.mode.setWidth 64
  | 0x1 => x.live.setWidth 64
  | 0x2 => BitVec.ofNat 64 x.gidx
  | 0x3 => BitVec.ofNat 64 t.x
  | 0x4 => BitVec.ofNat 64 t.y
  | 0x5 => BitVec.ofNat 64 t.z
  | 0x6 => BitVec.ofNat 64 t.stage
  | 0x7 => BitVec.ofNat 64 (x.gidx * 32)
  | 0x8 => BitVec.ofNat 64 s.clk
  | 0x9 => BitVec.ofNat 64 (s.cor t.core).free
  | 0xA => (s.cor t.core).cad.setWidth 64
  | 0xB => c.sig0.setWidth 64
  | 0xC => x.arch.regs.eflag.setWidth 64
  | _ => (domainWord x.arch.frames.length x.arch.dom).setWidth 64

/-- SGETSR (R176). -/
def execSgetsr (e : Enc) (s : State) : Out :=
  issue (.sgetsr e) e (fun c s => .ok (s.putS c.g (opReg c.e.d) (specialValue s c (opReg c.e.a)) false)) s

/-- SSETSR: MODE, SIG or EFLAG by the Access column; SIG takes the value after its own unit (R64, R176,
R177, R178). -/
def ssetsrEff : Eff := fun c s =>
  let a := sArg s c c.e.a
  let v := a.1.setWidth 32
  if a.2 then .error (.trap (.poisonOf [(2, true)]))
  else
    match opReg c.e.d with
    | 0x0 => if modeWriteOk v then .ok (s.modR c.g fun r => { r with mode := modeWrite v }) else .error (.trap (.operandN 2))
    | 0xB => .ok (s.modR c.g fun r => { r with sig := v })
    | 0xC => .ok (s.modR c.g fun r => { r with eflag := eflagWrite r.eflag v })
    | _ => .error (.trap (.operandN 1))

/-- SSETSR (R176). -/
def execSsetsr (e : Enc) (s : State) : Out := issue (.ssetsr e) e ssetsrEff s

end Sys2Proof.Machine
end

