-- ==== Sys2Proof/Machine/Control.lean ====
section
/-! DEFINITION. Control flow (R181 to R186) and scalar memory (R179, R180). -/

namespace Sys2Proof.Machine

/-! ### Branches -/

def State.jump (s : State) (g : Nat) (pc : W64) : State :=
  s.modG g fun x => { x with arch := { x.arch with pc := pc } }

/-- PC + 4 × imm, modulo 2^64 (R181). -/
def branchTarget (c : Cx) (o : Operand) : W64 := c.pc + BitVec.ofInt 64 (4 * opImm o)

/-- Go to a target if a condition holds. -/
def branchIf (b : Bool) (c : Cx) (o : Operand) (s : State) : State :=
  if b then s.jump c.g (branchTarget c o) else s

/-- The BR packet: taken, indirect, and the target of an indirect transfer (R389). -/
def brPacket (taken indirect : Bool) (target : W64) : Nat × W64 × W64 × W64 :=
  (2, BitVec.ofNat 64 ((if taken then 1 else 0) + if indirect then 2 else 0), if indirect then target else 0, 0)

/-- Whether a conditional branch is taken: BRZ, BRNZ on a scalar, BRANY, BRALL, BRNONE on a predicate (R182). -/
def scalarZero (c : Cx) (s : State) : Bool := (sArg s c c.e.d).1 == 0
def predAny (c : Cx) (s : State) : Bool := (s.regsOf c.g).pv (opReg c.e.d) &&& (s.grp c.g).live != 0
def predAll (c : Cx) (s : State) : Bool :=
  (s.regsOf c.g).pv (opReg c.e.d) &&& (s.grp c.g).live == (s.grp c.g).live

/-- A branch on a scalar: poison of the condition traps (R182). -/
def scalarBranch (taken : Cx → State → Bool) : Eff := fun c s =>
  if (sArg s c c.e.d).2 then .error (.trap (.poisonOf [(1, true)])) else .ok (branchIf (taken c s) c c.e.a s)

def predBranch (taken : Cx → State → Bool) : Eff := fun c s => .ok (branchIf (taken c s) c c.e.a s)

/-- BRA (R182). -/
def execBra (e : Enc) (s : State) : Out :=
  issueT (.bra e) e (fun _ _ => some (brPacket true false 0)) (fun c s => .ok (branchIf true c c.e.d s)) s

/-- BRZ (R182). -/
def execBrz (e : Enc) (s : State) : Out :=
  issueT (.brz e) e (fun c s => some (brPacket (scalarZero c s) false 0)) (scalarBranch scalarZero) s

/-- BRNZ (R182). -/
def execBrnz (e : Enc) (s : State) : Out :=
  issueT (.brnz e) e (fun c s => some (brPacket (!scalarZero c s) false 0)) (scalarBranch fun c s => !scalarZero c s) s

/-- BRANY (R182). -/
def execBrany (e : Enc) (s : State) : Out :=
  issueT (.brany e) e (fun c s => some (brPacket (predAny c s) false 0)) (predBranch predAny) s

/-- BRALL (R182). -/
def execBrall (e : Enc) (s : State) : Out :=
  issueT (.brall e) e (fun c s => some (brPacket (predAll c s) false 0)) (predBranch predAll) s

/-- BRNONE (R182). -/
def execBrnone (e : Enc) (s : State) : Out :=
  issueT (.brnone e) e (fun c s => some (brPacket (!predAny c s) false 0)) (predBranch fun c s => !predAny c s) s

/-! ### The call stack (R183) -/

/-- The call-stack trap, with the depth in s2 (R183, R286). -/
def callStackTrap (depth : Nat) : Stop := .trap (.at_ .callStack (BitVec.ofNat 64 depth))

/-- Push the return PC and go to a target; at depth 64 the call traps. A 17th entry waits until CALL_STACK_SPILL has
written the outermost one, which waits until the reach that pushed it has cleared (R183). DEDUCED (log 48): where that is the
executing reach, the call waits for as long as that reach executes, which ends at a head only (R248). -/
def pushCall (target : W64) : Eff := fun c s =>
  let x := s.grp c.g
  let n := x.arch.regs.calls.length
  if 64 ≤ n then .error (callStackTrap 64)
  else if 16 ≤ n - x.arch.regs.spilled then .error .hold
  else .ok ((s.modR c.g fun r => { r with calls := (c.pc + 12) :: r.calls }).jump c.g target)

/-- A jump target in a scalar: poison, then alignment (R183). DESIGN CHOICE (log 49): CALLI raises these before the
call-stack trap of depth 64. -/
def jumpArg (c : Cx) (s : State) : Except Stop W64 :=
  let a := sArg s c c.e.d
  if a.2 then .error (.trap (.poisonOf [(1, true)]))
  else if a.1.extractLsb' 0 2 != 0 then .error (.trap (.operandN 1))
  else .ok a.1

/-- CALL (R183). -/
def execCall (e : Enc) (s : State) : Out :=
  issueT (.call e) e (fun _ _ => some (brPacket true false 0)) (fun c s => pushCall (branchTarget c c.e.d) c s) s

/-- CALLI (R183). -/
def execCalli (e : Enc) (s : State) : Out :=
  issueT (.calli e) e (fun c s => some (brPacket true true (sArg s c c.e.d).1))
    (fun c s =>
      match jumpArg c s with
      | .error t => .error t
      | .ok a => pushCall a c s) s

/-- RET (R183). -/
def execRet (e : Enc) (s : State) : Out :=
  issueT (.ret e) e (fun c s => some (brPacket true true ((s.regsOf c.g).calls.headD 0)))
    (fun c s =>
      match (s.regsOf c.g).calls with
      | [] => .error (callStackTrap 0)
      | pc :: rest =>
        .ok ((s.modR c.g fun r => { r with calls := rest, spilled := min r.spilled rest.length }).jump c.g pc)) s

/-- JMPI (R183). -/
def execJmpi (e : Enc) (s : State) : Out :=
  issueT (.jmpi e) e (fun c s => some (brPacket true true (sArg s c c.e.d).1))
    (fun c s =>
      match jumpArg c s with
      | .error t => .error t
      | .ok a => .ok (s.jump c.g a)) s

/-- LOOP (R184). -/
def execLoop (e : Enc) (s : State) : Out :=
  issueT (.loop e) e (fun c s => some (brPacket ((sArg s c c.e.d).1 - 1 != 0) false 0))
    (fun c s =>
      let d := sArg s c c.e.d
      if d.2 then .error (.trap (.poisonOf [(1, true)]))
      else .ok (branchIf (d.1 - 1 != 0) c c.e.a (s.putS c.g (opReg c.e.d) (d.1 - 1) false))) s

/-- NOP (R185). -/
def execNop (e : Enc) (s : State) : Out := issue (.nop e) e (fun _ s => .ok s) s

/-- YIELD: n front-end cycles not ready; 0, or none written, means 8 (R185). -/
def execYield (e : Enc) (s : State) : Out :=
  issue (.yield e) e
    (fun c s =>
      let n := (opImm c.e.d).toNat
      .ok (s.modG c.g fun x =>
        { x with yieldUntil := (s.cor (s.coreOf c.g)).fe + 1 + if n = 0 then 8 else n })) s

/-- EXIT at gate depth 0: DONE, the call stack discarded, the reach ending with it (R186, R338). Inside a
frame: the callee has failed (R186, R285). -/
def exitEff : Eff := fun c s =>
  if s.depthOf c.g = 0 then
    .ok (((s.modR c.g fun r => { r with calls := [], spilled := 0 }).modG c.g fun x => { x with st := .done }).endReach c.g)
  else .error (.goto (s.startSynth c.g 1 0))

/-- EXIT (R186). -/
def execExit (e : Enc) (s : State) : Out := issue (.exit e) e exitEff s

/-! ### Scalar memory (R179, R180) -/

def MWidth.n : MWidth → Nat
  | .b8 => 1
  | .b16 => 2
  | .b32 => 4
  | .b64 => 8

def UWidth.n : UWidth → Nat
  | .b8 => 1
  | .b16 => 2
  | .b32 => 4

/-- Extend the low 8n bits of a value. -/
def extend64 (signed : Bool) (n v : Nat) : W64 :=
  BitVec.ofNat 64 (if signed ∧ 2 ^ (8 * n - 1) ≤ v then 2 ^ 64 - 2 ^ (8 * n) + v else v)

/-- A load enters the group's outstanding loads and counts on cld (R236). -/
def State.pushLoad (s : State) (g : Nat) (l : PendLoad) : State :=
  s.modG g fun x => { x with loads := x.loads ++ [l], cld := x.cld + 1 }

/-- SLD and SLDU: the value is read in program order and written back when it returns. -/
def sldEff (signed : Bool) (n : Nat) : Eff := fun c s =>
  let o := readOff (s.regsOf c.g) c.e.b 0
  if o.2 then .error (.trap (.poisonOf [(3, true)]))
  else
    match s.globalAccess c.g (opReg c.e.a) Need.load n true false [o.1] with
    | .error t => .error t
    | .ok (kss, s1) =>
      match s1.prepRead c.g kss.flatten with
      | .error t => .error t
      | .ok s2 =>
        let bs := kss.flatten.map fun k => s2.viewByte c.g k
        .ok (s2.pushLoad c.g
          { reach := s2.reachId c.g, dst := .inl (opReg c.e.d), vals := []
            sval := extend64 signed n (leNat (bs.map (·.1))), spoison := bs.any (·.2)
            peers := if kss.flatten.any isPeerKey then [0] else [], cws := [(0, s2.hbmWords c.g kss.flatten)] })

/-- SLD (R179). -/
def execSld (w : MWidth) (e : Enc) (s : State) : Out := issue (.sld w e) e (sldEff true (MWidth.n w)) s

/-- SLDU (R179). -/
def execSldu (w : UWidth) (e : Enc) (s : State) : Out := issue (.sldu w e) e (sldEff false (UWidth.n w)) s

/-- SST (R179). -/
def sstEff (n : Nat) : Eff := fun c s =>
  let o := readOff (s.regsOf c.g) c.e.a 0
  let d := sArg s c c.e.b
  if o.2 || d.2 then .error (.trap (.poisonOf [(2, o.2), (3, d.2)]))
  else
    match s.globalAccess c.g (opReg c.e.d) Need.store n false true [o.1] with
    | .error t => .error t
    | .ok (kss, s1) =>
      .ok (s1.poundStore c.g ((kss.flatten.zip (bytesLE n d.1.toNat)).map fun x => (x.1, x.2, false)))

/-- SST (R179). -/
def execSst (w : MWidth) (e : Enc) (s : State) : Out := issue (.sst w e) e (sstEff (MWidth.n w)) s

/-- ANCH (R180). -/
def anchEff : Eff := fun c s =>
  let a := sArg s c c.e.a
  let l := sArg s c c.e.b
  if a.2 || l.2 then .error (.trap (.poisonOf [(2, a.2), (3, l.2)]))
  else
    .ok (s.modR c.g fun r =>
      { r with x := r.x.setIfInBounds (opReg c.e.d) (s.anchor (s.coreOf c.g) (s.asid c.g a.1) a.1 l.1) })

/-- ANCH (R180). -/
def execAnch (e : Enc) (s : State) : Out := issue (.anch e) e anchEff s

end Sys2Proof.Machine
end

