-- ==== Sys2Proof/Machine/Vector.lean ====
section
/-! DEFINITION. Vector integer instructions (R188 to R192). -/

namespace Sys2Proof.Machine

/-- One thread's result: value, poison, flags. -/
structure VRes where
  v : W32
  p : Bool
  f : Fp.Flags
deriving DecidableEq, Repr

/-- The element-wise frame of R189 for one destination register: each active thread's result is written and
the flags of the active threads are ORed into MODE. -/
def vApply (c : Cx) (s : State) (f : Nat → VRes) : State :=
  (s.putV c.g (opReg c.e.d) c.mask fun t => ((f t).v, (f t).p)).raiseFlags c.g
    ((threadsOf c.mask).foldl (fun x t => x ||| (f t).f) 0)

/-- Two-source integer form. -/
def vBin (op : W32 → W32 → W32) : Eff := fun c s =>
  let r := s.regsOf c.g
  .ok (vApply c s fun t =>
    let a := read32 r .i32 c.e.a t
    let b := read32 r .i32 c.e.b t
    { v := op a.1 b.1, p := a.2 || b.2, f := 0 })

/-- Form that reads D as well. -/
def vTri (op : W32 → W32 → W32 → W32) : Eff := fun c s =>
  let r := s.regsOf c.g
  .ok (vApply c s fun t =>
    let a := read32 r .i32 c.e.a t
    let b := read32 r .i32 c.e.b t
    let d := read32 r .i32 c.e.d t
    { v := op a.1 b.1 d.1, p := a.2 || b.2 || d.2, f := 0 })

/-- Unary form. -/
def vUn (op : W32 → W32) : Eff := fun c s =>
  let r := s.regsOf c.g
  .ok (vApply c s fun t =>
    let a := read32 r .i32 c.e.a t
    { v := op a.1, p := a.2, f := 0 })

/-- Two-source form on 64-bit pairs. -/
def vBin64 (op : W64 → W64 → W64) : Eff := fun c s =>
  let r := s.regsOf c.g
  .ok (s.putV64 c.g (opReg c.e.d) c.mask fun t =>
    let a := readOp r .i64 c.e.a t
    let b := readOp r .i64 c.e.b t
    (op a.1 b.1, a.2 || b.2))

/-- A form with a .32 and a .64 variant. -/
def vBinW (w : VWidth) (op : ∀ n, BitVec n → BitVec n → BitVec n) : Eff :=
  match w with
  | .w32 => vBin (op 32)
  | .w64 => vBin64 (op 64)

/-- VADD (R191). -/
def execVadd (w : VWidth) (e : Enc) (s : State) : Out := issue (.vadd w e) e (vBinW w fun _ a b => a + b) s

/-- VSUB (R191). -/
def execVsub (w : VWidth) (e : Enc) (s : State) : Out := issue (.vsub w e) e (vBinW w fun _ a b => a - b) s

/-- VMUL (R191). -/
def execVmul (e : Enc) (s : State) : Out := issue (.vmul e) e (vBin fun a b => a * b) s

/-- VMULH (R191). -/
def execVmulh (e : Enc) (s : State) : Out := issue (.vmulh e) e (vBin fun a b => mulHS a b) s

/-- VMULHU (R191). -/
def execVmulhu (e : Enc) (s : State) : Out := issue (.vmulhu e) e (vBin fun a b => mulHU a b) s

/-- VAND (R191). -/
def execVand (e : Enc) (s : State) : Out := issue (.vand e) e (vBin fun a b => a &&& b) s

/-- VOR (R191). -/
def execVor (e : Enc) (s : State) : Out := issue (.vor e) e (vBin fun a b => a ||| b) s

/-- VXOR (R191). -/
def execVxor (e : Enc) (s : State) : Out := issue (.vxor e) e (vBin fun a b => a ^^^ b) s

/-- VANDN (R191). -/
def execVandn (e : Enc) (s : State) : Out := issue (.vandn e) e (vBin fun a b => a &&& ~~~b) s

/-- VSHL (R191). -/
def execVshl (e : Enc) (s : State) : Out := issue (.vshl e) e (vBin fun a b => a <<< (b.toNat % 32)) s

/-- VSHR (R191). -/
def execVshr (e : Enc) (s : State) : Out := issue (.vshr e) e (vBin fun a b => a >>> (b.toNat % 32)) s

/-- VSRA (R191). -/
def execVsra (e : Enc) (s : State) : Out := issue (.vsra e) e (vBin fun a b => a.sshiftRight (b.toNat % 32)) s

/-- VMIN (R191). -/
def execVmin (e : Enc) (s : State) : Out := issue (.vmin e) e (vBin fun a b => minS a b) s

/-- VMAX (R191). -/
def execVmax (e : Enc) (s : State) : Out := issue (.vmax e) e (vBin fun a b => maxS a b) s

/-- VMINU (R191). -/
def execVminu (e : Enc) (s : State) : Out := issue (.vminu e) e (vBin fun a b => minU a b) s

/-- VMAXU (R191). -/
def execVmaxu (e : Enc) (s : State) : Out := issue (.vmaxu e) e (vBin fun a b => maxU a b) s

/-- VBFX (R192). -/
def execVbfx (e : Enc) (s : State) : Out := issue (.vbfx e) e (vBin fun a b => bfx a b) s

/-- VBFXU (R192). -/
def execVbfxu (e : Enc) (s : State) : Out := issue (.vbfxu e) e (vBin fun a b => bfxu a b) s

/-- VMAD: a × b + vd (R191). -/
def execVmad (e : Enc) (s : State) : Out := issue (.vmad e) e (vTri fun a b d => a * b + d) s

/-- VBFI (R192). -/
def execVbfi (e : Enc) (s : State) : Out := issue (.vbfi e) e (vTri fun a b d => bfi d a b) s

/-- VCLZ (R191). -/
def execVclz (e : Enc) (s : State) : Out := issue (.vclz e) e (vUn clzBv) s

/-- VPOPC (R191). -/
def execVpopc (e : Enc) (s : State) : Out := issue (.vpopc e) e (vUn popBv) s

/-- VSEL: a when vd is not 0, else b; the poison of vd and of the operand taken (R191). -/
def vselEff : Eff := fun c s =>
  let r := s.regsOf c.g
  .ok (vApply c s fun t =>
    let d := read32 r .i32 c.e.d t
    let x := if d.1 ≠ 0 then read32 r .i32 c.e.a t else read32 r .i32 c.e.b t
    { v := x.1, p := d.2 || x.2, f := 0 })

/-- VSEL (R191). -/
def execVsel (e : Enc) (s : State) : Out := issue (.vsel e) e vselEff s

/-- VMOV (R191). -/
def vmovEff (w : VWidth) : Eff := fun c s =>
  match w with
  | .w32 => vUn id c s
  | .w64 =>
    let r := s.regsOf c.g
    .ok (s.putV64 c.g (opReg c.e.d) c.mask fun t => readOp r .i64 c.e.a t)

/-- VMOV (R191). -/
def execVmov (w : VWidth) (e : Enc) (s : State) : Out := issue (.vmov w e) e (vmovEff w) s

/-- VIDX: a + t (R192). -/
def execVidx (e : Enc) (s : State) : Out :=
  issue (.vidx e) e
    (fun c s =>
      let r := s.regsOf c.g
      .ok (vApply c s fun t =>
        let a := read32 r .i32 c.e.a t
        { v := a.1 + BitVec.ofNat 32 t, p := a.2, f := 0 })) s

end Sys2Proof.Machine
end

