-- ==== Sys2Proof/Machine/Float.lean ====
section
/-! DEFINITION. Vector floating point (R193 to R196), conversions (R197 to R199) and the quantiser (R98,
R268). -/

namespace Sys2Proof.Machine

/-- An operation on element codes: format, mode, output flush, the codes of a, b and d after the input
flush. -/
abbrev FOp := Fp.FFmt → Fp.RM → Bool → Nat → Nat → Nat → Fp.Res

/-- Apply an operation to the elements of a type (R190, R193). -/
def byElement (ty : FType) (m : W32) (rm : Fp.RM) (op : FOp) (a b d : W32) : W32 × Fp.Flags :=
  let fi := modeFtzi m
  let fo := modeFtzo m
  let one := fun (f : Fp.FFmt) (x y z : Nat) => op f rm fo (f.flushIn fi x) (f.flushIn fi y) (f.flushIn fi z)
  let two := fun (f : Fp.FFmt) =>
    let lo := one f (a.toNat % 65536) (b.toNat % 65536) (d.toNat % 65536)
    let hi := one f (a.toNat / 65536) (b.toNat / 65536) (d.toNat / 65536)
    (BitVec.ofNat 32 (lo.code + hi.code * 65536), lo.flags ||| hi.flags)
  match ty with
  | .f32 => let r := one Fp.fp32 a.toNat b.toNat d.toNat; (BitVec.ofNat 32 r.code, r.flags)
  | .f16x2 => two Fp.fp16
  | .bf16x2 => two Fp.bf16

/-- Position type of a floating-point type. -/
def FType.pty : FType → PTy
  | .f32 => .f32
  | _ => .p16

/-- How a form rounds: by RND and MODE.RM, or to nearest-even (R190). -/
def rmF (c : Cx) (m : W32) : Fp.RM := rmOf c.e.rnd m
def rmN (_ : Cx) (_ : W32) : Fp.RM := .rne

/-- A floating-point form (R193); `useB` and `useD` say which operands it reads. -/
def vFloat (ty : FType) (rm : Cx → W32 → Fp.RM) (useB useD : Bool) (op : FOp) : Eff := fun c s =>
  let r := s.regsOf c.g
  .ok (vApply c s fun t =>
    let a := read32 r (FType.pty ty) c.e.a t
    let b := if useB then read32 r (FType.pty ty) c.e.b t else (0, false)
    let d := if useD then read32 r (FType.pty ty) c.e.d t else (0, false)
    let x := byElement ty r.mode (rm c r.mode) op a.1 b.1 d.1
    { v := x.1, p := a.2 || b.2 || d.2, f := x.2 })

/-- VFADD (R193). -/
def execVfadd (t : FType) (e : Enc) (s : State) : Out :=
  issue (.vfadd t e) e (vFloat t rmF true false (fun f rm z a b _ => Fp.add f rm z (f.value a) (f.value b))) s

/-- VFSUB (R193). -/
def execVfsub (t : FType) (e : Enc) (s : State) : Out :=
  issue (.vfsub t e) e (vFloat t rmF true false (fun f rm z a b _ => Fp.sub f rm z (f.value a) (f.value b))) s

/-- VFMUL (R193). -/
def execVfmul (t : FType) (e : Enc) (s : State) : Out :=
  issue (.vfmul t e) e (vFloat t rmF true false (fun f rm z a b _ => Fp.mul f rm z (f.value a) (f.value b))) s

/-- VFMA (R194). -/
def execVfma (t : FType) (e : Enc) (s : State) : Out :=
  issue (.vfma t e) e (vFloat t rmF true true (fun f rm z a b d => Fp.fma f rm z (f.value a) (f.value b) (f.value d))) s

/-- VFMIN (R193). -/
def execVfmin (t : FType) (e : Enc) (s : State) : Out :=
  issue (.vfmin t e) e (vFloat t rmN true false (fun f _ z a b _ => Fp.minMax f false z a b)) s

/-- VFMAX (R193). -/
def execVfmax (t : FType) (e : Enc) (s : State) : Out :=
  issue (.vfmax t e) e (vFloat t rmN true false (fun f _ z a b _ => Fp.minMax f true z a b)) s

/-- VFDIV (R195). -/
def execVfdiv (t : FType) (e : Enc) (s : State) : Out :=
  issue (.vfdiv t e) e (vFloat t rmF true false (fun f rm z a b _ => Fp.div f rm z (f.value a) (f.value b))) s

/-- VFSQRT (R195). -/
def execVfsqrt (t : FType) (e : Enc) (s : State) : Out :=
  issue (.vfsqrt t e) e (vFloat t rmF false false (fun f rm z a _ _ => Fp.sqrt f rm z (f.value a))) s

/-- VFRCP (R195). -/
def execVfrcp (t : FType) (e : Enc) (s : State) : Out :=
  issue (.vfrcp t e) e (vFloat t rmF false false (fun f rm z a _ _ => Fp.rcp f rm z (f.value a))) s

/-- VFRSQ (R195). -/
def execVfrsq (t : FType) (e : Enc) (s : State) : Out :=
  issue (.vfrsq t e) e (vFloat t rmF false false (fun f rm z a _ _ => Fp.rsq f rm z (f.value a))) s

/-- VFEX2 (R195). -/
def execVfex2 (t : FType) (e : Enc) (s : State) : Out :=
  issue (.vfex2 t e) e (vFloat t rmN false false (fun f _ z a _ _ => Fp.ex2 f z (f.value a))) s

/-- VFLG2 (R195). -/
def execVflg2 (t : FType) (e : Enc) (s : State) : Out :=
  issue (.vflg2 t e) e (vFloat t rmN false false (fun f _ z a _ _ => Fp.lg2 f z (f.value a))) s

/-- VFCLASS (R196). -/
def execVfclass (t : FType) (e : Enc) (s : State) : Out :=
  issue (.vfclass t e) e (vFloat t rmN false false (fun f _ _ a _ _ => { code := 2 ^ Fp.classOf f a, flags := 0 })) s

/-! ### Conversions (R94, R95, R197, R198) -/

/-- Replace bits [lo+n−1:lo] of a word. -/
def insertBits (d : W32) (lo n v : Nat) : W32 :=
  BitVec.ofNat 32 (d.toNat % 2 ^ lo + v % 2 ^ n * 2 ^ lo + d.toNat / 2 ^ (lo + n) * 2 ^ (lo + n))

/-- A conversion of a value of one format to another, both flushes applied (R91, R94). -/
def convF (m : W32) (rm : Fp.RM) (src dst : Fp.FFmt) (sat : Bool) (code : Nat) : Fp.Res :=
  Fp.convert dst rm (modeFtzo m) sat (src.value (src.flushIn (modeFtzi m) code))

/-- A conversion of an FP32 value to an integer (R95). -/
def convI (m : W32) (rm : Fp.RM) (bits : Nat) (lo hi : Int) (code : Nat) : Fp.Res :=
  Fp.convertInt bits lo hi (modeSat m) rm (Fp.fp32.value (Fp.fp32.flushIn (modeFtzi m) code))

/-- A form that gives 32 bits from one operand of a position type, by a function of its bits and of vd. -/
def vConv (ty : PTy) (readD : Bool) (f : Cx → W32 → W64 → W32 → W32 × Fp.Flags) : Eff := fun c s =>
  let r := s.regsOf c.g
  .ok (vApply c s fun t =>
    let a := readOp r ty c.e.a t
    let d := if readD then read32 r .i32 c.e.d t else (0, false)
    let x := f c r.mode a.1 d.1
    { v := x.1, p := a.2 || d.2, f := x.2 })

/-- A result code as a 32-bit word. -/
def wordRes (r : Fp.Res) : W32 × Fp.Flags := (BitVec.ofNat 32 r.code, r.flags)

/-- A form whose result is a pair. -/
def vConv64 (ty : PTy) (f : Cx → W32 → W64 → W64 × Fp.Flags) : Eff := fun c s =>
  let r := s.regsOf c.g
  let x := fun t => f c r.mode (readOp r ty c.e.a t).1
  .ok ((s.putV64 c.g (opReg c.e.d) c.mask fun t => ((x t).1, (readOp r ty c.e.a t).2)).raiseFlags c.g
    ((threadsOf c.mask).foldl (fun y t => y ||| (x t).2) 0))

/-- The half or byte that OPB selects. -/
def sel (c : Cx) : Nat := (opImm c.e.b).toNat

/-- From half h of a to FP32 (R197). -/
def widen (src : Fp.FFmt) (n : Nat) (c : Cx) (m : W32) (a : W64) : W32 × Fp.Flags :=
  wordRes (convF m .rne src Fp.fp32 false (a.toNat / 2 ^ (n * sel c) % 2 ^ n))

/-- From FP32 into half or byte of vd, the rest kept (R197, R198). -/
def narrow (dst : Fp.FFmt) (sat : Bool) (n : Nat) (c : Cx) (m : W32) (a : W64) (d : W32) : W32 × Fp.Flags :=
  let r := convF m (rmF c m) Fp.fp32 dst sat a.toNat
  (insertBits d (n * sel c) n r.code, r.flags)

/-- VCVT forms (R197). DESIGN CHOICE (log 50): an immediate in A of a form that reads half h of a is the sign-extended
32-bit integer, of which the half is taken. -/
def vcvtEff (k : CvtKind) : Eff :=
  match k with
  | .f32s32 => vConv .i32 false fun c m a _ => wordRes (Fp.ofInt Fp.fp32 (rmF c m) (a.setWidth 32).toInt)
  | .f32z32 => vConv .i32 false fun c m a _ => wordRes (Fp.ofInt Fp.fp32 (rmF c m) (a.setWidth 32).toNat)
  | .s32f32 => vConv .f32 false fun c m a _ => wordRes (convI m (rmF c m) 32 (-2 ^ 31) (2 ^ 31 - 1) a.toNat)
  | .z32f32 => vConv .f32 false fun c m a _ => wordRes (convI m (rmF c m) 32 0 (2 ^ 32 - 1) a.toNat)
  | .f32s64 => vConv .i64 false fun c m a _ => wordRes (Fp.ofInt Fp.fp32 (rmF c m) a.toInt)
  | .s64f32 => vConv64 .f32 fun c m a =>
      let r := convI m (rmF c m) 64 (-2 ^ 63) (2 ^ 63 - 1) a.toNat
      (BitVec.ofNat 64 r.code, r.flags)
  | .f32f16 => vConv .i32 false fun c m a _ => widen Fp.fp16 16 c m a
  | .f16f32 => vConv .f32 true (narrow Fp.fp16 false 16)
  | .f32bf16 => vConv .i32 false fun c m a _ => widen Fp.bf16 16 c m a
  | .bf16f32 => vConv .f32 true (narrow Fp.bf16 false 16)
  | .s32s64 => vConv .i64 false fun _ m a _ => (BitVec.ofNat 32 (Fp.clampInt 32 (modeSat m) a.toInt), 0)
  | .s64s32 => vConv64 .i32 fun _ _ a => ((a.setWidth 32).signExtend 64, 0)

/-- VCVT (R197). -/
def execVcvt (k : CvtKind) (e : Enc) (s : State) : Out := issue (.vcvt k e) e (vcvtEff k) s

/-- VCVT8 forms (R198, R104). -/
def vcvt8Eff (k : Cvt8Kind) : Eff :=
  match k with
  | .e4m3f32 => vConv .f32 true (narrow Fp.e4m3 false 8)
  | .e4m3f32sat => vConv .f32 true (narrow Fp.e4m3 true 8)
  | .e5m2f32 => vConv .f32 true (narrow Fp.e5m2 false 8)
  | .e5m2f32sat => vConv .f32 true (narrow Fp.e5m2 true 8)
  | .f32e4m3 => vConv .i32 false fun c m a _ => widen Fp.e4m3 8 c m a
  | .f32e5m2 => vConv .i32 false fun c m a _ => widen Fp.e5m2 8 c m a

/-- VCVT8 (R198). -/
def execVcvt8 (k : Cvt8Kind) (e : Enc) (s : State) : Out := issue (.vcvt8 k e) e (vcvt8Eff k) s

/-- VPK4: an FP4 code into nibble b[2:0] of vd; it always saturates, and FTZO does not flush it (R91, R199). -/
def vpk4Eff : Eff := fun c s =>
  let r := s.regsOf c.g
  .ok (vApply c s fun t =>
    let a := read32 r .f32 c.e.a t
    let b := read32 r .i32 c.e.b t
    let d := read32 r .i32 c.e.d t
    let x := Fp.convert Fp.fp4 (rmF c r.mode) false true (Fp.fp32.value (Fp.fp32.flushIn (modeFtzi r.mode) a.1.toNat))
    { v := insertBits d.1 (4 * (b.1.toNat % 8)) 4 x.code, p := a.2 || b.2 || d.2, f := x.flags })

/-- VPK4 (R199). -/
def execVpk4 (e : Enc) (s : State) : Out := issue (.vpk4 e) e vpk4Eff s

/-- VUPK4: fp4_value of nibble b[2:0] of a, without flags (R199). -/
def vupk4Eff : Eff := fun c s =>
  let r := s.regsOf c.g
  .ok (vApply c s fun t =>
    let a := read32 r .i32 c.e.a t
    let b := read32 r .i32 c.e.b t
    let q := a.1.toNat / 2 ^ (4 * (b.1.toNat % 8)) % 16
    { v := BitVec.ofNat 32 (Fp.convert Fp.fp32 .rne false false (Fp.fp4.value q)).code, p := a.2 || b.2, f := 0 })

/-- VUPK4 (R199). -/
def execVupk4 (e : Enc) (s : State) : Out := issue (.vupk4 e) e vupk4Eff s

/-! ### The quantiser (R98, R268) -/

/-- A finite FP32 or BF16 value as a fraction; none for NaN and infinities. -/
def finiteQ (v : Fp.FVal) : Option Fp.Q :=
  match v with
  | .fin n m e => some (Fp.Q.ofDyadic n m e)
  | _ => none

/-- An E3M5 code's value (R84), in units of 2^-7. -/
def scaleQ (code : Nat) : Fp.Q := { num := ((Fp.e3m5 code).getD 0 : Nat), den := 128 }

/-- Result of one block: eight FP4 codes, the scale code, the flags. -/
structure QBlock where
  q : List Nat
  scale : Nat
  flags : Fp.Flags
deriving DecidableEq, Repr

/-- The least code whose value is at least a bound, from a code up; 0xFE when none is (R98). -/
def firstCode (bound : Fp.Q) : Nat → Nat → Nat
  | 0, _ => 0xFE
  | n + 1, code => if Fp.Q.le bound (scaleQ code) then code else firstCode bound n (code + 1)

/-- Sum of the squared errors of a candidate scale. -/
def quantError (xq : List (Bool × Fp.Q)) (code : Nat) : Fp.Q :=
  (xq.map fun x =>
    let d := Fp.Q.sub x.2 (Fp.Q.mul (Fp.fp4Q (Fp.fp4Round x.1 (Fp.Q.div x.2 (scaleQ code)))) (scaleQ code))
    Fp.Q.mul d d).foldl Fp.Q.add Fp.Q.zero

/-- A magnitude rounded to nearest-even at FP4 precision with unbounded exponent range: two significant
bits. Whether it then lies above 6, and whether below 1 (R98). -/
def fp4Over (a : Fp.Q) : Bool := Fp.Q.le { num := 7, den := 1 } a
def fp4Tiny (a : Fp.Q) : Bool := Fp.Q.lt a { num := 7, den := 8 }

/-- The least-error candidate, the earliest on a tie. -/
def bestCand (xq : List (Bool × Fp.Q)) : List Nat → Nat → Nat
  | [], best => best
  | s :: ss, best => bestCand xq ss (if Fp.Q.lt (quantError xq s) (quantError xq best) then s else best)

/-- QNT of one block (R98): b is the band scale, x the block's values. DESIGN CHOICE (log 50): an exact quotient of zero,
which the listing leaves without a sign, takes the signs of x and b as a division does. -/
def quantBlock (b : Fp.FVal) (xs : List Fp.FVal) : QBlock :=
  let bad : QBlock := { q := List.replicate 8 0, scale := 0xFF, flags := Fp.fNV }
  match finiteQ b with
  | none => bad
  | some bq =>
    if bq.num = 0 || xs.any fun x => (finiteQ x).isNone then bad
    else
      let xq := xs.map fun x =>
        let neg := (match x with | .fin n _ _ => n | _ => false) != decide (bq.num < 0)
        (neg, Fp.Q.div ((finiteQ x).getD Fp.Q.zero) bq)
      let mx := xq.foldl (fun m x => if Fp.Q.lt m x.2.abs then x.2.abs else m) Fp.Q.zero
      if mx.num = 0 then { q := List.replicate 8 0, scale := 0, flags := 0 }
      else
        let c := firstCode (Fp.Q.div mx { num := 6, den := 1 }) 0xFE 1
        let cands := (if c + 1 ≤ 0xFE then [c + 1] else []) ++ (if 1 ≤ c - 1 then [c - 1] else [])
        let sc := bestCand xq cands c
        let rs := xq.map fun x => (x.1, Fp.Q.div x.2 (scaleQ sc))
        let qs := rs.map fun x => Fp.fp4Round x.1 x.2
        let ne := fun (p : (Bool × Fp.Q) × Nat) => !Fp.Q.eq (Fp.fp4Q p.2) p.1.2
        let pairs := rs.zip qs
        { q := qs, scale := sc
          flags := (if pairs.any ne then Fp.fNX else 0) ||| (if rs.any fun x => fp4Over x.2.abs then Fp.fOF else 0) |||
            (if pairs.any fun p => p.1.2.num != 0 && fp4Tiny p.1.2.abs && ne p then Fp.fUF else 0) }

/-- The four blocks of a QNT: inactive threads read +0.0 (R268). -/
def qntBlock (c : Cx) (s : State) (j : Nat) : QBlock :=
  let r := s.regsOf c.g
  let b := Fp.bf16.value ((readOp r .i64 c.e.b 0).1.toNat % 65536)
  quantBlock b ((List.range 8).map fun i =>
    if c.mask.getLsbD (8 * j + i) then Fp.fp32.value (read32 r .f32 c.e.a (8 * j + i)).1.toNat else Fp.fp32.value 0)

/-- Poison of a block: of va over the active threads, and of sb (R268). -/
def qntPoison (c : Cx) (s : State) (j : Nat) : Bool :=
  let r := s.regsOf c.g
  (readOp r .i64 c.e.b 0).2 ||
    (List.range 8).any fun i => c.mask.getLsbD (8 * j + i) && (read32 r .f32 c.e.a (8 * j + i)).2

/-- A block's eight codes, element i in nibble i. -/
def packCodes (qs : List Nat) : W32 := BitVec.ofNat 32 (qs.foldr (fun q acc => q + 16 * acc) 0)

/-- QNT (R268). -/
def qntEff : Eff := fun c s =>
  let bs := (List.range 4).map fun j => (qntBlock c s j, qntPoison c s j)
  let blk := fun t => (bs[t / 8]?).getD ({ q := [], scale := 0, flags := 0 }, false)
  let s1 := (s.putV c.g (opReg c.e.d) c.mask fun t => (packCodes (blk t).1.q, (blk t).2)).putV c.g (opReg c.e.d + 1) c.mask
    fun t => (BitVec.ofNat 32 (blk t).1.scale, (blk t).2)
  .ok (s1.raiseFlags c.g ((threadsOf c.mask).foldl (fun x t => x ||| (blk t).1.flags) 0))

/-- QNT (R268). -/
def execQnt (e : Enc) (s : State) : Out := issue (.qnt e) e qntEff s

end Sys2Proof.Machine
end

