-- ==== Sys2Proof/Machine/Predicate.lean ====
section
/-! DEFINITION. Compares and predicates (R200 to R203), VSHFL and XSWAP (R204 to R208), reductions and scans
(R96, R97, R209, R210). -/

namespace Sys2Proof.Machine

/-! ### Compares -/

/-- A compare into the active bits of a predicate; a poisoned operand of an active thread traps (R200 to R202). -/
def vCompare (ty : PTy) (f : W32 → W32 → W32 → Bool × Fp.Flags) : Eff := fun c s =>
  let r := s.regsOf c.g
  let a := fun t => read32 r ty c.e.a t
  let b := fun t => read32 r ty c.e.b t
  let ts := threadsOf c.mask
  if ts.any fun t => (a t).2 || (b t).2 then
    .error (.trap (.poisonOf (ts.flatMap fun t => [(2, (a t).2), (3, (b t).2)])))
  else
    .ok ((s.putP c.g (opReg c.e.d) c.mask (maskOf fun t => (f r.mode (a t).1 (b t).1).1)).raiseFlags c.g
      (ts.foldl (fun x t => x ||| (f r.mode (a t).1 (b t).1).2) 0))

/-- VCMP (R200). -/
def execVcmp (cd : Cond) (e : Enc) (s : State) : Out :=
  issue (.vcmp cd e) e (vCompare .i32 fun _ a b => (condHolds cd a b, 0)) s

/-- Compare of element 0 of two operands under a condition (R201). -/
def fcmp (cd : FCond) (t : HType) (m a b : W32) : Bool × Fp.Flags :=
  let cmp := fun (f : Fp.FFmt) (x y : Nat) =>
    Fp.compare cd (f.value (f.flushIn (modeFtzi m) x)) (f.value (f.flushIn (modeFtzi m) y))
  match t with
  | .f32 => cmp Fp.fp32 a.toNat b.toNat
  | .f16 => cmp Fp.fp16 (a.toNat % 65536) (b.toNat % 65536)
  | .bf16 => cmp Fp.bf16 (a.toNat % 65536) (b.toNat % 65536)

def HType.pty : HType → PTy
  | .f32 => .f32
  | _ => .p16

/-- VFCMP (R201). -/
def execVfcmp (cd : FCond) (t : HType) (e : Enc) (s : State) : Out :=
  issue (.vfcmp cd t e) e (vCompare (HType.pty t) (fcmp cd t)) s

/-! ### Predicate forms (R203) -/

def pLogic (f : W32 → W32 → W32) : Eff := fun c s =>
  let r := s.regsOf c.g
  .ok (s.putP c.g (opReg c.e.d) c.mask (f (r.pv (opReg c.e.a)) (r.pv (opReg c.e.b))))

/-- PAND (R203). -/
def execPand (e : Enc) (s : State) : Out := issue (.pand e) e (pLogic fun a b => a &&& b) s

/-- POR (R203). -/
def execPor (e : Enc) (s : State) : Out := issue (.por e) e (pLogic fun a b => a ||| b) s

/-- PXOR (R203). -/
def execPxor (e : Enc) (s : State) : Out := issue (.pxor e) e (pLogic fun a b => a ^^^ b) s

/-- PNOT (R203). -/
def execPnot (e : Enc) (s : State) : Out := issue (.pnot e) e (pLogic fun a _ => ~~~a) s

/-- A scalar made from pa AND mask; not written under an all-zero mask (R107, R203). -/
def pToScalar (f : W32 → W64) : Eff := fun c s =>
  if c.mask = 0 then .ok s
  else .ok (s.putS c.g (opReg c.e.d) (f ((s.regsOf c.g).pv (opReg c.e.a) &&& c.mask)) false)

/-- PMOVS (R203). -/
def execPmovs (e : Enc) (s : State) : Out := issue (.pmovs e) e (pToScalar fun v => v.setWidth 64) s

/-- PCNT (R203). -/
def execPcnt (e : Enc) (s : State) : Out := issue (.pcnt e) e (pToScalar fun v => (popBv v).setWidth 64) s

/-- PSETS: bit t of a; poison read by an active thread traps (R202, R203). -/
def psetsEff : Eff := fun c s =>
  let a := read32 (s.regsOf c.g) .i32 c.e.a 0
  if a.2 && c.mask != 0 then .error (.trap (.poisonOf [(2, true)])) else .ok (s.putP c.g (opReg c.e.d) c.mask a.1)

/-- PSETS (R203). -/
def execPsets (e : Enc) (s : State) : Out := issue (.psets e) e psetsEff s

/-! ### Exchange -/

/-- VSHFL (R204). -/
def vshflEff : Eff := fun c s =>
  let r := s.regsOf c.g
  .ok (vApply c s fun t =>
    let b := read32 r .i32 c.e.b t
    let a := read32 r .i32 c.e.a (b.1.toNat % 32)
    { v := a.1, p := a.2 || b.2, f := 0 })

/-- VSHFL (R204). -/
def execVshfl (e : Enc) (s : State) : Out := issue (.vshfl e) e vshflEff s

/-- Linear index of a team in its launch's grid (R205). -/
def teamLinear (d : Desc) (t : Team) : Nat := t.x + d.gridX * (t.y + d.gridY * t.z)

/-- The partner word that names a group (R205). -/
def partnerWord (s : State) (g : Nat) : Nat :=
  let t := s.teamOf g
  teamLinear (s.descOf g) t + (s.grp g).gidx * 2 ^ 32 + t.stage * 2 ^ 36

/-- Groups of one launch that a partner word names. -/
def partnersNamed (s : State) (g w : Nat) : List Nat :=
  (List.range s.groups.length).filter fun h => s.launchOf h == s.launchOf g && partnerWord s h == w

/-- The partner word is refused (R205). -/
def partnerBad (s : State) (g w : Nat) : Bool :=
  let d := s.descOf g
  decide (2 ^ 39 ≤ w) || decide (d.gridX * d.gridY * d.gridZ ≤ w % 2 ^ 32) || decide (d.groups ≤ w / 2 ^ 32 % 16) ||
    decide (d.nstage ≤ w / 2 ^ 36 % 8) || w == partnerWord s g

/-- A receive record that this instruction re-executes from (R207). -/
def receiveRecord (s : State) (g : Nat) (pc : W64) : Option (W32 × VReg × W32) :=
  (s.poundOf g).findSome? fun e =>
    match e.kind with
    | .received p m v po => if e.gid == g && p == pc then some (m, v, po) else none
    | _ => none

/-- Records of an instruction belong to the reach that now executes it (R207, R223). -/
def retag (s : State) (g : Nat) (pc : W64) : State :=
  s.modPound g fun p => p.map fun e =>
    if e.gid = g ∧ State.recordPc e = some pc then { e with reach := s.reachId g, cleared := false } else e

/-- XSWAP: the value is captured and sent, and the group waits at the instruction for its pair; from a
receive record it completes at once (R205 to R207). With an empty effective mask it takes no fault and pairs all the same (R107,
R206). DESIGN CHOICE (log 56): a partner word that names no group then pairs with none. -/
def xswapEff : Eff := fun c s =>
  let sp := sArg s c c.e.b
  let w := sp.1.toNat
  let r := s.regsOf c.g
  if c.mask ≠ 0 ∧ s.depthOf c.g ≠ 0 then .error (.trap (.of .permission))
  else if c.mask ≠ 0 ∧ sp.2 = true then .error (.trap (.poisonOf [(3, true)]))
  else if partnerBad s c.g w then (if c.mask = 0 then .ok s else .error (.trap (.operandN 3)))
  else
    match receiveRecord s c.g c.pc with
    | some (m, v, po) =>
      .ok ((retag s c.g c.pc).putV c.g (opReg c.e.d) (c.mask &&& m) fun t => (v[t]?.getD 0, po.getLsbD t))
    | none =>
      let a := fun t => read32 r .i32 c.e.a t
      let send : Send :=
        { gid := c.g, partner := w, mask := c.mask
          v := Vector.ofFn fun i => if c.mask.getLsbD i.val then (a i.val).1 else 0
          poison := maskOf fun t => c.mask.getLsbD t && (a t).2, reg := opReg c.e.d, unit := unitOf (wordOf (.xswap c.e)) }
      let s1 : State := { s with sends := s.sends.filter (fun x => x.gid != c.g) ++ [send] }
      let s2 := (partnersNamed s c.g w).foldl (fun s h =>
        let x := s.grp h
        match x.wait with
        | some { what := .xswap p, .. } =>
          if p = partnerWord s c.g ∧ (s.tm x.team).st = .swapped then s.modT x.team fun t => { t with returnable := true } else s
        | _ => s) s1
      .ok (((s2.jump c.g c.pc).modR c.g fun r => { r with sig := c.sig0 }).enterWait c.g (.xswap w))

/-- XSWAP (R205). -/
def execXswap (e : Enc) (s : State) : Out := issue (.xswap e) e xswapEff s

/-! ### Reductions and scans -/

/-- Identity of an operation (R209). -/
def redIdentity (op : RedOp) : W32 :=
  match op with
  | .add => 0
  | .fadd => 0x80000000
  | .min => 0x7FFFFFFF
  | .max => 0x80000000
  | .minu => 0xFFFFFFFF
  | .maxu => 0
  | .and => 0xFFFFFFFF
  | .or => 0
  | .xor => 0
  | .fmin => 0x7FC00000
  | .fmax => 0x7FC00000

/-- Combine two values, the left operand first; the floating-point forms flush under MODE (R91, R96, R209). -/
def redCombine (op : RedOp) (m : W32) (rm : Fp.RM) (a b : W32) : W32 × Fp.Flags :=
  let x := Fp.fp32.flushIn (modeFtzi m) a.toNat
  let y := Fp.fp32.flushIn (modeFtzi m) b.toNat
  match op with
  | .add => (a + b, 0)
  | .fadd => wordRes (Fp.add Fp.fp32 rm (modeFtzo m) (Fp.fp32.value x) (Fp.fp32.value y))
  | .min => (minS a b, 0)
  | .max => (maxS a b, 0)
  | .minu => (minU a b, 0)
  | .maxu => (maxU a b, 0)
  | .and => (a &&& b, 0)
  | .or => (a ||| b, 0)
  | .xor => (a ^^^ b, 0)
  | .fmin => wordRes (Fp.minMax Fp.fp32 false (modeFtzo m) x y)
  | .fmax => wordRes (Fp.minMax Fp.fp32 true (modeFtzo m) x y)

/-- One level of the pairwise tree of R96. -/
def treeLevel (f : W32 → W32 → W32 × Fp.Flags) : List W32 → List W32 × Fp.Flags
  | a :: b :: rest =>
    let x := f a b
    let y := treeLevel f rest
    (x.1 :: y.1, x.2 ||| y.2)
  | xs => (xs, 0)

/-- The tree of R96 over its levels. -/
def reduceTree (f : W32 → W32 → W32 × Fp.Flags) : Nat → List W32 → Fp.Flags → W32 × Fp.Flags
  | 0, xs, fl => (xs.headD 0, fl)
  | n + 1, xs, fl => let y := treeLevel f xs; reduceTree f n y.1 (fl ||| y.2)

/-- The scalar that a reduction delivers (R209): sign-extended for add, min and max. -/
def redExtend (op : RedOp) (v : W32) : W64 :=
  match op with
  | .add => v.signExtend 64
  | .min => v.signExtend 64
  | .max => v.signExtend 64
  | _ => v.setWidth 64

/-- SRED (R96, R209). -/
def sredEff (op : RedOp) : Eff := fun c s =>
  if c.mask = 0 then .ok s
  else
    let r := s.regsOf c.g
    let a := fun t => read32 r .f32 c.e.a t
    let xs := (List.range 32).map fun t => if c.mask.getLsbD t then (a t).1 else redIdentity op
    let y := reduceTree (redCombine op r.mode .rne) 5 xs 0
    .ok ((s.putS c.g (opReg c.e.d) (redExtend op y.1) ((threadsOf c.mask).any fun t => (a t).2)).raiseFlags c.g y.2)

/-- SRED (R209). -/
def execSred (op : RedOp) (e : Enc) (s : State) : Out := issue (.sred op e) e (sredEff op) s

/-- An input of a scan: the floating-point forms read a subnormal as zero under FTZI (R91, R210). -/
def scanInput (op : RedOp) (m : W32) (a : W32) : W32 :=
  match op with
  | .fadd => BitVec.ofNat 32 (Fp.fp32.flushIn (modeFtzi m) a.toNat)
  | .fmin => BitVec.ofNat 32 (Fp.fp32.flushIn (modeFtzi m) a.toNat)
  | .fmax => BitVec.ofNat 32 (Fp.fp32.flushIn (modeFtzi m) a.toNat)
  | _ => a

/-- One round of the Hillis and Steele scan at distance d (R97): an inactive thread holds the identity. -/
def scanRound (op : RedOp) (m : W32) (rm : Fp.RM) (mask : W32) (d : Nat) (xs : List W32) : List W32 × Fp.Flags :=
  let one := fun t =>
    let x := xs[t]?.getD 0
    if mask.getLsbD t ∧ d ≤ t then redCombine op m rm (xs[t - d]?.getD 0) x else (x, 0)
  ((List.range 32).map fun t => (one t).1, (List.range 32).foldl (fun f t => f ||| (one t).2) 0)

/-- Delivery of thread 0 of a scan, whose value no combination has made. DEDUCED (log 53): a floating-point result that is
NaN is canonical and a signalling one raises NV (R82), and FTZO replaces a subnormal result (R91). -/
def scanFirst (op : RedOp) (m : W32) (a : W32) : W32 × Fp.Flags :=
  let fp : W32 × Fp.Flags :=
    let v := Fp.fp32.value a.toNat
    if v.isNan then wordRes (Fp.nanRes Fp.fp32 (Fp.snanFlag [v]))
    else if modeFtzo m && Fp.fp32.isSub a.toNat then (a &&& 0x80000000, Fp.fUF ||| Fp.fNX)
    else (a, 0)
  match op with
  | .fadd => fp
  | .fmin => fp
  | .fmax => fp
  | _ => (a, 0)

/-- VSCAN (R97, R210): .fadd rounds under the instruction's mode. -/
def vscanEff (op : RedOp) : Eff := fun c s =>
  let r := s.regsOf c.g
  let a := fun t => read32 r .f32 c.e.a t
  let x0 := (List.range 32).map fun t => if c.mask.getLsbD t then scanInput op r.mode (a t).1 else redIdentity op
  let y := [1, 2, 4, 8, 16].foldl (fun acc d =>
    let z := scanRound op r.mode (rmF c r.mode) c.mask d acc.1
    (z.1, acc.2 ||| z.2)) (x0, (0 : Fp.Flags))
  let first := if c.mask.getLsbD 0 then scanFirst op r.mode (y.1[0]?.getD 0) else (0, 0)
  .ok ((s.putV c.g (opReg c.e.d) c.mask fun t =>
    (if t = 0 then first.1 else y.1[t]?.getD 0, (List.range (t + 1)).any fun u => c.mask.getLsbD u && (a u).2)).raiseFlags c.g
      (y.2 ||| first.2))

/-- VSCAN (R210). -/
def execVscan (op : RedOp) (e : Enc) (s : State) : Out := issue (.vscan op e) e (vscanEff op) s

end Sys2Proof.Machine
end

