-- ==== Sys2Proof/Machine/Global.lean ====
section
/-! DEFINITION. Vector memory: global and stash loads and stores (R213 to R219), atomics (R220 to R224) with
their performance at the point of coherence, PREF (R230), and the return of load data (R215, R236). -/

namespace Sys2Proof.Machine

/-! ### Loads and stores -/

/-- Registers that the bytes of one access give, sign- or zero-extended (R215). -/
def loadWords (w : LdWidth) (bs : List Byte) : List W32 :=
  let v := leNat bs
  match w with
  | .s8 => [(extend64 true 1 v).setWidth 32]
  | .z8 => [BitVec.ofNat 32 v]
  | .s16 => [(extend64 true 2 v).setWidth 32]
  | .z16 => [BitVec.ofNat 32 v]
  | .b32 => [BitVec.ofNat 32 v]
  | .b64 => (List.range 2).map fun i => BitVec.ofNat 32 (v / 2 ^ (32 * i))
  | .b128 => (List.range 4).map fun i => BitVec.ofNat 32 (v / 2 ^ (32 * i))

/-- Write loaded words into consecutive registers, for the threads that have some. -/
def State.putWords (s : State) (g reg k : Nat) (vals : List (Nat × List W32 × Bool)) : State :=
  let m := maskOf fun t => vals.any fun v => v.1 == t
  (List.range k).foldl (fun s i =>
    s.putV g (reg + i) m fun t =>
      match vals.find? fun v => v.1 == t with
      | some v => (v.2.1[i]?.getD 0, v.2.2)
      | none => (0, false)) s

/-- Threads with the offset that an operand gives each, and whether one is poisoned. -/
def offsets (r : Regs) (o : Operand) (ts : List Nat) : List W64 × Bool :=
  (ts.map fun t => (readOff r o t).1, ts.any fun t => (readOff r o t).2)

/-- LDV (R215, R216): the bytes are read in program order and written back when they return. -/
def ldvEff (w : LdWidth) : Eff := fun c s =>
  let ts := threadsOf c.mask
  let os := offsets (s.regsOf c.g) c.e.b ts
  if os.2 then .error (.trap (.poisonOf [(3, true)]))
  else
    match s.globalAccess c.g (opReg c.e.a) Need.load w.bytes true false os.1 with
    | .error e => .error e
    | .ok (kss, s1) =>
      match s1.prepRead c.g kss.flatten with
      | .error e => .error e
      | .ok s2 =>
        let vals := (ts.zip kss).map fun x =>
          let bs := x.2.map fun k => s2.viewByte c.g k
          (x.1, loadWords w (bs.map (·.1)), bs.any (·.2))
        let d := opReg c.e.d
        let s3 := s2.pushLoad c.g
          { reach := s2.reachId c.g, dst := .inr (d, w.regs), vals := vals, sval := 0, spoison := false
            peers := ((ts.zip kss).filter fun x => x.2.any isPeerKey).map (·.1)
            cws := (ts.zip kss).map fun x => (x.1, s2.hbmWords c.g x.2) }
        .ok (if ts.isEmpty then s3 else s3.noteV c.g ((List.range w.regs).map (d + ·)))

/-- LDV (R215). -/
def execLdv (w : LdWidth) (e : Enc) (s : State) : Out := issue (.ldv w e) e (ldvEff w) s

/-- Bytes that the active threads store, each at the addresses of its access (R215): of two threads on one byte
the highest stands (R152). -/
def storeBytes (r : Regs) (o : Operand) (n : Nat) (ts : List Nat) (ass : List (List Nat)) : List ByteWrite :=
  (ts.zip ass).foldl (fun ws x =>
    mergeBytes ws ((x.2.zip (readData r o n x.1).1).map fun y => (y.1, y.2, false))) []

/-- STV (R215, R216). -/
def stvEff (w : StWidth) : Eff := fun c s =>
  let r := s.regsOf c.g
  let ts := threadsOf c.mask
  let os := offsets r c.e.a ts
  if os.2 || ts.any fun t => (readData r c.e.b w.bytes t).2 then
    .error (.trap (.poisonOf (ts.flatMap fun t => [(2, (readOff r c.e.a t).2), (3, (readData r c.e.b w.bytes t).2)])))
  else
    match s.globalAccess c.g (opReg c.e.d) Need.store w.bytes false true os.1 with
    | .error e => .error e
    | .ok (kss, s1) => .ok (s1.poundStore c.g (storeBytes r c.e.b w.bytes ts kss))

/-- STV (R215). -/
def execStv (w : StWidth) (e : Enc) (s : State) : Out := issue (.stv w e) e (stvEff w) s

/-- Addresses of the bytes of an access. -/
def bytesAt (n a : Nat) : List Nat := (List.range n).map (a + ·)

/-- LDSH (R219): performed at issue. -/
def ldshEff (w : LdWidth) : Eff := fun c s =>
  let ts := threadsOf c.mask
  let os := offsets (s.regsOf c.g) c.e.b ts
  if os.2 then .error (.trap (.poisonOf [(3, true)]))
  else
    match s.stashAccess c.g (opReg c.e.a) w.bytes true false os.1 with
    | .error e => .error e
    | .ok (as, s1) =>
      let (n, s1) := s1.drawReads c.g
      let vals := (ts.zip as).map fun x =>
        let bs := (bytesAt w.bytes x.2).map fun a => s1.groupByte c.g n a
        (x.1, loadWords w (bs.map (·.1)), bs.any (·.2))
      .ok ((s1.stashDepend c.g (as.flatMap (bytesAt w.bytes))).putWords c.g (opReg c.e.d) w.regs vals)

/-- LDSH (R219). -/
def execLdsh (w : LdWidth) (e : Enc) (s : State) : Out := issue (.ldsh w e) e (ldshEff w) s

/-- STSH (R219): a store clears the poison of every word that it writes. -/
def stshEff (w : StWidth) : Eff := fun c s =>
  let r := s.regsOf c.g
  let ts := threadsOf c.mask
  let os := offsets r c.e.a ts
  if os.2 || ts.any fun t => (readData r c.e.b w.bytes t).2 then
    .error (.trap (.poisonOf (ts.flatMap fun t => [(2, (readOff r c.e.a t).2), (3, (readData r c.e.b w.bytes t).2)])))
  else
    match s.stashAccess c.g (opReg c.e.d) w.bytes false true os.1 with
    | .error e => .error e
    | .ok (as, s1) => .ok (s1.stashWrite c.g (storeBytes r c.e.b w.bytes ts (as.map (bytesAt w.bytes))))

/-- STSH (R219). -/
def execStsh (w : StWidth) (e : Enc) (s : State) : Out := issue (.stsh w e) e (stshEff w) s

/-! ### Atomics (R220 to R224) -/

/-- A register, or a register pair, of a thread. -/
def regWide (r : Regs) (wide : Bool) (reg t : Nat) : W64 :=
  if wide then r.vt (reg + 1) t ++ r.vt reg t else (r.vt reg t).setWidth 64

/-- Whether an atomic form is one of PCI Express's (R222). -/
def hostForm : AtForm → Bool
  | .f32 .add => true
  | .f32 .exch => true
  | .f64 .add => true
  | .f64 .exch => true
  | _ => false

/-- Whether the byte of a key lies in host memory. -/
def isHostKey (k : Nat) : Bool :=
  match Space.ofKey k with
  | .host _ => true
  | _ => false

/-- A return record that this instruction re-executes from (R223). -/
def returnRecord (s : State) (g : Nat) (pc : W64) : Option (List (Nat × W64) × W32) :=
  (s.poundOf g).findSome? fun e =>
    match e.kind with
    | .retAtom p vs f => if e.gid == g && p == pc then some (vs, f) else none
    | _ => none

/-- Write the values that a returning atomic delivers; they carry no poison (R221). -/
def State.putReturned (s : State) (g reg : Nat) (wide : Bool) (vals : List (Nat × W64)) : State :=
  let m := maskOf fun t => vals.any fun v => v.1 == t
  let v := fun t => ((vals.find? fun (x : Nat × W64) => x.1 == t).map (·.2)).getD 0
  if wide then s.putV64 g reg m fun t => (v t, false) else s.putV g reg m fun t => ((v t).setWidth 32, false)

/-- Atomic addresses: aligned to the width, translated for reading and writing, and none of them host memory
unless the form is one of PCI Express's (R214, R222). -/
def atomKeys (s : State) (g xn n : Nat) (pcie : Bool) (os : List W64) : Except Stop (List (List Nat) × State) :=
  let base := ((s.regsOf g).x[xn]?.getD XReg.entry).base
  match os.find? fun o => (base + o).toNat % n != 0 with
  | some o => .error (.trap (.at_ .layout (base + o)))
  | none =>
    match s.globalAccess g xn Need.store n true true os with
    | .error e => .error e
    | .ok (kss, s1) =>
      match (os.zip kss).find? fun x => !pcie && x.2.any isHostKey with
      | some x =>
        let y := ((s1.regsOf g).x[xn]?.getD XReg.entry)
        .error (if y = ((s.regsOf g).x[xn]?.getD XReg.entry) then .trap (.at_ .permission (base + x.1)) else .kept xn y false (base + x.1))
      | none => .ok (kss, s1)

/-- ATOM and ACAS (R220): after the seal (R154) the access is on its way to its point of coherence; from a return record it completes at once (R223). -/
def atomEff (i : Instr) (n : Nat) (pcie : Bool) (regs : List Nat) (form : AtForm) (v : Regs → Nat → W64)
    (cmp : Regs → Nat → Option W64) : Eff := fun c s =>
  let r := s.regsOf c.g
  let reg := opReg c.e.d
  let ts := threadsOf c.mask
  match returnRecord s c.g c.pc with
  | some (vals, fl) =>
    .ok (((retag s c.g c.pc).putReturned c.g reg (n == 8) vals).modR c.g fun r => { r with mode := r.mode ||| fl })
  | none =>
    let os := offsets r c.e.b ts
    if ts.isEmpty then .ok s
    else if os.2 || ts.any fun t => regs.any fun k => r.vpt (reg + k) t then
      .error (.trap (.poisonOf (ts.flatMap fun t => [(3, (readOff r c.e.b t).2), (1, regs.any fun k => r.vpt (reg + k) t)])))
    else
      match atomKeys s c.g (opReg c.e.a) n pcie os.1 with
      | .error e => .error e
      | .ok (kss, s1) =>
        let base := ((s1.regsOf c.g).x[opReg c.e.a]?.getD XReg.entry).base
        let reqs := (ts.zip (os.1.zip kss)).map fun x =>
          ({ thread := x.1, key := x.2.2.headD 0, va := base + x.2.1, form := form, v := v r x.1, cmp := cmp r x.1 } : AtomReq)
        let a : PendAtom := { pc := c.pc, sig0 := c.sig0, word := wordOf i, reg := reg, wide := n == 8, reqs := reqs }
        .ok (s1.modG c.g fun y => { y with atom := some a })

/-- ATOM (R220). -/
def execAtom (f : AtForm) (e : Enc) (s : State) : Out :=
  issue (.atom f e) e
    (atomEff (.atom f e) (atBytes f) (hostForm f) (List.range (atBytes f / 4)) f
      (fun r t => regWide r (atBytes f == 8) (opReg e.d) t) fun _ _ => none) s

/-- ACAS (R220): the compare value from vd, the new value from the register or pair after it. -/
def execAcas (w : VWidth) (e : Enc) (s : State) : Out :=
  let wide := w.regs == 2
  issue (.acas w e) e
    (atomEff (.acas w e) (4 * w.regs) true (List.range (2 * w.regs)) (if wide then .f64 .exch else .f32 .exch)
      (fun r t => regWide r wide (opReg e.d + w.regs) t) fun r t => some (regWide r wide (opReg e.d) t)) s

/-- New value of one access: a cas keeps the old value unless it equals the compare value (R221). -/
def reqNew (q : AtomReq) (old : W64) : W64 × BitVec 5 :=
  match q.cmp with
  | some m => if old = m then (q.v, 0) else (old, 0)
  | none => atApply q.form old q.v

/-- Perform accesses at their points of coherence in thread order: the values returned and the flags, or the
access whose target was found poisoned (R152, R222). -/
def State.performAtoms (s : State) (g ctx : Nat) : List AtomReq → List (Nat × W64) → BitVec 5 →
    State × List (Nat × W64) × BitVec 5 × Option AtomReq
  | [], vs, f => (s, vs, f, none)
  | q :: qs, vs, f =>
    let n := atBytes q.form
    let ks := bytesAt n q.key
    let s1 := s.purge ks
    if ks.any fun k => s1.pocPoison k then (s1.fireWatch (· == g) ks, vs, f, some q)
    else
      let old := w64Of (s1.mem.readBytes q.key n)
      let new := reqNew q old
      let s2 := s1.pocWrite (· == g) ctx ((ks.zip (bytesLE n new.1.toNat)).map fun x => (x.1, x.2, false))
      s2.performAtoms g ctx qs (vs ++ [(q.thread, old)]) (f ||| new.2)

/-- Whether a store or a remote atomic of the group's own that touches an access has yet to leave the pound: program order
puts it first (R150, R166, R299). -/
def State.ownBefore (s : State) (g : Nat) (a : PendAtom) : Bool :=
  let ks := a.reqs.flatMap fun q => bytesAt (atBytes q.form) q.key
  (s.poundOf g).any fun e => e.gid == g && match e.kind with
    | .store _ ws _ => ws.any fun w => ks.contains w.1
    | .atomr accs _ => accs.any fun x => (bytesAt (atBytes x.form) x.key).any ks.contains
    | _ => false

/-- ATOM_RETURN (R222, R223): the accesses are performed, held sectors having been snooped first (R143) and the group's own
entries having drained; the values go to the registers and into a return record. A poisoned target ends it with the
poison-consumed trap. -/
def execAtomReturn (g : Nat) (s : State) : Out :=
  match (s.grp g).atom with
  | none => .next s
  | some a =>
    let ctx := (s.grp g).arch.ctx
    if (a.reqs.any fun q => s.writeBlocked (sectorOf q.key)) || s.ownBefore g a || !s.regsRoom g (a.reg :: if a.wide then [a.reg + 1] else []) then .next s
    else
      match s.performAtoms g ctx a.reqs [] 0 with
      | (s1, vals, fl, none) =>
        let ks := a.reqs.flatMap fun q => bytesAt (atBytes q.form) q.key
        let s1 := (s1.hear g ((s1.pubs.filter fun p => ks.contains p.1).map (·.2))).publish ks true (pubsOf g (s.grp g).arch.rel)
        let s2 := (s1.modG g fun x => { x with atom := none }).putReturned g a.reg a.wide vals
        let s3 := s2.raiseFlags g fl
        .next ((s3.addRecord g (.retAtom a.pc vals (fl.setWidth 32 <<< 8))).haltNow g)
      | (s1, _, _, some q) =>
        if State.recordAwaited (s.grp g) then .next s
        else
          let s2 := s1.modG g fun x =>
            { x with atom := none, arch := { x.arch with pc := a.pc, regs := { x.arch.regs with sig := a.sig0 } } }
          .next (s2.takeTrap g (.at_ .poison q.va) a.pc a.word)

/-- ATOMR (R222): one entry of the pound a sector, its accesses in thread order. -/
def atomrEff (f : AtForm) : Eff := fun c s =>
  let r := s.regsOf c.g
  let n := atBytes f
  let ts := threadsOf c.mask
  let os := offsets r c.e.a ts
  if os.2 || ts.any fun t => (readData r c.e.b n t).2 then
    .error (.trap (.poisonOf (ts.flatMap fun t => [(2, (readOff r c.e.a t).2), (3, (readData r c.e.b n t).2)])))
  else
    match atomKeys s c.g (opReg c.e.d) n (hostForm f) os.1 with
    | .error e => .error e
    | .ok (kss, s1) =>
      let accs := (ts.zip kss).map fun x =>
        ({ key := x.2.headD 0, form := f, v := w64Of (readData r c.e.b n x.1).1 } : AtomAcc)
      let s2 := (distinct (accs.map fun a => sectorOf a.key)).foldl
        (fun s sec => s.addEntry c.g (.atomr (accs.filter fun a => sectorOf a.key == sec) false) [s1.nextId]) s1
      let s3 : State := { s2 with nextId := s1.nextId + 1 }
      .ok (s3.modG c.g fun x => { x with cst := if accs.isEmpty then x.cst else x.cst + 1 })

/-- ATOMR (R222). -/
def execAtomr (f : AtForm) (e : Enc) (s : State) : Out := issue (.atomr f e) e (atomrEff f) s

/-- One access of ATOMSH on a stash word, whose poison bit it keeps (R224). -/
def shNew (f : ShForm) (r : Regs) (reg t : Nat) (old : W32) : W32 × BitVec 5 :=
  match f with
  | .op o => atApply32 o old (r.vt reg t)
  | .cas => (if old = r.vt reg t then r.vt (reg + 1) t else old, 0)

/-- ATOMSH (R224): performed at issue in thread order, logged. -/
def atomshEff (f : ShForm) : Eff := fun c s =>
  let r := s.regsOf c.g
  let reg := opReg c.e.d
  let b := opReg c.e.a
  let ts := threadsOf c.mask
  let os := offsets r c.e.b ts
  let ops := match f with
    | .op _ => [0]
    | .cas => [0, 1]
  if os.2 || ts.any fun t => ops.any fun k => r.vpt (reg + k) t then
    .error (.trap (.poisonOf (ts.flatMap fun t => [(3, (readOff r c.e.b t).2), (1, ops.any fun k => r.vpt (reg + k) t)])))
  else
    match os.1.findSome? fun o =>
        if o.toNat % 4 ≠ 0 then some { TrapInfo.berth b o with cls := .layout }
        else if (s.window c.g b o 4).isNone then some (TrapInfo.berth b o) else none with
    | some t => .error (.trap t)
    | none =>
      match s.stashAccess c.g b 4 true true os.1 with
      | .error e => .error e
      | .ok (as, s1) =>
        let (n, s1) := s1.drawReads c.g
        let y := (ts.zip as).foldl (fun (y : State × List (Nat × List W32 × Bool) × BitVec 5) x =>
            let old := w32Of ((bytesAt 4 x.2).map fun a => (y.1.groupByte c.g n a).1)
            let po := (y.1.groupByte c.g n x.2).2
            let new := shNew f r reg x.1 old
            (y.1.stashWrite c.g (((bytesAt 4 x.2).zip (bytesLE 4 new.1.toNat)).map fun w => (w.1, w.2, po)) true,
              y.2.1 ++ [(x.1, [old], false)], y.2.2 ||| new.2))
          (s1.stashDepend c.g (as.flatMap (bytesAt 4)), [], 0)
        .ok ((y.1.putWords c.g reg 1 y.2.1).raiseFlags c.g y.2.2)

/-- ATOMSH (R224). -/
def execAtomsh (f : ShForm) (e : Enc) (s : State) : Out := issue (.atomsh f e) e (atomshEff f) s

/-! ### PREF and the return of loads -/

/-- PREF (R230): the sector of each active thread's address, where it translates and is not host memory. DESIGN CHOICE (log 60):
a sector that a berth of another team holds dirty is not prefetched. -/
def prefEff : Eff := fun c s =>
  let r := s.regsOf c.g
  .ok ((threadsOf c.mask).foldl (fun s t =>
    let o := readOff r c.e.a t
    if o.2 then s
    else
      let (x, s1) := s.usableX c.g (opReg c.e.d)
      match s1.locate c.g x Need.load o.1 1 with
      | (.error _, s2) => s2
      | (.ok ks, s2) =>
        let sec := sectorOf (ks.headD 0)
        if isHostKey sec || s2.readBlocked (some (s2.grp c.g).team) (.group c.g) sec then s2 else s2.fillSector (s2.clusterOf c.g) (s2.grp c.g).arch.ctx (some (s2.reachId c.g)) sec) s)

/-- PREF (R230). -/
def execPref (e : Enc) (s : State) : Out := issue (.pref e) e prefEff s

/-- Registers with a load's data (R215, R179). -/
def PendLoad.into (l : PendLoad) (r : Regs) : Regs :=
  match l.dst with
  | .inl n => r.setS n l.sval l.spoison
  | .inr (reg, k) =>
    let m := maskOf fun t => l.vals.any fun v => v.1 == t
    (List.range k).foldl (fun r i => r.setV (reg + i) m fun t =>
      match l.vals.find? fun v => v.1 == t with
      | some v => (v.2.1[i]?.getD 0, v.2.2)
      | none => (0, false)) r

/-- Deliver a load's data: to the group's registers, and to the snapshots of the heads that opened since it issued, which are
of a point after it. Its registers count as written in its own reach, since its issue (R321). -/
def State.deliver (s : State) (g : Nat) (l : PendLoad) : State :=
  s.modG g fun x =>
    { x with
      arch := { x.arch with regs := l.into x.arch.regs }
      reaches := x.reaches.map fun r => if l.reach < r.id then { r with snap := { r.snap with regs := l.into r.snap.regs } } else r }

/-- Threads of a load that a codeword feeds. -/
def PendLoad.readsWord (l : PendLoad) (cw : Nat) : Bool := l.cws.any fun x => x.2.contains cw

/-- The load with what a codeword that could not be read feeds: poisoned, of an undefined value (R332, R334). -/
def PendLoad.spoil (l : PendLoad) (n cw : Nat) : PendLoad :=
  let hit := fun (t : Nat) => l.cws.any fun x => x.1 == t && x.2.contains cw
  { l with
    vals := l.vals.map fun v => if hit v.1 then (v.1, v.2.1.zipIdx.map fun w => Config.free32 (n + 64 + 4 * v.1 + w.2), true) else v
    sval := if hit 0 then Config.free64 n else l.sval
    spoison := l.spoison || hit 0 }

/-- A codeword whose data is lost: undefined, and poisoned, at its point of coherence (R332, R334). -/
def State.loseWord (s : State) (n cw : Nat) : State :=
  { s with
    mem := s.mem.writeAll ((List.range 64).map fun i => (64 * cw + i, Config.freeByte (n + i)))
    poison := if s.poison.contains cw then s.poison else s.poison ++ [cw] }

/-- A codeword that HBM cannot correct: lost there and in the clean words of the cluster that reads it, and
an event record is made (R332, R334). -/
def State.spoilWord (s : State) (cl n cw : Nat) : State :=
  let clean := fun (x : CSector) (i : Nat) => decide ((x.key + i) / 64 = cw) && (((x.bytes[i]?).getD none).map fun b => !b.dirty).getD false
  ((s.loseWord n cw).modCl cl fun c =>
    { c with
      cache := c.cache.map fun (x : CSector) =>
        { x with
          bytes := Vector.ofFn fun i => (x.bytes[i]).map fun b =>
            if clean x i then { b with val := Config.freeByte (n + (x.key + i) % 64) } else b
          poison := x.poison ||| maskOf fun w => (List.range 4).any fun j => clean x (4 * w + j) } }).tellAt
    "HBM_ECC" 0 (64 * cw)

/-- A corrected read counts in its stack's counter (R333). -/
def State.countCorrected (s : State) (cw : Nat) : State :=
  { s with corrected := s.corrected.setIfInBounds (stackOf (64 * cw)) ((s.corrected[stackOf (64 * cw)]?).getD 0 + 1) }

/-- What HBM's code finds as a load's codewords are read: an error in one symbol is corrected; the corrected read counts in its stack's counter, an uncorrectable
one poisons (R333, R334). -/
def State.readWords (s : State) (g : Nat) (l : PendLoad) (ecc : List (Nat × Nat)) : State × PendLoad :=
  (ecc.filter fun e => l.readsWord e.1 && e.2 != 0).foldl (fun (r : State × PendLoad) e =>
    if e.2 = 1 then (r.1.countCorrected e.1, r.2)
    else
      let (n, s1) := r.1.drawMany
      (s1.spoilWord (s.clusterOf g) n e.1, r.2.spoil n e.1)) (s, l)

/-- LOAD_RETURN: the group's oldest load is written back and cld counts down (R215, R236), with what HBM's code found in its
codewords (R333). DESIGN CHOICE (log 54): the errors come with the step. -/
def execLoadReturn (g : Nat) (s : State) : Out :=
  match (s.grp g).loads with
  | [] => .next s
  | l :: ls =>
    let (s1, l1) := s.readWords g l s.ecc.words
    .next (((s1.modG g fun x => { x with loads := ls, cld := x.cld - 1 }).deliver g l1).tidyTeam (s.grp g).team)

end Sys2Proof.Machine
end

