-- ==== Sys2Proof/Machine/Berth.lean ====
section
/-! DEFINITION. Berth binding (R225 to R227): BBIND, BUNBIND, BFLUSH, and the steps that move held sectors:
fills (R141, R142), write-backs (R141, R226, R229) and snoops (R143). -/

namespace Sys2Proof.Machine

/-! ### The berth table -/

/-- Write an entry of the berth table that the group sees, logged where it is the team's (R227); a gate frame's
table is part of what a squash restores. -/
def State.setBerth (s : State) (g b : Nat) (v : Berth) : State :=
  match (s.grp g).arch.frames, (s.grp g).arch.emu with
  | [], _ =>
    (s.addEntry g (.undoBerth (s.grp g).team b (s.berthOf g b)) []).modT (s.grp g).team
      fun t => { t with berths := t.berths.setIfInBounds b v }
  | _ :: _, some _ => s.modG g fun x =>
      { x with arch := { x.arch with emu := x.arch.emu.map fun m =>
          { m with saved := { m.saved with berths := m.saved.berths.setIfInBounds b v } } } }
  | _ :: _, none => s.modR g fun r => { r with berths := r.berths.setIfInBounds b v }

/-- Held sectors of a berth that the group sees. -/
def State.heldBy (s : State) (g b : Nat) : List Held :=
  (s.teamOf g).held.filter fun h => h.berth == b && h.frame == s.frameTag g

/-- The dirty bytes of a held sector as the stash has them. -/
def State.heldBytes (s : State) (tid : Nat) (h : Held) : List ByteWrite :=
  (List.range 128).filterMap fun i =>
    if h.dirty.getLsbD i then
      let b := s.stashByte tid (h.off + i)
      some (h.key + i, b.1, b.2)
    else none

/-- Copies and sequencer operations that resolved a window are left with undefined values (R227, R270): an operation that is
complete and not yet finished, in its results. -/
def State.undefineWindow (s : State) (tid : Nat) (frame : Option Nat) (b : Nat) : State :=
  let s1 := (s.modT tid fun t =>
    { t with undone := t.undone.map fun (o : OpRec) => if o.berth == some b && frame.isNone then { o with whole := true } else o }).smearLate tid
      (((s.tm tid).undone.filter fun o => o.berth == some b && frame.isNone && !o.whole).map (·.id))
  let copy := fun (c : Copy) =>
    { c with undef := c.undef || (c.windows.contains (tid, frame, b) && !c.applied)
             sigUndef := c.sigUndef || (c.sigWindows.contains (tid, frame, b) && !c.signalled) }
  let op := fun (o : SeqOp) => if o.team == tid && o.berth == some b && frame.isNone && !o.complete then { o with undef := true } else o
  { s1 with cores := s1.cores.map fun k => { k with copies := k.copies.map copy, ops := k.ops.map op } }

/-- The dirty bytes of a bound berth go on their way to their points of coherence; with `release` the sectors are
no longer held (R226). The write-back set counts on cst until it has arrived (R236). -/
def State.sendBerth (s : State) (g b : Nat) (release : Bool) : State :=
  let tid := (s.grp g).team
  let hs := s.heldBy g b
  let ds := hs.filter fun h => h.dirty != 0
  let s1 := s.stashDepend g (ds.map (·.off))
  let s2 := s1.modT tid fun t =>
    { t with held :=
        if release then t.held.filter fun h => !hs.contains h
        else t.held.map fun h => if hs.contains h then { h with dirty := 0 } else h }
  if ds.isEmpty then s2
  else
    let set : WbSet := { scope := .dev, ctx := (s.grp g).arch.ctx, reach := s.reachId g, cleared := false, seq := s.nextSeq
                         bytes := ds.flatMap (s.heldBytes tid), range := some [], held := ds }
    { s2.modG g fun x => { x with wbsets := x.wbsets ++ [set], cst := x.cst + 1 } with nextSeq := s.nextSeq + 1 }

/-- The effect of BUNBIND on a berth (R226): none where it is not bound. -/
def State.unbind (s : State) (g b : Nat) : State :=
  let t := s.berthOf g b
  if t.bound then (s.sendBerth g b true).setBerth g b { t with bound := false, gva := 0 } else s

/-! ### Instructions -/

/-- Half-open ranges that share an address. -/
def overlaps (a n b m : Nat) : Bool := decide (a < b + m) && decide (b < a + n)

/-- Stash regions of the open frames of a group (R280): the outer ones too. -/
def State.frameRegions (s : State) (g : Nat) : List (Nat × Nat) :=
  (s.grp g).arch.frames.map fun f => ((s.descOf g).stash - ((s.grp g).gidx + 1) * f.entry.allow.toNat, f.entry.allow.toNat)

/-- Whether a window breaks a rule of R225 or R280. -/
def windowBad (s : State) (g b : Nat) (win sva : W64) : Bool :=
  let base := field win 0 20
  let size := field win 32 20
  let limit := match (s.grp g).arch.frames with
    | [] => (s.descOf g).stash
    | f :: _ => f.entry.allow.toNat
  let tbl := s.berthTable g
  let at_ := s.regionBase g + base
  field win 52 12 != 0 || field win 20 12 != 0 || size % 128 != 0 || base % 128 != 0 ||
    decide (size < 128) || decide (524288 < size) || decide (limit < base + size) || sva.toNat % 128 != 0 ||
    ((List.range 16).any fun i =>
      let t := tbl[i]?.getD Berth.none
      i != b && t.size != 0 && overlaps base size t.base t.size) ||
    ((s.teamOf g).groups.any fun h =>
      h != g && (s.frameRegions h).any fun r => overlaps at_ size r.1 r.2)

/-- BBIND (R225). DESIGN CHOICE (log 69): poison is found before the layout of the window word. -/
def bbindEff : Eff := fun c s =>
  let win := sArg s c c.e.a
  let bound := match c.e.b with
    | .scal _ => true
    | _ => false
  let sva := if bound then sArg s c c.e.b else (0, false)
  let b := opReg c.e.d
  if win.2 || sva.2 then .error (.trap (.poisonOf [(2, win.2), (3, sva.2)]))
  else if windowBad s c.g b win.1 sva.1 then .error (.trap (.of .layout))
  else
    let s1 := (s.unbind c.g b).undefineWindow (s.grp c.g).team (s.frameTag c.g) b
    .ok (s1.setBerth c.g b { base := field win.1 0 20, size := field win.1 32 20, bound := bound, gva := sva.1 })

/-- BBIND (R225). -/
def execBbind (e : Enc) (s : State) : Out := issue (.bbind e) e bbindEff s

/-- BUNBIND (R226). -/
def execBunbind (e : Enc) (s : State) : Out :=
  issue (.bunbind e) e (fun c s =>
    let b := opReg c.e.d
    .ok (if (s.berthOf c.g b).bound then (s.unbind c.g b).undefineWindow (s.grp c.g).team (s.frameTag c.g) b else s)) s

/-- BFLUSH (R226). -/
def execBflush (e : Enc) (s : State) : Out :=
  issue (.bflush e) e (fun c s =>
    .ok (if (s.berthOf c.g (opReg c.e.d)).bound then s.sendBerth c.g (opReg c.e.d) false else s)) s

/-! ### Held sectors -/

/-- A word over the 128 bytes of a sector. -/
def maskBits (p : Nat → Bool) : BitVec 128 := BitVec.ofNat 128 (bitsNat 128 p)

/-- BERTH_FILL (R141, R142): the oldest requested fill of a sector through a berth is a read by the touching group, at the
place to which the touch translated (R313); a sector that another berth holds is recalled first, a group with an incomplete
acquire waits, and so does a transfer while the cluster changes its ratio (R20). An invalidation that has begun since has the
sector released. The group's own pound entries stay over what it reads through the berth (R157). DESIGN CHOICE (log 51): a
berth bound to host or peer memory, of which R141 does not speak, holds its sectors in the same way. -/
def execBerthFill (team berth sector : Nat) (s : State) : Out :=
  match (s.tm team).fills.find? fun f => f.berth == berth && f.off == sector with
  | none => .next s
  | some f =>
    let drop := fun (s : State) => s.modT team fun t => { t with fills := t.fills.filter fun x => x != f }
    let cl := s.coreOf f.gid / 8
    let sec := f.key
    if !(s.berthOf f.gid berth).bound || f.frame != s.frameTag f.gid then .next (drop s)
    else if s.writeBlocked sec || !(s.specFences f.gid).isEmpty || (s.clu cl).changing then .next s
    else
      let ws := (List.range 128).map fun i =>
        let b := s.clusterByte cl (sec + i)
        (f.off + i, b.1, b.2)
      let rid := ((s.grp f.gid).reaches.getLast?).map (·.id)
      let s2 := (s.stashPut team { s.groupWriter f.gid with pubs := [] } (rid.map fun r => (f.gid, r)) ws).modT team fun t =>
        { t with pubs := t.pubs ++ (s.pubs.filter fun p => decide (sec ≤ p.1) && decide (p.1 < sec + 128)).map fun p => (f.off + (p.1 - sec), p.2) }
      let mine := fun k => decide (sec ≤ k) && decide (k < sec + 128)
      let s3 := ((s2.writeBack cl (fun _ => true) mine).invalidate cl (fun _ => true) mine).fireWatch (· == f.gid)
        ((List.range 128).map (sec + ·))
      .next (drop (s3.modT team fun t => { t with held := t.held ++
        [{ berth := berth, frame := f.frame, off := f.off, va := f.va, key := sec, dirty := 0
           snoops := f.invals.map fun i => { reader := none, inval := some i, awaits := [] }, served := [], by_ := rid }] }))

/-- Open reaches that have logged a held sector: those that wrote it (R143, R159). -/
def State.heldWriters (s : State) (tid : Nat) (h : Held) : List Nat := ((s.tm tid).logged.filter fun l => l.1 == h.off).map (·.2)

/-- Whether the write-back of a held sector must wait (R141, R143): for reaches, as long as they are open, for older bytes of
it that are on their way, or for a change of its cluster's ratio (R20). -/
def State.heldBusy (s : State) (tid : Nat) (h : Held) (rs : List Nat) : Bool :=
  ((s.tm tid).logged.any fun l => l.1 == h.off && rs.contains l.2) || (s.clu ((s.tm tid).core / 8)).changing ||
    (s.tm tid).groups.any fun g => (s.grp g).wbsets.any fun b => b.held.any fun x => x.key == h.key

/-- A stash byte with its poison as the cleared reaches left it: the oldest before-image of an open reach, where there is
one (R159). -/
def State.clearedByte (s : State) (tid a : Nat) : Option (Byte × Bool) :=
  let es := (s.cor (s.tm tid).core).pound
  ((State.stashImages es tid).find? fun b => b.1 == a).map fun b =>
    (b.2, (((State.poisonImages es tid).find? fun q => q.1 == a / 4 * 4).map (·.2)).getD false)

/-- Write back the dirty bytes of a held sector as they have cleared, and release it or keep it clean; bytes that a reach
opened since a snoop arrived has written anew stay dirty, and the snoop's reader takes what was written back (R141, R143). -/
def State.putHeld (s : State) (tid : Nat) (h : Held) (release : Bool) (ready : List Snoop) : State :=
  let readers := ready.filterMap (·.reader)
  let ctx := s.tableCtx tid h.frame
  let open_ := maskBits fun i => (s.clearedByte tid (h.off + i)).isSome
  let ws := (s.heldBytes tid h).map fun w => match s.clearedByte tid (h.off + (w.1 - h.key)) with
    | some b => (w.1, b.1, b.2)
    | none => w
  ((s.pocWrite (fun _ => false) ctx ws).dropClean ((s.tm tid).core / 8) h.key).modT tid fun t =>
    { t with held := if release then t.held.filter fun x => x != h
                     else t.held.map fun x => if x = h then
                       { x with dirty := h.dirty &&& open_, snoops := x.snoops.filter fun q => !ready.contains q
                                served := if h.dirty &&& open_ = 0 then [] else x.served ++ readers.filter fun r => !x.served.contains r }
                       else x }

/-- Serve the snoops of a held sector whose wait is over: a write, an atomic or a recall among them releases it (R143). -/
def State.serveHeld (s : State) (tid : Nat) (h : Held) : State :=
  let ready := h.snoops.filter fun q => !s.heldBusy tid h q.awaits
  if ready.isEmpty then s else s.putHeld tid h (ready.any fun q => q.reader.isNone) ready

/-- A write-back set has arrived: cst counts down. -/
def State.endSet (s : State) (g : Nat) (b : WbSet) : State :=
  ((distinct (b.held.map (·.key))).foldl (fun s k => s.dropClean (s.clusterOf g) k)
    (s.modG g fun x => { x with wbsets := x.wbsets.erase b, cst := x.cst - 1 })).tidyTeam (s.grp g).team

/-- The oldest cleared BFLUSH or BUNBIND set of a team for a berth, but for those that share a sector with an older set which
has not arrived. -/
def State.oldestSet (s : State) (team berth : Nat) : Option (Nat × WbSet) :=
  let all := (s.tm team).groups.flatMap fun g => (s.grp g).wbsets.map fun b => (g, b)
  let after := fun (b : WbSet) => all.any fun y => decide (y.2.seq < b.seq) && y.2.held.any fun h => b.held.any fun k => k.key == h.key
  (all.filter fun x => x.2.cleared && (x.2.held.any fun h => h.berth == berth) && !after x.2).foldl
    (fun (o : Option (Nat × WbSet)) x => match o with
      | none => some x
      | some y => if x.2.seq < y.2.seq then some x else some y) none

/-- BERTH_WRITEBACK (R141, R226): the oldest cleared BFLUSH or BUNBIND set of the berth arrives; where there is
none, the berth's dirty sectors that no open reach has written are written back. No stash transfer takes place while the cluster
changes its ratio (R20). -/
def execBerthWriteback (team berth : Nat) (s : State) : Out :=
  if (s.clu ((s.tm team).core / 8)).changing then .next s
  else match s.oldestSet team berth with
  | some (g, b) => .next ((s.endSet g b).pocWrite (fun _ => false) b.ctx b.bytes)
  | none =>
    .next (((s.tm team).held.filter fun h => h.berth == berth && h.dirty != 0 && !s.heldBusy team h (s.heldWriters team h)).foldl
      (fun s h => s.putHeld team h false []) s)

/-- Put a snoop at a held sector, unless the same one is pending (R143). -/
def State.snoop (s : State) (tid : Nat) (h : Held) (reader : Option Reader) (inval : Option Nat) : Held :=
  if h.snoops.any fun q => q.reader == reader && q.inval == inval then h
  else { h with snoops := h.snoops ++ [{ reader := reader, inval := inval, awaits := distinct (s.heldWriters tid h) }] }

/-- HELD_SECTOR_SNOOP (R143, R165): an agent's snoop, for a reader, or for a write, an atomic or a recall, which release the
sector; it waits for the reaches that wrote the sector before it arrived, and a releasing one keeps the team off it
meanwhile. -/
def execHeldSectorSnoop (addr : Nat) (reader : Option Reader) (s : State) : Out :=
  let sec := sectorOf addr
  let hit := (List.range s.teams.length).findSome? fun t =>
    ((s.tm t).held.find? fun h => h.key == sec).map fun h => (t, h)
  match hit with
  | none => .next s
  | some (t, h) =>
    let h1 := s.snoop t h reader none
    .next ((s.modT t fun x => { x with held := x.held.map fun y => if y = h then h1 else y }).serveHeld t h1)

end Sys2Proof.Machine
end

