-- ==== Sys2Proof/Machine/Fence.lean ====
section
/-! DEFINITION. Fences and cache control: FENCE (R145, R154 to R156, R228), IFENCE (R164), CFLUSH and CINV
(R229), and the completion and rollback of fences. -/

namespace Sys2Proof.Machine

/-- Scopes at which a fence acts on the cluster cache (R145). -/
def beyondCluster : Scope → Bool
  | .grp => false
  | .team => false
  | .clu => false
  | _ => true

/-- Sectors that belong to the context of a group, or to one in whose frames it has executed (R145, R299). -/
def State.ofGroup (s : State) (g : Nat) (x : CSector) : Bool := (s.grp g).visited.any (belongs x)

/-- The clean bytes of some sectors of a cluster's cache become invalid, and watches on them in that cluster fire (R145,
R155). -/
def State.acquireIn (s : State) (cl : Nat) (sel : CSector → Bool) : State :=
  (s.fireWatch (fun i => s.clusterOf i != cl) (s.cleanKeys cl sel fun _ => true)).invalidate cl sel fun _ => true

/-- The acquire action of a fence (R145): every clean byte of the sectors of the group's context, and of those in whose frames
it has executed (R299), becomes invalid; a watch of any other fence on such a byte fires (R155). -/
def State.acquireAction (s : State) (g : Nat) : State := s.acquireIn (s.clusterOf g) (s.ofGroup g)

/-- Whether an operation of a group at a scope includes another group (R146). -/
def State.includes (s : State) (sc : Scope) (g h : Nat) : Bool :=
  match sc with
  | .grp => g == h
  | .team => (s.grp g).team == (s.grp h).team
  | .clu => s.clusterOf g == s.clusterOf h
  | _ => true

/-- What a release fence of a group gives to a later acquire (R148). -/
def State.noteRelease (s : State) (g : Nat) (sc : Scope) : State :=
  let c := s.clockOf g
  s.modG g fun x => { x with arch := { x.arch with rel := x.arch.rel.filter (fun r => r.1 != sc) ++ [(sc, c)] } }

/-- What happens-before an acquire fence of a group (R148): the releases, at inclusive scopes, that what it has read carries. -/
def State.acquired (s : State) (g : Nat) (sc : Scope) : Clock :=
  (((s.grp g).arch.seen.filter fun p => s.includes p.scope p.by_ g && s.includes sc g p.by_).map (·.clk)).foldl Clock.join []

/-- FENCE (R154, R228): its head has been opened; the group issues past it while it is incomplete. -/
def fenceEff (sc : Scope) (k : FenceKind) : Eff := fun c s =>
  if sc = .grp then .ok s
  else
    let s1 := if k ≠ .rel ∧ beyondCluster sc = true then s.acquireAction c.g else s
    let f : FenceRec := { id := s1.nextId, scope := sc, kind := k, reach := s1.reachId c.g, pc := c.pc, seq := s1.nextSeq
                          watch := [], fired := [] }
    let s2 : State := { s1 with nextId := s1.nextId + 1 }
    let s3 := if k = .rel then s2 else s2.joinHb c.g (s2.acquired c.g sc)
    let s4 := if k = .acq then s3 else s3.noteRelease c.g sc
    .ok (s4.modG c.g fun x => { x with fences := x.fences ++ [f] })

/-- FENCE (R228). -/
def execFence (sc : Scope) (k : FenceKind) (e : Enc) (s : State) : Out := issue (.fence sc k e) e (fenceEff sc k) s

/-- A pound entry that carries a global write or an ATOMR. -/
def globalEntry (e : PEntry) : Bool :=
  match e.kind with
  | .store _ _ _ => true
  | .atomr _ _ => true
  | _ => false

/-- Whether a group's global writes with a lower entry number are all out of the pound. -/
def State.drained (s : State) (g seq : Nat) : Bool :=
  !(s.poundOf g).any fun e => e.gid == g && globalEntry e && decide (e.seq < seq)

/-- IFENCE (R164): not ready until the group's writes have drained; then the instructions that its core holds for
its address space are discarded. -/
def ifenceEff : Eff := fun c s =>
  if s.drained c.g s.nextSeq then
    let a := (s.grp c.g).arch.ctx
    let emu := (s.grp c.g).arch.emu.isSome
    .ok (s.modC (s.coreOf c.g) fun k => { k with held := k.held.filter fun h => h.ctx != a && !(emu && h.ctx == 64) })
  else .error .hold

/-- IFENCE (R228). -/
def execIfence (e : Enc) (s : State) : Out := issue (.ifence e) e ifenceEff s

/-! ### CFLUSH and CINV -/

/-- Runs of a virtual range, page by page: address, key and bytes; unmapped pages are skipped (R229). -/
def State.rangeRuns (s : State) (c g : Nat) : Nat → Nat → Nat → List (W64 × Nat × Nat)
  | 0, _, _ => []
  | fuel + 1, va, len =>
    if len = 0 then []
    else
      let v : W64 := BitVec.ofNat 64 va
      let pg := if canonical v then (s.walkPage c (s.asid g v) v true).1 else none
      match pg with
      | some p =>
        let n := min len (p.va + p.size - v.toNat)
        (v, p.key v, n) :: s.rangeRuns c g fuel (va + n) (len - n)
      | none =>
        let r := s.regionEntry (s.asid g v) v
        let step := if r.getLsbD 63 then pageBytes (field r 52 3) else 2 ^ 53
        let n := min len (step - va % step)
        s.rangeRuns c g fuel (va + n) (len - n)

def inRuns (runs : List (Nat × Nat)) (k : Nat) : Bool := runs.any fun r => decide (r.1 ≤ k) && decide (k < r.1 + r.2)

/-- The range of a CFLUSH or CINV: runs, or every byte of the context (R229). -/
def flushRange (s : State) (c : Cx) : Except Stop (Option (List (W64 × Nat × Nat))) :=
  let l := sArg s c c.e.a
  let n := l.1.toNat
  let base := ((s.regsOf c.g).x[opReg c.e.d]?.getD XReg.entry).base
  if l.2 then .error (.trap (.poisonOf [(2, true)]))
  else if n = 0 then .ok none
  else .ok (some (s.rangeRuns (s.coreOf c.g) c.g (n / 4096 + 2) base.toNat n))

/-- Sectors and bytes of a range. -/
def rangeSel (ctx : Nat) (r : Option (List (W64 × Nat × Nat))) : CSector → Bool :=
  match r with
  | none => fun x => State.belongs x ctx
  | some _ => fun _ => true

def rangeByte (r : Option (List (W64 × Nat × Nat))) (k : Nat) : Bool :=
  match r with
  | none => true
  | some runs => inRuns (runs.map (·.2)) k

/-- CFLUSH (R229): at .clu the drain into the cluster cache is all; at a wider scope a write-back set follows. -/
def cflushEff (sc : CScope) : Eff := fun c s =>
  match flushRange s c with
  | .error e => .error e
  | .ok r =>
    if sc = .clu then .ok s
    else
      let set : WbSet := { scope := sc, ctx := (s.grp c.g).arch.ctx, reach := s.reachId c.g, cleared := false
                           seq := s.nextSeq, bytes := [], range := r, held := [] }
      .ok (s.modG c.g fun x => { x with wbsets := x.wbsets ++ [set], cst := x.cst + 1 })

/-- CFLUSH (R229). -/
def execCflush (sc : CScope) (e : Enc) (s : State) : Out := issue (.cflush sc e) e (cflushEff sc) s

/-- CINV (R229): clean bytes of the range become invalid at issue; watches stay. At .clu it changes no value: nothing becomes
invalid. -/
def cinvEff (sc : CScope) : Eff := fun c s =>
  match flushRange s c with
  | .error e => .error e
  | .ok r => .ok (if sc = .clu then s else s.invalidate (s.clusterOf c.g) (rangeSel (s.grp c.g).arch.ctx r) (rangeByte r))

/-- CINV (R229). -/
def execCinv (sc : CScope) (e : Enc) (s : State) : Out := issue (.cinv sc e) e (cinvEff sc) s

/-- Whether an entry of the pound writes a byte of some. -/
def entryTouches (p : Nat → Bool) (e : PEntry) : Bool :=
  match e.kind with
  | .store _ ws _ => ws.any fun w => p w.1
  | .atomr accs _ => accs.any fun a => (bytesAt (atBytes a.form) a.key).any p
  | _ => false

/-- A CFLUSH range without the pages that have been unmapped since (R229, R244). -/
def State.stillMapped (s : State) (c ctx : Nat) (r : Option (List (W64 × Nat × Nat))) : Option (List (W64 × Nat × Nat)) :=
  r.map fun runs => runs.filter fun x => match (s.walkPage c ctx x.1 true).1 with
    | some p => p.key x.1 == x.2.1
    | none => false

/-- WRITEBACK_SET_COMPLETE (R229, R236): after the group's earlier entries to the range have drained, the range's
dirty bytes are written back and the oldest CFLUSH set counts down. -/
def execWritebackSetComplete (g : Nat) (s : State) : Out :=
  match (s.grp g).wbsets.find? fun b => b.held.isEmpty with
  | none => .next s
  | some b =>
    if (s.poundOf g).any fun e => e.gid == g && decide (e.seq < b.seq) && entryTouches (rangeByte b.range) e then .next s
    else
      let cl := s.clusterOf g
      let r := s.stillMapped (s.coreOf g) b.ctx b.range
      let s1 := s.writeBack cl (rangeSel b.ctx r) (rangeByte r)
      .next (if s1.anyDirty cl (rangeSel b.ctx r) (rangeByte r) then s1 else s1.endSet g b)

/-! ### Completion and rollback -/

/-- Whether a fence's earlier reads have returned and its earlier writes are out of the pound (R145, R154). -/
def fenceMet (s : State) (g : Nat) (f : FenceRec) : Bool :=
  f.fired.isEmpty && !((s.grp g).loads.any fun l => decide (l.reach < f.reach)) && (f.kind == .acq || s.drained g f.seq)

/-- Write back the dirty bytes of a group's context, the release of R145 at DEV and wider. -/
def State.releaseAction (s : State) (g : Nat) : State := s.writeBack (s.clusterOf g) (s.ofGroup g) fun _ => true

def State.releaseDone (s : State) (g : Nat) : Bool := !s.anyDirty (s.clusterOf g) (s.ofGroup g) fun _ => true

/-- A fence completes: its watches and its hold on reaches go (R155). -/
def State.endFence (s : State) (g : Nat) (f : FenceRec) : State :=
  s.modG g fun x =>
    { x with fences := x.fences.filter fun y => y.id != f.id
             reaches := x.reaches.map fun r => { r with spec := r.spec.filter (· != f.id) }
             rollbacks := if x.rollbacks.2 = f.pc then (0, 0) else x.rollbacks }

/-- FENCE_COMPLETE (R154): the oldest fence whose condition is met completes, after the write-backs that its
release waits for. -/
def execFenceComplete (g : Nat) (s : State) : Out :=
  match (s.grp g).fences.find? (fenceMet s g) with
  | none => .next s
  | some f =>
    if f.kind ≠ .acq ∧ beyondCluster f.scope = true then
      let s1 := s.releaseAction g
      .next (if s1.releaseDone g then s1.endFence g f else s1)
    else .next (s.endFence g f)

/-- FENCE_ROLLBACK (R155, R156): a fired watch rolls the group back to the head of its oldest reach that holds a
speculative read of the fence. DESIGN CHOICE (log 51): executions of the fence at one PC count as one fence for the limit of
four. -/
def execFenceRollback (g : Nat) (s : State) : Out :=
  match (s.grp g).fences.find? fun f => !f.fired.isEmpty with
  | none => .next s
  | some f =>
    let reset := fun (s : State) => s.modG g fun x =>
      { x with fences := x.fences.map fun y => if y.id = f.id then { y with fired := [], watch := [] } else y }
    match (s.grp g).reaches.find? fun r => r.spec.contains f.id with
    | none => .next (reset s)
    | some r =>
      let n := if (s.grp g).rollbacks.2 = f.pc then (s.grp g).rollbacks.1 + 1 else 1
      .next ((reset (s.squashAll [r.id])).modG g fun x => { x with rollbacks := (n, f.pc) })

end Sys2Proof.Machine
end

