-- ==== Sys2Proof/Machine/Sequencer.lean ====
section
/-! DEFINITION. What the sequencer and the accumulator forms share (R68, R252 to R256, R270): tags, renamed
accumulator writes, bytes as an operation reads them, completion, and the finishing of batches. -/

namespace Sys2Proof.Machine

/-- Lane cycle from which a step's next row may enter, or at which its values are ready (R261): the row interval is read at
each row, and the first row has none before it. -/
def stepDue (cad : BitVec 16) (f : Fmt) (m : MStep) : Nat :=
  if m.rows = 0 then m.lastAt else m.lastAt + max cad.toNat (fmtW f)

namespace State

/-- The reach with which work of a group is tagged when it starts (R253): its newest open reach. DESIGN CHOICE (log 63): that reach
though it has ended, as in a seal's wait, and a number that no group holds where no reach is open. -/
def liveTag (s : State) (g : Nat) : Nat × State :=
  match (s.grp g).reaches.getLast? with
  | some r => (r.id, s)
  | none => (s.nextReach, { s with nextReach := s.nextReach + 1 })

/-- The open reach of an identifier in a group. -/
def reachOf (s : State) (g rid : Nat) : Option Reach := (s.grp g).reaches.find? fun r => r.id == rid

/-- Whether a reach of a group already writes an accumulator anew (R68). -/
def hasPre (s : State) (g rid k : Nat) : Bool :=
  match s.reachOf g rid with
  | some r => r.accPre.any fun p => p.1 == k
  | none => true

/-- Accumulators that started steps have taken and not yet written: their reach and their architected number. -/
def promised (s : State) (core : Nat) : List (Nat × Nat) :=
  ((s.cor core).ops.flatMap fun o =>
    match o.kind with
    | .mloop a _ _ _ => (o.steps.filter fun m => !s.hasPre o.gid m.reach a).map fun m => (m.reach, a)
    | _ => []).eraseDups

/-- Whether a reach can write an accumulator now: it does already, or a physical one is free (R68). -/
def accReady (s : State) (core g rid k : Nat) : Bool :=
  s.hasPre g rid k || (s.promised core).contains (rid, k) ||
    decide ((s.promised core).length < (s.cor core).accFree)

/-- Add reaches that a reach of a group depends on (R159, R253). -/
def dependReach (s : State) (g rid : Nat) (ds : List Nat) : State :=
  s.modG g fun x => { x with reaches := x.reaches.map fun r =>
    if r.id = rid then { r with deps := r.deps ++ ds.filter fun d => d != rid && !r.deps.contains d } else r }

/-- A tagged write has completed (R253). -/
def tagged (s : State) (g rid : Nat) : State :=
  s.modG g fun x => { x with reaches := x.reaches.map fun r =>
    if r.id = rid then { r with lastTag := max r.lastTag s.clk } else r }

/-- An accumulator of a team. -/
def acc (s : State) (tid k : Nat) : Acc := (s.tm tid).accs[k]?.getD []

/-- Last writer of an accumulator, as a list. -/
def accWriter (s : State) (tid k : Nat) : List Nat := ((s.tm tid).accBy[k]?.getD none).toList

/-- Write an accumulator in a reach of a group: the first write takes a physical accumulator and keeps the old one
(R68). -/
def putAcc (s : State) (core g rid k : Nat) (v : Acc) : State :=
  let tid := (s.grp g).team
  let old := ((k, s.acc tid k, (s.tm tid).accBy[k]?.getD none) : Nat × Acc × Option Nat)
  let s1 := if s.hasPre g rid k then s else
    (s.modC core fun c => { c with accFree := c.accFree - 1 }).modG g fun x => { x with reaches := x.reaches.map fun r =>
      if r.id = rid then { r with accPre := r.accPre ++ [old] } else r }
  (s1.modT tid fun t =>
    { t with accs := t.accs.setIfInBounds k v, accBy := t.accBy.setIfInBounds k (some rid) }).tagged g rid

/-! ### Bytes as an operation reads them (R270) -/

/-- Stash bytes of an operation's panels that were not ordered before it (R263), or have been written since. -/
def writtenTo (s : State) (tid id : Nat) : List Nat := (((s.tm tid).undone.find? fun o => o.id == id).map (·.dirty)).getD []

/-- A stash byte as an operation reads it: undefined where it was written meanwhile, or where the operation's
window was reconfigured (R227, R270). -/
def opByte (s : State) (tid : Nat) (o : SeqOp) (n : Nat) : Nat → Byte :=
  let t := s.tm tid
  let ds : List Nat := s.writtenTo tid o.id
  fun a => if o.undef || ds.contains a then Config.freeByte (n + a) else t.stash.read a

/-- Whether a stash byte lies in a poisoned word (R219). -/
def badByte (s : State) (tid a : Nat) : Bool := (s.tm tid).stashPoison.contains (a / 4 * 4)

/-! ### Completion -/

def modOp (s : State) (core id : Nat) (f : SeqOp → SeqOp) : State :=
  s.modC core fun k => { k with ops := k.ops.map fun o => if o.id = id then f o else o }

/-- Operations of a core accepted before one, in acceptance order. -/
def opsBefore (s : State) (core id : Nat) : List SeqOp := (s.cor core).ops.takeWhile fun o => o.id != id

/-- Earlier reads and writes of an accumulator of a team are complete (R252). -/
def accOrder (s : State) (core id tid k : Nat) : Bool :=
  !(s.opsBefore core id).any fun o => o.team == tid && !o.complete && kindTouches o.kind k

/-- An operation other than an MLOOP is complete: ctile counts down (R254, R255). An MWRA that it met leaves the
accumulator undefined (R270). -/
def completeOp (s : State) (core : Nat) (o : SeqOp) : State :=
  let s1 := s.modOp core o.id fun x => { x with complete := true, moving := false }
  (match o.kind with
   | .mloop _ _ _ _ => s1
   | _ => s1.modG o.gid fun x => { x with ctile := x.ctile - 1 }).tidyTeam o.team

/-- An accumulator of undefined values. -/
def freeAcc (n : Nat) : Acc := Acc.make fun i => Config.free32 (n + i)

/-- The accumulator that an operation writes. -/
def kindTarget (k : SeqKind) : Option Nat :=
  match k with
  | .mloop a _ _ _ => some a
  | .mzero a => some a
  | .mlda a _ => some a
  | _ => none

/-- An accumulator that an MWRA wrote while an operation on it was unfinished is undefined once both are done
(R270). -/
def smearMwra (s : State) (core : Nat) (o : SeqOp) (rid : Nat) : State :=
  match kindTarget o.kind, (s.tm o.team).undone.find? fun x => x.id == o.id with
  | some a, some r => if r.mwra then let (n, s1) := s.drawMany; s1.putAcc core o.gid rid a (freeAcc n) else s
  | _, _ => s

/-- MZERO operations whose turn has come write their accumulators (R252, R264). -/
def settle (s : State) (core : Nat) : State :=
  (s.cor core).ops.foldl (fun s o =>
    match o.kind with
    | .mzero a =>
      if o.complete || !s.accOrder core o.id o.team a then s
      else
        let (rid, s1) := s.liveTag o.gid
        if !s1.accReady core o.gid rid a then s
        else
          let s2 := (s1.putAcc core o.gid rid a []).smearMwra core o rid
          (s2.modOp core o.id fun x => { x with tag := some rid }).completeOp core o
    | _ => s) s

/-! ### Batches (R256, R270) -/

/-- Whether every operation of a group's most recent batch of a number is complete (R256): a resume record of its team
is an operation that is not (R272). -/
def batchDone (s : State) (g n : Nat) : Bool :=
  let ids := (s.grp g).batches[n]?.getD []
  let ops := (s.cor (s.coreOf g)).ops
  ids.all fun i => !(ops.any fun o => o.id == i && !o.complete) && !(s.tm (s.grp g).team).resume.any fun r => r.id == i

/-- An MWAIT on a batch completes: its operations are finished for the group, and with what then happens-after it (R148,
R270). What was undefined in their results is so in what stands there now; a step that a squash runs again meets it anew. -/
def finishBatch (s : State) (g n : Nat) : State :=
  let ids := (s.grp g).batches[n]?.getD []
  let tid := (s.grp g).team
  let mine := (s.tm tid).undone.filter fun o => ids.contains o.id && !(s.grp g).arch.hb.covers (.op o.id) 0
  (mine.foldl (fun s o => s.smear tid o) s).joinHb g (ids.map fun i => (.op i, 0))

/-- Whether an operation on an accumulator is unfinished for a group (R270): one that writes it, or one that
reads or writes it. -/
def unfinished (s : State) (g : Nat) (touch : SeqKind → Bool) : Bool :=
  (s.tm (s.grp g).team).undone.any fun o => !(s.grp g).arch.hb.covers (.op o.id) 0 && touch o.kind

end State

end Sys2Proof.Machine
end

