-- ==== Sys2Proof/Machine/Sync.lean ====
section
/-! DEFINITION. Barriers (R231 to R234), waits (R51, R235, R236, R295), the exchange that completes an XSWAP pair
(R206 to R208), and the steps in which a group leaves WAIT. -/

namespace Sys2Proof.Machine

/-! ### Barriers -/

def State.bar (s : State) (t n : Nat) : Barrier := (s.tm t).bars[n]?.getD Barrier.zero

def State.modBar (s : State) (t n : Nat) (f : Barrier → Barrier) : State :=
  s.modT t fun x => { x with bars := x.bars.setIfInBounds n (f (x.bars[n]?.getD Barrier.zero)) }

/-- Log an update of a barrier in a reach that is open (R234). -/
def State.logBar (s : State) (log : Option (Nat × Nat)) (t n : Nat) (d : BarDelta) : State :=
  match log with
  | some (g, rid) => s.addEntryFor g rid (.undoBarrier t n (s.bar t n).phase d) []
  | none => s

/-- Bit of a group of a team. -/
def gbit (gidx : Nat) : BitVec 16 := 1#16 <<< gidx

/-- A phase completes (R232): every group has arrived or is DONE with its EXIT reach cleared, the bytes are in, and the
releases are performed. -/
def barrierDone (s : State) (t n : Nat) : Bool :=
  let b := s.bar t n
  ((s.tm t).groups.all fun g =>
    let x := s.grp g
    (b.arrived &&& gbit x.gidx != 0 || (x.st == .done && x.reaches.isEmpty)) && (x.st != .done || s.drained g s.nextSeq)) &&
  decide (b.expected.toNat ≤ b.bytes.toNat) &&
  b.arr.all fun a =>
    match (s.tm t).groups[a.1]? with
    | some g => s.drained g a.2
    | none => true

/-- The phase completes if it can. What comes later counts in the next one (R244). -/
def State.settleBar (s : State) (t n : Nat) : State :=
  if n < 8 ∧ barrierDone s t n = true then
    s.modBar t n fun b =>
      { b with phase := b.phase + 1, arrived := 0, bytes := b.bytes - b.expected, expected := 0, by_ := [], arr := [], clk := []
               done := { arrived := b.arrived, expected := b.expected, by_ := b.by_, arr := b.arr, clk := b.clk } :: b.done }
  else s

/-- A group arrives (R232, R234), with release; with `pend` it is a BARA. -/
def State.arrive (s : State) (g n : Nat) (pend : Bool) : State :=
  let x := s.grp g
  let rid := s.reachId g
  let c := s.clockOf g
  (s.logBar (some (g, rid)) x.team n (.arrive x.gidx pend)).modBar x.team n fun b =>
    { b with arrived := b.arrived ||| gbit x.gidx, pend := if pend then b.pend ||| gbit x.gidx else b.pend
             by_ := b.by_ ++ [rid], arr := b.arr ++ [(x.gidx, s.nextSeq)], clk := b.clk ++ [(rid, 1, c)] }

/-- The observer's part of a synchronisation with a copy at a scope (R246): from DEV on, the acquire of R145. -/
def State.observe (s : State) (g scope : Nat) : State := if 3 ≤ scope then s.acquireAction g else s

/-- A group departs from a completed phase (R232, R234): it acquires, its reach depends on every reach that updated the
barrier in it, and PEND clears. -/
def State.depart (s : State) (g n : Nat) (phase : W32) : State :=
  let x := s.grp g
  let b := s.bar x.team n
  let p := b.done[(b.phase - 1 - phase).toNat]?
  let cs := (p.map (·.clk)).getD []
  let s0 := (s.joinHb g ((cs.map (·.2.2)).foldl Clock.join [])).observe g ((cs.map (·.2.1)).foldl max 0)
  let s1 := s0.addDeps g ((p.map (·.by_)).getD [])
  if b.pend &&& gbit x.gidx = 0 then s1
  else
    (s1.logBar (some (g, s.reachId g)) x.team n (.depart x.gidx)).modBar x.team n fun b =>
      { b with pend := b.pend &&& ~~~(gbit x.gidx) }

/-- Whether a group has joined a phase by BARA that it has not left, and whether that phase is still open (R232). -/
def State.pending (s : State) (g n : Nat) : Bool := (s.bar (s.grp g).team n).pend &&& gbit (s.grp g).gidx != 0
def State.arrived (s : State) (g n : Nat) : Bool := (s.bar (s.grp g).team n).arrived &&& gbit (s.grp g).gidx != 0

/-- BAR and BARA (R232): first the wait of BARW where PEND is set. -/
def arriveEff (pend : Bool) : Eff := fun c s =>
  let n := opReg c.e.d
  let t := (s.grp c.g).team
  if s.depthOf c.g ≠ 0 then .error (.trap (.of .permission))
  else if s.pending c.g n && s.arrived c.g n then .error (.await (.barrierPend n (s.bar t n).phase))
  else
    let s1 := if s.pending c.g n then s.depart c.g n ((s.bar t n).phase - 1) else s
    let s2 := s1.arrive c.g n pend
    .ok (if pend then s2 else s2.enterWait c.g (.barrier n (s1.bar t n).phase))

/-- BAR (R232). -/
def execBar (e : Enc) (s : State) : Out := issue (.bar e) e (arriveEff false) s

/-- BARA (R232). -/
def execBara (e : Enc) (s : State) : Out := issue (.bara e) e (arriveEff true) s

/-- BARW (R232). -/
def barwEff : Eff := fun c s =>
  let n := opReg c.e.d
  let t := (s.grp c.g).team
  if s.depthOf c.g ≠ 0 then .error (.trap (.of .permission))
  else if !s.pending c.g n then .ok s
  else if s.arrived c.g n then .ok (s.enterWait c.g (.barrier n (s.bar t n).phase))
  else .ok (s.depart c.g n ((s.bar t n).phase - 1))

/-- BARW (R232). -/
def execBarw (e : Enc) (s : State) : Out := issue (.barw e) e barwEff s

/-- BARX (R233). -/
def barxEff : Eff := fun c s =>
  let n := opReg c.e.d
  let a := sArg s c c.e.a
  let t := (s.grp c.g).team
  if s.depthOf c.g ≠ 0 then .error (.trap (.of .permission))
  else if a.2 then .error (.trap (.poisonOf [(2, true)]))
  else
    let s := s.settleBar t n
    .ok ((s.logBar (some (c.g, s.reachId c.g)) t n (.expect a.1)).modBar t n fun b =>
      { b with expected := b.expected + a.1, by_ := b.by_ ++ [s.reachId c.g] })

/-- BARX (R233). -/
def execBarx (e : Enc) (s : State) : Out := issue (.barx e) e barxEff s

/-- BARRIER_COMPLETE (R232). -/
def execBarrierComplete (team n : Nat) (s : State) : Out := .next (s.settleBar team n)

/-! ### Waits -/

/-- The unsigned word of eight stash bytes as a group reads it. -/
def State.stashWord (s : State) (g a : Nat) : Nat := leNat ((bytesAt 8 a).map fun i => (s.groupByte g s.freeCtr i).1)

/-- A group has observed the word at a stash address (R148, R235, R246): what it depends on, and what then happens-before. -/
def State.observeWord (s : State) (g a : Nat) : State :=
  let sg := (s.teamOf g).sigs.filter fun x => x.1 == a
  let s1 := s.stashDepend g (bytesAt 8 a)
  (s1.joinHb g ((sg.map (·.2.2)).foldl Clock.join [])).observe g ((sg.map (·.2.1)).foldl max 0)

/-- WAITA (R235). -/
def waitaEff : Eff := fun c s =>
  let o := sArg s c c.e.a
  let v := sArg s c c.e.b
  let b := opReg c.e.d
  if s.depthOf c.g ≠ 0 then .error (.trap (.of .permission))
  else if o.2 || v.2 then .error (.trap (.poisonOf [(2, o.2), (3, v.2)]))
  else if (s.berthOf c.g b).bound || o.1.toNat % 8 != 0 then .error (.trap { TrapInfo.berth b o.1 with cls := .layout })
  else
    match s.stashAccess c.g b 8 true false [o.1] with
    | .error e => .error e
    | .ok (as, s1) =>
      let a := as.headD 0
      .ok (if v.1.toNat ≤ s1.stashWord c.g a then s1.observeWord c.g a
        else (s1.stashDepend c.g (bytesAt 8 a)).enterWait c.g (.stashWord b o.1.toNat v.1))

/-- WAITA (R235). -/
def execWaita (e : Enc) (s : State) : Out := issue (.waita e) e waitaEff s

/-- The group's counter of an index (R231, R236). -/
def counterOf (x : Group) (c : Nat) : Nat :=
  match c with
  | 0 => x.cld
  | 1 => x.cst
  | 2 => x.ccpy
  | _ => x.ctile

/-- A WAITC on the copy counter counts copies done (R148). -/
def State.countDone (s : State) (g k : Nat) : State := if k = 2 then s.joinHb g (s.grp g).doneHb else s

/-- WAITC (R236). -/
def waitcEff : Eff := fun c s =>
  let k := opReg c.e.d
  let lim := opReg c.e.a
  .ok (if counterOf (s.grp c.g) k ≤ lim then s.countDone c.g k else s.enterWait c.g (.counter k lim))

/-- WAITC (R236). -/
def execWaitc (e : Enc) (s : State) : Out := issue (.waitc e) e waitcEff s

/-- SLEEP (R295). -/
def sleepEff : Eff := fun c s =>
  let t := sArg s c c.e.d
  if t.2 then .error (.trap (.poisonOf [(1, true)]))
  else .ok (if t.1 = 0 then s else s.enterWait c.g (.sleep (s.clk + t.1.toNat)))

/-- SLEEP (R295). -/
def execSleep (e : Enc) (s : State) : Out := issue (.sleep e) e sleepEff s

/-- A wake reaches the sleeping groups of a team (R295). -/
def State.wake (s : State) (t : Nat) : State :=
  (s.tm t).groups.foldl (fun s g => s.modG g fun x =>
    match x.wait with
    | some { what := .sleep u, since := n, monitor := m } => { x with wait := some { what := .sleep (min u s.clk), since := n, monitor := m } }
    | _ => x) s

/-- Whether the condition that a waiting group watches is met (R51). -/
def waitMet (s : State) (g : Nat) (w : WaitFor) : Bool :=
  let x := s.grp g
  match w with
  | .barrier n ph => (s.bar x.team n).phase != ph
  | .barrierPend n ph => (s.bar x.team n).phase != ph
  | .stashWord b off v =>
    match s.window g b (BitVec.ofNat 64 off) 8 with
    | some a => decide (v.toNat ≤ s.stashWord g a)
    | none => false
  | .counter c lim => decide (counterOf x c ≤ lim)
  | .batch n => s.batchDone g n
  | .batchSlot n => s.batchDone g n
  | .sleep u => decide (u ≤ s.clk)
  | .sealing fenced => x.reaches.isEmpty && (!fenced || x.fences.isEmpty)
  | .xswap _ => false

/-- A group leaves WAIT (R42, R45): a barrier's departure, the read of a WAITA, and the end of a single step
(R395); a group whose team is out makes it returnable (R53). -/
def State.leaveWait (s : State) (g : Nat) : State :=
  match (s.grp g).wait with
  | none => s
  | some w =>
    let s1 := match w.what with
      | .barrier n ph => s.depart g n ph
      | .stashWord b off _ =>
        match s.window g b (BitVec.ofNat 64 off) 8 with
        | some a => s.observeWord g a
        | none => s
      | .counter k _ => s.countDone g k
      | .batch n => s.finishBatch g n
      | _ => s
    let s2 := s1.enterRun g
    let s3 := if (s.teamOf g).st = .swapped then s2.modT (s.grp g).team fun t => { t with returnable := true } else s2
    match w.what with
    | .sealing _ => s3
    | .barrierPend _ _ => s3
    | .batchSlot _ => s3
    | _ => if (s.grp g).stepping then s3.requestHalt g else s3

/-- Leave WAIT if the condition is met and the given test of the wait record holds. -/
def State.tryWake (s : State) (g : Nat) (p : Wait → Bool) : State :=
  let x := s.grp g
  match x.wait with
  | some w => if x.st == .wait && p w && waitMet s g w.what then s.leaveWait g else s
  | none => s

/-- WAIT_CONDITION_MET (R51): of a group that holds a wait-monitor entry. -/
def execWaitConditionMet (g : Nat) (s : State) : Out := .next (s.tryWake g fun w => w.monitor)

/-- Whether a group that holds no wait-monitor entry is due to be re-examined by its core (R51). -/
def State.recheckDue (s : State) (core : Nat) : Bool := decide ((s.cor core).recheckAt ≤ (s.cor core).fe)

/-- WAIT_RECHECK (R51): once every 256 front-end cycles the core re-examines its waiting groups that hold no entry. -/
def execWaitRecheck (core : Nat) (s : State) : Out :=
  if s.recheckDue core then
    .next (((s.groupsOn core).foldl (fun s g => s.tryWake g fun w => !w.monitor) s).modC core fun k => { k with recheckAt := k.fe + 256 })
  else .next s

/-- SLEEP_EXPIRY (R295): of a group that holds a wait-monitor entry. -/
def execSleepExpiry (g : Nat) (s : State) : Out :=
  .next (s.tryWake g fun w => match w.what with
    | .sleep _ => w.monitor
    | _ => false)

/-- YIELD_EXPIRY (R185): the front-end cycles of a YIELD or YLD have passed. -/
def execYieldExpiry (g : Nat) (s : State) : Out :=
  let x := s.grp g
  .next (if x.yieldUntil ≤ (s.cor (s.coreOf g)).fe then s.modG g fun x => { x with yieldUntil := 0 } else s)

/-! ### XSWAP pairs -/

/-- Count a completed pair (R208). -/
def countPair (ps : List Pair) (a b : Nat) : List Pair :=
  let lo := min a b
  let hi := max a b
  if ps.any fun p => p.a == lo && p.b == hi then
    ps.map fun p => if p.a == lo && p.b == hi then { p with count := p.count + 1 } else p
  else ps ++ [{ a := lo, b := hi, count := 1 }]

/-- One side of a completed pair (R206, R207): the write, the receive record and the commit. -/
def State.receive (s : State) (mine theirs : Send) : State :=
  let g := mine.gid
  let m := mine.mask &&& theirs.mask
  let pc := (s.grp g).arch.pc
  let s1 := s.putV g mine.reg m fun t => (theirs.v[t]?.getD 0, theirs.poison.getLsbD t)
  let s2 := (s1.addRecord g (.received pc theirs.mask theirs.v theirs.poison)).feedSig g mine.unit
  (s2.modG g fun x => { x with arch := { x.arch with pc := pc + 12 } }).leaveWait g

/-- XSWAP_RECEIVE (R206, R208): both groups have issued XSWAPs that name each other, and both
lane files have room (R67). A group that holds no wait-monitor entry is found when its core re-examines it (R51). -/
def execXswapReceive (g h : Nat) (s : State) : Out :=
  let waits := fun (g : Nat) => (s.grp g).st == .wait && s.resident (s.grp g).team &&
    match (s.grp g).wait with
    | some { what := .xswap _, monitor := m, .. } => m || s.recheckDue (s.coreOf g)
    | _ => false
  match s.sends.find? (fun x => x.gid == g), s.sends.find? (fun x => x.gid == h) with
  | some a, some b =>
    if g ≠ h ∧ a.partner = partnerWord s h ∧ b.partner = partnerWord s g ∧ s.launchOf g = s.launchOf h ∧
        waits g = true ∧ waits h = true ∧ s.regsRoom g [a.reg] = true ∧ (s.receive a b).regsRoom h [b.reg] = true then
      let s1 := (s.receive a b).receive b a
      let s2 : State := { s1 with sends := s1.sends.filter fun x => x.gid != g && x.gid != h }
      .next (s2.modL (s.launchOf g) fun l => { l with pairs := countPair l.pairs (partnerWord s g) (partnerWord s h) })
    else .next s
  | _, _ => .next s

end Sys2Proof.Machine
end

