-- ==== Sys2Proof/Machine/Copy.lean ====
section
/-! DEFINITION. Copies (R160 to R162, R237 to R247): the command block and its checks, the engine's movement of
payload, signals and credits, and the completion of a copy. -/

namespace Sys2Proof.Machine

/-! ### Command blocks -/

/-- Fields of a command block (R237, R238, R241). -/
structure CopyCmd where
  dst : W64
  src : W64
  ctl : W64
  sigVal : W64
  s4 : W64
  sstride : W64
  dstride : W64
  layout : W64
  form : Nat
deriving DecidableEq, Repr

namespace CopyCmd

def len (k : CopyCmd) : Nat := field k.ctl 0 32
def dstash (k : CopyCmd) : Bool := k.ctl.getLsbD 32
def sstash (k : CopyCmd) : Bool := k.ctl.getLsbD 33
def comp (k : CopyCmd) : Nat := field k.ctl 34 2
def scope (k : CopyCmd) : Nat := field k.ctl 36 3
def wide (k : CopyCmd) : Bool := k.ctl.getLsbD 39
def sberth (k : CopyCmd) : Nat := field k.ctl 40 4
def soff (k : CopyCmd) : Nat := field k.ctl 44 16
def rop (k : CopyCmd) : Nat := field k.ctl 60 4
def rows (k : CopyCmd) : Nat := if k.form = 1 then k.s4.toNat else 1
def swz (k : CopyCmd) : Nat := if k.form = 1 then field k.layout 0 3 else 0
def mcast (k : CopyCmd) : Nat := if k.form = 1 then field k.layout 16 8 else 0
/-- Payload bytes (R245). -/
def total (k : CopyCmd) : Nat := k.len * k.rows
/-- Element size of CPYR (R242). -/
def esz (k : CopyCmd) : Nat := if k.wide then 8 else 4
/-- Swizzle span (R241). -/
def span (k : CopyCmd) : Nat := 2 ^ k.swz
def srcRow (k : CopyCmd) (r : Nat) : W64 := if k.form = 1 then k.src + BitVec.ofNat 64 r * k.sstride else k.src
def dstRow (k : CopyCmd) (r : Nat) : W64 := if k.form = 1 then k.dst + BitVec.ofNat 64 r * k.dstride else k.dst

end CopyCmd

/-- ATOMR operation of a ROP (R242). -/
def ropForm (rop : Nat) (wide : Bool) : Option AtForm :=
  match rop, wide with
  | 0, false => some (.f32 .add)
  | 1, false => some (.f32 .min)
  | 2, false => some (.f32 .max)
  | 3, false => some (.f32 .and)
  | 4, false => some (.f32 .or)
  | 5, false => some (.f32 .xor)
  | 8, false => some (.f32 .fadd)
  | 0, true => some (.f64 .add)
  | 1, true => some (.f64 .min)
  | 2, true => some (.f64 .max)
  | 3, true => some (.f64 .and)
  | 4, true => some (.f64 .or)
  | 5, true => some (.f64 .xor)
  | _, _ => none

/-- Berth and offset of a stash address word (R237). -/
def wordBerth (w : W64) : Nat := field w 48 4
def wordOff (w : W64) : Nat := field w 0 20
def wordBad (w : W64) : Bool := field w 52 12 != 0 || field w 20 28 != 0

namespace State

/-- The member of a group's train at a stage (R241). -/
def stageTeam (s : State) (g stage : Nat) : Option Nat :=
  let t := s.teamOf g
  (s.lch t.launch).teams.find? fun i =>
    let u := s.tm i
    u.x == t.x && u.y == t.y && u.z == t.z && u.stage == stage

/-- Teams that receive a stash payload: the issuing team, or those of MCAST. -/
def copyTeams (s : State) (g : Nat) (k : CopyCmd) : List Nat :=
  if k.dstash && k.mcast != 0 then
    (List.range 8).filterMap fun i => if k.mcast / 2 ^ i % 2 = 1 then s.stageTeam g i else none
  else [(s.grp g).team]

/-- A berth of a team as a copy of a group sees it (R247), and the stash offset from which BASE counts. -/
def copyBerth (s : State) (g t b : Nat) : Berth × Nat :=
  if t = (s.grp g).team then (s.berthOf g b, s.regionBase g) else ((s.tm t).berths[b]?.getD Berth.none, 0)

def copyLimit (s : State) (g t : Nat) : Nat :=
  if t = (s.grp g).team then s.berthLimit g else (s.descOf g).berths

/-- Stash address of n bytes at a signed offset of a berth, inside its window (R218). -/
def copyWindow (s : State) (g t b : Nat) (o : Int) (n : Nat) : Option Nat :=
  let x := s.copyBerth g t b
  if b < s.copyLimit g t ∧ 0 ≤ o ∧ o + n ≤ x.1.size then some (x.2 + x.1.base + o.toNat) else none

/-- Check 2 of R239: field values. -/
def copyBad (s : State) (g : Nat) (k : CopyCmd) : Bool :=
  let teams := s.copyTeams g k
  let bound := fun t b => decide (b < s.copyLimit g t) && (s.copyBerth g t b).1.bound
  k.scope == 0 || decide (5 < k.scope) || k.comp == 3 ||
  (k.sstash && (wordBad k.src || bound (s.grp g).team (wordBerth k.src))) ||
  (match k.form with
   | 2 =>
     k.dstash || k.comp == 2 || k.sberth != 0 || k.soff != 0 || k.dst.toNat % k.esz != 0 || k.len % k.esz != 0 ||
       (ropForm k.rop k.wide).isNone || (k.comp == 1 && k.s4.toNat % 8 != 0)
   | _ =>
     k.rop != 0 || k.wide || (k.comp == 2 && decide (8 ≤ k.sberth)) ||
       (k.dstash && (wordBad k.dst || teams.any fun t => bound t (wordBerth k.dst))) ||
       (k.comp == 1 && teams.any fun t =>
         bound t k.sberth || (decide (k.sberth < s.copyLimit g t) && decide (0 < (s.copyBerth g t k.sberth).1.size) &&
           (s.copyWindow g t k.sberth (k.soff * 8) 8).isNone))) ||
  (k.form == 1 &&
    (k.s4.toNat == 0 || decide (2 ^ 32 ≤ k.s4.toNat) || decide (2 ^ 32 ≤ k.total) || field k.layout 24 40 != 0 ||
      field k.layout 3 13 != 0 || decide (4 < k.swz) ||
      (k.swz != 0 && (!k.dstash || wordOff k.dst % 16 != 0 || k.len % (16 * k.span) != 0)) ||
      (k.mcast != 0 && !k.dstash) || decide (2 ^ (s.descOf g).nstage ≤ k.mcast)))

/-- Offset in the berth of row r of a stash side. -/
def rowOff (w stride : W64) (form r : Nat) : Int := wordOff w + (if form = 1 then r * stride.toInt else 0)

/-- Rows of a stash side as stash addresses, or the first offset outside the window (R239 step 3). DESIGN CHOICE (log 69): a copy
of LEN 0 has no rows, and no window or configuration to check (R247). -/
def stashRows (s : State) (g t : Nat) (w stride : W64) (k : CopyCmd) : Except TrapInfo (List Nat) :=
  if k.len = 0 then .ok []
  else
    let os := (List.range k.rows).map fun r => rowOff w stride k.form r
    match os.find? fun o => (s.copyWindow g t (wordBerth w) o k.len).isNone with
    | some o => .error (.berth (wordBerth w) (BitVec.ofInt 64 o))
    | none => .ok (os.map fun o => (s.copyWindow g t (wordBerth w) o k.len).getD 0)

/-- Runs of a stash destination: rows, their 16-byte chunks swizzled (R241). -/
def swizzle (k : CopyCmd) (rows : List Nat) : List (Nat × Nat) :=
  if k.swz = 0 then rows.map fun a => (a, k.len)
  else
    rows.zipIdx.flatMap fun x => (List.range (k.len / 16)).map fun j => (x.1 + 16 * (j ^^^ (x.2 % k.span)), 16)

/-- Keys of a global range, page by page (R239 step 4). -/
def globalRuns (s : State) (g : Nat) (need : Need) : Nat → W64 → Nat → Except Stop (List (Nat × Nat)) × State
  | 0, _, _ => (.ok [], s)
  | fuel + 1, va, n =>
    if n = 0 then (.ok [], s)
    else
      match s.translate (s.coreOf g) (s.asid g va) need va with
      | (.page, s1) => (.error (.page va), s1)
      | (.perm, s1) => (.error (.trap (.at_ .permission va)), s1)
      | (.ok key pg, s1) =>
        let m := min n (pg.va + pg.size - va.toNat)
        match s1.globalRuns g need fuel (va + BitVec.ofNat 64 m) (n - m) with
        | (.error e, s2) => (.error e, s2)
        | (.ok rs, s2) => (.ok ((key, m) :: rs), s2)

/-- Keys of every row of a global side. -/
def globalRows (s : State) (g : Nat) (need : Need) (n : Nat) : List W64 → Except Stop (List (Nat × Nat)) × State
  | [] => (.ok [], s)
  | va :: vas =>
    match s.globalRuns g need (n / 4096 + 2) va n with
    | (.error e, s1) => (.error e, s1)
    | (.ok rs, s1) =>
      match s1.globalRows g need n vas with
      | (.error e, s2) => (.error e, s2)
      | (.ok rs', s2) => (.ok (rs ++ rs'), s2)

/-- One side of a copy: its runs (R239 steps 3 and 4). -/
def globalSide (s : State) (g : Nat) (need : Need) (k : CopyCmd) (row : Nat → W64) :
    Except Stop (List (Nat × Nat)) × State :=
  if k.len = 0 then (.ok [], s) else s.globalRows g need k.len ((List.range k.rows).map row)

end State

/-- The command block in the registers, and whether one that is read is poisoned. -/
def copyCmd (r : Regs) (n form : Nat) : CopyCmd × Bool :=
  let used := if form = 0 then 4 else 8
  ({ dst := r.sv n, src := r.sv (n + 1), ctl := r.sv (n + 2), sigVal := r.sv (n + 3), s4 := r.sv (n + 4)
     sstride := r.sv (n + 5), dstride := r.sv (n + 6), layout := r.sv (n + 7), form := form },
   (List.range used).any fun i => r.spo (n + i))

/-- Issue of CPY (form 0), CPY2 (1) and CPYR (2): the checks of R239 in order, then the command goes to the
engine (R160, R236, R323). DESIGN CHOICE (log 69): within checks 3 and 4 the destination comes first, then the source, then the
signal. -/
def copyEff (form : Nat) : Eff := fun c s =>
  let y := copyCmd (s.regsOf c.g) (opReg c.e.d) form
  let k := y.1
  let x := s.grp c.g
  let tid := x.team
  if decide (Config.copySlots ≤ (s.cor (s.coreOf c.g)).copies.length) then .error .hold
  else if y.2 then .error (.trap (.poisonOf [(1, true)]))
  else if s.depthOf c.g ≠ 0 ∧ (k.mcast ≠ 0 ∨ k.comp = 2) then .error (.trap (.of .permission))
  else if s.copyBad c.g k then .error (.trap (.of .layout))
  else
    let teams := s.copyTeams c.g k
    let dstRows : Except TrapInfo (List (Option Nat × List (Nat × Nat))) :=
      if k.dstash then teams.mapM fun t =>
        match s.stashRows c.g t k.dst k.dstride k with
        | .error e => .error e
        | .ok as => .ok (some t, State.swizzle k as)
      else .ok []
    let srcRows : Except TrapInfo (List (Nat × Nat)) :=
      if k.sstash then
        match s.stashRows c.g tid k.src k.sstride k with
        | .error e => .error e
        | .ok as => .ok (as.map fun a => (a, k.len))
      else .ok []
    let sigs := if k.comp = 1 ∧ form ≠ 2 then teams.map fun t => (t, s.copyWindow c.g t k.sberth (k.soff * 8) 8) else []
    match dstRows, srcRows, sigs.find? fun q => q.2.isNone with
    | .error e, _, _ => .error (.trap e)
    | _, .error e, _ => .error (.trap e)
    | _, _, some _ => .error (.trap (.berth k.sberth (BitVec.ofNat 64 (k.soff * 8))))
    | .ok ds, .ok ss, none =>
      let gd := if k.dstash then (.ok [], s) else s.globalSide c.g Need.store k k.dstRow
      match gd with
      | (.error e, _) => .error e
      | (.ok drs, s1) =>
        let gs := if k.sstash then (.ok [], s1) else s1.globalSide c.g Need.load k k.srcRow
        match gs with
        | (.error e, _) => .error e
        | (.ok srs, s2) =>
          if form = 2 ∧ (drs.any fun r => isHostKey r.1) = true then .error (.trap (.at_ .permission k.dst))
          else
            let sg := if form = 2 ∧ k.comp = 1 then s2.globalRuns c.g Need.store 2 k.s4 8 else (.ok [], s2)
            match sg with
            | (.error e, _) => .error e
            | (.ok sig, s3) =>
              let stashSide := fun (b : Bool) (w : W64) (ts : List Nat) => if b then ts.map fun t =>
                (t, if t = tid then s3.frameTag c.g else none, wordBerth w) else []
              let copy : Copy :=
                { id := s3.nextId, gid := c.g, reach := s3.reachId c.g, pc := c.pc, depth := s3.depthOf c.g
                  ctx := x.arch.ctx, cleared := false, hb := s3.clockOf c.g, seq := s3.nextSeq, form := form, scope := k.scope, comp := k.comp
                  src := if k.sstash then (some tid, ss) else (none, srs)
                  dsts := if k.dstash then ds else [(none, drs)]
                  windows := stashSide k.dstash k.dst teams ++ stashSide k.sstash k.src [tid]
                  sigWindows := sigs.map fun q => (q.1, if q.1 = tid then s3.frameTag c.g else none, k.sberth), sigUndef := false
                  payload := [], rop := (ropForm k.rop k.wide).getD (.f32 .add), elems := [], len := k.total
                  notify := if form = 2 then [] else
                    match k.comp with
                    | 0 => []
                    | 1 => sigs.map fun q => (q.1, q.2.getD 0)
                    | _ => teams.map fun t => (t, 0)
                  sigKey := (sig.head?).map (·.1), sigVal := k.sigVal, bar := k.sberth % 8
                  landed := false, applied := false, signalled := k.comp == 0, tokens := (k.total + 511) / 512, undef := false }
              let s4 : State := { s3 with nextId := s3.nextId + 1 }
              let s5 := s4.addEntry c.g (.copyDesc copy.id) []
              .ok ((s5.modC (s5.coreOf c.g) fun q => { q with copies := q.copies ++ [copy] }).modG c.g
                fun q => { q with ccpy := q.ccpy + 1 })

/-- CPY (R240). -/
def execCpy (e : Enc) (s : State) : Out := issue (.cpy e) e (copyEff 0) s

/-- CPY2 (R241). -/
def execCpy2 (e : Enc) (s : State) : Out := issue (.cpy2 e) e (copyEff 1) s

/-- CPYR (R242). -/
def execCpyr (e : Enc) (s : State) : Out := issue (.cpyr e) e (copyEff 2) s

/-! ### The engine -/

/-- Single addresses of runs. -/
def runBytes (rs : List (Nat × Nat)) : List Nat := rs.flatMap fun r => bytesAt r.2 r.1

namespace State

def copyOf (s : State) (core id : Nat) : Option Copy := (s.cor core).copies.find? fun c => c.id == id

def modCopy (s : State) (core id : Nat) (f : Copy → Copy) : State :=
  s.modC core fun k => { k with copies := k.copies.map fun c => if c.id = id then f c else c }

/-- A global source waits for the group's earlier pound entries to it to drain (R160). -/
def copyWaits (s : State) (core : Nat) (c : Copy) : Bool :=
  c.src.1.isNone && (s.cor core).pound.any fun e => e.gid == c.gid && decide (e.seq < c.seq) &&
    entryTouches (inRuns c.src.2) e

/-- Whether a copy moves bytes of a stash. -/
def stashCopy (c : Copy) : Bool := c.src.1.isSome || c.dsts.any fun d => d.1.isSome

/-- Whether a change of ratio in its cluster stops a copy's transfer (R20). -/
def halts (s : State) (core : Nat) (c : Copy) : Bool := (s.clu (core / 8)).changing && stashCopy c

/-- Whether the engine can read a copy's source: its tokens are paid, and a global source has drained, is past
every incomplete acquire, and lies dirty in no berth (R143, R155, R160). -/
def copyReadable (s : State) (core : Nat) (c : Copy) : Bool :=
  c.tokens == 0 && !s.halts core c && !s.copyWaits core c &&
  (c.src.1.isSome ||
    (!((s.grp c.gid).fences.any fun f => f.kind != .rel && decide (f.seq ≤ c.seq)) &&
     !((distinct ((runBytes c.src.2).map sectorOf)).any fun sec => s.readBlocked (some (s.grp c.gid).team) (.copy c.id) sec)))

/-- Source bytes with their poison. -/
def copySource (s : State) (core : Nat) (c : Copy) : List (Byte × Bool) :=
  (runBytes c.src.2).map fun a =>
    match c.src.1 with
    | some t => s.stashByte t a
    | none => s.teamByte (s.grp c.gid).team (core / 8) a

/-- Payload of a copy for one destination: bytes whose address is also a source byte, and every byte of a copy
whose window was reconfigured, are undefined (R227, R240). -/
def copyBytes (c : Copy) (n : Nat) (d : Option Nat × List (Nat × Nat)) (pl : List (Byte × Bool)) : List ByteWrite :=
  let src := c.src.2
  ((runBytes d.2).zip pl).zipIdx.map fun x =>
    let a := x.1.1
    if c.undef || (d.1 == c.src.1 && inRuns src a) then (a, Config.freeByte (n + x.2), x.1.2.2) else (a, x.1.2.1, x.1.2.2)

/-- Change a reach of a group. -/
def modReachId (s : State) (g rid : Nat) (f : Reach → Reach) : State :=
  s.modG g fun x => { x with reaches := x.reaches.map fun r => if r.id = rid then f r else r }

/-- Scope of a copy by its code (R238). -/
def copyScope (n : Nat) : Scope :=
  match n with
  | 0 => .grp
  | 1 => .team
  | 2 => .clu
  | 3 => .dev
  | 4 => .dom
  | _ => .sys

/-- A copy as a writer of stashes. -/
def copyWriter (c : Copy) : Writer := { src := .copy c.id, clk := c.hb }

/-- Whether the cluster of a core has stopped its stash transfers for a change of ratio (R20). -/
def stopped (s : State) (core : Nat) : Bool := (s.clu (core / 8)).changing

/-- 256-byte lines of runs of stash bytes. -/
def runLines (rs : List (Nat × Nat)) : List Nat :=
  distinct (rs.flatMap fun r => (List.range ((r.1 % 256 + r.2 + 255) / 256)).map fun i => r.1 / 256 + i)

/-- Packets that bring a copy's bytes from its core to the stashes of other teams: what goes to one line offset of several
cores is multicast (R23, R28). -/
def castLines (s : State) (core : Nat) (c : Copy) (ds : List (Nat × List (Nat × Nat))) : State :=
  (distinct (ds.flatMap fun d => runLines d.2)).foldl (fun s l =>
    let cores := (ds.filter fun d => (runLines d.2).contains l).map fun d => (s.tm d.1).core
    match cores with
    | [k] => s.sendStash c.ctx (some c.reach) (corePlace core) k (256 * l) 256
    | _ => s.multicast c.ctx (some c.reach) (corePlace core) cores (256 * l) 256) s

/-- Staged payload is applied at the other teams when the issuing reach has cleared (R161). -/
def applyStaged (s : State) (core : Nat) (c : Copy) : State :=
  let own := (s.grp c.gid).team
  let others := c.dsts.filterMap fun d => match d.1 with
    | some t => if t = own then none else some (t, d.2)
    | none => none
  let s1 := others.foldl (fun s d => s.stashPut d.1 (copyWriter c) none (copyBytes c s.freeCtr (some d.1, d.2) c.payload)) s
  let n := s.freeCtr + c.payload.length
  let s2 : State := { s1.castLines core c others with freeCtr := n }
  s2.modCopy core c.id fun x => { x with applied := true, payload := [] }

/-- Whether the staged payload of a copy is due at the other teams. -/
def applyDue (c : Copy) : Bool := c.landed && c.cleared && !c.applied && c.form != 2 && c.dsts.all fun d => d.1.isSome

/-- The entries of a CPYR's elements in the pound, one a sector (R323). -/
def addElements (s : State) (c : Copy) (elems : List (AtomAcc × Bool)) : State :=
  (distinct (elems.map fun a => sectorOf a.1.key)).foldl (fun s sec =>
    (s.addEntryFor c.gid c.reach (.elements c.id sec) []).modPound c.gid fun p => p.map fun e =>
      if e.seq = s.nextSeq then { e with ctx := c.ctx, cleared := c.cleared } else e) s

/-- Sectors of a global source are read through the cluster cache: what a berth holds is not read as it was, and a sector
that another context filled is shared (R143, R145). -/
def touchSource (s : State) (core : Nat) (c : Copy) : State :=
  if c.src.1.isSome then s
  else
    let secs := distinct ((runBytes c.src.2).map sectorOf)
    (secs.foldl (fun s sec => (if s.writeBlocked sec then s.dropClean (core / 8) sec else s).shareSector (core / 8) c.ctx sec) s).takeServed
      (.copy c.id) secs

/-- The payload lands (R160, R161): the source is read; the issuing team's stash is written, logged while the
reach is open; other stashes are staged; a global payload waits for its place in the pound; CPYR's elements
are made (R242). -/
def land (s : State) (core : Nat) (c : Copy) : State :=
  let own := (s.grp c.gid).team
  let need := if c.cleared then 0 else
    if c.form = 2 then (distinct ((runBytes ((c.dsts.map (·.2)).flatten)).map sectorOf)).length
    else s.undoNeed own c.reach ((c.dsts.filter fun d => d.1 == some own).flatMap (·.2))
  if c.landed || !s.copyReadable core c || !s.engineRoom core need then s
  else
    let s := s.touchSource core c
    let pl := s.copySource core c
    let n := s.freeCtr
    let log := if c.cleared then none else some (c.gid, c.reach)
    let s0 : State := { s with freeCtr := n + pl.length }
    let deps := match c.src.1 with
      | some t => if c.cleared then [] else s.stashWriters t (runBytes c.src.2)
      | none => if c.cleared then [] else s.stashWriters own (s.ownBytes own (runBytes c.src.2))
    let s1 := s0.modReachId c.gid c.reach fun r =>
      { r with lastTag := max r.lastTag s.clk, deps := r.deps ++ deps.filter fun d => d != r.id && !r.deps.contains d }
    let s2 := c.dsts.foldl (fun s d => if d.1 = some own then s.stashPut own (copyWriter c) log (copyBytes c n d pl) else s) s1
    let elems := if c.form = 2 then
        let esz := atBytes c.rop
        let ks := runBytes ((c.dsts.map (·.2)).flatten)
        (List.range (pl.length / esz)).map fun i =>
          let bs := (pl.drop (esz * i)).take esz
          (({ key := ks[esz * i]?.getD 0, form := c.rop, v := w64Of (bs.map (·.1)) } : AtomAcc), bs.any (·.2))
      else []
    let c' : Copy := { c with landed := true, payload := if c.form = 2 then [] else pl, elems := elems
                              applied := c.len == 0 || c.dsts.all fun d => d.1 == some own }
    (s2.addElements c elems).modCopy core c.id fun _ => c'

/-- The payload lands if it has not, and goes on to the other teams' stashes where that is due. -/
def progress (s : State) (core : Nat) (c : Copy) : State :=
  let s1 := s.land core c
  match s1.copyOf core c.id with
  | some c1 => if applyDue c1 && !s1.stopped core then s1.applyStaged core c1 else s1
  | none => s1

/-- Keys of a copy's global destination. -/
def copyKeys (c : Copy) : List (Nat × Nat) := (c.dsts.filter fun d => d.1.isNone).flatMap (·.2)

/-- Write back from the cluster what a scope beyond it needs of a copy's payload and of the group's earlier
writes (R145, R162), and whether it is all visible there. -/
def copyRelease (s : State) (core : Nat) (c : Copy) : State × Bool :=
  if c.scope < 3 then (s, true)
  else
    let cl := core / 8
    let sel := fun x => belongs x c.ctx || s.ofGroup c.gid x
    let s1 := s.writeBack cl sel fun _ => true
    (s1, !s1.anyDirty cl sel fun _ => true)

/-- Whether a copy's payload is visible at its destinations in the cluster: written, and its elements performed. -/
def copyVisible (c : Copy) : Bool := c.landed && c.elems.isEmpty && (c.applied || (c.form == 2 && c.cleared))

/-- Write the signal word, an undefined one where its window was reconfigured (R227), or credit the barrier, of one team (R162,
R233); it wakes the team's sleepers (R295). What it tells
of happens-before the observer, but for another team at TEAM scope (R148, R246). -/
def notifyOne (s : State) (core : Nat) (c : Copy) (q : Nat × Nat) : State :=
  let own := (s.grp c.gid).team
  let log := if q.1 = own ∧ c.cleared = false then some (c.gid, c.reach) else none
  let clk : Clock := if q.1 = own ∨ 2 ≤ c.scope then c.hb.add (.copy c.id, 0) else []
  let scope := if q.1 = own then 1 else c.scope
  let s0 := if q.1 = own then s else s.sendStash c.ctx (some c.reach) (corePlace core) (s.tm q.1).core q.2 8
  let v := if c.sigUndef then Config.free64 s0.freeCtr else c.sigVal
  let s0 : State := if c.sigUndef then { s0 with freeCtr := s0.freeCtr + 1 } else s0
  let s1 :=
    if c.comp = 1 then
      (s0.stashPut q.1 (copyWriter c) log ((bytesAt 8 q.2).zip (bytesLE 8 v.toNat) |>.map fun x => (x.1, x.2, false))).modT q.1
        fun t => { t with sigs := t.sigs.filter (fun x => x.1 != q.2) ++ [(q.2, scope, clk)]
                          pubs := t.pubs ++ (bytesAt 8 q.2).map fun a => (a, { by_ := c.gid, scope := copyScope scope, clk := clk }) }
    else
      let n : W64 := BitVec.ofNat 64 c.len
      let s0 := s0.settleBar q.1 c.bar
      (s0.logBar log q.1 c.bar (.credit n)).modBar q.1 c.bar fun b =>
        { b with bytes := b.bytes + n, by_ := if log.isSome then b.by_ ++ [c.reach] else b.by_
                 clk := b.clk ++ [(c.reach, scope, clk)] }
  s1.wake q.1

/-- Perform one atomic without a result at its point of coherence (R222): a poisoned target keeps its error and
makes an event record. It fires the watches of the groups that are not its own (R155). -/
def performOne (s : State) (own : Nat → Bool) (ctx : Nat) (a : AtomAcc) : State :=
  let n := atBytes a.form
  let ks := bytesAt n a.key
  let s1 := s.purge ks
  if ks.any fun k => s1.pocPoison k then (s1.fireWatch own ks).tellAt "ATOMR" 0 a.key
  else
    let new := (atApply a.form (w64Of (s1.mem.readBytes a.key n)) a.v).1
    s1.pocWrite own ctx ((ks.zip (bytesLE n new.toNat)).map fun x => (x.1, x.2, false))

/-- Signals that can be performed now (R148, R162): each covers the group's earlier writes, which have been released at the
copy's scope; one in the issuing team's own stash goes as soon as the payload has landed there, the others once the payload
is visible at the copy's scope. A CPYR's drains as an ATOMR, past every incomplete fence. DESIGN CHOICE (log 23): the order of the
two conditions of R162 for the own stash. -/
def signalNow (s : State) (core : Nat) (c : Copy) : State :=
  if c.signalled || !c.landed || (s.stopped core && !c.notify.isEmpty) || !s.drained c.gid c.seq || !s.engineRoom core c.notify.length then s
  else
    let own := (s.grp c.gid).team
    let early := c.dsts.any fun d => d.1 == some own
    let now := c.notify.filter fun q => q.1 == own && early
    let later := c.notify.filter fun q => !(q.1 == own && early)
    let r0 := if now.isEmpty then (s, true) else s.copyRelease core c
    if !r0.2 then r0.1
    else
    let s1 := now.foldl (fun s q => s.notifyOne core c q) r0.1
    if c.form ≠ 2 ∧ later = [] then s1.modCopy core c.id fun x => { x with notify := [], signalled := true }
    else
      let s2 := s1.modCopy core c.id fun x => { x with notify := later }
      let fenced := c.form == 2 && (s2.grp c.gid).fences.any fun f => decide (f.seq ≤ c.seq)
      if !(c.cleared && copyVisible c) || fenced then s2
      else
        let r := s2.copyRelease core c
        if !r.2 then r.1
        else if c.form = 2 then
          match c.sigKey with
          | some k =>
            if r.1.writeBlocked (sectorOf k) then r.1
            else ((r.1.performOne (fun _ => false) c.ctx { key := k, form := .f64 .add, v := c.sigVal }).publish (bytesAt 8 k) true
              [{ by_ := c.gid, scope := copyScope c.scope, clk := c.hb.add (.copy c.id, 0) }]).modCopy core c.id
              fun x => { x with signalled := true }
          | none => r.1
        else (later.foldl (fun s q => s.notifyOne core c q) r.1).modCopy core c.id
          fun x => { x with notify := [], signalled := true }

/-- A copy leaves the engine: its slot, its descriptor and its elements' entries are free and ccpy counts down, in the image of a team that is out (R236, R243). -/
def endCopy (s : State) (core : Nat) (c : Copy) : State :=
  let x := s.grp c.gid
  let s1 := (s.modC core fun k =>
      { k with copies := k.copies.filter (fun x => x.id != c.id)
               pound := k.pound.filter fun e => match e.kind with
                 | .copyDesc i => i != c.id
                 | .elements i _ => i != c.id
                 | _ => true }).modG c.gid
    fun x => { x with ccpy := x.ccpy - 1, doneHb := x.doneHb.add (.copy c.id, 0) }
  if s.resident x.team then s1.tidyTeam x.team
  else s1.modT x.team fun t =>
    { t with image := { t.image with counters := t.image.counters.zipIdx.map fun n => if n.2 = x.gidx then (n.1.1, n.1.2 - 1) else n.1 } }

end State

/-- COPY_SIGNAL (R162): the payload lands if it has not, and the signals that are due are performed. -/
def execCopySignal (core copy : Nat) (s : State) : Out :=
  match s.copyOf core copy with
  | none => .next s
  | some c =>
    let s1 := s.progress core c
    match s1.copyOf core copy with
    | none => .next s1
    | some c1 => .next (s1.signalNow core c1)

/-- COPY_DONE (R243): every payload byte is visible at SCOPE and the signal has been performed. -/
def execCopyDone (core copy : Nat) (s : State) : Out :=
  match s.copyOf core copy with
  | none => .next s
  | some c =>
    let s1 := s.progress core c
    match s1.copyOf core copy with
    | none => .next s1
    | some c1 =>
      let ownOnly := c1.dsts.all fun d => d.1 == some (s1.grp c1.gid).team
      if c1.signalled && State.copyVisible c1 && (ownOnly || c1.cleared) then
        let r := if ownOnly then (s1, true) else s1.copyRelease core c1
        .next (if r.2 then r.1.endCopy core c1 else r.1)
      else .next s1

/-- CPYR_ELEMENT (R242): the link engine performs the copy's next element, after the group's earlier entries have
drained; an element whose source is poisoned is not performed. -/
def execCpyrElement (core copy : Nat) (s : State) : Out :=
  match s.copyOf core copy with
  | none => .next s
  | some c0 =>
    let s1 := s.land core c0
    match s1.copyOf core copy with
    | none => .next s1
    | some c =>
      match c.elems with
      | [] => .next s1
      | (a, po) :: rest =>
        let fenced := (s1.grp c.gid).fences.any fun f => decide (f.seq ≤ c.seq)
        if !c.cleared || fenced || !s1.drained c.gid c.seq || s1.writeBlocked (sectorOf a.key) then .next s1
        else
          let (n, s1) := if c.undef then s1.draw else (0, s1)
          let b := if c.undef then { a with v := Config.free64 n } else a
          let s2 := if po then s1.tellAt "CPYR" 0 a.key else s1.performOne (fun _ => false) c.ctx b
          let last := !rest.any fun x => sectorOf x.1.key == sectorOf a.key
          let s3 := s2.modC core fun k => { k with pound := k.pound.filter fun e => !(last && e.kind == .elements copy (sectorOf a.key)) }
          .next (s3.modCopy core copy fun x => { x with elems := rest, applied := rest.isEmpty })

end Sys2Proof.Machine
end

