-- ==== Sys2Proof/Machine/Gate.lean ====
section
/-! DEFINITION. Gate calls (R277 to R285): the gate table's checks, GCALL, GRET and the synthesised GRET. -/

namespace Sys2Proof.Machine

/-! ### The gate table (R277) -/

/-- Limits of an entry's fields, and VALID. -/
def gateValid (e : GateEntry) : Bool :=
  e.tdom.getLsbD 7 && !e.tdom.getLsbD 6 && e.scrub.extractLsb' 3 5 == 0 && e.resv17 == 0 && e.resvZero &&
    decide (e.nspass.toNat ≤ 16) && decide (e.nvpass.toNat ≤ 32) && decide (e.nsres.toNat ≤ 16) &&
    decide (e.nvres.toNat ≤ 32) && decide (e.nberth.toNat ≤ 16) && decide (e.allow.toNat ≤ 524288) &&
    decide (e.allow.toNat % 4096 = 0) && decide (e.entry.toNat % 4 = 0)

def gateDom (e : GateEntry) : Nat := e.tdom.toNat % 64
def gateKeepMode (e : GateEntry) : Bool := e.scrub.getLsbD 0
def gatePassPred (e : GateEntry) : Bool := e.scrub.getLsbD 1
def gateFlagsBack (e : GateEntry) : Bool := e.scrub.getLsbD 2

namespace State

def gateEntry (s : State) (part idx : Nat) : GateEntry :=
  (((s.prt part).gates.find? fun x => x.1 == idx).map (·.2)).getD GateEntry.zero

/-- The resident context of a domain in a partition; domain 0 is Thavin's in every one (R312), in the address space of the
firmware region, number 64. -/
def domainCtx (s : State) (part dom : Nat) : Option Nat :=
  if dom = 0 then some 64
  else (List.range s.ctxs.length).find? fun a => (s.cx a).resident && (s.cx a).part == part && (s.cx a).dom == dom

/-- The stash region that a frame of a group would have (R280): its first byte, or none where it does not fit. -/
def frameRegion (s : State) (g : Nat) (e : GateEntry) : Option Nat :=
  let n := ((s.grp g).gidx + 1) * e.allow.toNat
  if n ≤ (s.descOf g).stash then some ((s.descOf g).stash - n) else none

/-- The reason for which a GCALL is denied (R278 check 1). -/
def gateReason (s : State) (g : Nat) (e : GateEntry) : Option Nat :=
  if !gateValid e then some 1
  else if !e.callers.getLsbD (s.grp g).arch.dom then some 2
  else if 4 ≤ s.depthOf g then some 3
  else if (s.domainCtx (s.partOf g) (gateDom e)).isNone then some 4
  else
    match s.frameRegion g e with
    | none => some 5
    | some r =>
      if (List.range 16).any fun i =>
          let t := (s.teamOf g).berths[i]?.getD Berth.none
          t.size != 0 && overlaps r e.allow.toNat t.base t.size then some 5
      else if (s.descOf g).vregs < e.nvpass.toNat ∨ (s.descOf g).vregs < e.nvres.toNat then some 6
      else none

/-- Zero a stash region (R279, R284): bytes and poison, logged in a reach of the group where one is named, with one undo entry for
each sector that changes (R323). DEDUCED (log 10): where those are more than the pound has, the region has one entry, since its
wait for room would never end. -/
def zeroRegion (s : State) (g : Nat) (log : Option (Nat × Nat)) (r n : Nat) : State :=
  let tid := (s.grp g).team
  let t := s.tm tid
  let inside := fun (a : Nat) => decide (r ≤ a) && decide (a < r + n)
  let old := t.stash.filter fun (c : Host.Cell) => inside c.1
  let pois := t.stashPoison.filter inside
  let secs := distinct ((old.map fun c => sectorOf c.1) ++ pois.map sectorOf)
  let s1 : State := match log with
    | some (h, rid) =>
      if secs.length ≤ Config.poundEntries then
        secs.foldl (fun s sec => s.logSector h rid tid sec ((List.range 128).map (sec + ·))) s
      else (s.addEntryFor h rid (.undoRegion tid old pois) []).modT tid fun t =>
        { t with logged := t.logged ++ (secs.map fun x => (x, rid)).filter fun l => !t.logged.contains l }
    | none => s
  let s2 := s1.modT tid fun t =>
    { t with stash := t.stash.filter fun (c : Host.Cell) => !inside c.1, stashPoison := t.stashPoison.filter fun a => !inside a }
  (s2.raceMark tid (s.groupWriter g) [(r, n)]).noteWrite tid (.group g) (log.map (·.2)) [(r, n)]

/-- Registers that a callee starts with (R279). -/
def calleeRegs (r : Regs) (e : GateEntry) : Regs :=
  { Regs.entry with
    s := Vector.ofFn fun i => if i.val < e.nspass.toNat then r.s[i] else 0
    v := Vector.ofFn fun i => if i.val < e.nvpass.toNat then r.v[i] else Vector.replicate 32 0
    p := Vector.ofFn fun i => if gatePassPred e && decide (i.val < 14) then r.p[i] else 0
    mode := modeCallee (gateKeepMode e) r.mode }

end State

/-- GCALL (R278, R279). -/
def gcallEff : Eff := fun c s =>
  let x := s.grp c.g
  let r := x.arch.regs
  let idx := opReg c.e.d
  let e := s.gateEntry (s.partOf c.g) idx
  if !x.loads.isEmpty then .error .hold
  else
    match s.gateReason c.g e with
    | some n => .error (.trap (.at_ .gateDenied (BitVec.ofNat 64 n)))
    | none =>
      if ((List.range e.nspass.toNat).any fun i => r.spo i) ||
          ((List.range e.nvpass.toNat).any fun i => (r.vp[i]?.getD 0) &&& x.live != 0) then .error (.trap (.of .poison))
      else
        let b := (s.domainCtx (s.partOf c.g) (gateDom e)).getD 0
        let f : GateFrame := { saved := r, retPc := c.pc + 12, gate := idx, dom := x.arch.dom, ctx := x.arch.ctx, entry := e
                               inval := (s.cx x.arch.ctx).inval, copyMark := s.nextId }
        let s1 := s.zeroRegion c.g (some (c.g, s.reachId c.g)) ((s.frameRegion c.g e).getD 0) e.allow.toNat
        let a : Arch := { x.arch with pc := e.entry, regs := State.calleeRegs r e, frames := f :: x.arch.frames, dom := gateDom e
                                      ctx := b, emu := none }
        .ok ((s1.modG c.g fun y =>
          { y with arch := a, visited := if y.visited.contains b then y.visited else y.visited ++ [b] }).syncDue c.g 3)

/-- GCALL (R278). -/
def execGcall (e : Enc) (s : State) : Out := issue (.gcall e) e gcallEff s

/-! ### Returning (R284, R285) -/

/-- Copies of the frame are done, its bound berths are written back, and nothing is on its way into its
registers (R284). -/
def frameDrained (s : State) (g : Nat) : Bool :=
  let d := s.depthOf g
  !((s.cor (s.coreOf g)).copies.any fun c => c.gid == g && decide (d ≤ c.depth)) &&
  !((s.teamOf g).held.any fun h => h.frame == s.frameTag g && h.dirty != 0) &&
  !((s.grp g).wbsets.any fun b => b.held.any fun h => h.frame == s.frameTag g) &&
  (s.grp g).loads.isEmpty && (s.grp g).atom.isNone

/-- Translation registers that were out of use (R73). -/
def restoreX (x : Vector XReg 8) (stale : Bool) : Vector XReg 8 :=
  x.map fun y => { y with stale := y.stale || stale, perm := none }

/-- The status word of a synthesised GRET (R285). -/
def statusWord (gate depth cause cls : Nat) : W64 :=
  BitVec.ofNat 64 (gate % 256 * 2 ^ 32 + depth % 16 * 2 ^ 24 + (if [2, 3, 4, 7].contains cause then cls % 2 ^ 16 * 2 ^ 8 else 0) +
    cause % 256)

/-- The caller's registers after a return (R285): `status` is the status word of a synthesised GRET. -/
def returnRegs (f : GateFrame) (r : Regs) (status : Option W64) (stale : Bool) : Regs :=
  let e := f.entry
  let ok := status.isNone
  let sp := BitVec.ofNat 128 (bitsNat 128 fun i =>
    if i < e.nsres.toNat then ok && r.spo i else if i < e.nspass.toNat then false else
      if i = 0 ∧ ok = false then false else f.saved.spo i)
  { f.saved with
    s := Vector.ofFn fun i =>
      match status with
      | some w => if i.val = 0 then w else if i.val < e.nsres.toNat ∨ i.val < e.nspass.toNat then 0 else f.saved.s[i]
      | none => if i.val < e.nsres.toNat then r.s[i] else if i.val < e.nspass.toNat then 0 else f.saved.s[i]
    sp := sp
    v := Vector.ofFn fun i =>
      if i.val < e.nvres.toNat then (if ok then r.v[i] else Vector.replicate 32 0)
      else if i.val < e.nvpass.toNat then Vector.replicate 32 0 else f.saved.v[i]
    vp := Vector.ofFn fun i =>
      if i.val < e.nvres.toNat then (if ok then r.vp[i] else 0) else if i.val < e.nvpass.toNat then 0 else f.saved.vp[i]
    p := Vector.ofFn fun i =>
      if i.val = 14 then (if ok then 0xFFFFFFFF else 0) else if ok && gatePassPred e then r.p[i] else f.saved.p[i]
    mode := if ok && gateFlagsBack e then f.saved.mode ||| (r.mode &&& 0x1F00) else f.saved.mode
    eflag := if ok then f.saved.eflag &&& ~~~1 else f.saved.eflag ||| 1
    x := restoreX f.saved.x stale }

/-- Vector registers that a return from the innermost frame writes (R285). -/
def backRegs (s : State) (g : Nat) : List Nat :=
  match (s.grp g).arch.frames with
  | [] => []
  | f :: _ => List.range (max f.entry.nvres.toNat f.entry.nvpass.toNat)

/-- Leave the innermost gate frame (R284, R285); `log` names the reach that the writes belong to, with which the frame's image
is blanked (R80). -/
def State.leaveFrame (s : State) (g : Nat) (status : Option W64) (log : Option (Nat × Nat)) : State :=
  let x := s.grp g
  match x.arch.frames with
  | [] => s
  | f :: fs =>
    let s1 := s.zeroRegion g log (s.regionBase g) f.entry.allow.toNat
    let regs := returnRegs f x.arch.regs status ((s.cx f.ctx).inval != f.inval)
    let a : Arch := { x.arch with pc := f.retPc, regs := regs, frames := fs, dom := f.dom, ctx := f.ctx, emu := none }
    let tag := s.frameTag g
    let ended := (match s.curReach g with
      | none => s1.zeroBlock g (s.depthOf g)
      | some _ => s1).endLines g (s.depthOf g) ((s.curReach g).map fun r : Reach => r.id)
    let s2 := (ended.modG g fun y => { y with arch := a, frozen := false }).modT x.team fun t =>
      { t with held := t.held.filter (fun h => h.frame != tag), fills := t.fills.filter fun h => h.frame != tag }
    let s3 := ((s2.noteV g (backRegs s g)).syncDue g 3).reInval f.ctx
    if !fs.isEmpty && !s3.present f.ctx then s3.startSynth g 6 0 else s3

/-- GRET (R284). -/
def gretEff : Eff := fun c s =>
  if s.depthOf c.g = 0 then .error (.trap (.at_ .gateDenied 7))
  else if !frameDrained s c.g || !s.regsRoom c.g (backRegs s c.g) then .error .hold
  else .ok (s.leaveFrame c.g none (some (c.g, s.reachId c.g)))

/-- GRET (R284). -/
def execGret (e : Enc) (s : State) : Out := issue (.gret e) e gretEff s

/-- SYNTHESISED_GRET (R285): performed once the callee's reaches have cleared and the frame has drained. -/
def execSynthesisedGret (g : Nat) (s : State) : Out :=
  match (s.grp g).synth, (s.grp g).arch.frames with
  | some y, f :: _ =>
    if !(s.grp g).reaches.isEmpty || (s.grp g).st == .halt || !frameDrained s g || !s.regsRoom g (backRegs s g) then .next s
    else
      let d := s.depthOf g
      let s1 := (s.modG g fun x => { x with synth := none }).releasePermit g
      let s2 := (s1.leaveFrame g (some (statusWord f.gate d y.cause y.cls)) none).record (.synth g f.gate d y.cause)
      .next (if (s2.grp g).stepping then s2.requestHalt g else s2)
  | _, _ => .next s

end Sys2Proof.Machine
end

