-- ==== Sys2Proof/Machine/Image.lean ====
section
/-! DEFINITION. Group images and team images as bytes (R72 to R75, R217, R231, R272, R273, R286, R298), and the
writing of cleared lines to them (R70). -/

namespace Sys2Proof.Machine

/-! ### The group image (R72) -/

def gstateCode : GState → Nat
  | .run => 0
  | .wait => 1
  | .replay => 2
  | .halt => 3
  | .done => 4

/-- Class and operand of a wait (R51, R72). -/
def waitCode : WaitFor → Nat × Nat
  | .barrier n _ => (1, n)
  | .barrierPend n _ => (1, n)
  | .stashWord _ off _ => (2, off)
  | .counter c _ => (3, c)
  | .batch n => (4, n)
  | .batchSlot n => (5, n)
  | .sleep t => (6, t)
  | .sealing _ => (7, 0)
  | .xswap p => (8, p)

def zeros (n : Nat) : List Byte := List.replicate n 0

def xregBytes (x : XReg) : List Byte :=
  bytesLE 8 x.frame.toNat ++ bytesLE 8 x.limit.toNat ++ bytesLE 8 x.base.toNat ++
    bytesLE 8 ((if x.stale then 1 else 0) + 2 * x.psz.toNat)

/-- The trap frame, 0x00B4 to 0x00FF (R286). -/
def trapFrameBytes (f : TrapFrame) : List Byte :=
  bytesLE 4 (if f.inHandler then 1 else 0) ++ bytesLE 8 f.pc.toNat ++ f.s.toList.flatMap (fun v => bytesLE 8 v.toNat) ++
    bytesLE 4 f.sig.toNat ++ bytesLE 4 f.p14.toNat ++ bytesLE 1 f.sp.toNat ++ zeros 1 ++ bytesLE 2 f.unit.toNat ++ zeros 12

/-- A berth table entry (R217). -/
def berthBytes (b : Berth) : List Byte :=
  bytesLE 4 b.base ++ bytesLE 4 b.size ++ bytesLE 1 (if b.bound then 1 else 0) ++ zeros 7 ++ bytesLE 8 b.gva.toNat ++ zeros 8

/-- Start of the image region of a partition's domain (R72), aligned to 64 KiB. -/
def imageBase (part dom : Nat) : Nat := Config.imageRegion part dom % 2 ^ 30 * 2 ^ 16

/-- Address of a group image (R72): aligned to 4 KiB, in the image region of the partition and, for a gate frame, of the
callee's domain (R78). DESIGN CHOICE (log 42): images lie in the order of their groups and depths. -/
def imageAddress (part dom g depth : Nat) : Nat := imageBase part dom + 36864 * (5 * g + depth)

/-- A gate frame record (R298): the frame's image address, return PC, gate and the caller's domain; `dom` is the callee's. -/
def frameRecord (part dom g depth : Nat) (f : W64 × Nat × Nat) : List Byte :=
  bytesLE 8 (imageAddress part dom g depth) ++ bytesLE 8 f.1.toNat ++ bytesLE 1 f.2.1 ++ bytesLE 1 (f.2.2 % 64) ++ zeros 14

/-- The image of a gate depth of a group, 36,864 bytes: registers above the allocation read zero (R72). `doms` are the
domains of the open gate frames, outermost first. -/
def groupImageBytes (part : Nat) (doms : List Nat) (g vregs sregs : Nat) (i : GImage) (d : Nat) : List Byte :=
  let b := i.blocks[d]?.getD FrameBlock.zero
  let (r, pc) := (b.regs, b.pc)
  let n := i.frames.length
  let st := gstateCode i.st + (match i.held with
    | some h => 8 + 16 * gstateCode h
    | none => 0)
  let w := match i.wait with
    | some w => waitCode w.what
    | none => (0, 0)
  let rp := match i.replay with
    | some r => (State.classCode r.cls, r.va.toNat)
    | none => (0, 0)
  let vp := fun (k : Nat) => if k < vregs then r.vp[k]?.getD 0 else 0
  bytesLE 8 pc.toNat ++ bytesLE 4 r.mode.toNat ++ bytesLE 4 r.sig.toNat ++ bytesLE 4 st ++ bytesLE 4 i.live.toNat ++
    bytesLE 4 r.eflag.toNat ++ bytesLE 1 r.calls.length ++ bytesLE 1 (if d = 0 then n else d) ++ zeros 2 ++
    r.p.toList.flatMap (fun v => bytesLE 4 v.toNat) ++ zeros 4 ++
    bytesLE 16 (r.sp.toNat % 2 ^ sregs) ++ bytesLE 32 (bitsNat 256 fun k => vp k != 0) ++
    (bytesLE 8 w.1 ++ bytesLE 8 w.2) ++ (bytesLE 8 rp.1 ++ bytesLE 8 rp.2) ++ bytesLE 4 r.next.toNat ++ trapFrameBytes r.tf ++
    (List.range 128).flatMap (fun k => bytesLE 8 (if k < sregs then (r.s[k]?.getD 0).toNat else 0)) ++
    r.x.toList.flatMap xregBytes ++
    (List.range 256).flatMap (fun k => if k < vregs then (List.range 32).flatMap fun t => bytesLE 4 (r.vt k t).toNat else zeros 128) ++
    (List.range 256).flatMap (fun k => bytesLE 4 (vp k).toNat) ++
    (List.range 64).flatMap (fun k => bytesLE 8 ((r.calls.reverse[k]?).getD 0).toNat) ++
    (if d = 0 then zeros 512 else r.berths.toList.flatMap berthBytes) ++
    (if d = 0 then (List.range 4).flatMap fun k =>
        match i.frames[k]? with
        | some f => frameRecord part (doms[k]?.getD 0) g (k + 1) f
        | none => zeros 32
      else zeros 128) ++ zeros 384

/-! ### The team image (R74, R75) -/

def tstateCode : TState → Nat
  | .queued => 0
  | .resident => 1
  | .leavingSwap => 2
  | .leavingPreempt => 2
  | .swapped => 3
  | .preempted => 4
  | .finished => 5

/-- A barrier's 24 bytes (R231). -/
def barrierBytes (b : Barrier) : List Byte :=
  bytesLE 2 b.arrived.toNat ++ bytesLE 2 b.pend.toNat ++ bytesLE 4 b.phase.toNat ++ bytesLE 8 b.expected.toNat ++ bytesLE 8 b.bytes.toNat

/-- A resume record (R272). -/
def resumeBytes (r : Resume) : List Byte :=
  bytesLE 8 r.ctl.toNat ++ bytesLE 1 1 ++ bytesLE 1 r.gidx ++ bytesLE 1 r.acc ++ bytesLE 1 r.slot ++
    bytesLE 1 (r.batch.getD 0x10) ++ zeros 3 ++ bytesLE 4 r.next ++ zeros 4 ++ bytesLE 8 r.pc.toNat ++ zeros 32

/-- Pack element codes at a width: 4 bits with the even element low, 8 or 16 bits (R75). -/
def packElems (bits : Nat) : List Nat → List Byte
  | [] => []
  | [a] => bytesLE (if bits = 16 then 2 else 1) a
  | a :: b :: xs =>
    (if bits = 4 then bytesLE 1 (a % 16 + 16 * (b % 16)) else bytesLE (bits / 8) a ++ bytesLE (bits / 8) b) ++ packElems bits xs

/-- A list of bytes cut or padded with zeros to a length. -/
def fitBytes (n : Nat) (bs : List Byte) : List Byte := (bs ++ zeros (n - bs.length)).take n

/-- Bytes written over the start of an area of some length; the rest stays. -/
def overBytes (n : Nat) (old new : List Byte) : List Byte := fitBytes n (new ++ (fitBytes n old).drop new.length)

/-- A weight slot's 36 KiB area once the slot is saved (R75): bytes beyond the latched width stay as they were, and a slot
with no latched format writes nothing. -/
def slotArea (w : WSlot) (old : List Byte) : List Byte :=
  match w.fmt with
  | none => old
  | some f =>
    overBytes 0x8000 (old.take 0x8000) (packElems (fmtBits f) w.elems) ++
      overBytes 0x800 ((old.drop 0x8000).take 0x800) (w.scales.flatMap (bytesLE 1)) ++
      overBytes 0x800 (old.drop 0x8800) (w.bands.flatMap fun b => bytesLE 2 b.toNat)

/-- A slot record: latched format code, transpose bit and save width in bits (R74). DESIGN CHOICE (log 42): 0x80 + f in
byte 0, the transpose bit in byte 1 and the width in byte 2. -/
def slotRecord (w : WSlot) : List Byte :=
  match w.fmt with
  | none => zeros 32
  | some f => bytesLE 1 (128 + fmtCode f) ++ bytesLE 1 (if w.trans then 1 else 0) ++ bytesLE 1 (fmtBits f) ++ zeros 29

/-- Address of a team image (R74): aligned to 64 KiB in its partition's image region. DESIGN CHOICE (log 42): in the order
of the teams, past 2^40. -/
def teamImageAddress (part t : Nat) : Nat := imageBase part 0 + 2 ^ 40 + 0x100000 * t

namespace State

/-- A group's image at one gate depth, and at all that are open. -/
def groupImage (s : State) (g d : Nat) : List Byte :=
  let doms := ((s.img g).frames.map fun f => f.2.2).drop 1 ++ [(s.img g).dom]
  groupImageBytes (s.partOf g) doms g (s.descOf g).vregs (s.descOf g).sregs (s.img g) d

def groupImages (s : State) (g : Nat) : List Byte :=
  (List.range ((s.img g).frames.length + 1)).flatMap (s.groupImage g)

/-- A team header (R74): state, coordinate, stage, descriptor address and group image addresses. DESIGN CHOICE (log 42):
their places in its 256 bytes. -/
def teamHeader (s : State) (t : Nat) : List Byte :=
  let x := s.tm t
  let l := s.lch x.launch
  fitBytes 256 (bytesLE 1 (tstateCode x.image.st) ++ bytesLE 1 x.stage ++ zeros 2 ++ bytesLE 4 x.x ++ bytesLE 4 x.y ++
    bytesLE 4 x.z ++ bytesLE 8 l.addr.toNat ++ zeros 40 ++
    x.groups.flatMap fun g => bytesLE 8 (imageAddress l.part (s.cx l.ctx).dom g 0))

/-- A team's image as last written (R74, R75). -/
def teamImageBytes (s : State) (t : Nat) : List Byte :=
  let x := (s.tm t).image
  let d := (s.lch (s.tm t).launch).desc
  s.teamHeader t ++ x.berths.toList.flatMap berthBytes ++ fitBytes 0xC0 (x.bars.toList.flatMap barrierBytes) ++
    fitBytes 64 (x.counters.flatMap fun n => bytesLE 2 n.1 ++ bytesLE 2 n.2) ++
    fitBytes 512 (x.resume.flatMap resumeBytes) ++ fitBytes 256 (x.slots.toList.flatMap slotRecord) ++ zeros 2304 ++
    (List.range 8).flatMap (fun k => if k < d.accs then
        (List.range 4096).flatMap fun i => bytesLE 4 (Acc.get (x.accs[k]?.getD []) i).toNat else zeros 16384) ++
    (List.range 8).flatMap (fun k => fitBytes 36864 (x.areas[k]?.getD [])) ++ zeros 28672 ++ x.stash.readBytes 0 d.stash

/-- A team as it has cleared (R70): what its open reaches, and those of other groups, have done to its stash, berths,
barriers and accumulators is taken out. -/
def clearedTeam (s : State) (t : Nat) : Team :=
  let s1 := s.undoAll (s.cores.flatMap fun k => (k.pound.filter fun e => !e.cleared).reverse)
  (s1.restoreAccs ((s.tm t).groups.flatMap fun g => (s.grp g).reaches.map (·.id)) t).tm t

/-- A group's cst and ccpy without what its open reaches have issued (R70, R74). -/
def clearedCounts (s : State) (g : Nat) : Nat × Nat :=
  let x := s.grp g
  let ops := distinct (((s.poundOf g).filter fun e => e.gid == g && !e.cleared).flatMap (·.ops))
  (x.cst - ops.length - (x.wbsets.filter fun b => !b.cleared).length,
    x.ccpy - ((s.cor (s.coreOf g)).copies.filter fun c => c.gid == g && !c.cleared).length)

/-- Whether an open reach has loaded a weight slot or latched a format into it. -/
def slotOpen (s : State) (t : Nat) (i : Nat) (w : WSlot) : Bool :=
  let open_ := (s.tm t).groups.flatMap fun g => (s.grp g).reaches.map (·.id)
  (w.by_.map open_.contains) == some true || (s.cor (s.tm t).core).ops.any fun o => o.team == t && open_.contains o.instrReach &&
    match o.kind with
    | .mldw k _ _ _ _ => k == i
    | _ => false

/-- A team's image is written with its cleared state (R53, R70, R74, R75). A slot that an open reach loaded is not. -/
def writeTeamImage (s : State) (t : Nat) : State :=
  let x := s.tm t
  let y := s.clearedTeam t
  s.modT t fun z => { z with image := {
    st := x.st, berths := y.berths, bars := y.bars, counters := x.groups.map s.clearedCounts
    resume := x.resume, accs := y.accs, stash := y.stash
    slots := Vector.ofFn fun i => if s.slotOpen t i x.slots[i] then x.image.slots[i] else x.slots[i]
    areas := Vector.ofFn fun i => if s.slotOpen t i x.slots[i] then x.image.areas[i] else slotArea x.slots[i] x.image.areas[i] } }

end State

end Sys2Proof.Machine
end

