-- ==== Sys2Proof/Machine/Matrix.lean ====
section
/-! DEFINITION. The matrix instructions (R249 to R269) and the steps of the sequencer and the macros (R252, R261,
R262, R275). -/

namespace Sys2Proof.Machine

/-! ### Acceptance -/

/-- A matrix form inside a gate frame (R281). -/
def matrixEff (f : Eff) : Eff := fun c s =>
  if s.depthOf c.g ≠ 0 then .error (.trap (.of .permission)) else f c s

/-- A per-thread form with an empty effective mask takes no fault and does nothing (R107). -/
def maskedEff (f : Eff) : Eff := fun c s => if c.mask = 0 then .ok s else f c s

/-- The sequencer's limits (R254): 32 incomplete operations, 8 of them MLOOPs. -/
def seqFull (s : State) (core : Nat) (loop : Bool) : Bool :=
  let ops := (s.cor core).ops.filter fun o => !o.complete
  decide (32 ≤ ops.length) || (loop && decide (8 ≤ (ops.filter fun o => match o.kind with
    | .mloop _ _ _ _ => true
    | _ => false).length))

/-- A sequencer operation that exceeds a limit is not ready (R254). -/
def seqEff (loop : Bool) (f : Eff) : Eff := matrixEff fun c s =>
  if seqFull s (s.coreOf c.g) loop then .error .hold else f c s

/-- The sequencer accepts an operation, which joins the open set and counts on ctile (R252, R254, R256). Panel bytes written
without an order before the group's last MRDY are undefined for it (R163, R263). -/
def State.accept (s : State) (c : Cx) (k : SeqKind) (tag : Option Nat) (berth : Option Nat) : State :=
  let tid := (s.grp c.g).team
  let o : SeqOp := { id := s.nextId, gid := c.g, team := tid, pc := c.pc, kind := k, instrReach := s.reachId c.g, tag := tag
                     next := 0, entered := 0, steps := [], enteredBy := [], moving := false, complete := false
                     berth := berth, undef := false }
  let n := match k with
    | .mloop _ _ _ _ => 0
    | _ => 1
  let late := (s.tm tid).wrote.filter fun w => !(s.grp c.g).arch.rdy.covers w.src w.stamp
  let s1 := s.modC (s.coreOf c.g) fun q => { q with ops := q.ops ++ [o] }
  let wins := fun (x : OpRec) => match k, x.kind with
    | .mldw w _ _ _ _, .mldw v _ _ _ _ => w == v
    | .mldw _ _ _ _ _, _ => false
    | _, y => match kindTarget k with
      | some a => kindWrites y a
      | none => false
  let s2 := s1.modT tid fun t =>
    { t with undone := t.undone.map (fun x => if wins x then { x with past := true } else x) ++
                                   [{ id := o.id, gid := c.g, kind := k, whole := false, berth := berth, mwra := false, past := false
                                      dirty := late.flatMap fun w => within (kindReads k) w.base w.len }] }
  let s3 := (s2.modR c.g fun r => { r with openSet := r.openSet ++ [o.id] }).modG c.g fun x => { x with ctile := x.ctile + n }
  { s3 with nextId := s3.nextId + 1 }

/-- The checks of R257 on a stash range: poison, layout, window; the address of its first byte. -/
def panelAt (s : State) (c : Cx) (b : Nat) (pos : Nat) (o : Operand) (n : Nat) : Except Stop Nat :=
  let off := readOff (s.regsOf c.g) o 0
  if off.2 then .error (.trap (.poisonOf [(pos, true)]))
  else if off.1.toNat % 128 ≠ 0 ∨ (s.berthOf c.g b).bound = true then .error (.trap (.of .layout))
  else
    match s.window c.g b off.1 n with
    | some a => .ok a
    | none => .error (.trap (.berth b off.1))

/-- A slot of a team, and a change of one. -/
def State.slot (s : State) (tid w : Nat) : WSlot := (s.tm tid).slots[w]?.getD WSlot.empty

def State.modSlot (s : State) (tid w : Nat) (f : WSlot → WSlot) : State :=
  s.modT tid fun t => { t with slots := t.slots.setIfInBounds w (f (t.slots[w]?.getD WSlot.empty)) }

/-- Whether an operation is an incomplete MLDW of a team to a slot. -/
def loadsSlot (tid w : Nat) (o : SeqOp) : Bool :=
  match o.kind with
  | .mldw x _ _ _ _ => o.team == tid && x == w && !o.complete
  | _ => false

/-- MLDW (R257): it latches the format and marks the slot loading; its transfer is tagged with the reach that its
seal opened (R253). -/
def mldwEff (f : Fmt) (tr : Bool) : Eff := seqEff false fun c s =>
  let w := opReg c.e.d
  let b := opReg c.e.a
  match panelAt s c b 3 c.e.b (weightBytes f) with
  | .error e => .error e
  | .ok a =>
    let tid := (s.grp c.g).team
    let again := (s.slot tid w).redo.contains (c.g, c.pc)
    let first := if (s.slot tid w).loading = true then (s.slot tid w).loadId else s.nextId
    .ok ((s.modSlot tid w fun x => { x with fmt := some f, trans := tr, loading := true, loadId := first, redo := x.redo.erase (c.g, c.pc) }).accept c
      (.mldw w f tr a again) (some (s.reachId c.g)) (some b))

/-- MLDW (R257). -/
def execMldw (f : Fmt) (t : Bool) (e : Enc) (s : State) : Out := issue (.mldw f t e) e (mldwEff f t) s

/-- MLOOP (R258, R259): the checks in order, then the operation joins the sequencer. -/
def mloopEff : Eff := seqEff true fun c s =>
  let a := opReg c.e.d
  let w := opReg c.e.a
  let sc := sArg s c c.e.b
  let k := sc.1
  let b := ctlBerth k
  let tid := (s.grp c.g).team
  if sc.2 then .error (.trap (.poisonOf [(3, true)]))
  else
    match ctlFmt k with
    | none => .error (.trap (.of .layout))
    | some f =>
      let slots := (List.range (min 8 (ctlSteps k))).map (ctlSlot k w)
      if ctlField k 60 4 ≠ 0 ∨ ctlField k 48 2 ≠ 0 ∨ ctlSteps k = 0 ∨ (s.berthOf c.g b).bound = true then
        .error (.trap (.of .layout))
      else if slots.any fun x => decide ((s.descOf c.g).tiles ≤ x) then .error (.trap (.operandN 3))
      else if slots.any fun x => (s.slot tid x).fmt.isNone then .error (.trap (.of .layout))
      else
        match (List.range (ctlSteps k)).find? fun i => (s.window c.g b (BitVec.ofInt 64 (ctlPanel k i)) (actBytes f)).isNone with
        | some i => .error (.trap (.berth b (BitVec.ofInt 64 (ctlPanel k i))))
        | none => .ok (s.accept c (.mloop a k w (s.regionBase c.g + (s.berthOf c.g b).base)) none (some b))

/-- MLOOP (R258). -/
def execMloop (e : Enc) (s : State) : Out := issue (.mloop e) e mloopEff s

/-- MRDY (R263): the writes that happen-before it are in the stash already; the operations that the group issues from here on
see them. -/
def mrdyEff : Eff := matrixEff fun c s =>
  .ok (s.modG c.g fun x => { x with arch := { x.arch with rdy := s.clockOf c.g } })

/-- MRDY (R263). -/
def execMrdy (e : Enc) (s : State) : Out := issue (.mrdy e) e mrdyEff s

/-- MBATCH (R256). -/
def mbatchEff : Eff := matrixEff fun c s =>
  let r := s.regsOf c.g
  let n := r.next.toNat
  if !s.batchDone c.g n then .error (.await (.batchSlot n))
  else
    let s1 := s.modG c.g fun x => { x with batches := x.batches.setIfInBounds n r.openSet }
    let s2 := s1.modR c.g fun r => { r with next := r.next + 1, openSet := [] }
    .ok (s2.putS c.g (opReg c.e.d) (BitVec.ofNat 64 n) false)

/-- MBATCH (R256). -/
def execMbatch (e : Enc) (s : State) : Out := issue (.mbatch e) e mbatchEff s

/-- The low bits of a scalar or immediate operand. -/
def lowArg (s : State) (c : Cx) (o : Operand) (n : Nat) : Nat × Bool :=
  match o with
  | .imm v => (v.toNat, false)
  | o => let x := sArg s c o; (x.1.toNat % 2 ^ n, x.2)

/-- MWAIT (R256). -/
def mwaitEff : Eff := matrixEff fun c s =>
  let n := lowArg s c c.e.d 4
  if n.2 then .error (.trap (.poisonOf [(1, true)]))
  else if s.batchDone c.g n.1 then .ok (s.finishBatch c.g n.1)
  else .ok (s.enterWait c.g (.batch n.1))

/-- MWAIT (R256). -/
def execMwait (e : Enc) (s : State) : Out := issue (.mwait e) e mwaitEff s

/-- MZERO (R264). -/
def mzeroEff : Eff := seqEff false fun c s =>
  .ok ((s.accept c (.mzero (opReg c.e.d)) none none).settle (s.coreOf c.g))

/-- MZERO (R264). -/
def execMzero (e : Enc) (s : State) : Out := issue (.mzero e) e mzeroEff s

/-- MSTA (R265, R266): its rounding mode is read at issue. -/
def mstaEff (f : MstaFmt) : Eff := seqEff false fun c s =>
  let b := opReg c.e.d
  let m := (s.regsOf c.g).mode
  match panelAt s c b 2 c.e.a (mstaBytes f) with
  | .error e => .error e
  | .ok at_ => .ok (s.accept c (.msta (opReg c.e.b) f (if c.e.rnd = 0 then modeRm m else c.e.rnd) at_) none (some b))

/-- MSTA (R265). -/
def execMsta (f : MstaFmt) (e : Enc) (s : State) : Out := issue (.msta f e) e (mstaEff f) s

/-- MLDA (R264, R266). -/
def mldaEff : Eff := seqEff false fun c s =>
  let b := opReg c.e.a
  match panelAt s c b 3 c.e.b 16384 with
  | .error e => .error e
  | .ok at_ => .ok (s.accept c (.mlda (opReg c.e.d) at_) none (some b))

/-- MLDA (R264). -/
def execMlda (e : Enc) (s : State) : Out := issue (.mlda e) e mldaEff s

/-! ### Accumulator segments (R267) -/

/-- Element of thread t of segment q. -/
def segIndex (q t : Nat) : Nat := q / 4 * 128 + 32 * (q % 4) + t

/-- MRDA (R267, R270): undefined values where an operation that writes the accumulator is unfinished. -/
def mrdaEff : Eff := maskedEff <| matrixEff fun c s =>
  let k := opReg c.e.a
  let q := lowArg s c c.e.b 7
  let tid := (s.grp c.g).team
  if q.2 then .error (.trap (.poisonOf [(3, true)]))
  else
    let s1 := s.addDeps c.g (s.accWriter tid k)
    if s.unfinished c.g fun o => kindWrites o k then
      let (n, s2) := s1.drawMany
      .ok (s2.putV c.g (opReg c.e.d) c.mask fun t => (Config.free32 (n + t), false))
    else .ok (s1.putV c.g (opReg c.e.d) c.mask fun t => (Acc.get (s.acc tid k) (segIndex q.1 t), false))

/-- MRDA (R267). -/
def execMrda (e : Enc) (s : State) : Out := issue (.mrda e) e mrdaEff s

/-- MWRA (R267, R68, R270). -/
def mwraEff : Eff := maskedEff <| matrixEff fun c s =>
  let k := opReg c.e.d
  let q := lowArg s c c.e.b 7
  let tid := (s.grp c.g).team
  let r := s.regsOf c.g
  let core := s.coreOf c.g
  if q.2 || (threadsOf c.mask).any fun t => (read32 r .i32 c.e.a t).2 then
    .error (.trap (.poisonOf [(2, (threadsOf c.mask).any fun t => (read32 r .i32 c.e.a t).2), (3, q.2)]))
  else if !s.accReady core c.g (s.reachId c.g) k then .error .hold
  else
    let s1 := s.addDeps c.g (s.accWriter tid k)
    if s.unfinished c.g fun o => kindTouches o k then
      let (n, s2) := s1.drawMany
      .ok ((s2.putAcc core c.g (s.reachId c.g) k (State.freeAcc n)).modT tid fun t =>
        { t with undone := t.undone.map fun o => if kindTouches o.kind k then { o with mwra := true } else o })
    else
      let old := s.acc tid k
      .ok ((s1.putAcc core c.g (s.reachId c.g) k (Acc.make fun i =>
        let t := i % 32
        if i = segIndex q.1 t ∧ c.mask.getLsbD t = true then (read32 r .i32 c.e.a t).1 else Acc.get old i)).modT tid fun t =>
        { t with undone := t.undone.map fun o => if kindWrites o.kind k then { o with past := true } else o })

/-- MWRA (R267). -/
def execMwra (e : Enc) (s : State) : Out := issue (.mwra e) e mwraEff s

/-- A slot's state as MFMT reads it (R269). -/
def slotWord (w : WSlot) : Nat :=
  match w.fmt with
  | none => 0
  | some f => 128 + (if w.loading then 64 else 0) + (if w.trans then 32 else 0) + fmtCode f

/-- MFMT (R269). -/
def execMfmt (e : Enc) (s : State) : Out :=
  issue (.mfmt e) e (matrixEff fun c s =>
    .ok (s.putS c.g (opReg c.e.d) (BitVec.ofNat 64 (slotWord (s.slot (s.grp c.g).team (opReg c.e.a)))) false)) s

/-! ### Stash movement (R275) -/

/-- Whether an operation moves stash data. -/
def movesData (o : SeqOp) : Bool :=
  match o.kind with
  | .mldw _ _ _ _ _ => true
  | .msta _ _ _ _ => true
  | .mlda _ _ => true
  | _ => false

/-- Whether an MLOOP still has steps to run on a slot: started ones, and unstarted ones where `all`. -/
def usesSlot (tid w : Nat) (all : Bool) (o : SeqOp) : Bool :=
  match o.kind with
  | .mloop _ c w0 _ =>
    o.team == tid && !o.complete && ((o.steps.any fun m => m.slot == w) ||
      (all && (List.range (min 8 (ctlSteps c - o.next))).any fun i => ctlSlot c w0 (o.next + i) == w))
  | _ => false

/-- Place of an operation in the order of acceptance: a load that a squash interrupted has the place of the MLDW that left
its slot loading (R257). -/
def moveTurn (s : State) (o : SeqOp) : Nat :=
  match o.kind with
  | .mldw w _ _ _ true => (s.slot o.team w).loadId
  | _ => o.id

/-- The next operation to move data: the first accepted (R275). -/
def nextMove (s : State) (ops : List SeqOp) : Option SeqOp :=
  (ops.filter fun o => movesData o && !o.complete).foldl (fun (b : Option SeqOp) o =>
    match b with
    | none => some o
    | some p => if moveTurn s o < moveTurn s p then some o else some p) none

/-- Whether the interlocks of R252 let an operation start to move data. -/
def moveReady (s : State) (core : Nat) (o : SeqOp) : Bool :=
  match o.kind with
  | .mldw w _ _ _ again =>
    !(s.opsBefore core o.id).any fun x => usesSlot o.team w (!again || decide (x.id < (s.slot o.team w).loadId)) x
  | .msta a _ _ _ => s.accOrder core o.id o.team a
  | .mlda a _ => s.accOrder core o.id o.team a && s.accReady core o.gid (s.liveTag o.gid).1 a
  | _ => false

/-- SEQUENCER_TRANSFER_START (R275): the operation is tagged, and an MSTA depends on the accumulator's writer (R253). -/
def execSequencerTransferStart (core : Nat) (s : State) : Out :=
  match nextMove s (s.cor core).ops with
  | none => .next s
  | some o =>
    if ((s.cor core).ops.any fun x => x.moving) || !moveReady s core o then .next s
    else
      let (rid, s1) := match o.tag with
        | some t => (t, s)
        | none => s.liveTag o.gid
      let s2 := match o.kind with
        | .msta a _ _ _ => s1.dependReach o.gid rid (s.accWriter o.team a)
        | _ => s1
      .next ((s2.modOp core o.id fun x => { x with moving := true, tag := some rid }).modC core fun k => { k with moved := 0 })

/-- Lane cycles that an operation's movement takes: 128 bytes in each, and 16 more to align an MLDW's blocks (R275). -/
def moveCycles (k : SeqKind) : Nat :=
  match k with
  | .mldw _ f _ _ _ => (weightBytes f + 127) / 128 + 16
  | .msta _ f _ _ => mstaBytes f / 128
  | .mlda _ _ => 128
  | _ => 0

/-- Bytes that the next lane cycle's movement must pay a token for (R257, R265): whether one falls due. -/
def moveToken (k : SeqKind) (moved : Nat) : Bool :=
  match k with
  | .mldw _ f _ _ _ => decide (moved < (weightBytes f + 127) / 128) && decide (moved % 2 = 0)
  | _ => decide (moved % 4 = 0)

/-- Round an accumulator element to an MSTA format (R265). -/
def mstaRound (f : MstaFmt) (rm : BitVec 3) (v : W32) : List Byte :=
  match f with
  | .f32 => bytesLE 4 v.toNat
  | .bf16 => bytesLE 2 (Fp.convert Fp.bf16 (.ofField rm) false false (Fp.fp32.value v.toNat)).code
  | .f16 => bytesLE 2 (Fp.convert Fp.fp16 (.ofField rm) false false (Fp.fp32.value v.toNat)).code

/-- An MLDW's slot is loaded (R257); it is loading still where a later MLDW to it is incomplete, or a squashed one has yet to
execute again. The load depends on the
reaches that logged its panel (R159). -/
def State.finishMldw (s : State) (core : Nat) (o : SeqOp) (w : Nat) (f : Fmt) (tr : Bool) (a : Nat) : State :=
  let (n, s1) := s.drawMany
  let bad := fun x => s.badByte o.team x
  let more := (s.cor core).ops.find? fun x => x.id != o.id && loadsSlot o.team w x
  let s2 := (s1.modSlot o.team w fun x =>
    { loadSlot x f tr (s.opByte o.team o n) bad a with
      by_ := o.tag, loading := more.isSome || !x.redo.isEmpty, loadId := (more.map (·.id)).getD x.loadId }).dependReach o.gid (o.tag.getD 0)
        (s.stashWriters o.team ((List.range ((weightBytes f + 127) / 128)).map fun i => a + 128 * i))
  let s3 := if (List.range (weightBytes f)).any fun i => bad (a + i) then s2.tell (some (s2.partOf o.gid)) "MLDW" 0 a else s2
  (s3.tagged o.gid (o.tag.getD 0)).completeOp core o

/-- An MLDA's accumulator is written (R264). -/
def State.finishMlda (s : State) (core : Nat) (o : SeqOp) (k a : Nat) : State :=
  let (n, s1) := s.drawMany
  let rd := s.opByte o.team o n
  let bad := fun i => s.badByte o.team (a + 4 * i)
  let rid := o.tag.getD 0
  let v := Acc.make fun i => if bad i = true then fp32Nan else w32Of ((List.range 4).map fun b => rd (a + 4 * i + b))
  let s2 := (s1.putAcc core o.gid rid k v).smearMwra core o rid
  let s3 := s2.dependReach o.gid rid (s.stashWriters o.team ((List.range 128).map fun i => a + 128 * i))
  (if (List.range 4096).any bad then s3.tell (some (s3.partOf o.gid)) "MLDA" 0 a else s3).completeOp core o

/-- An MSTA's bytes are in the stash, logged in its tag reach (R265). -/
def State.finishMsta (s : State) (core : Nat) (o : SeqOp) (k : Nat) (f : MstaFmt) (rm : BitVec 3) (a : Nat) : State :=
  let (n, s1) := s.drawMany
  let v := s.acc o.team k
  let bs := (List.range 4096).flatMap fun i => mstaRound f rm (Acc.get v i)
  let ws : List ByteWrite := bs.zipIdx.map fun x => (a + x.2, if o.undef then Config.freeByte (n + x.2) else x.1, false)
  let rid := o.tag.getD 0
  let log := (s.reachOf o.gid rid).map fun r => (o.gid, r.id)
  ((s1.stashPut o.team { src := .op o.id, clk := (s.grp o.gid).arch.hb } log ws).tagged o.gid rid).completeOp core o

/-- SEQUENCER_TRANSFER_COMPLETE (R255, R275). -/
def execSequencerTransferComplete (core : Nat) (s : State) : Out :=
  match (s.cor core).ops.find? fun o => o.moving with
  | none => .next s
  | some o =>
    if (s.cor core).moved < moveCycles o.kind then .next s
    else
      match o.kind with
      | .mldw w f tr a _ => .next ((s.finishMldw core o w f tr a).settle core)
      | .mlda k a => .next ((s.finishMlda core o k a).settle core)
      | .msta k f rm a =>
        let rid := o.tag.getD 0
        let need := if (s.reachOf o.gid rid).isSome then s.undoNeed o.team rid (kindDest o.kind) else 0
        .next (if s.engineRoom core need then (s.finishMsta core o k f rm a).settle core else s)
      | _ => .next s

/-! ### Steps (R261, R262) -/

/-- Macro that holds a slot of a team. -/
def State.macroOf (s : State) (tid w : Nat) : Nat := ((s.slot tid w).macroNo).getD w

/-- Started steps on a macro of a core. -/
def State.onMacro (s : State) (core m : Nat) : List (SeqOp × MStep) :=
  (s.cor core).ops.flatMap fun o => (o.steps.filter fun x => x.macroNo == m).map fun x => (o, x)

/-- Whether an MLOOP has unstarted steps on a macro. -/
def State.stepsLeftOn (s : State) (m : Nat) (o : SeqOp) : Bool :=
  match o.kind with
  | .mloop _ c w0 _ => !o.complete &&
      (List.range (min 8 (ctlSteps c - o.next))).any fun i => s.macroOf o.team (ctlSlot c w0 (o.next + i)) == m
  | _ => false

/-- Whether a slot is loading for an MLDW accepted before an operation, withdrawn ones included (R252, R257). -/
def State.loadsFirst (s : State) (o : SeqOp) (w : Nat) : Bool :=
  (s.slot o.team w).loading && decide ((s.slot o.team w).loadId < o.id)

/-- Whether a later operation waits by R252 for an MLOOP: for its accumulator, or for a slot that its steps use. -/
def waitsOn (o x : SeqOp) : Bool :=
  match o.kind with
  | .mloop a _ _ _ => x.team == o.team && (kindTouches x.kind a || match x.kind with
      | .mldw w _ _ _ _ => usesSlot o.team w true o
      | _ => false)
  | _ => false

/-- Operations that a pre-emption must see complete (R272). DEDUCED (log 25): with MLDW, MZERO, MSTA and MLDA, each
MLOOP that one of them waits for, since R272 gives their completion and R252 their order. -/
def neededOps (ops : List SeqOp) : List Nat :=
  ((ops.filter fun o => !o.complete).reverse.foldl (fun (need : List SeqOp) o =>
    match o.kind with
    | .mloop _ _ _ _ => if need.any (waitsOn o) then o :: need else need
    | _ => o :: need) []).map (·.id)

/-- MLOOP_STEP_START (R261): the step is tagged, and depends on the reach that loaded its slot (R253). -/
def execMloopStepStart (core op : Nat) (s : State) : Out :=
  match (s.cor core).ops.find? fun o => o.id == op with
  | none => .next s
  | some o =>
    match o.kind with
    | .mloop a c w0 _ =>
      let w := ctlSlot c w0 o.next
      let m := s.macroOf o.team w
      let before := s.opsBefore core op
      let (rid, s1) := s.liveTag o.gid
      if o.complete || decide (ctlSteps c ≤ o.next) || !(s.onMacro core m).isEmpty || before.any (s.stepsLeftOn m) ||
          before.any (loadsSlot o.team w) || s.loadsFirst o w ||
          ((s.tm o.team).st == .leavingPreempt && !(neededOps (s.cor core).ops).contains op) ||
          !s.accReady core o.gid rid a then .next s
      else
        let st : MStep := { k := o.next, macroNo := m, slot := w, reach := rid, rows := 0, lastAt := (s.cor core).lc
                            paid := false, told := false, vals := [] }
        let s2 := s1.dependReach o.gid rid (s.slot o.team w).by_.toList
        .next (s2.modOp core op fun x => { x with next := x.next + 1, steps := x.steps ++ [st] })
    | _ => .next s

/-- Change a started step. -/
def State.modStep (s : State) (core op k : Nat) (f : MStep → MStep) : State :=
  s.modOp core op fun o => { o with steps := o.steps.map fun m => if m.k = k then f m else m }

/-- Step values of one row (R100, R101): a row with a poisoned word takes NaN for every column (R260). -/
def State.rowValues (s : State) (o : SeqOp) (f : Fmt) (at_ m w n : Nat) : List W32 :=
  if (rowBytes f at_ m).any (s.badByte o.team) then List.replicate 128 fp32Nan
  else
    let slot := s.slot o.team w
    let row := panelRow f (s.opByte o.team o n) at_ m
    (List.range 128).map fun i => stepValue row (slotColumn slot (slot.cells.getD .fp4) i)

/-- ROW_INJECT (R261, R262): the macro's next row, its toll paid and its interval over, enters. -/
def execRowInject (core macroNo : Nat) (s : State) : Out :=
  match (s.onMacro core macroNo).head? with
  | none => .next s
  | some (o, m) =>
    match o.kind with
    | .mloop _ c _ base =>
      match ctlFmt c with
      | none => .next s
      | some f =>
        let k := s.cor core
        if decide (32 ≤ m.rows) || !m.paid || decide (k.lc < stepDue k.cad f m) || (s.clu (core / 8)).changing then .next s
        else
          let (n, s1) := s.drawMany
          let at_ := ((base : Int) + ctlPanel c m.k).toNat
          let vs := s.rowValues o f at_ m.rows m.slot n
          let bad := (rowBytes f at_ m.rows).any (s.badByte o.team)
          let s2 := (if bad && !m.told then s1.tell (some (s1.partOf o.gid)) "MLOOP" 0 at_ else s1).dependReach o.gid m.reach
            (s.stashWriters o.team (rowBytes f at_ m.rows))
          .next (s2.modStep core o.id m.k fun x =>
            { x with told := m.told || bad, rows := x.rows + 1, paid := false, lastAt := k.lc, vals := x.vals ++ [vs] })
    | _ => .next s

/-- STEP_ENTRY (R260, R261): a ready step of the macro whose turn it is has entered; the operation is complete with
its last step (R255). -/
def execStepEntry (core macroNo : Nat) (s : State) : Out :=
  match (s.onMacro core macroNo).head? with
  | none => .next s
  | some (o, m) =>
    match o.kind with
    | .mloop a c _ _ =>
      let k := s.cor core
      let due := ((ctlFmt c).map fun f => stepDue k.cad f m).getD m.lastAt
      if m.rows ≠ 32 ∨ k.lc < max due k.entryFree + 8 ∨ m.k ≠ o.entered ∨ s.accOrder core o.id o.team a = false then .next s
      else
        let (n, s1) := s.drawMany
        let old := s.acc o.team a
        let new := if o.undef then State.freeAcc n else Acc.addStep old m.vals
        let s2 := (s1.dependReach o.gid m.reach (s.accWriter o.team a)).putAcc core o.gid m.reach a new
        let s3 := s2.modOp core o.id fun x =>
          { x with steps := x.steps.filter (fun y => y.k != m.k), entered := m.k + 1, enteredBy := x.enteredBy ++ [(m.k, m.reach)] }
        let s4 := s3.modC core fun q => { q with entryFree := q.lc }
        .next ((if m.k + 1 = ctlSteps c then (s4.smearMwra core o m.reach).completeOp core o else s4).settle core)
    | _ => .next s

end Sys2Proof.Machine
end

