-- ==== Sys2Proof/Machine/Quarantine.lean ====
section
/-! DEFINITION. Quarantine (R315 to R330): the clearance of reaches, the drain and staging of the pound, sensor
events, and register lines on their way to moorings and images (R57, R65, R70, R76, R183). -/

namespace Sys2Proof.Machine

namespace State

/-! ### Leaving a core -/

/-- The oldest open reach of a group that an incomplete fence opened, or that holds a speculative read of one. -/
def fenceHead (s : State) (g : Nat) : Option Nat :=
  ((s.grp g).reaches.find? fun r => (s.grp g).fences.any fun f => r.id == f.reach || r.spec.contains f.id).map (·.id)

/-- A pre-emption discards the speculative reads of incomplete fences: the group resumes at the fence (R56, R165). -/
def dropSpeculation (s : State) (t : Nat) : State :=
  let rs := (s.tm t).groups.filterMap s.fenceHead
  if rs.isEmpty then s else s.squashAll rs

/-- A pre-emption or swap begins (R53, R56, R58): the groups stop at their next instruction boundary, their
reservations end and their reaches end. -/
def startLeaving (s : State) (t : Nat) (preempt : Bool) : State :=
  let go := fun (s : State) (st : TState) =>
    ((s.tm t).groups.foldl (fun s g => (s.dropResv g).endReach g) s).modT t fun x => { x with st := st }
  match (s.tm t).st, preempt with
  | .resident, true => go (s.dropSpeculation t) .leavingPreempt
  | .resident, false => go s .leavingSwap
  | .leavingSwap, true => (s.dropSpeculation t).modT t fun x => { x with st := .leavingPreempt }
  | _, _ => s

/-! ### Clearance (R253, R322) -/

/-- Whether a reach is open. -/
def isOpen (s : State) (r : Nat) : Bool := s.groups.any fun x => x.reaches.any fun y => y.id == r

/-- Work tagged with a reach that has not yet completed (R253). -/
def tagPending (s : State) (g : Nat) (r : Nat) : Bool :=
  let k := s.cor (s.coreOf g)
  (k.ops.any fun o => (o.tag == some r && !o.complete) || o.steps.any fun m => m.reach == r) ||
    (k.copies.any fun c => c.gid == g && c.reach == r && !c.landed && !s.copyWaits (s.coreOf g) c)

/-- Whether a reach of a group meets the conditions of clearance that concern it alone (R253, R322). -/
def reachReady (s : State) (g : Nat) (r : Reach) : Bool :=
  match r.ended with
  | none => false
  | some (e, w) => decide (max e r.lastTag + w ≤ s.clk) && r.spec.isEmpty && !s.tagPending g r.id

/-- Older reaches of the same group. -/
def olderReaches (s : State) (g : Nat) (r : Reach) : List Nat :=
  ((s.grp g).reaches.takeWhile fun q => q.id != r.id).map (·.id)

/-- Open reaches that a reach cannot clear before: those it depends on and the older ones of its group. -/
def needsClear (s : State) (g : Nat) (r : Reach) : List Nat := r.deps.filter s.isOpen ++ s.olderReaches g r

/-- Every open reach with its group, the oldest of a group first. -/
def openReaches (s : State) : List (Nat × Reach) :=
  (List.range s.groups.length).flatMap fun g => (s.grp g).reaches.map fun r => (g, r)

/-- The reaches of a set that are ready and need none outside it, again until the set stands. -/
def clearIds (s : State) : Nat → List Nat → List Nat
  | 0, ids => ids
  | n + 1, ids => s.clearIds n ((s.openReaches.filter fun x =>
      ids.contains x.2.id && s.reachReady x.1 x.2 && (s.needsClear x.1 x.2).all ids.contains).map (·.2.id))

/-- Every reach that meets the conditions of clearance now. Reaches that depend on each other clear together, when the
last of them meets its own conditions (R159, R253). -/
def clearSet (s : State) : List Nat := s.clearIds (s.openReaches.length + 1) (s.openReaches.map (·.2.id))

/-- Some reaches with all that they need, transitively. -/
def clearsWith (s : State) : Nat → List Nat → List Nat
  | 0, ids => ids
  | n + 1, ids => s.clearsWith n (distinct (ids ++ (s.openReaches.filter fun x => ids.contains x.2.id).flatMap fun x => s.needsClear x.1 x.2))

/-- Whether the oldest open reach of a group clears now. -/
def clearable (s : State) (g : Nat) : Bool :=
  match (s.grp g).reaches with
  | [] => false
  | r :: _ => s.clearSet.contains r.id

/-- Completed phases of a barrier that no squash can undo and no group can still leave are forgotten. -/
def trimDone (s : State) (ps : List PhaseRec) : List PhaseRec :=
  match ps with
  | [] => []
  | p :: qs => p :: ((qs.reverse.dropWhile fun q => !q.by_.any s.isOpen).reverse)

/-- Stash writes of a reach that clears belong to no open reach; of an agent's cleared writes the last to the same bytes
stands for the older ones. -/
def settleWrites (rid : Nat) (ws : List WriteRec) : List WriteRec :=
  let us := ws.map fun w => if w.by_ = some rid then { w with by_ := none } else w
  (us.zipIdx.filter fun u => !(u.1.by_.isNone && (us.drop (u.2 + 1)).any fun v =>
    v.by_.isNone && v.src == u.1.src && decide (v.base ≤ u.1.base) && decide (u.1.base + u.1.len ≤ v.base + v.len))).map (·.1)

/-- The oldest open reach of a group clears: its undo entries and records go, its other entries may drain, its
staged payload is applied, and its pre-images are free (R161, R223, R322, R323, R326). -/
def clearReach (s : State) (g : Nat) : State :=
  let x := s.grp g
  let c := s.coreOf g
  match x.reaches with
  | [] => s
  | r :: rest =>
    let mine := fun (e : PEntry) => e.gid == g && e.reach == r.id && !e.cleared
    let goes := fun (e : PEntry) => match e.kind with
      | .undoStash _ _ _ _ => true
      | .undoBerth _ _ _ => true
      | .undoRegion _ _ _ => true
      | .undoBarrier _ _ _ _ => true
      | .retAtom _ _ _ => true
      | .retLnch _ _ => true
      | .received _ _ _ _ => true
      | _ => false
    let cps := ((s.cor c).copies.filter fun y => y.gid == g && y.reach == r.id)
    let s1 := s.modC c fun k =>
      { k with
        pound := (k.pound.filter fun e => !(mine e && goes e)).map fun e => if mine e then { e with cleared := true } else e
        copies := k.copies.map (fun y => if y.gid == g && y.reach == r.id then { y with cleared := true } else y)
        accFree := k.accFree + r.accPre.length
        ops := k.ops.filter fun o => !(o.complete && (o.tag == some r.id || o.tag.isNone) &&
          (o.enteredBy.all fun m => m.2 == r.id || !s.isOpen m.2) && (o.instrReach == r.id || !s.isOpen o.instrReach)) }
    let s2 := ((s1.freePre r.id).zeroEnded g r ((rest.head?.map (·.snap)).getD x.arch)).modG g fun y =>
      { y with reaches := rest, sigFail := none
               wbsets := y.wbsets.map fun b => if b.reach = r.id then { b with cleared := true } else b }
    let s3 := cps.foldl (fun s y =>
      if applyDue { y with cleared := true } && !s.stopped c then s.applyStaged c { y with cleared := true } else s) s2
    let s4 : State := s3.modT x.team fun t =>
      { t with logged := t.logged.filter fun l => l.2 != r.id
               wrote := settleWrites r.id t.wrote }
    let s5 := s4.modT x.team fun t => { t with bars := t.bars.map fun b => { b with done := s4.trimDone b.done } }
    (s5.haltNow g).tidyTeam x.team

/-- Clear some reaches, each of them the oldest of its group in its turn. -/
def clearThese (s : State) (ids : List Nat) : State :=
  (s.openReaches.filter fun x => ids.contains x.2.id).foldl (fun s x => s.clearReach x.1) s

/-- Clear what can be cleared, until nothing more can. -/
def clearAll (s : State) : Nat → State
  | 0 => s
  | n + 1 => if s.clearSet.isEmpty then s else (s.clearThese s.clearSet).clearAll n

end State

/-- REACH_CLEAR (R253, R322): a group's oldest open reach clears, and with it those that it cannot clear before. -/
def execReachClear (g : Nat) (s : State) : Out :=
  match (s.grp g).reaches with
  | [] => .next s
  | r :: _ => .next (if s.clearable g then s.clearThese (s.clearsWith (s.openReaches.length + 1) [r.id]) else s)

/-! ### The pound drains (R325, R326) -/

namespace State

/-- Whether an entry leaves the pound by draining. -/
def drains (s : State) (core : Nat) (e : PEntry) : Bool :=
  match e.kind with
  | .store _ _ _ => true
  | .mailbox _ _ => true
  | .atomr _ _ => true
  | .copyDesc id =>
    match s.copyOf core id with
    | some c => !c.applied && c.dsts.any fun d => d.1.isNone
    | none => false
  | .elements _ _ => true
  | _ => false

/-- Take an entry out of the pound; store instructions whose last entry has left count down cst (R236). -/
def dropEntry (s : State) (g : Nat) (e : PEntry) : State :=
  let s1 := s.modPound g fun p => p.filter fun x => x.seq != e.seq
  let gone := (distinct e.ops).filter fun o => !(s1.poundOf g).any fun x => x.ops.contains o
  s1.modG g fun x => { x with cst := x.cst - gone.length }

/-- An ATOMR whose operand is in error leaves its target poisoned (R327, R332). -/
def spoilTarget (s : State) (own : Nat → Bool) (ctx : Nat) (a : AtomAcc) : State :=
  let ks := bytesAt (atBytes a.form) a.key
  let s1 := s.purge ks
  s1.pocWrite own ctx (ks.map fun k => (k, s1.mem.read k, true))

/-- An entry's effect (R144, R222, R293, R325, R326). -/
def drainEntry (s : State) (g core : Nat) (e : PEntry) : State :=
  let cl := core / 8
  match e.kind with
  | .store sec all staged =>
    let ws := all.filter fun w => PEntry.stands e w.1
    let s1 := if staged then
        let mine := fun k => decide (sec ≤ k) && decide (k < sec + 128)
        (((s.writeBack cl (fun _ => true) mine).invalidate cl (fun _ => true) mine).pocWrite (· == g) e.ctx ws)
      else s.cacheWrite (· == g) cl e.ctx ws
    ((s1.tagStaged fun x => x.seq == e.seq).publish (ws.map (·.1)) false (pubsOf e.gid e.rel)).dropEntry g e
  | .mailbox p ws =>
    let s1 := s.modP p fun x => { x with mailbox := ws.foldl (fun (m : Vector W64 8) w => m.setIfInBounds w.1 w.2) x.mailbox }
    (if ws.any fun w => w.1 == 7 then s1.record (.msix { port := (s1.prt p).owner, vf := some p } 1) else s1).dropEntry g e
  | .atomr accs _ =>
    let s1 := (accs.filter fun a => PEntry.stands e a.key).foldl (fun s a =>
      if e.bad = some (a.key % 128 / 8) then s.spoilTarget (· == g) e.ctx a else s.performOne (· == g) e.ctx a) s
    ((s1.tagStaged fun x => x.seq == e.seq).publish (accs.flatMap fun a => bytesAt (atBytes a.form) a.key) true (pubsOf e.gid e.rel)).dropEntry g e
  | .copyDesc id =>
    match s.copyOf core id with
    | none => s
    | some c =>
      let n := s.freeCtr
      let s0 : State := { s with freeCtr := n + c.payload.length }
      let ws := (c.dsts.filter fun d => d.1.isNone).flatMap fun d => copyBytes c n d c.payload
      ((s0.cacheWrite (fun _ => false) cl e.ctx ws).publish (ws.map (·.1)) false []).modCopy core id fun x => { x with applied := true, payload := [] }
  | _ => s

/-- Whether an entry can drain: every incomplete fence before it is complete (R154), and no berth holds what it would
write (R143). -/
def canDrain (s : State) (g core : Nat) (e : PEntry) : Bool :=
  e.cleared && !((s.grp g).fences.any fun f => decide (f.seq ≤ e.seq)) &&
    match e.kind with
    | .atomr accs _ => !accs.any fun a => s.writeBlocked (sectorOf a.key)
    | .store sec _ _ => !s.writeBlocked sec
    | .copyDesc id =>
      match s.copyOf core id with
      | some c => c.landed && c.form != 2 && !(distinct ((runBytes (copyKeys c)).map sectorOf)).any s.writeBlocked
      | none => true
    | .elements _ _ => false
    | _ => true

end State

/-- POUND_DRAIN (R325): the group's first entry that has yet to drain; a CPYR's elements are performed by their engine, and what
comes after them waits. -/
def execPoundDrain (g : Nat) (s : State) : Out :=
  let core := s.coreOf g
  match (s.poundOf g).find? fun e => e.gid == g && s.drains core e with
  | none => .next s
  | some e => .next (if s.canDrain g core e then (s.drainEntry g core e).tidyTeam (s.grp g).team else s)

/-- Staged sectors that a slice holds (R326). -/
def stagingSlots : Nat := 64

/-- POUND_STAGE (R29, R326): a store or remote-atomic entry of an open reach goes, tagged, to staging at its home slice. -/
def execPoundStage (g : Nat) (s : State) : Out :=
  let sec := fun (e : PEntry) => match e.kind with
    | .store x _ false => some x
    | .atomr (a :: _) false => some (sectorOf a.key)
    | _ => none
  let room := fun (k : Nat) => decide ((s.staged.filter fun x => x.slice == sliceOf k).length < stagingSlots)
  match (s.poundOf g).find? fun e => e.gid == g && !e.cleared &&
      (match sec e with | some k => decide (k < 2 ^ 52) && room k | none => false) with
  | none => .next s
  | some e =>
      let k := (sec e).getD 0
      let cl := s.clusterOf g
      let s1 := s.modPound g fun p => p.map fun x =>
        if x.seq = e.seq then
          { x with kind := match x.kind with
              | .store k ws _ => .store k ws true
              | .atomr accs _ => .atomr accs true
              | k => k }
        else x
      let s2 := s1.sendLine e.ctx (some e.reach) (clusterPlace cl) (homePlace k) k 2
      .next { s2 with staged := s2.staged ++ [{ slice := sliceOf k, reach := e.reach, seq := e.seq, sec := k, cluster := cl, ctx := e.ctx }] }

/-! ### Events (R329) -/

namespace State

/-- Partition that owns a cluster: each partition has 48 / P consecutive clusters (R375). -/
def partOfCluster (s : State) (cl : Nat) : Nat := cl * max 1 s.parts.length / Config.clusters

/-- Count an event of a class at a partition (R329 step 7, R330). -/
def countEvent (s : State) (part cls : Nat) : State :=
  s.modP part fun p => { p with events := p.events.setIfInBounds (cls - 1) ((p.events[cls - 1]?.getD 0) + 1) }

/-- Zone mask of cores of a cluster (R330). -/
def zoneMask (cores : List Nat) : Nat := (cores.map fun c => 2 ^ (c % 8)).foldl (· + ·) 0

/-- A sensor event in a zone of one cluster (R329): what has cleared by now stays; the rest is squashed with its
dependents, and the record goes to Thavin. -/
def strikeZone (s : State) (cls idx cluster : Nat) (cores : List Nat) : State :=
  let s0 := s.clearAll s.squashRounds
  let here := (List.range s0.groups.length).filter fun g => s0.resident (s0.grp g).team && cores.contains (s0.coreOf g)
  let rs := here.flatMap fun g => (s0.grp g).reaches.map (·.id)
  let all := s0.squashClosure s0.squashRounds rs
  let hit := (List.range s0.groups.length).filter fun g => (s0.grp g).reaches.any fun r => all.contains r.id
  let s1 := if rs.isEmpty then s0 else s0.squash all
  (s1.countEvent (s1.partOfCluster cluster) cls).record
    (.event s.clk cls idx (cluster / 12) (cluster % 12) (zoneMask cores) all.length hit.length)

end State

/-- Cores of a sensor's zone (R315, R316). -/
def zoneCores (cls cluster core : Nat) : List Nat :=
  match cls with
  | 1 => [8 * cluster + core % 8]
  | 2 => [8 * cluster + core % 8 / 2 * 2, 8 * cluster + core % 8 / 2 * 2 + 1]
  | _ => (List.range 8).map fun i => 8 * cluster + i

/-- Sensors of a class in one zone (R315). -/
def sensorCount (cls : Nat) : Nat :=
  match cls with
  | 1 => 16
  | 2 => 4
  | 3 => 8
  | _ => 0

/-- The name of a sensor's zone: a droop sensor is named by the first core of its pair, a clock sensor by core 0. -/
def sensorId (cls cluster core sensor : Nat) : SensorId :=
  { cls := cls, cluster := cluster, core := match cls with | 1 => core | 2 => core / 2 * 2 | _ => 0, index := sensor }

def sensorOk (s : State) (cls cluster core sensor : Nat) : Bool :=
  decide (sensor < sensorCount cls) && decide (cluster < Config.clusters) && decide (core < 8) &&
    !s.sensorsOff.contains (sensorId cls cluster core sensor)

/-- SENSOR_EVENT (R329). -/
def execSensorEvent (cls cluster core sensor : Nat) (s : State) : Out :=
  .next (if sensorOk s cls cluster core sensor then s.strikeZone cls sensor cluster (zoneCores cls cluster core) else s)

/-- SENSOR_SELF_TEST (R317). -/
def execSensorSelfTest (cls cluster core sensor : Nat) (pass : Bool) (s : State) : Out :=
  if pass || !sensorOk s cls cluster core sensor then .next s
  else
    let s1 : State := { s with sensorsOff := s.sensorsOff ++ [sensorId cls cluster core sensor] }
    if cls = 1 then .next s1
    else
      let zs := zoneCores cls cluster core
      let s2 := s1.strikeZone cls sensor cluster zs
      let s3 := zs.foldl (fun s c => s.modC c fun k => { k with outOfService := true }) s2
      let ts := (List.range s3.teams.length).filter fun t => s3.resident t && zs.contains (s3.tm t).core
      .next ((ts.foldl (fun s t => s.startLeaving t true) s3).record (.zoneOut cls cluster core))

/-- A cleared entry with an error in one of its 8-byte units: what it writes there is poisoned; a mailbox word has no poison and
takes an undefined value (R327). -/
def PEntry.inError (e : PEntry) (u n : Nat) : PEntry :=
  match e.kind with
  | .store sec ws st => { e with kind := .store sec (ws.map fun w => if (w.1 - sec) / 8 = u then (w.1, w.2.1, true) else w) st }
  | .mailbox p ws => { e with kind := .mailbox p (ws.map fun w => if w.1 % 16 = u then (w.1, Config.free64 n) else w) }
  | .atomr _ _ => { e with bad := some u }
  | _ => e

/-- The work of a copy whose entry is in error: its payload is poisoned, or the elements of the unit (R240, R327). -/
def Copy.inError (c : Copy) (e : PEntry) (u : Nat) : Copy :=
  match e.kind with
  | .copyDesc id => if c.id = id then { c with payload := c.payload.map fun b => (b.1, true), elems := c.elems.map fun a => (a.1, true) } else c
  | .elements id sec =>
    if c.id = id then
      { c with elems := c.elems.map fun a => if sectorOf a.1.key = sec ∧ a.1.key % 128 / 8 = u then (a.1, true) else a }
    else c
  | _ => c

/-- POUND_ECC_ERROR (R327): in an open reach a strike event; in one that has cleared by now (R329) the entry drains poisoned, the
SECDED unit of 8 bytes in error being whichever it was. -/
def execPoundEccError (core idx : Nat) (s : State) : Out :=
  match (s.cor core).pound[idx]? with
  | none => .next s
  | some e0 =>
    let s0 := s.clearAll s.squashRounds
    match (s0.cor core).pound.find? fun x => x.seq == e0.seq with
    | none => .next s0
    | some e =>
      if !e.cleared then .next (s0.strikeZone 4 0 (core / 8) [core])
      else
        let n := s0.freeCtr
        let u := Config.freeNat n % 16
        let spoil := fun (x : PEntry) => if x.seq = e.seq then PEntry.inError x u (n + 1) else x
        let s1 := { s0 with freeCtr := n + 2 }.modC core fun k =>
          { k with pound := k.pound.map spoil
                   copies := k.copies.map fun c => Copy.inError c e u }
        .next ((s1.countEvent (s1.partOfCluster (core / 8)) 4).record
          (.event s.clk 4 0 (core / 8 / 12) (core / 8 % 12) (State.zoneMask [core]) 0 0))

/-! ### Register lines -/

namespace State

/-- An uncorrectable ECC error in the words of a vector line (R65): the poison of its threads is set, of those of LIVE (R212), in
the register and in every snapshot that maps the line. -/
def poisonLine (s : State) (l : Line) (bad : W32) : State :=
  let hit := bad &&& (s.grp l.gid).live
  if hit = 0 then s
  else
    let set := fun (r : Regs) => { r with vp := r.vp.setIfInBounds l.reg (r.vp[l.reg]?.getD 0 ||| hit) }
    s.modG l.gid fun x =>
      { x with arch := if l.pre.isNone then modDepth x.arch l.depth set else x.arch
               reaches := x.reaches.map fun r => if s.lineMapped l r then { r with snap := modDepth r.snap l.depth set } else r }

/-- An uncorrectable ECC error in a scalar register (R65): its poison is set. Shadow copies are storage of their own. -/
def poisonScalar (s : State) (g depth n : Nat) : State :=
  s.modG g fun x => { x with arch := if x.arch.has depth then modDepth x.arch depth fun r => { r with sp := r.sp ||| (1#128 <<< n) } else x.arch }

end State

/-! ### Errors that a step meets (R332, R333, R336) -/

namespace State

/-- A stash word that its code cannot correct: its value is undefined and its poison bit is set (R219, R332). -/
def loseStash (s : State) (tid w : Nat) : State :=
  if (s.lch (s.tm tid).launch).desc.stash < 4 * w + 4 then s
  else
    let (n, s1) := s.drawMany
    s1.modT tid fun t =>
      { t with stash := t.stash.writeAll ((List.range 4).map fun i => (4 * w + i, Config.freeByte (n + i)))
               stashPoison := if t.stashPoison.contains (4 * w) then t.stashPoison else t.stashPoison ++ [4 * w] }

/-- A codeword that a copy, a fill or an access from outside reads: corrected and counted, or lost with an event record
(R333, R334). -/
def meetWord (s : State) (e : Nat × Nat) : State :=
  if e.2 = 0 then s
  else if e.2 = 1 then s.countCorrected e.1
  else
    let (n, s1) := s.drawMany
    (s1.loseWord n e.1).tellAt "HBM_ECC" 0 (64 * e.1)

/-- CRC of a sector of device HBM: as R331 computes SIG, from all ones and with a final inversion (R336). -/
def sectorCrc (s : State) (sec : Nat) : W32 :=
  ~~~((List.range 128).foldl (fun c i => sigByte c (s.mem.read (128 * sec + i))) 0xFFFFFFFF)

/-- Sideband bytes of a codeword of device HBM (R333): check symbols over its 64 bytes and bytes 4 to 7, of which 4 and 5 are its
half of the sector's CRC, 6 its metadata (R334), and 7 is 0. The CRC that is stored is that of the merged bytes (R336), so the
stored one and the bytes agree until an error comes with a step (log 54). -/
def sideband (s : State) (cw : Nat) : List Byte :=
  let crc := (s.sectorCrc (cw / 2)).toNat / 2 ^ (16 * (cw % 2)) % 2 ^ 16
  let rest := bytesLE 2 crc ++ [if s.poison.contains cw then 0xFF else 0, 0]
  let data := (List.range 64).map fun i => s.mem.read (64 * cw + i)
  (List.range 4).map (fun i => Config.checkSymbol i (data ++ rest)) ++ rest

/-- Sectors of a physical page that a cluster's cache holds are written back or dropped: dirty bytes of the context that
ended, poisoned (R334, R339). -/
def dropPage (s : State) (cl page owner : Nat) : State :=
  let xs := (s.clu cl).cache.filter fun x => x.key / 65536 == page
  let s1 := xs.foldl (fun s x =>
    let ws := dirtyOf x fun _ => true
    if ws.isEmpty then s
    else (s.pocWrite (fun g => s.clusterOf g == cl) x.writer (ws.map fun w => (w.1, w.2.1, w.2.2 || x.writer == owner))).moveSector x.writer none cl x.key false) s
  s1.modCl cl fun c => { c with cache := c.cache.filter fun x => x.key / 65536 != page }

/-- Lines of the shared cache leave it, those of a context that ended, and one in error, poisoned in HBM (R334, R335, R339). -/
def drainLines (s : State) (owner : Nat) (bad : Option Nat) (out : List OwnedLine) : State :=
  let cws := (out.filter fun x => x.owner == owner || some x.line == bad).flatMap fun x => (List.range 4).map (4 * x.line + ·)
  let s1 := s.writeLines out
  { s1 with poison := s1.poison ++ cws.filter fun c => !s1.poison.contains c }

/-- Every line of a page in a cache of the device is written back or dropped (R339). -/
def dropPageAll (s : State) (page owner : Nat) (bad : Option Nat) : State :=
  let s1 := (List.range Config.clusters).foldl (fun s cl => s.dropPage cl page owner) s
  s1.drainLines owner bad (s1.owned.filter fun x => x.line / 256 == page)

/-- An uncorrectable error in a dirty line (R335): its owner ends and an event record is made, every line of its page in a cache
is written back or dropped, the page is retired, and Thavin begins to invalidate every leaf of it (R310). -/
def badLine (s : State) (line owner : Nat) : State :=
  let page := line / 256
  let inv := ((List.range s.ctxs.length).filter fun a => (s.cx a).resident && a != owner).map fun a =>
    ({ ctx := a, va := 0, size := none, fn := none, mark := none, page := some (page, owner), done := false } : Inval)
  let s1 := ((s.terminateCtx owner).tellAt "DIRTY_LINE" 0 (256 * line)).dropPageAll page owner (some line)
  { s1 with retiredPages := if s1.retiredPages.contains page then s1.retiredPages else s1.retiredPages ++ [page]
            invals := s1.invals ++ inv }

/-- A 4-byte word of a cluster cache that its code cannot correct (R332): clean bytes are fetched again from their points of
coherence; a word with dirty bytes is lost, and its sector, of which the context that wrote it is the owner, follows R335.
DEDUCED (log 62): no way of a slice goes out of use with it. -/
def meetCached (s : State) (cl word : Nat) : State :=
  match s.csector cl (sectorOf (4 * word)) with
  | none => s
  | some x =>
    let here := fun (i : Nat) => decide ((x.key + i) / 4 = word)
    let hurt := (List.range 128).any fun i => here i && (((x.bytes[i]?).getD none).map (·.dirty)).getD false
    if !hurt then
      s.modCl cl fun c => { c with cache := c.cache.map fun y =>
        if y.key = x.key then { y with bytes := Vector.ofFn fun i => (y.bytes[i]).map fun b => if here i then { b with val := s.mem.read (y.key + i) } else b } else y }
    else
      let n := s.freeCtr
      let s1 : State := { s with freeCtr := n + 4 }
      let s2 := s1.modCl cl fun c => { c with cache := c.cache.map fun y =>
        if y.key = x.key then
          { y with bytes := Vector.ofFn fun i => (y.bytes[i]).map fun b => if here i then { b with val := Config.freeByte (n + i % 4) } else b
                   poison := y.poison ||| maskOf fun w => x.key / 4 + w == word }
        else y }
      s2.badLine (x.key / 256) x.writer

/-- A sector whose end-to-end CRC does not match: both its codewords are poisoned, with an event record (R336). -/
def loseSector (s : State) (sec : Nat) : State :=
  let (n, s1) := s.drawMany
  (((s1.loseWord n (2 * sec)).loseWord (n + 64) (2 * sec + 1))).tellAt "CRC" 0 (128 * sec)

/-- The errors that a step meets before it acts: in stash words, in sectors' CRCs, and in codewords of HBM other than those
that a load has read, which come with its return, and in words of cluster caches (R332, R333, R336). DESIGN CHOICE (log 54): the
errors come with the step. -/
def meet (s : State) (i : Instr) : State :=
  let s0 := s.ecc.cached.foldl (fun s w => s.meetCached w.1 w.2) s
  let s1 := s.ecc.sectors.foldl loseSector (s.ecc.stash.foldl (fun s w => s.loseStash w.1 w.2) s0)
  match i with
  | .loadReturn _ => s1
  | _ => s.ecc.words.foldl meetWord s1

end State

/-- Gate depth, register and place of a line's number: 384 to a depth, vector registers first, then scalars; 2,304 to the
current lines, then as many to the pre-images of each open reach of the group, the oldest first (R67). -/
def lineDepth (line : Nat) : Nat := line / 384 % 6
def lineReg (line : Nat) : Nat := line % 384
def linePre (s : State) (g line : Nat) : Option (Option Nat) :=
  match line / 2304 with
  | 0 => some none
  | n + 1 => ((s.grp g).reaches[n]?).map fun r => some r.id

/-- The line of a group that a number names. -/
def findLine (s : State) (g line : Nat) : Option Line :=
  (linePre s g line).bind fun p => s.lines.find? fun l => l.gid == g && l.depth == lineDepth line && l.reg == lineReg line && l.pre == p

/-- LINE_EVICTION (R57, R65, R67): a cleared line leaves a lane file that needs the space. DESIGN CHOICE (log 54): the step
also brings the threads of the line, or of a scalar register, whose words were found in uncorrectable error. -/
def execLineEviction (g line : Nat) (s : State) : Out :=
  match findLine s g line with
  | none =>
    .next (if line < 2304 ∧ 256 ≤ lineReg line ∧ s.ecc.threads ≠ 0 then s.poisonScalar g (lineDepth line) (lineReg line - 256) else s)
  | some l =>
    let s1 := s.poisonLine l s.ecc.threads
    let (c, k) := (s1.coreOf g, (s1.grp g).lane)
    .next (if l.at_ == .cache && s1.laneFree c k == 0 && s1.lineCleared l && !s1.lineAwaited l then s1.evictLine l else s1)

/-- MOORING_RECLAIM (R57, R76, R77): the owner takes its space back, and the line, a pre-image too, is written to its image
first; threads in uncorrectable error are poisoned in the image as written. -/
def execMooringReclaim (g line : Nat) (s : State) : Out :=
  match findLine s g line with
  | none => .next s
  | some l =>
    match l.at_ with
    | .mooring _ _ => .next ((s.poisonLine l s.ecc.threads).writeLine l)
    | _ => .next s

/-- CALL_STACK_SPILL (R183): the outermost entry that the core holds, pushed by a cleared reach, goes to the image. -/
def execCallStackSpill (g : Nat) (s : State) : Out :=
  let x := s.grp g
  let cs := x.arch.regs.calls.reverse
  let n := x.arch.regs.spilled
  let ok := decide (n < cs.length) && decide (x.depth < 5) && x.reaches.all fun r =>
    (r.snap.regs.calls.reverse)[n]? == cs[n]? && r.snap.frames.length == x.arch.frames.length && r.snap.emu.isNone
  .next (if ok then
    (s.modR g fun r => { r with spilled := n + 1 }).modImg g fun i =>
      i.modBlock x.depth fun b => { b with regs := { b.regs with calls := (cs.take (n + 1)).reverse } } else s)

end Sys2Proof.Machine
end

