-- ==== Sys2Proof/Machine/Distributor.lean ====
section
/-! DEFINITION. The distributor (R31 to R44, R52 to R59): descriptors and their acceptance, placement, return,
pre-emption and swaps, and the completion of launches. -/

namespace Sys2Proof.Machine

/-! ### Descriptors (R32, R33) -/

def byteAt (bs : List Byte) (i : Nat) : Nat := (bs[i]?.getD 0).toNat
def leAt (bs : List Byte) (i n : Nat) : Nat := leNat ((bs.drop i).take n)

/-- Fields of a descriptor's 128 bytes (R32). -/
def parseDesc (bs : List Byte) : Desc :=
  { nstage := byteAt bs 2, prio := byteAt bs 3 % 8, groups := byteAt bs 4, lastLive := byteAt bs 5, part := byteAt bs 6
    signal := byteAt bs 7 % 2 == 1, gridX := leAt bs 8 4, gridY := leAt bs 0xC 4, gridZ := leAt bs 0x10 4
    vregs := leAt bs 0x14 2, sregs := leAt bs 0x16 2, stash := leAt bs 0x18 4, berths := byteAt bs 0x1C
    tiles := byteAt bs 0x1D, accs := byteAt bs 0x1E, waitLimit := leAt bs 0x20 4, arg := BitVec.ofNat 64 (leAt bs 0x28 8)
    sigAddr := BitVec.ofNat 64 (leAt bs 0x30 8), sigVal := BitVec.ofNat 64 (leAt bs 0x38 8)
    entries := (List.range 8).map fun i => BitVec.ofNat 64 (leAt bs (0x40 + 8 * i) 8) }

/-- A descriptor's 128 bytes (R32). -/
def descBytes (d : Desc) : List Byte :=
  bytesLE 2 4 ++ bytesLE 1 d.nstage ++ bytesLE 1 d.prio ++ bytesLE 1 d.groups ++ bytesLE 1 d.lastLive ++ bytesLE 1 d.part ++
    bytesLE 1 d.signal.toNat ++ bytesLE 4 d.gridX ++ bytesLE 4 d.gridY ++ bytesLE 4 d.gridZ ++ bytesLE 2 d.vregs ++
    bytesLE 2 d.sregs ++ bytesLE 4 d.stash ++ bytesLE 1 d.berths ++ bytesLE 1 d.tiles ++ bytesLE 1 d.accs ++ bytesLE 1 0 ++
    bytesLE 4 d.waitLimit ++ bytesLE 4 0 ++ bytesLE 8 d.arg.toNat ++ bytesLE 8 d.sigAddr.toNat ++ bytesLE 8 d.sigVal.toNat ++
    ((List.range 8).map fun i => bytesLE 8 (d.entries[i]?.getD 0).toNat).flatten

/-- Rejection code of a descriptor that was read (R33): the lowest that applies. -/
def descCode (bs : List Byte) (part : Nat) : Option (BitVec 8) :=
  let d := parseDesc bs
  let dimBad := fun n => decide (n < 1) || decide (1048576 < n)
  if leAt bs 0 2 ≠ 4 then some 2
  else if byteAt bs 3 / 8 ≠ 0 ∨ byteAt bs 7 / 2 ≠ 0 ∨ byteAt bs 0x1F ≠ 0 ∨ leAt bs 0x24 4 ≠ 0 then some 3
  else if d.nstage < 1 ∨ 8 < d.nstage ∨ ((d.entries.zipIdx.any fun e =>
      if e.2 < d.nstage then e.1.toNat % 4 != 0 else e.1 != 0) = true) then some 4
  else if (dimBad d.gridX || dimBad d.gridY || dimBad d.gridZ) = true ∨ 4294967295 < d.gridX * d.gridY * d.gridZ then some 5
  else if d.groups < 1 ∨ 16 < d.groups ∨ d.lastLive < 1 ∨ 32 < d.lastLive then some 6
  else if d.vregs < 8 ∨ 256 < d.vregs ∨ d.vregs % 8 ≠ 0 ∨ d.sregs < 16 ∨ 128 < d.sregs ∨ d.sregs % 16 ≠ 0 ∨
      524288 < d.stash ∨ d.stash % 4096 ≠ 0 ∨ 16 < d.berths ∨ 8 < d.tiles ∨ 8 < d.accs then some 7
  else if 1000000 < d.waitLimit then some 8
  else if d.part ≠ part then some 9
  else if d.signal = true ∧ d.sigAddr.toNat % 8 ≠ 0 then some 10
  else none

namespace State

/-- Translate an address in a context's space for an agent that is no core: the key, or the class of its fault. -/
def ctxKey (s : State) (a : Nat) (need : Need) (va : W64) : Except TrapClass Nat :=
  if !canonical va then .error .permission
  else
    match (s.walkPage 0 a va false).1 with
    | none => .error .pageFault
    | some pg => if (s.pagePerms a pg).grant need then .ok (pg.key va) else .error .permission

/-- What reading bytes of a context's memory at their point of coherence gives. -/
inductive CtxRead where
  /-- a berth holds dirty bytes of them, which a snoop must return first (R143) -/
  | wait
  | fault (c : TrapClass)
  | poison
  | ok (bs : List Byte)
deriving DecidableEq, Repr

/-- Read up to 4 KiB that does not cross a page, at the point of coherence. -/
def ctxRead (s : State) (a : Nat) (va : W64) (n : Nat) : CtxRead :=
  match s.ctxKey a Need.load va with
  | .error c => .fault c
  | .ok k =>
    let ks := (List.range n).map (k + ·)
    if ks.any fun x => s.readBlocked none .outside (sectorOf x) then .wait
    else if ks.any s.pocPoison then .poison
    else .ok (s.mem.readBytes k n)

/-- A read of context memory from outside the cores has been performed: the snoops that served it are used up (R143). -/
def ctxServed (s : State) (a : Nat) (va : W64) (n : Nat) : State :=
  match s.ctxKey a Need.load va with
  | .ok k => s.takeServed .outside (distinct ((List.range n).map fun i => sectorOf (k + i)))
  | .error _ => s

/-- The distributor's check of a launch (R33): still waiting for a snoop, a rejection code, or the descriptor. -/
def readDesc (s : State) (a : Nat) (addr : W64) : Option (Except (BitVec 8) Desc) :=
  if addr.toNat % 128 ≠ 0 then some (.error 1)
  else
    match s.ctxRead a addr 128 with
    | .wait => none
    | .fault _ => some (.error 1)
    | .poison => some (.error 1)
    | .ok bs =>
      match descCode bs (s.cx a).part with
      | some c => some (.error c)
      | none => some (.ok (parseDesc bs))

/-- A launch is accepted (R34). -/
def acceptLaunch (s : State) (a : Nat) (d : Desc) (addr : W64) (src : Source) (prio : Nat) : State :=
  { s with launches := s.launches ++ [Launch.fresh a (s.cx a).part d addr src prio s.clk] }

end State

/-! ### Budgets of a core (R36, R37) -/

/-- What a resident group holds of a core: slot, lane, vector and scalar registers. -/
structure Holding where
  slot : Nat
  lane : Nat
  vregs : Nat
  sregs : Nat
deriving DecidableEq, Repr

/-- Lane for a group of a scheduler: the one with the most free vector lines among those with a free slot and room,
ties to the lowest (R37). -/
def bestLane (hs : List Holding) (sched vregs : Nat) : Option Nat :=
  let free := fun l => Config.linesPerLane - ((hs.filter fun h => h.lane == l).map (·.vregs)).foldl (· + ·) 0
  let ok := fun l => decide ((hs.filter fun h => h.lane == l).length < 4) && decide (vregs ≤ free l)
  ((List.range 4).map (4 * sched + ·)).foldl (fun (b : Option Nat) l =>
    if !ok l then b
    else
      match b with
      | none => some l
      | some m => if free m < free l then some l else b) none

/-- Slot that a group takes in its lane. DESIGN CHOICE (log 51): a scheduler's slots are 16 × its number and up, four for
each lane in turn, and the lowest free one of the lane is taken. -/
def freeSlot (hs : List Holding) (lane : Nat) : Nat :=
  ((List.range 4).map (4 * lane + ·)).find? (fun i => !hs.any fun h => h.slot == i) |>.getD (4 * lane)

/-- Bind groups one after the other (R37). -/
def bindGroups (vregs sregs : Nat) : List Nat → List Holding → List Holding → Option (List Holding)
  | [], _, acc => some acc
  | g :: gs, hs, acc =>
    let sched := g % 4
    let sc := ((hs.filter fun h => h.lane / 4 == sched).map (·.sregs)).foldl (· + ·) 0
    if Config.scalarsPerScheduler < sc + sregs then none
    else
      match bestLane hs sched vregs with
      | none => none
      | some l =>
        let h : Holding := { slot := freeSlot hs l, lane := l, vregs := vregs, sregs := sregs }
        bindGroups vregs sregs gs (hs ++ [h]) (acc ++ [h])

namespace State

/-- Teams that hold resources of a core. -/
def teamsOn (s : State) (c : Nat) : List Nat :=
  (List.range s.teams.length).filter fun t => s.resident t && (s.tm t).core == c

def descT (s : State) (t : Nat) : Desc := (s.lch (s.tm t).launch).desc

/-- Holdings on a core but for some teams. -/
def holdings (s : State) (c : Nat) (without : List Nat) : List Holding :=
  ((s.teamsOn c).filter fun t => !without.contains t).flatMap fun t =>
    (s.tm t).groups.map fun g =>
      { slot := (s.grp g).slot, lane := (s.grp g).lane, vregs := (s.descT t).vregs, sregs := (s.descT t).sregs }

/-- The binding of a team on a core, if it fits there once some teams are gone (R36). -/
def fits (s : State) (c : Nat) (d : Desc) (without : List Nat) : Option (List Holding) :=
  let ts := (s.teamsOn c).filter fun t => !without.contains t
  let sum := fun (f : Desc → Nat) => (ts.map fun t => f (s.descT t)).foldl (· + ·) 0
  if (s.cor c).outOfService || decide (Config.stashBytes < sum (·.stash) + d.stash) || decide (8 < sum (·.tiles) + d.tiles) ||
      decide (8 < sum (·.accs) + d.accs) then none
  else bindGroups d.vregs d.sregs (List.range d.groups) (s.holdings c without) []

/-- Cores of a partition (R375). -/
def coresOf (s : State) (p : Nat) : List Nat :=
  let n := Config.cores / max 1 s.parts.length
  (List.range n).map (p * n + ·)

def freeSlots (s : State) (c : Nat) : Nat := Config.slotsPerCore - (s.groupsOn c).length

/-- The least of some cores by a measure, the first of equals. -/
def least (f : Nat → Nat) (xs : List Nat) : Option Nat :=
  xs.foldl (fun (b : Option Nat) x =>
    match b with
    | none => some x
    | some y => if f x < f y then some x else b) none

/-- The core for a team (R37). -/
def pickCore (s : State) (cores : List Nat) (d : Desc) (without : List Nat) : Option Nat :=
  least s.freeSlots (cores.filter fun c => (s.fits c d without).isSome)

/-- Bases of runs of cores of one cluster (R31). -/
def runs (cores : List Nat) (n : Nat) : List Nat := cores.filter fun c => decide (c % 8 + n ≤ 8)

/-- The first core of the run for a train (R36, R59). -/
def pickRun (s : State) (cores : List Nat) (d : Desc) (without : List Nat) : Option Nat :=
  least (fun b => ((List.range d.nstage).map fun i => s.freeSlots (b + i)).foldl (· + ·) 0)
    ((runs cores d.nstage).filter fun b => (List.range d.nstage).all fun i => (s.fits (b + i) d without).isSome)

/-- Macros of a core that no slot of its teams holds, lowest first (R36). -/
def freeMacros (s : State) (c : Nat) (without : List Nat) : List Nat :=
  let used := ((s.teamsOn c).filter fun t => !without.contains t).flatMap fun t => (s.tm t).slots.toList.filterMap (·.macroNo)
  (List.range 8).filter fun m => !used.contains m

/-! ### Candidates (R34, R38, R44) -/

/-- A candidate for placement: a team that returns, or the next team or train of a launch. -/
inductive Cand where
  | back (t : Nat)
  | next (l : Nat)
deriving DecidableEq, Repr

/-- Teams or trains of a launch in all. -/
def launchSize (l : Launch) : Nat := l.desc.gridX * l.desc.gridY * l.desc.gridZ

/-- Whether a checkpoint that is being taken keeps a context's teams from being placed (R350). -/
def ckptPending (s : State) (a : Nat) : Bool :=
  s.ckpts.any fun c => match c.pending with
    | some x => x.ctxs.contains a
    | none => false

def waitingLaunch (s : State) (p l : Nat) : Bool :=
  let x := s.lch l
  x.part == p && !s.ckptPending x.ctx && !x.stopped && !x.finished && decide (x.next < launchSize x)

def returning (s : State) (p t : Nat) : Bool :=
  let x := s.tm t
  (s.lch x.launch).part == p && !(s.lch x.launch).stopped && !s.ckptPending (s.lch x.launch).ctx &&
    match x.st with
    | .preempted => true
    | .swapped => x.returnable
    | _ => false

/-- Insert by order of leaving. -/
def insertLeft (s : State) (t : Nat) : List Nat → List Nat
  | [] => [t]
  | u :: us => if (s.tm t).left < (s.tm u).left then t :: u :: us else u :: insertLeft s t us

/-- Candidates of a partition in order: priority, then returning teams by their order of leaving, then launches by
acceptance (R34, R44). -/
def candidates (s : State) (p : Nat) : List Cand :=
  [7, 6, 5, 4, 3, 2, 1, 0].flatMap fun prio =>
    let bs := (List.range s.teams.length).filter fun t => s.returning p t && (s.lch (s.tm t).launch).prio == prio
    let ls := (List.range s.launches.length).filter fun l => s.waitingLaunch p l && (s.lch l).prio == prio
    (bs.foldl (fun acc t => s.insertLeft t acc) []).map .back ++ ls.map .next

/-- Where a team returns to (R44): its former cluster, else any core of the partition; a train member its former
core. -/
def returnCore (s : State) (p t : Nat) (without : List Nat) : Option Nat :=
  let x := s.tm t
  let d := s.descT t
  if 1 < d.nstage then (if (s.fits x.core d without).isSome then some x.core else none)
  else
    match s.pickCore ((List.range 8).map (x.core / 8 * 8 + ·)) d without with
    | some c => some c
    | none => s.pickCore (s.coresOf p) d without

/-- Core or first core for a candidate. -/
def candCore (s : State) (p : Nat) (c : Cand) (without : List Nat) : Option Nat :=
  match c with
  | .back t => s.returnCore p t without
  | .next l =>
    let d := (s.lch l).desc
    if d.nstage = 1 then s.pickCore (s.coresOf p) d without else s.pickRun (s.coresOf p) d without

def candPrio (s : State) (c : Cand) : Nat :=
  match c with
  | .back t => (s.lch (s.tm t).launch).prio
  | .next l => (s.lch l).prio

/-- What the distributor places next in a partition: the first candidate that fits, none of a priority that a
launch blocked for 64 µs outranks (R38). -/
def nextPlacement (s : State) (p : Nat) : Option (Cand × Nat) :=
  let cs := s.candidates p
  let blocked := cs.find? fun c => match c with
    | .next l => (s.lch l).blocking
    | .back _ => false
  let ok := fun c => match blocked with
    | some b => c == b || decide (s.candPrio b < s.candPrio c)
    | none => true
  (cs.filter ok).findSome? fun c => (s.candCore p c []).map fun k => (c, k)

/-! ### Placement (R36, R39) -/

/-- Coordinate of a launch's n-th team (R35). -/
def coord (d : Desc) (n : Nat) : Nat × Nat × Nat := (n % d.gridX, n / d.gridX % d.gridY, n / d.gridX / d.gridY)

/-- State of a group at entry (R39). -/
def entryGroup (l : Launch) (dom t gidx stage fe : Nat) (h : Holding) : Group :=
  let d := l.desc
  let live : W32 := if gidx + 1 = d.groups then BitVec.ofNat 32 (2 ^ d.lastLive - 1) else 0xFFFFFFFF
  let a := Arch.entry (d.entries[stage]?.getD 0) dom l.ctx
  let regs : Regs := { a.regs with s := (a.regs.s.set 0 d.arg).set 1 l.addr }
  { Group.fresh t gidx h.slot h.lane live { a with regs := regs } with lastIssue := fe }

/-- Place one team on a core. What its launch's context has clean in the core's cluster becomes invalid, so that its first
accesses see what was written before the launch (R148). -/
def placeOne (s : State) (l : Nat) (stage core : Nat) : State :=
  let x := s.lch l
  let d := x.desc
  let (cx, cy, cz) := coord d x.next
  let hs := (s.fits core d []).getD []
  let t := s.teams.length
  let g0 := s.groups.length
  let ms := s.freeMacros core []
  let slots : Vector WSlot 8 := Vector.ofFn fun i =>
    if i.val < d.tiles then { WSlot.empty with macroNo := ms[i.val]? } else WSlot.empty
  let team : Team := { Team.fresh l cx cy cz stage core with groups := (List.range d.groups).map (g0 + ·), slots := slots }
  let gs := hs.zipIdx.map fun h => entryGroup x (s.cx x.ctx).dom t h.2 stage (s.cor core).fe h.1
  let s1 : State := { s with teams := s.teams ++ [team], groups := s.groups ++ gs, images := s.images ++ gs.map fun g => GImage.fresh g.live g.arch }
  let s2 := ((s1.modC core fun k => { k with accFree := k.accFree - d.accs }).modL l fun y => { y with teams := y.teams ++ [t] }).acquireIn
    (core / 8) fun y => belongs y x.ctx
  team.groups.foldl (fun s g => s.syncDue g 1) s2

/-- A launch's next team or train has been placed. -/
def advance (s : State) (l : Nat) : State :=
  s.modL l fun x => { x with next := x.next + 1, since := s.clk, blocking := false }

end State

/-- PLACE_TEAM (R36, R37). -/
def execPlaceTeam (part : Nat) (s : State) : Out :=
  match s.nextPlacement part with
  | some (.next l, c) => if (s.lch l).desc.nstage = 1 then .next ((s.placeOne l 0 c).advance l) else .next s
  | _ => .next s

/-- PLACE_TRAIN (R31, R59): every stage in one step. -/
def execPlaceTrain (part : Nat) (s : State) : Out :=
  match s.nextPlacement part with
  | some (.next l, c) =>
    if 1 < (s.lch l).desc.nstage then
      .next (((List.range (s.lch l).desc.nstage).foldl (fun s i => s.placeOne l i (c + i)) s).advance l)
    else .next s
  | _ => .next s

/-! ### Return (R44, R53, R73, R272) -/

namespace State

/-- A resume record becomes an operation again (R272). -/
def resumeOp (t : Nat) (r : Resume) : SeqOp :=
  { id := r.id, gid := r.gid, team := t, pc := r.pc, kind := .mloop r.acc r.ctl r.slot r.base, instrReach := 0, tag := none
    next := r.next, entered := r.next, steps := [], enteredBy := [], moving := false, complete := false, berth := r.berth
    undef := false }

/-- Copies that went on while their team was out, with what the pound still holds for its groups, belong to the core on
which it is back (R243). -/
def moveCopies (s : State) (gs : List Nat) (a b : Nat) : State :=
  if a = b then s
  else
    let old := s.cor a
    (s.modC a fun k => { k with copies := k.copies.filter (fun c => !gs.contains c.gid), pound := k.pound.filter fun e => !gs.contains e.gid }).modC b
      fun k => { k with copies := k.copies ++ old.copies.filter (fun c => gs.contains c.gid)
                        pound := k.pound ++ old.pound.filter fun e => gs.contains e.gid }

/-- Lines of a group that returns (R44, R76): those still in its lane file stay where it comes back to it, moorings of
its own cluster stay, and the rest goes to the images. -/
def settleLines (s : State) (g cluster : Nat) (sameLane : Bool) : State :=
  (s.lines.filter fun l => l.gid == g).foldl (fun s l =>
    match l.at_ with
    | .cache => if sameLane then s else s.writeLine l
    | .mooring c _ => if c / 8 = cluster then s else s.writeLine l
    | .image => s) s

/-- A group that is saved at an XSWAP: it sends again when it is back (R207). -/
def isXswap (x : Group) : Bool :=
  x.st == .wait && match x.wait with
    | some { what := .xswap _, .. } => true
    | _ => false

/-- A group that waits before a sealing instruction (R328). -/
def isSealing (x : Group) : Bool :=
  match x.wait with
  | some { what := .sealing _, .. } => true
  | _ => false

/-- A team comes back on a core: its groups are bound anew, its slots take macros, its translation registers are
stale if an invalidation was reported meanwhile, and lines in moorings of another cluster have gone to the image. DESIGN CHOICE
(log 68): a wait-monitor entry that a group kept counts in the cluster of its new core. -/
def bringBack (s : State) (t c : Nat) : State :=
  let x := s.tm t
  let d := s.descT t
  let hs := (s.fits c d []).getD []
  let ms := s.freeMacros c []
  let fe := (s.cor c).fe
  let s1 := x.groups.zipIdx.foldl (fun s gi =>
    let h := hs[gi.2]?.getD { slot := 0, lane := 0, vregs := 0, sregs := 0 }
    let stale := (s.cx (s.grp gi.1).arch.ctx).inval != (s.img gi.1).inval
    let s1 := (s.settleLines gi.1 (c / 8) (c == x.core && h.lane == (s.grp gi.1).lane)).modG gi.1 fun y =>
      { y with
        slot := h.slot, lane := h.lane, evictable := false, lastIssue := fe, readyFor := 0, promoted := false, yieldUntil := 0
        arch := { y.arch with regs := { y.arch.regs with x := restoreX y.arch.regs.x stale } } }
    (if isXswap (s1.grp gi.1) then s1.enterRun gi.1 else s1).modG gi.1 fun x => { x with prevMask := x.live }) s
  let s2 := ((s1.moveCopies x.groups x.core c).modC c fun k => { k with accFree := k.accFree - d.accs, ops := k.ops ++ x.resume.map (resumeOp t) }).modT t fun y =>
    { y with st := .resident, core := c, returnable := false, resume := []
             slots := Vector.ofFn fun i => { y.slots[i] with macroNo := if i.val < d.tiles then ms[i.val]? else none } }
  x.groups.foldl (fun s g => (s.syncDue g 5).reInval (s.grp g).arch.ctx) s2

/-- Sectors that belong to a context in which a group of a team has executed (R145, R299). -/
def ofTeam (s : State) (t : Nat) (x : CSector) : Bool := (s.tm t).groups.any fun g => s.ofGroup g x

/-- A team that comes back in another cluster finds there what it wrote in the old one (R150): the dirty bytes of its contexts
go to their points of coherence, and clean ones of the new cluster become invalid. DEDUCED (log 61). -/
def moveCluster (s : State) (t c : Nat) : State :=
  let old := (s.tm t).core / 8
  if old = c / 8 then s else (s.writeBack old (s.ofTeam t) fun _ => true).acquireIn (c / 8) (s.ofTeam t)

/-- Whether a core's sequencer has room for the resume records of a team (R254). -/
def resumeRoom (s : State) (t c : Nat) : Bool :=
  let ops := (s.cor c).ops.filter fun o => !o.complete
  let loops := ops.filter fun o => match o.kind with
    | .mloop _ _ _ _ => true
    | _ => false
  decide (ops.length + (s.tm t).resume.length ≤ 32) && decide (loops.length + (s.tm t).resume.length ≤ 8)

/-- Whether nothing is left dirty in the old cluster. -/
def clusterMoved (s : State) (t c : Nat) : Bool :=
  (s.tm t).core / 8 == c / 8 || !s.anyDirty ((s.tm t).core / 8) (s.ofTeam t) fun _ => true

end State

/-- RETURN_TEAM (R44): the team waits for room in the sequencer for its MLOOPs (R254), and back in another cluster for what a
berth keeps from being written back (R143). -/
def execReturnTeam (part : Nat) (s : State) : Out :=
  match s.nextPlacement part with
  | some (.back t, c) =>
    let s1 := s.moveCluster t c
    .next (if !s.resumeRoom t c then s else if s1.clusterMoved t c then s1.bringBack t c else s1)
  | _ => .next s

/-! ### Pre-emption (R38, R55) -/

namespace State

/-- Victims on a core in order: lowest priority, youngest launch, youngest team (R55). -/
def victims (s : State) (c prio : Nat) : List Nat :=
  (List.range prio).flatMap fun p =>
    ((s.teamsOn c).filter fun t => (s.lch (s.tm t).launch).prio == p).foldl (fun acc t =>
      let older := fun u => decide ((s.tm u).launch < (s.tm t).launch ∨ ((s.tm u).launch = (s.tm t).launch ∧ u < t))
      acc.takeWhile (fun u => !older u) ++ [t] ++ acc.dropWhile fun u => !older u) []

/-- The fewest victims, in order, that make a team fit a core. -/
def victimsFor (s : State) (c : Nat) (d : Desc) (prio : Nat) : Option (List Nat) :=
  let vs := s.victims c prio
  (List.range (vs.length + 1)).findSome? fun n => if (s.fits c d (vs.take n)).isSome then some (vs.take n) else none

/-- Victims of a run of cores. -/
def runVictims (s : State) (b : Nat) (d : Desc) (prio : Nat) : Option (List Nat) :=
  ((List.range d.nstage).mapM fun i => s.victimsFor (b + i) d prio).map List.flatten

/-- The choice that needs the fewest victims, the first of equals (R55). -/
def chooseVictims (s : State) (p : Nat) (d : Desc) (prio : Nat) : List Nat :=
  let cs := ((runs (s.coresOf p) d.nstage).filterMap fun b => s.runVictims b d prio)
  (cs.foldl (fun (b : Option (List Nat)) v =>
    match b with
    | none => some v
    | some w => if v.length < w.length then some v else b) none).getD []

end State

/-- PLACEMENT_WAIT_EXPIRY (R38, R55): the oldest launch of the highest priority, unplaced for 64 µs, blocks its
equals and inferiors, and pre-empts where that makes it fit. -/
def execPlacementWaitExpiry (part : Nat) (s : State) : Out :=
  let head := (s.candidates part).findSome? fun c => match c with
    | .next l => some l
    | .back _ => none
  match head with
  | none => .next s
  | some l =>
    let x := s.lch l
    if s.clk < x.since + 64000 ∨ (s.candCore part (.next l) []).isSome = true then .next s
    else
      let s1 := s.modL l fun y => { y with blocking := true }
      .next ((s.chooseVictims part x.desc x.prio).foldl (fun s t => s.startLeaving t true) s1)

/-! ### Swaps (R52, R53) -/

/-- Threshold in ns (R32, R52). -/
def waitLimitNs (d : Desc) : Nat := (if d.waitLimit = 0 then 16 else d.waitLimit) * 1000

/-- Members of a team's train that are out (R31, R44). -/
def State.trainOut (s : State) (u : Nat) : List Nat :=
  let x := s.tm u
  (List.range s.teams.length).filter fun m =>
    let y := s.tm m
    y.launch == x.launch && y.x == x.x && y.y == x.y && y.z == x.z && (y.st == .swapped || y.st == .preempted)

/-- Whether queued or returning work would fit with a team gone (R52); a returning train, each member on its former
core. -/
def State.wouldFit (s : State) (p t : Nat) : Bool :=
  let core := (s.tm t).core
  (s.candidates p).any fun c => match c with
    | .back u =>
      if 1 < (s.descT u).nstage then
        let base := (s.tm u).core - (s.tm u).stage
        decide (base ≤ core) && decide (core < base + (s.descT u).nstage) &&
          (s.trainOut u).all fun m => (s.fits (s.tm m).core (s.descT m) [t]).isSome
      else (s.fits core (s.descT u) [t]).isSome
    | .next l =>
      let d := (s.lch l).desc
      if d.nstage = 1 then (s.fits core d [t]).isSome
      else (State.runs ((List.range 8).map (core / 8 * 8 + ·)) d.nstage).any fun b =>
        decide (b ≤ core) && decide (core < b + d.nstage) && (List.range d.nstage).all fun i => (s.fits (b + i) d [t]).isSome

/-- LONG_WAIT_CHECK (R52). DESIGN CHOICE (log 68): a wait's time runs on under a halt and while its team is out. -/
def execLongWaitCheck (g : Nat) (s : State) : Out :=
  let x := s.grp g
  let t := x.team
  match x.wait with
  | none => .next s
  | some w =>
    let late := decide (w.since + waitLimitNs (s.descT t) < s.clk)
    let allHeld := (s.tm t).groups.all fun h =>
      let y := s.grp h
      match y.st with
      | .wait => (y.wait.map (·.monitor)).getD false
      | .replay => true
      | .done => true
      | _ => false
    if x.st == .wait && (s.tm t).st == .resident && late && allHeld && s.wouldFit (s.partOf g) t then
      .next (s.startLeaving t false)
    else .next s

namespace State

/-- A resume record of an MLOOP (R272). -/
def resumeOf (s : State) (o : SeqOp) : Option Resume :=
  match o.kind with
  | .mloop a c w base =>
    if o.complete then none
    else
      let n := (List.range 16).find? fun i => ((s.grp o.gid).batches[i]?.getD []).contains o.id
      some { id := o.id, gid := o.gid, base := base, berth := o.berth, ctl := c, gidx := (s.grp o.gid).gidx, acc := a, slot := w
             batch := n, next := o.entered, pc := o.pc }
  | _ => none

/-- Whether everything that must end before a leaving team is out has ended (R53, R56, R272). -/
def leavingOver (s : State) (t : Nat) : Bool :=
  let k := s.cor (s.tm t).core
  let pre := (s.tm t).st == .leavingPreempt
  ((s.tm t).groups.all fun g =>
    let x := s.grp g
    x.reaches.isEmpty && x.loads.isEmpty && x.wbsets.isEmpty && x.atom.isNone && x.verdict.isNone && x.fences.isEmpty &&
      x.synth.isNone && x.arch.emu.isNone && (s.poundOf g).all fun e => e.gid != g || match e.kind with
        | .copyDesc _ => true
        | .elements _ _ => e.cleared
        | _ => false) &&
  !(s.cores.any fun k => k.copies.any fun c => c.dsts.any fun d => d.1 == some t) &&
  (k.ops.all fun o => o.team != t || o.complete ||
    (pre && o.steps.isEmpty && (s.resumeOf o).isSome && !(neededOps k.ops).contains o.id))

/-- The groups' images are written (R53, R70, R72). -/
def writeImages (s : State) (t : Nat) : State := (s.tm t).groups.foldl flushImage s

end State

/-- A group whose wait is over already (R58); that of an XSWAP is when the partner has issued the paired one (R207). -/
def waitReady (s : State) (g : Nat) : Bool :=
  match (s.grp g).wait with
  | some { what := .xswap w, .. } =>
    (s.grp g).st == .wait && s.sends.any fun x => (partnersNamed s g w).contains x.gid && x.partner == partnerWord s g
  | some w => (s.grp g).st == .wait && waitMet s g w.what
  | none => false

/-- The sectors that a team's berths hold are written back and given up (R141). -/
def State.giveUpHeld (s : State) (t : Nat) : State :=
  (((s.tm t).held.filter fun h => h.dirty != 0).foldl (fun s h => s.putHeld t h true []) s).modT t fun x => { x with held := [], fills := [] }

/-- LEAVING_COMPLETE (R53, R56, R58, R141, R207): groups whose wait is over are in RUN, but for one that a
pre-emption found waiting before a sealing instruction (R56, R297), sends are withdrawn, held sectors are written back and given up, the images are written, and the
resources are free. -/
def execLeavingComplete (team : Nat) (s : State) : Out :=
  let go := fun (s : State) (out : TState) (back : Bool) =>
    if !s.leavingOver team then s
    else if s.teamDone team then s.tidyTeam team
    else
      let gs := (s.tm team).groups
      let woken := gs.foldl (fun s g => if !waitReady s g || (back && State.isSealing (s.grp g)) then s else if State.isXswap (s.grp g) then s.enterRun g else s.leaveWait g) s
      let quiet : State := { woken with sends := woken.sends.filter fun x => !gs.contains x.gid }
      let s1 := (quiet.giveUpHeld team).writeImages team
      let res := ((s1.cor (s1.tm team).core).ops.filter fun o => o.team == team).filterMap s1.resumeOf
      let s2 := (s1.tm team).groups.foldl (fun s g => s.modG g fun x =>
        let r := x.replay.map fun r => { r with permit := r.permit && r.cls == .pageFault, backoff := none }
        { x with refused := 0, evictable := true, replay := r }) s1
      let run := (s2.tm team).groups.any fun g => (s2.grp g).st == .run
      let s3 := (s2.freeCore team).modT team fun x =>
        { x with st := out, resume := res, left := s2.nextId, returnable := back || run }
      { s3.writeTeamImage team with nextId := s3.nextId + 1 }
  match (s.tm team).st with
  | .leavingSwap => .next (go s .swapped false)
  | .leavingPreempt => .next (go s .preempted true)
  | _ => .next s
/-! ### Completion and the watchdog -/

/-- LAUNCH_COMPLETION (R40): once every team of every stage is FINISHED, the completion word is written with release
at SYS scope; where its store would fault it is not written and the host is told. -/
def execLaunchCompletion (launch : Nat) (s : State) : Out :=
  match s.launches[launch]? with
  | none => .next s
  | some l =>
    let gs := l.teams.flatMap fun t => (s.tm t).groups
    if l.finished || l.stopped || decide (l.next < State.launchSize l) || l.teams.any (fun t => (s.tm t).st != .finished) ||
        gs.any (fun g => s.poundCount g != 0 || !(s.grp g).wbsets.isEmpty) then .next s
    else
      let done := fun (s : State) => s.modL launch fun x => { x with finished := true, pairs := [] }
      if !l.desc.signal then .next (done s)
      else
        match s.ctxKey l.ctx Need.store l.desc.sigAddr with
        | .error c => .next ((done s).record (.completionFault l.addr l.desc.sigAddr c))
        | .ok k =>
          let cs := distinct (l.ctx :: gs.flatMap fun g => (s.grp g).visited)
          let sel := fun x => cs.any (State.belongs x)
          let s1 := (List.range Config.clusters).foldl (fun s cl => s.writeBack cl sel fun _ => true) s
          if s1.writeBlocked (sectorOf k) || (List.range Config.clusters).any fun cl => s1.anyDirty cl sel fun _ => true then .next s1
          else .next (done (s1.pocWrite (fun _ => false) l.ctx
            (((List.range 8).map (k + ·)).zip (bytesLE 8 l.desc.sigVal.toNat) |>.map fun x => (x.1, x.2, false))))

namespace State

/-- Whether a launch's watchdog count advances now (R348). -/
def wdRuns (s : State) (l : Launch) : Bool :=
  let ts := l.teams.filter s.resident
  let gs := ts.flatMap fun t => (s.tm t).groups
  !ts.isEmpty && !(l.teams.any fun t => (s.tm t).groups.any fun g => (s.grp g).st == .halt) &&
    !gs.all fun g =>
      (s.grp g).st == .replay && match (s.grp g).replay with
        | some r => r.cls == .pageFault && r.permit && !r.fatal
        | none => false

/-- Reference nanoseconds pass: CLK, the watchdog counts (R348) and the time that slots are occupied (R365) advance. -/
def tick (s : State) (dt : Nat) : State :=
  let ts := (List.range s.teams.length).filter s.resident
  { s with
    clk := s.clk + dt
    launches := s.launches.map fun l => if !l.finished && s.wdRuns l then { l with wd := l.wd + dt } else l
    slotNs := ts.foldl (fun xs t => addCount xs (s.lch (s.tm t).launch).ctx ((s.tm t).core / 8) ((s.tm t).groups.length * dt)) s.slotNs }

end State

/-- WATCHDOG_EXPIRY (R349, R353): the launch's teams are stopped, pre-empted and discarded, and the host is told; no
completion word is written. A checkpoint under way is completed first. -/
def execWatchdogExpiry (launch : Nat) (s : State) : Out :=
  match s.launches[launch]? with
  | none => .next s
  | some l =>
    let lim := (s.cx l.ctx).wdlim * 1000
    if l.finished || decide (lim = 0) || decide (l.wd ≤ lim) || s.ckptPending l.ctx then .next s
    else
      let s1 := s.modL launch fun x => { x with stopped := true }
      let ts := l.teams.filter fun t => (s.tm t).st != .finished
      let s2 := ts.foldl (fun s t => s.startLeaving t true) s1
      if (ts.any s2.resident && !ts.all fun t => !s2.resident t || s2.leavingOver t) then .next s2
      else
        let s3 := ts.foldl (fun s t => (s.giveUpHeld t).killTeam t) s2
        .next ((s3.modL launch fun x => { x with finished := true, pairs := [] }).record (.watchdog l.addr l.wd))

/-- LAUNCH_VERDICT (R292, R33): the distributor has read the descriptor; the verdict goes to sd and into a return
record. An accepted launch takes the lower priority of R34. -/
def execLaunchVerdict (g : Nat) (s : State) : Out :=
  match (s.grp g).verdict with
  | none => .next s
  | some (addr, pc, sd) =>
    let a := (s.grp g).arch.ctx
    match s.readDesc a addr with
    | none => .next s
    | some r =>
      let p := s.partOf g
      let full := decide (1024 ≤ (s.launches.filter fun l => l.part == p && !l.finished && match l.src with
        | .lnch _ => true
        | .queue _ => false).length)
      let prio := (s.lch (s.launchOf g)).prio
      let (code, s1) := match r with
        | .error c => (c, s)
        | .ok d => if full then (0x0B, s) else ((0 : BitVec 8), s.acceptLaunch a d addr (.lnch prio) (min d.prio prio))
      let s2 := (s1.modG g fun x => { x with verdict := none }).putS g sd (code.setWidth 64) false
      .next ((s2.addRecord g (.retLnch pc code)).haltNow g)

end Sys2Proof.Machine
end

