-- ==== Sys2Proof/Machine/Fetch.lean ====
section
/-! DEFINITION. Fetching an instruction (R106, R164, R309), and the state in which a given word is the next
instruction. -/

namespace Sys2Proof.Machine

namespace State

/-- A byte of code as a fetch reads it: the cluster cache or the point of coherence (R144, R164). A clean copy of a sector
that a berth holds is not read (R143). -/
def codeByte (s : State) (c k : Nat) : Byte :=
  match s.cbyte (c / 8) k with
  | some b => if b.dirty || !s.writeBlocked (sectorOf k) then b.val else s.mem.read k
  | none => s.mem.read k

/-- One 4-byte word of code: a word that the core holds may be the old one or the new one (R164, R309); the
core then holds what it used. A launch accepted after a load into the context has the new one (R384). -/
def codeWord (s : State) (c l a va : Nat) (now : W32) : W32 × State :=
  match (s.cor c).held.find? fun h => h.ctx == a && h.va == va with
  | none => (now, s.modC c fun k => { k with held := k.held ++ [{ ctx := a, va := va, word := now, before := none }] })
  | some h =>
    let barred := match h.before with
      | some n => decide (n ≤ l)
      | none => false
    if h.word = now then (now, s)
    else if barred then
      (now, s.modC c fun k =>
        { k with held := k.held.map fun x => if x.ctx == a && x.va == va then { x with word := now, before := none } else x })
    else
      let (n, s1) := s.draw
      if Config.freeBool n then (h.word, s1)
      else (now, s1.modC c fun k =>
        { k with held := k.held.map fun x => if x.ctx == a && x.va == va then { x with word := now, before := none } else x })

/-- Whether a group's fetch need not wait for a snoop: no sector of its instruction is held dirty by a berth
of another team (R143). -/
def fetchReady (s : State) (g : Nat) : Bool :=
  match s.fetchKeys (s.coreOf g) g (s.grp g).arch.pc with
  | (.ok ks, _) => !(distinct (ks.map sectorOf)).any (s.readBlocked (some (s.grp g).team) (.group g))
  | _ => true

/-- Fetch the instruction word of a group (R106). -/
def fetch (s : State) (g : Nat) : Except (Bool × W64) IWord × State :=
  let pc := (s.grp g).arch.pc
  let c := s.coreOf g
  match s.fetchKeys c g pc with
  | (.error e, s1) => (.error e, s1)
  | (.ok ks, s1) =>
    let bs := ks.map fun k => s1.codeByte c k
    let w := wordOfBytes bs
    let a := s1.asid g pc
    let s1 := (distinct (ks.map sectorOf)).foldl (fun s sec => s.shareSector (c / 8) a sec) s1
    let (w0, s2) := s1.codeWord c (s.launchOf g) a pc.toNat (w.extractLsb' 0 32)
    let (w1, s3) := s2.codeWord c (s.launchOf g) a (pc.toNat + 4) (w.extractLsb' 32 32)
    let (w2, s4) := s3.codeWord c (s.launchOf g) a (pc.toNat + 8) (w.extractLsb' 64 32)
    (.ok (w2 ++ w1 ++ w0), s4)

/-- An enabled instruction breakpoint of the context in whose domain the group executes matches a PC (R393, R394): in an
emulation that domain is Thavin's (R346). -/
def ibpHit (s : State) (g : Nat) (pc : W64) : Bool :=
  let blk := (s.cx (s.grp g).arch.ctx).debug
  !(s.grp g).skipIbp && (s.grp g).arch.emu.isNone && (List.range 4).any fun i =>
    let v := blk[i]?.getD 0
    v.getLsbD 0 && v.extractLsb' 2 55 == pc.extractLsb' 2 55

/-- Whether a group could take some instruction now: in RUN, not frozen, halting, waiting for a return or
a verdict, delayed, or leaving (R45, R399). -/
def canRun (s : State) (g : Nat) : Bool :=
  let x := s.grp g
  x.st == .run && !x.frozen && !x.haltReq && x.synth.isNone && x.verdict.isNone && x.atom.isNone &&
    s.goesOn g && decide (x.yieldUntil ≤ (s.cor (s.coreOf g)).fe) && !(s.cor (s.coreOf g)).paused

end State

/-- What fetch and decode give a group: an instruction, or the step that its word or its address raises. -/
def nextInstr (s : State) (g : Nat) : Instr × State :=
  match s.fetch g with
  | (.error _, s1) => (.fetchFault, s1)
  | (.ok w, s1) =>
    match decodeIn (s1.allocOf g) w with
    | .ok i => (i, s1)
    | .error _ => (.illegalOpcode w, s1)

end Sys2Proof.Machine
end

