-- ==== Sys2Proof/Machine/System.lean ====
section
/-! DEFINITION. System instructions (R276, R286 to R296), retired words and their emulation (R121, R346, R347),
the traps of decode and fetch (R116, R106), and trap permits (R343). -/

namespace Sys2Proof.Machine

/-! ### Traps and handlers -/

/-- TRAP (R288): it commits nothing. -/
def execTrap (e : Enc) (s : State) : Out :=
  issue (.trap e) e (fun c _ => .error (.trap { cls := .trap, operand := 0, imm := (opImm c.e.d).toNat, s2 := 0 })) s

/-- End what cannot go on: a synthesised GRET inside a frame, the context at depth 0. -/
def State.abandon (s : State) (g cause cls : Nat) : State :=
  if s.depthOf g = 0 then s.terminateCtx (s.grp g).arch.ctx else s.startSynth g cause cls

/-- TRET (R289). -/
def tretEff : Eff := fun c s =>
  let f := (s.regsOf c.g).tf
  if !f.inHandler then .error (.trap (.of .permission))
  else if State.recordAwaited (s.grp c.g) then .error .hold
  else
    match (opImm c.e.d).toNat with
    | 0 => .ok (s.leaveHandler c.g false sigFeed)
    | 1 => .ok (s.leaveHandler c.g true sigFeed)
    | _ => .error (.goto (s.abandon c.g 3 f.cls))

/-- TRET (R289). -/
def execTret (e : Enc) (s : State) : Out := issue (.tret e) e tretEff s

/-- The joined 32-bit immediate (R111). -/
def joined32 (e : Enc) : W32 := BitVec.ofNat 32 (joinedValue e)

/-- Bytes of a context's memory as Thavin reads them, where all of them are mapped. -/
def State.fwBytes (s : State) (a : Nat) (va : W64) (n : Nat) : Option (List Byte) :=
  (List.range n).mapM fun i => (s.placeOf a (va + BitVec.ofNat 64 i)).map fun k => s.mem.read k

/-- Entry of a signature table for an offset from the kernel's first instruction (R134): the 4-byte count stands at the
table's address, and the 8-byte entries follow it. -/
def State.sigTableEntry (s : State) (a : Nat) (table : W64) (off : Nat) : Option (W32 × W32) :=
  ((s.fwBytes a table 4).map fun b => leNat b).bind fun n =>
    (List.range n).findSome? fun i =>
      (s.fwBytes a (table + BitVec.ofNat 64 (4 + 8 * i)) 8).bind fun b =>
        if leNat (b.take 4) = off then some (w32Of (b.take 4), w32Of (b.drop 4)) else none

/-- What the loaded signature tables say of the SIGCHK at a PC (R134, R290): its offset and its immediate. -/
def State.sigEntry (s : State) (a : Nat) (pc : W64) : Option (W32 × W32) :=
  (s.cx a).sigblocks.findSome? fun t => s.sigTableEntry a t.2 (pc - t.1).toNat

/-- SIGCHK (R290): the first failure squashes the group's open reaches as a sensor event does, and the second before any
reach of the group has cleared ends the frame or the context. -/
def sigchkEff : Eff := fun c s =>
  if c.sig0 = joined32 c.e then .ok (s.modR c.g fun r => { r with sig := 0 })
  else
    let s0 := s.clearAll s.squashRounds
    let check : Record := .controlCheck c.g c.pc (s.sigEntry (s.grp c.g).arch.ctx c.pc)
    if (s0.grp c.g).sigFail = some c.pc then .error (.goto ((s0.record check).abandon c.g 5 0))
    else
      let rs := s0.squashClosure s0.squashRounds ((s0.grp c.g).reaches.map (·.id))
      let s1 := s0.squash rs
      let s2 := (s1.modR c.g fun r => { r with eflag := r.eflag ||| 2 }).modG c.g fun x => { x with sigFail := some c.pc }
      let hit := (List.range s0.groups.length).filter fun h => (s0.grp h).reaches.any fun r => rs.contains r.id
      let cl := s.clusterOf c.g
      .error (.goto (((s2.countEvent (s.partOf c.g) 5).record
        (.event s.clk 5 0 (cl / 12) (cl % 12) (State.zoneMask [s.coreOf c.g]) rs.length hit.length)).record check))

/-- SIGCHK (R290). -/
def execSigchk (e : Enc) (s : State) : Out := issue (.sigchk e) e sigchkEff s

/-- REACH (R291): its head has been opened. -/
def execReach (e : Enc) (s : State) : Out := issue (.reach e) e (fun _ s => .ok s) s

/-- BRK (R288, R397): the breakpoint class; after a halt at it, once a no-op. -/
def brkEff : Eff := fun c s =>
  if (s.grp c.g).brkPass then .ok (s.modG c.g fun x => { x with brkPass := false })
  else .error (.trap { cls := .breakpoint, operand := 0, imm := (opImm c.e.d).toNat, s2 := 0 })

/-- BRK (R288). -/
def execBrk (e : Enc) (s : State) : Out := issue (.brk e) e brkEff s

/-! ### LNCH (R292) -/

/-- A launch record that this instruction re-executes from. -/
def launchRecord (s : State) (g : Nat) (pc : W64) : Option (BitVec 8) :=
  (s.poundOf g).findSome? fun e =>
    match e.kind with
    | .retLnch p code => if e.gid == g && p == pc then some code else none
    | _ => none

/-- LNCH: after its seal and its release at DEV scope the request is with the distributor, whose verdict LAUNCH_VERDICT
brings; from a launch record it completes at once. -/
def lnchEff : Eff := fun c s =>
  let a := sArg s c c.e.a
  if s.depthOf c.g ≠ 0 then .error (.trap (.of .permission))
  else if a.2 then .error (.trap (.poisonOf [(2, true)]))
  else
    match launchRecord s c.g c.pc with
    | some code => .ok ((retag s c.g c.pc).putS c.g (opReg c.e.d) (code.setWidth 64) false)
    | none =>
      let s1 := s.releaseAction c.g
      if !s1.drained c.g s1.nextSeq || !s1.releaseDone c.g then .error .hold
      else .ok (s1.modG c.g fun x => { x with verdict := some (a.1, c.pc, opReg c.e.d) })

/-- LNCH (R292). -/
def execLnch (e : Enc) (s : State) : Out := issue (.lnch e) e lnchEff s

/-! ### Mailbox and trace -/

/-- A store of a mailbox word enters the pound; those of one reach merge, as stores to one sector do (R293, R323). -/
def State.poundMailbox (s : State) (g w : Nat) (v : W64) : State :=
  let part := s.partOf g
  let mine := fun (e : PEntry) => e.gid == g && e.reach == s.reachId g && match e.kind with
    | .mailbox p _ => p == part
    | _ => false
  match ((s.poundOf g).filter mine).getLast? with
  | some { kind := .mailbox _ _, seq := n, .. } =>
    s.modPound g fun p => p.map fun e =>
      if e.seq = n then
        match e.kind with
        | .mailbox p ws => { e with kind := .mailbox p (ws.filter (fun x => x.1 != w) ++ [(w, v)]), ops := e.ops ++ [s.nextId] }
        | _ => e
      else e
  | _ => s.addEntry g (.mailbox part [(w, v)]) [s.nextId]

/-- DBGM (R293): a store of one mailbox word. -/
def dbgmEff : Eff := fun c s =>
  let a := sArg s c c.e.a
  if a.2 then .error (.trap (.poisonOf [(2, true)]))
  else
    let s1 := s.poundMailbox c.g (opReg c.e.d) a.1
    let s2 : State := { s1 with nextId := s1.nextId + 1 }
    .ok (s2.modG c.g fun x => { x with cst := x.cst + 1 })

/-- DBGM (R293). -/
def execDbgm (e : Enc) (s : State) : Out := issue (.dbgm e) e dbgmEff s

/-- The MARK packet of TRC (R294, R389). -/
def trcPacket (c : Cx) (s : State) : Nat × W64 × W64 × W64 :=
  let a := match c.e.a with
    | .scal _ => sArg s c c.e.a
    | .imm _ => sArg s c c.e.a
    | _ => (0, false)
  (6, BitVec.ofNat 64 (opReg c.e.d), a.1, if a.2 then 1 else 0)

/-- TRC (R294). -/
def execTrc (e : Enc) (s : State) : Out := issueT (.trc e) e (fun c s => some (trcPacket c s)) (fun _ s => .ok s) s

/-! ### Emulation of retired words (R346, R347) -/

/-- Bytes of one operand block of the emulation frame (R347). -/
def emuBlock (r : Regs) (vregs : Nat) (f : BitVec 22) : List Byte :=
  let o := operandOf f
  let val : W64 := match o with
    | .scal n => r.sv n.toNat
    | .imm v => v.signExtend 64
    | _ => 0
  let po := fun (i : Nat) => match o with
    | .vec reg _ _ _ => if reg.toNat + i < min 256 vregs then (r.vp[reg.toNat + i]?.getD 0).toNat else 0
    | .scal n => if i = 0 ∧ r.spo n.toNat = true then 1 else 0
    | _ => 0
  let vecs := fun (i t : Nat) => match o with
    | .vec reg _ _ _ => if reg.toNat + i < min 256 vregs then (r.vt (reg.toNat + i) t).toNat else 0
    | _ => 0
  bytesLE 8 f.toNat ++ bytesLE 8 val.toNat ++ ((List.range 4).flatMap fun i => bytesLE 4 (po i)) ++
    List.replicate 32 0 ++ ((List.range 4).flatMap fun i => (List.range 32).flatMap fun t => bytesLE 4 (vecs i t))

/-- Bytes 0x000 to 0x7BF of the emulation frame (R347). -/
def emuFrame (s : State) (g : Nat) (w : IWord) (mask : W32) : List Byte :=
  let x := s.grp g
  let r := x.arch.regs
  let n := (s.descOf g).vregs
  bytesLE 8 x.arch.pc.toNat ++ bytesLE 12 w.toNat ++ bytesLE 4 x.live.toNat ++ bytesLE 4 mask.toNat ++
    bytesLE 4 r.mode.toNat ++ bytesLE 4 (domainWord (s.depthOf g) x.arch.dom).toNat ++ List.replicate 220 0 ++
    emuBlock r n (opdOf w) ++ emuBlock r n (opaOf w) ++ emuBlock r n (opbOf w)

/-- Key of the group's emulation frame: a slot's 4 KiB in Thavin's part of HBM. -/
def emuKey (s : State) (g : Nat) : Nat := Space.hbm.key (Config.emulationFrame (s.coreOf g) (s.grp g).slot % Config.hbmEnd / 4096 * 4096)

/-- A retired word that is per-thread has the effective mask of its guard; a uniform one LIVE (R121). -/
def retiredMask (x : Group) (w : IWord) : W32 :=
  match opcOf w with
  | 0x170 => effMask x (encOf w)
  | 0x270 => effMask x (encOf w)
  | _ => x.live

/-- An address in Thavin's firmware region, VA[56:53] = 15 (R346). -/
def inFirmware (va : W64) : W64 := va ||| 0xFFE0000000000000

/-- Entry of Thavin's handler for a retired opcode; bits [1:0] of a PC are zero (R106, R346). -/
def handlerVa (opc : Nat) : W64 := inFirmware (Config.handlerPc opc &&& ~~~3)

/-- Virtual address of a slot's emulation frame of 4 KiB (R346). -/
def emulationBase (core slot : Nat) : W64 := inFirmware (Config.emulationVa core slot &&& ~~~4095)

/-- EMULATION_ENTRY (R346): the registers are hidden, the frame is filled, and the handler follows. -/
def State.enterEmulation (s : State) (g : Nat) (w : IWord) : State :=
  let x := s.grp g
  let m := retiredMask x w
  let k := emuKey s g
  let bs := emuFrame s g w m
  let ks := (List.range 4096).map (k + ·)
  let s1 := (s.purge ks).pocWrite (fun _ => false) x.arch.ctx (bs.zipIdx.map fun b => (k + b.2, b.1, false))
  let x0 : XReg := { frame := BitVec.ofNat 52 (k % 2 ^ 52), limit := 4096, base := emulationBase (s.coreOf g) x.slot
                     stale := false, psz := 0, space := .hbm, perm := some { r := true, w := true, x := false } }
  let em : Emulation := { saved := x.arch.regs, dom := x.arch.dom, pc := x.arch.pc, word := w, mask := m
                          inval := (s.cx x.arch.ctx).inval, stepping := x.stepping }
  let regs : Regs := { Regs.entry with x := Regs.entry.x.set 0 x0 }
  (s1.modG g fun y =>
    { y with stepping := false, arch := { y.arch with pc := handlerVa (opcOf w), regs := regs, dom := 0, emu := some em } }).enterRun g |>.syncDue g 2

/-- A field of the emulation frame as the group sees it. -/
def emuField (s : State) (g off n : Nat) : Nat :=
  leNat ((List.range n).map fun i => (s.viewByte g (emuKey s g + off + i)).1)

/-- The group's own registers come back (R347); what an open reach wrote as the handler's counts under numbers of its own. -/
def State.leaveEmulation (s : State) (g : Nat) (em : Emulation) : State :=
  let x := s.grp g
  let regs : Regs := { em.saved with x := restoreX em.saved.x ((s.cx x.arch.ctx).inval != em.inval) }
  ((s.endLines g 5 ((s.curReach g).map (·.id))).modG g fun y =>
    { y with stepping := y.stepping || em.stepping
             reaches := y.reaches.map fun r => { r with written := r.written.map (256 + ·) }, arch := { y.arch with pc := em.pc, regs := regs, dom := em.dom, emu := none } }).syncDue g 2 |>.releasePermit g |>.reInval (s.grp g).arch.ctx

/-- Whether a commit mask names a register outside the allocation (R60, R347). -/
def emuBad (d : Desc) (o : Operand) (m : Nat) : Bool :=
  ((List.range 4).any fun i => m / 2 ^ i % 2 = 1 && match o with
    | .vec reg _ _ _ => decide (min 256 d.vregs ≤ reg.toNat + i)
    | _ => true) ||
  (decide (m / 16 % 2 = 1) && match o with
    | .scal n => decide (d.sregs ≤ n.toNat)
    | _ => true)

/-- Vector registers that a commit mask names. -/
def emuRegs (d : Operand) (m : Nat) : List Nat := ((List.range 4).filter fun i => m / 2 ^ i % 2 = 1).map (opReg d + ·)

/-- The results that an emulation frame records are written (R347). -/
def State.emuCommit (s0 : State) (g : Nat) (d : Operand) (m : Nat) (s : State) : State :=
  let live := (s.grp g).live
  let vec := (List.range 4).foldl (fun (s : State) i =>
    if m / 2 ^ i % 2 = 1 then
      s.putV g (opReg d + i) live fun t =>
        (BitVec.ofNat 32 (emuField s0 g (0x900 + 128 * i + 4 * t) 4), (emuField s0 g (0x840 + 4 * i) 4).testBit t)
    else s) s
  let sc := if m / 16 % 2 = 1 then
      vec.putS g (opReg d) (BitVec.ofNat 64 (emuField s0 g 0x808 8)) ((emuField s0 g 0x840 4).testBit 0)
    else vec
  let pr := if m / 32 % 2 = 1 then sc.putP g (opReg d) 0xFFFFFFFF (BitVec.ofNat 32 (emuField s0 g 0x810 4)) else sc
  if m / 64 % 2 = 1 then pr.modR g fun r => { r with mode := r.mode ||| (BitVec.ofNat 32 (emuField s0 g 0x814 4) &&& 0x1F00) } else pr

/-- EMUR 0 (R296, R347): the recorded results are committed, SIG is fed and the group goes past the word; a register
outside the allocation raises illegal operand on it. -/
def State.emuDone (s : State) (g : Nat) (em : Emulation) : State :=
  let d := operandOf (opdOf em.word)
  let m := emuField s g 0x800 8
  let back := s.leaveEmulation g em
  if emuBad (s.descOf g) d m then back.takeTrap g (.operandN 1) em.pc em.word
  else (State.emuCommit s g d m back |>.feedSig g (unitOf em.word)).jump g (em.pc + 12)

/-- EMUR 1 (R296, R347): the trap that the frame names is raised on the retired word. -/
def State.emuTrap (s : State) (g : Nat) (em : Emulation) : State :=
  let t : TrapInfo := { cls := classOfCode (emuField s g 0x818 2), operand := emuField s g 0x81A 1 % 4, imm := 0
                        s2 := BitVec.ofNat 64 (emuField s g 0x820 8) }
  (s.leaveEmulation g em).takeTrap g t em.pc em.word

/-- EMUR (R296, R347). -/
def emurEff : Eff := fun c s =>
  match (s.grp c.g).arch.emu with
  | none => .error (.trap (.of .permission))
  | some em =>
    if !(s.grp c.g).loads.isEmpty then .error .hold
    else if opImm c.e.d = 0 then
      let (d, m) := (operandOf (opdOf em.word), emuField s c.g 0x800 8)
      if emuBad (s.descOf c.g) d m then .error (.goto (s.emuDone c.g em))
      else if !(s.leaveEmulation c.g em).regsRoom c.g (emuRegs d m) then .error .hold
      else .ok (s.emuDone c.g em)
    else .error (.goto (s.emuTrap c.g em))

/-- EMUR (R296). -/
def execEmur (e : Enc) (s : State) : Out := issue (.emur e) e emurEff s

/-- A retired word (R121, R340): an escalated trap, which seals at delivery; inside an emulation it ends the emulated
context as any trap there but a page fault does (R346). -/
def retiredWord (i : Instr) (w : IWord) (s : State) : Out :=
  match s.groups[s.cur]? with
  | none => .refused .noGroup
  | some _ =>
    let g := s.cur
    if !s.canTake g i (encOf w) then .next s
    else if (s.grp g).arch.emu.isSome then .next (s.takeTrap g (.of .retired) (s.grp g).arch.pc w)
    else .next ((s.enterReplay g .retired 0 false).modG g fun x => { x with replay := x.replay.map fun r => { r with word := w } })

/-- VDOT4 (R121, R356). -/
def execVdot4 (w : IWord) (s : State) : Out := retiredWord (.vdot4 w) w s

/-- VSWZ (R121). -/
def execVswz (w : IWord) (s : State) : Out := retiredWord (.vswz w) w s

/-- SBAR (R121). -/
def execSbar (w : IWord) (s : State) : Out := retiredWord (.sbar w) w s

/-- CPYL (R121). -/
def execCpyl (w : IWord) (s : State) : Out := retiredWord (.cpyl w) w s

/-- MMA16 (R121). -/
def execMma16 (w : IWord) (s : State) : Out := retiredWord (.mma16 w) w s

/-- MMAC16 (R121). -/
def execMmac16 (w : IWord) (s : State) : Out := retiredWord (.mmac16 w) w s

/-! ### Decode and fetch -/

/-- What a failed decode check raises (R115, R116). -/
def decodeInfo (t : DecodeTrap) : TrapInfo :=
  match t with
  | .retired => .of .retired
  | .illegalOpcode => .of .illegalOpcode
  | .illegalHint => .of .illegalHint
  | .illegalEncoding => .of .illegalEncoding
  | .illegalOperand n => .operandN n

/-- ILLEGAL_OPCODE (R115, R116): a word that fails a decode check is not issued and raises its trap at its PC. -/
def execIllegalOpcode (w : IWord) (s : State) : Out :=
  match s.groups[s.cur]? with
  | none => .refused .noGroup
  | some x =>
    match decodeIn (s.allocOf s.cur) w with
    | .ok _ => .next s
    | .error t => .next (if State.recordAwaited (s.grp s.cur) then s else s.takeTrap s.cur (decodeInfo t) x.arch.pc w)

/-- FETCH_FAULT (R106, R344): the first faulting byte's address; a missing page is serviced, a permission fault is
delivered. -/
def execFetchFault (s : State) : Out :=
  match s.groups[s.cur]? with
  | none => .refused .noGroup
  | some x =>
    match s.fetch s.cur with
    | (.ok _, _) => .next s
    | (.error (true, va), s1) => .next (s1.enterReplay s.cur .pageFault va true)
    | (.error (false, va), s1) => .next (if State.recordAwaited (s1.grp s.cur) then s1 else s1.takeTrap s.cur (.at_ .permission va) x.arch.pc 0)

/-! ### Permits (R343) -/

/-- Handler code writes bytes of the emulation frame. -/
def State.emuWrite (s : State) (g off : Nat) (bs : List Byte) : State :=
  s.pocWrite (fun _ => false) (s.grp g).arch.ctx (bs.zipIdx.map fun b => (emuKey s g + off + b.2, b.1, false))

/-- Handler code records a trap of the emulated word: its class, the field that failed, and no address (R347). -/
def State.emuResult (s : State) (g : Nat) (c : TrapClass) (n : Nat) : State :=
  ((s.emuWrite g 0x818 (bytesLE 2 (classCode c))).emuWrite g 0x81A (bytesLE 1 n)).emuWrite g 0x820 (bytesLE 8 0)

/-- Whether a VDOT4 refuses a field: one that is no vector register, a reserved permutation or one out of range, a permutation
of the destination, or NEG or ABS, which no integer position takes (R109, R110, R356). -/
def vdotKind (dst : Bool) (o : Operand) : Bool :=
  match o with
  | .vec _ p neg abs => !p.ok || neg || abs || (dst && p != .none)
  | _ => true

/-- An argument under permutation mode 000 (R110). -/
def modeArg (o : Operand) : Bool :=
  match o with
  | .vec _ (.resv m _) _ _ => m == 0
  | _ => false

/-- What a VDOT4's handler finds wrong with its fields (R356): a class and the first failing field. DEDUCED (log 31): an
argument under mode 000 comes first, as check 6 of R115 does. -/
def vdotBad (d : Desc) (w : IWord) : Option (TrapClass × Nat) :=
  let fs := [(1, operandOf (opdOf w)), (2, operandOf (opaOf w)), (3, operandOf (opbOf w))]
  if fs.any fun f => modeArg f.2 then some (.illegalEncoding, 0)
  else
    match fs.find? fun f => vdotKind (f.1 == 1) f.2 with
    | some f => some (.illegalOperand, f.1)
    | none => (fs.find? fun f => decide (min 256 d.vregs ≤ opReg f.2)).map fun f => (.illegalOperand, f.1)

/-- Sum of the products of the signed bytes of two words (R356). -/
def dot4 (a b : W32) : W32 :=
  (List.range 4).foldl (fun x i => x + (a.extractLsb' (8 * i) 8).signExtend 32 * (b.extractLsb' (8 * i) 8).signExtend 32) 0

/-- A thread's result of VDOT4 with its poison: outside the effective mask, vd as it was (R356). -/
def vdotThread (r : Regs) (w : IWord) (m : W32) (t : Nat) : W32 × Bool :=
  let d := operandOf (opdOf w)
  if m.getLsbD t then
    let x := read32 r .i32 d t
    let a := read32 r .i32 (operandOf (opaOf w)) t
    let b := read32 r .i32 (operandOf (opbOf w)) t
    (x.1 + dot4 a.1 b.1, x.2 || a.2 || b.2)
  else (r.vt (opReg d) t, r.vpt (opReg d) t)

/-- Thavin's handler for VDOT4 from the group's entry to its EMUR (R356). -/
def State.vdotHandler (s : State) (g : Nat) : State :=
  match (s.grp g).arch.emu with
  | none => s
  | some em =>
    match vdotBad (s.descOf g) em.word with
    | some (c, n) => (s.emuResult g c n).emuTrap g em
    | none =>
      let r := fun t => vdotThread em.saved em.word em.mask t
      let s1 := (s.emuWrite g 0x800 (bytesLE 8 1)).emuWrite g 0x840 (bytesLE 4 (maskOf fun t => (r t).2).toNat)
      let s2 := (s1.emuWrite g 0x900 ((List.range 32).flatMap fun t => bytesLE 4 (r t).1.toNat)).emuDone g em
      if (s2.grp g).stepping && (s2.grp g).st == .run then s2.requestHalt g else s2

/-- A uniform retired word whose guard is not GN 0 and GP 15 (R121). -/
def uniformGuarded (w : IWord) : Bool :=
  opcOf w != 0x170 && opcOf w != 0x270 && ((encOf w).gn || (encOf w).gp != 15)

/-- Thavin's handler for such a word, from the group's entry to its EMUR 1 with class illegal-encoding (R121). -/
def State.uniformHandler (s : State) (g : Nat) : State :=
  match (s.grp g).arch.emu with
  | none => s
  | some em => (s.emuResult g .illegalEncoding 0).emuTrap g em

/-- What a group does with its permit: a page fault waits for service, a retired word enters emulation (of VDOT4, and
of a uniform word under a guard, the whole handler is known), and a fatal escalation ends the frame or the context (R342, R344, R346, R356). -/
def State.usePermit (s : State) (g : Nat) (r : Replay) : State :=
  let fatal := ((if s.depthOf g = 0 then s.record (.trap g r.info) else s).abandon g 2 (classCode r.cls)).releasePermit g
  if r.fatal then fatal
  else
  match r.cls with
  | .pageFault => s.record (.pageFault g r.va r.entry)
  | .retired =>
    let s1 := s.enterEmulation g r.word
    if uniformGuarded r.word then s1.uniformHandler g else if opcOf r.word = 0x170 then s1.vdotHandler g else s1
  | _ => fatal

/-- Groups of a group's core that seek a permit too, on a lower scheduler or in a lower slot of the same one: they come
first (R343). -/
def State.seekersBefore (s : State) (g : Nat) : List Nat :=
  let c := s.coreOf g
  (s.groupsOn c).filter fun h =>
    let y := s.grp h
    y.st == .replay && y.reaches.isEmpty && !(s.cor c).permits.contains h && decide (y.slot < (s.grp g).slot) &&
      (y.replay.map fun r => !r.permit && r.backoff.isNone) == some true

/-- Whether a retired word can enter emulation: its group's loads have returned, no store of an earlier emulation is on its way
into the emulation frame, and the lane file has room for the result of VDOT4, whose handler runs at once (R67, R346).
DEDUCED (log 31): the hidden registers are the group's as its loads leave them, and the frame is the handler's. -/
def State.emuReady (s : State) (g : Nat) (r : Replay) : Bool :=
  let k := emuKey s g
  let in_ := fun (a : Nat) => decide (k ≤ a) && decide (a < k + 4096)
  r.cls != .retired || r.fatal || ((s.grp g).loads.isEmpty &&
    !((s.poundOf g).any fun e => e.gid == g && match e.kind with
      | .store sec _ _ => in_ sec
      | .atomr accs _ => accs.any fun a => in_ a.key
      | _ => false) &&
    (opcOf r.word != 0x170 || s.regsRoom g [opReg (operandOf (opdOf r.word))]))

/-- TRAP_PERMIT_ACQUIRE (R343): once its reaches have cleared, the group takes a permit, or backs off; a page fault in
an emulation is served under the permit that the emulation holds (R346). -/
def execTrapPermitAcquire (g : Nat) (s : State) : Out :=
  let x := s.grp g
  match x.replay with
  | none => .next s
  | some r =>
    if x.st != .replay || !s.resident x.team || !x.reaches.isEmpty || r.permit || r.backoff.isSome || !s.emuReady g r then .next s
    else
      let c := s.coreOf g
      let own := (s.cor c).permits.contains g
      if own || decide ((s.cor c).permits.length + (s.seekersBefore g).length < Config.trapPermits) then
        let s1 := (s.modC c fun k => if own then k else { k with permits := k.permits ++ [g] }).modG g fun x =>
          { x with refused := 0, replay := x.replay.map fun q => { q with permit := true } }
        .next (s1.usePermit g r)
      else
        let n := min x.refused 8
        .next (s.modG g fun x =>
          { x with refused := x.refused + 1, replay := x.replay.map fun q => { q with backoff := some ((s.cor c).fe + 64 * 2 ^ n) } })

/-- PERMIT_BACKOFF_EXPIRY (R343, R354): the group returns to RUN and retries the instruction whole. -/
def execPermitBackoffExpiry (g : Nat) (s : State) : Out :=
  let x := s.grp g
  let fe := (s.cor (s.coreOf g)).fe
  match x.replay with
  | none => .next s
  | some r =>
    match r.backoff with
    | some t => .next (if x.st == .replay && decide (t ≤ fe) then
        s.enterRun g else s)
    | none => .next s

end Sys2Proof.Machine
end

