-- ==== Sys2Proof/Machine/Meaning.lean ====
section
/-! DEFINITION. What a group would do with its next instruction: the instructions that a group issues, by their meanings, so
that the choice of R45 and the counts of R46 and R48 can tell a group that is ready but for its toll from one in a wait of
R399. -/

namespace Sys2Proof.Machine

/-- The meaning of an instruction that a group issues; none of a step of the device. -/
def groupMeaning : Instr → Option (State → Out)
  | .sadd w e => some (execSadd w e)
  | .ssub w e => some (execSsub w e)
  | .smul w e => some (execSmul w e)
  | .smulh w e => some (execSmulh w e)
  | .smulhu w e => some (execSmulhu w e)
  | .sdiv w e => some (execSdiv w e)
  | .sdivu w e => some (execSdivu w e)
  | .srem w e => some (execSrem w e)
  | .sremu w e => some (execSremu w e)
  | .sand w e => some (execSand w e)
  | .sor w e => some (execSor w e)
  | .sxor w e => some (execSxor w e)
  | .sandn w e => some (execSandn w e)
  | .sshl w e => some (execSshl w e)
  | .sshr w e => some (execSshr w e)
  | .ssra w e => some (execSsra w e)
  | .srol w e => some (execSrol w e)
  | .smin w e => some (execSmin w e)
  | .smax w e => some (execSmax w e)
  | .sminu w e => some (execSminu w e)
  | .smaxu w e => some (execSmaxu w e)
  | .sclz w e => some (execSclz w e)
  | .sctz w e => some (execSctz w e)
  | .spopc w e => some (execSpopc w e)
  | .sbrev w e => some (execSbrev w e)
  | .sbfx w e => some (execSbfx w e)
  | .sbfxu w e => some (execSbfxu w e)
  | .sbfi w e => some (execSbfi w e)
  | .ssel e => some (execSsel e)
  | .smov e => some (execSmov e)
  | .smovi e => some (execSmovi e)
  | .smovh e => some (execSmovh e)
  | .scmp c w e => some (execScmp c w e)
  | .sgetsr e => some (execSgetsr e)
  | .ssetsr e => some (execSsetsr e)
  | .sld w e => some (execSld w e)
  | .sldu w e => some (execSldu w e)
  | .sst w e => some (execSst w e)
  | .anch e => some (execAnch e)
  | .bra e => some (execBra e)
  | .brz e => some (execBrz e)
  | .brnz e => some (execBrnz e)
  | .brany e => some (execBrany e)
  | .brall e => some (execBrall e)
  | .brnone e => some (execBrnone e)
  | .call e => some (execCall e)
  | .calli e => some (execCalli e)
  | .ret e => some (execRet e)
  | .jmpi e => some (execJmpi e)
  | .loop e => some (execLoop e)
  | .nop e => some (execNop e)
  | .yield e => some (execYield e)
  | .exit e => some (execExit e)
  | .vadd w e => some (execVadd w e)
  | .vsub w e => some (execVsub w e)
  | .vmul e => some (execVmul e)
  | .vmulh e => some (execVmulh e)
  | .vmulhu e => some (execVmulhu e)
  | .vmad e => some (execVmad e)
  | .vand e => some (execVand e)
  | .vor e => some (execVor e)
  | .vxor e => some (execVxor e)
  | .vandn e => some (execVandn e)
  | .vshl e => some (execVshl e)
  | .vshr e => some (execVshr e)
  | .vsra e => some (execVsra e)
  | .vmin e => some (execVmin e)
  | .vmax e => some (execVmax e)
  | .vminu e => some (execVminu e)
  | .vmaxu e => some (execVmaxu e)
  | .vclz e => some (execVclz e)
  | .vpopc e => some (execVpopc e)
  | .vbfx e => some (execVbfx e)
  | .vbfxu e => some (execVbfxu e)
  | .vbfi e => some (execVbfi e)
  | .vsel e => some (execVsel e)
  | .vmov w e => some (execVmov w e)
  | .vidx e => some (execVidx e)
  | .vfadd t e => some (execVfadd t e)
  | .vfsub t e => some (execVfsub t e)
  | .vfmul t e => some (execVfmul t e)
  | .vfma t e => some (execVfma t e)
  | .vfmin t e => some (execVfmin t e)
  | .vfmax t e => some (execVfmax t e)
  | .vfdiv t e => some (execVfdiv t e)
  | .vfsqrt t e => some (execVfsqrt t e)
  | .vfrcp t e => some (execVfrcp t e)
  | .vfrsq t e => some (execVfrsq t e)
  | .vfex2 t e => some (execVfex2 t e)
  | .vflg2 t e => some (execVflg2 t e)
  | .vfclass t e => some (execVfclass t e)
  | .vcvt k e => some (execVcvt k e)
  | .vcvt8 k e => some (execVcvt8 k e)
  | .vpk4 e => some (execVpk4 e)
  | .vupk4 e => some (execVupk4 e)
  | .vcmp c e => some (execVcmp c e)
  | .vfcmp c t e => some (execVfcmp c t e)
  | .pand e => some (execPand e)
  | .por e => some (execPor e)
  | .pxor e => some (execPxor e)
  | .pnot e => some (execPnot e)
  | .pmovs e => some (execPmovs e)
  | .psets e => some (execPsets e)
  | .pcnt e => some (execPcnt e)
  | .vshfl e => some (execVshfl e)
  | .xswap e => some (execXswap e)
  | .sred op e => some (execSred op e)
  | .vscan op e => some (execVscan op e)
  | .ldv w e => some (execLdv w e)
  | .stv w e => some (execStv w e)
  | .ldsh w e => some (execLdsh w e)
  | .stsh w e => some (execStsh w e)
  | .atom f e => some (execAtom f e)
  | .acas w e => some (execAcas w e)
  | .atomr f e => some (execAtomr f e)
  | .atomsh f e => some (execAtomsh f e)
  | .bbind e => some (execBbind e)
  | .bunbind e => some (execBunbind e)
  | .bflush e => some (execBflush e)
  | .fence sc k e => some (execFence sc k e)
  | .ifence e => some (execIfence e)
  | .cflush sc e => some (execCflush sc e)
  | .cinv sc e => some (execCinv sc e)
  | .pref e => some (execPref e)
  | .bar e => some (execBar e)
  | .bara e => some (execBara e)
  | .barw e => some (execBarw e)
  | .waita e => some (execWaita e)
  | .waitc e => some (execWaitc e)
  | .barx e => some (execBarx e)
  | .cpy e => some (execCpy e)
  | .cpy2 e => some (execCpy2 e)
  | .cpyr e => some (execCpyr e)
  | .mldw f t e => some (execMldw f t e)
  | .mloop e => some (execMloop e)
  | .mrdy e => some (execMrdy e)
  | .mbatch e => some (execMbatch e)
  | .mwait e => some (execMwait e)
  | .mzero e => some (execMzero e)
  | .msta f e => some (execMsta f e)
  | .mlda e => some (execMlda e)
  | .mrda e => some (execMrda e)
  | .mwra e => some (execMwra e)
  | .qnt e => some (execQnt e)
  | .mfmt e => some (execMfmt e)
  | .gcall e => some (execGcall e)
  | .gret e => some (execGret e)
  | .trap e => some (execTrap e)
  | .tret e => some (execTret e)
  | .sigchk e => some (execSigchk e)
  | .reach e => some (execReach e)
  | .lnch e => some (execLnch e)
  | .brk e => some (execBrk e)
  | .dbgm e => some (execDbgm e)
  | .trc e => some (execTrc e)
  | .sleep e => some (execSleep e)
  | .emur e => some (execEmur e)
  | _ => none

/-- Whether a group that came to its instruction would issue it now, were its toll payable: with tokens enough, it issues,
traps or enters WAIT. What is left are the waits of R399, in which the group is not ready. -/
def State.readyFor (s : State) (g : Nat) (i : Instr) : Bool :=
  match groupMeaning i with
  | none => true
  | some m =>
    let x := s.grp g
    let fe := (s.cor (s.coreOf g)).fe
    let rich := (s.modC (s.coreOf g) fun k => { k with free := 1024, resv := k.resv.filter fun r => r.gid != g }).modG g
      fun x => { x with lastIssue := fe + 1 }
    match m { rich with cur := g } with
    | .next t =>
      let y := t.grp g
      y.lastIssue == fe || y.st != .run || y.arch.pc != x.arch.pc || y.arch.frames.length != x.arch.frames.length ||
        y.arch.emu.isSome != x.arch.emu.isSome
    | _ => false

end Sys2Proof.Machine
end

