-- ==== Sys2Proof/Machine/Issue.lean ====
section
/-! DEFINITION. The choice of a group to issue (R45, R46), reservations and promotion (R46 to R48), the towpath
ring (R47, R357, R370), and the claims of the engines (R359, R363). -/

namespace Sys2Proof.Machine

/-! ### Choice (R45, R46) -/

/-- Steps that a retired word raises before it issues (R346). -/
def isRetired : Instr → Bool
  | .vdot4 _ => true
  | .vswz _ => true
  | .sbar _ => true
  | .cpyl _ => true
  | .mma16 _ => true
  | .mmac16 _ => true
  | _ => false

namespace State

/-- A group's next instruction, if the group has come to it: its toll (R45). What fetch or decode raises has no toll. The
waits that only an attempt finds (R399) are `readyNow`'s. -/
def wants (s : State) (g : Nat) : Option Nat :=
  if !s.canRun g || !s.fetchReady g then none
  else
    let (i, s1) := nextInstr s g
    match enc? i with
    | none => some 0
    | some e =>
      if isRetired i then some 0
      else if s1.canTake g i e && s1.prepared g i e then
        let x := s.grp g
        some (tollOf x.arch.regs (if (form i).t then effMask x e else x.live) i)
      else none

/-- Whether a group that has come to its next instruction is ready but for its toll (R45, R399). -/
def readyNow (s : State) (g : Nat) : Bool :=
  let (i, s1) := nextInstr s g
  isRetired i || s1.ibpHit g (s.grp g).arch.pc || s1.readyFor g i

/-- Toll of a group's next instruction. -/
def nextToll (s : State) (g : Nat) : Nat :=
  let i := (nextInstr s g).1
  let x := s.grp g
  match enc? i with
  | none => 0
  | some e => if isRetired i then 0 else tollOf x.arch.regs (if (form i).t then effMask x e else x.live) i

/-- What a group's next instruction does before the wait for readiness: a seal's wait or a head (R167); it is the
instruction's meaning in a group that is not ready. What fetch, decode, a breakpoint or a retired word raises comes before
it. -/
def prepareNext (s : State) (g : Nat) : State :=
  if !s.atBoundary g || !s.fetchReady g then s
  else
    let (i, s1) := nextInstr s g
    if s1.ibpHit g (s.grp g).arch.pc then s
    else
      match groupMeaning i with
      | none => s
      | some m =>
        let y := (s.grp g).yieldUntil
        match m { s.modG g fun x => { x with yieldUntil := (s.cor (s.coreOf g)).fe + 1 } with cur := g } with
        | .next t => { t.modG g fun x => { x with yieldUntil := y } with cur := s.cur }
        | _ => s

/-- A group's place in the order of R46: rule 1, rule 2, priority, issue age, slot. -/
structure Rank where
  /-- position of its filled reservation among the core's -/
  filled : Option Nat
  promoted : Bool
  prio : Nat
  age : Nat
  slot : Nat
deriving DecidableEq, Repr

/-- Whether one group comes before another (R46). -/
def Rank.before (a b : Rank) : Bool :=
  match a.filled, b.filled with
  | some m, some n => decide (m < n)
  | some _, none => true
  | none, some _ => false
  | none, none =>
    if a.promoted && b.promoted then decide (b.age < a.age) || (decide (a.age = b.age) && decide (a.slot < b.slot))
    else if a.promoted != b.promoted then a.promoted
    else if a.prio ≠ b.prio then decide (b.prio < a.prio)
    else if a.age ≠ b.age then decide (b.age < a.age)
    else decide (a.slot < b.slot)

def rank (s : State) (g : Nat) : Rank :=
  let k := s.cor (s.coreOf g)
  { filled := k.resv.findIdx? fun r => r.gid == g && decide (r.toll ≤ r.heldTok)
    promoted := (s.grp g).promoted, prio := (s.lch (s.launchOf g)).prio
    age := k.fe - (s.grp g).lastIssue, slot := (s.grp g).slot }

def insertRank (s : State) (g : Nat) : List Nat → List Nat
  | [] => [g]
  | h :: hs => if Rank.before (s.rank g) (s.rank h) then g :: h :: hs else h :: insertRank s g hs

/-- A scheduler's groups that could issue but for their tolls, in the order of R46. -/
def candidatesOf (s : State) (core sched : Nat) : List Nat :=
  ((s.groupsOn core).filter fun g => (s.grp g).slot / 16 == sched && (s.wants g).isSome).foldl
    (fun acc g => s.insertRank g acc) []

/-- Counters of the groups that a scheduler passes over (R46, R48): one that can pay was ready; one that cannot was
denied; one in a wait of R399 was neither. -/
def passOver (s : State) (cs : List Nat) (chosen : Option Nat) : State :=
  cs.foldl (fun s' g =>
    if chosen = some g then s'
    else if !s.readyNow g then s'.modG g fun x => { x with readyFor := 0, promoted := false }
    else if s.payable g ((s.wants g).getD 0) then s'.modG g fun x => { x with readyFor := x.readyFor + 1 }
    else s'.modG g fun x => { x with denied := x.denied + 1, readyFor := 0, promoted := false }) s

/-- Each reservation is for the toll of its group's next instruction, which a squash may have changed (R47). -/
def refreshResv (s : State) (core : Nat) : State :=
  let rs := (s.cor core).resv.map fun r => { r with toll := s.nextToll r.gid }
  s.modC core fun k => { k with resv := rs }

end State

/-- A front-end cycle begins: the core's groups come to their next instructions. -/
def State.cycleStart (s : State) (core : Nat) : State :=
  (((s.groupsOn core).foldl State.prepareNext s).refreshResv core).modC core fun k => { k with fe := k.fe + 1 }

/-- ISSUE_SELECT (R45, R46): a front-end cycle of a core. Each scheduler's candidates are lined up in the order of
R46; the first whose instruction is then ready issues. -/
def execIssueSelect (core : Nat) (s : State) : Out :=
  let s0 := s.cycleStart core
  let lists := (List.range 4).map (s0.candidatesOf core)
  let all := lists.flatten
  let r := lists.foldl (fun (acc : State × State) cs =>
    let pick := cs.find? fun g => acc.1.payable g ((s0.wants g).getD 0) && s0.readyNow g
    let counted := (acc.1.passOver cs pick)
    let paid := match pick with
      | some g => acc.1.payToll g ((s0.wants g).getD 0)
      | none => acc.1
    (paid, { acc.2 with groups := counted.groups.zipIdx.map fun x => if cs.contains x.2 then x.1 else acc.2.grp x.2 })) (s0, s0)
  let s1 := (s0.groupsOn core).foldl (fun s g =>
    if all.contains g then s else s.modG g fun x => { x with readyFor := 0, promoted := false }) r.2
  .next { s1 with selected := s1.selected ++ lists.filter fun cs => !cs.isEmpty }

/-- TOKEN_RESERVATION (R48). -/
def execTokenReservation (g : Nat) (s : State) : Out :=
  let x := s.grp g
  let c := s.coreOf g
  match s.wants g with
  | none => .next s
  | some toll =>
    if x.denied < 512 ∨ ((s.cor c).resv.any fun r => r.gid == g) = true then .next s
    else .next (s.modC c fun k => { k with resv := k.resv ++ [{ gid := g, toll := toll, heldTok := 0 }] })

/-- ISSUE_PROMOTION (R46). -/
def execIssuePromotion (g : Nat) (s : State) : Out :=
  if (s.grp g).st == .run && decide (2048 ≤ (s.grp g).readyFor) then .next (s.modG g fun x => { x with promoted := true })
  else .next s

/-! ### The ring (R47, R357, R370) -/

/-- Tokens held for the reservations of a core. -/
def heldTokens (k : Core) : Nat := (k.resv.map (·.heldTok)).foldl (· + ·) 0

/-- Tokens go to the oldest unfilled reservation first; what is left over (R47). -/
def fillResv : List Resv → Nat → List Resv × Nat
  | [], n => ([], n)
  | r :: rs, n =>
    let m := min n (r.toll - r.heldTok)
    let q := fillResv rs (n - m)
    ({ r with heldTok := r.heldTok + m } :: q.1, q.2)

/-- Rate per lane cycle of a cluster, from the rate per front-end cycle, as a fraction (R358) whose denominator is the same at
every ratio. -/
def laneRate (num den : Nat) (r : Ratio) : Nat × Nat :=
  match r with
  | .half => (4 * num, 2 * den)
  | .one => (2 * num, 2 * den)
  | .two => (num, 2 * den)

/-- Whole tokens that the ring delivers in a lane cycle, and the fraction carried on (R357, R370). -/
def ringTokens (acc num den : Nat) : Nat × Nat := (min 32 ((acc + num) / max 1 den), (acc + num) % max 1 den)

/-- The ring's tokens of the core's coming lane cycle, unless it has had them (R47, R357, R370): a core that has resident
groups takes what its reservations and its reservoir have room for. -/
def State.towpath (s : State) (core : Nat) : State :=
  let rate := laneRate s.power.rateNum s.power.rateDen (s.clu (core / 8)).ratio
  if (s.cor core).lc < (s.cor core).fed then s
  else if (s.groupsOn core).isEmpty then s.modC core fun k => { k with fed := k.lc + 1 }
  else
    (s.refreshResv core).modC core fun k =>
      let t := ringTokens k.ringAcc rate.1 rate.2
      let n := min t.1 (Config.reservoir - (k.free + heldTokens k))
      let q := fillResv k.resv n
      { k with ringAcc := t.2, resv := q.1, free := k.free + q.2, fed := k.lc + 1 }

/-- TOWPATH_DELIVERY (R47, R357, R370): the tokens of one lane cycle reach a core. -/
def execTowpathDelivery (core : Nat) (s : State) : Out := .next (s.towpath core)

/-! ### Claims of the engines (R359, R363) -/

namespace State

/-- Take tokens for a group's work. -/
def spend (s : State) (core g n : Nat) : State :=
  let ctx := s.homeCtx g
  s.modC core fun k => { k with free := k.free - n, spent := addSpent k.spent ctx n }

/-- Rows of the macros, by macro number: each claims its toll once its interval is over; one that cannot pay holds
back every later claim (R262, R359). A macro that has stopped for a change of ratio claims nothing (R20). The result tells
whether claims go on. -/
def claimRows (s : State) (core : Nat) : Bool × State :=
  (List.range 8).foldl (fun (a : Bool × State) m =>
    if !a.1 || (s.clu (core / 8)).changing then a
    else
      match (a.2.onMacro core m).head? with
      | none => a
      | some (o, x) =>
        let fmt := match o.kind with
          | .mloop _ c _ _ => ctlFmt c
          | _ => none
        let toll := (fmt.map rowToll).getD 0
        if decide (32 ≤ x.rows) || x.paid || decide ((a.2.cor core).lc < (fmt.map fun f => stepDue (a.2.cor core).cad f x).getD x.lastAt) then a
        else if (a.2.cor core).free < toll then (false, a.2)
        else (true, (a.2.spend core o.gid toll).modStep core o.id x.k fun y => { y with paid := true })) (true, s)

/-- The sequencer's stash movement of one lane cycle (R275, R359); a cycle whose bytes are paid, or that only aligns, needs
no claim. -/
def claimMove (s : State) (core : Nat) (claims : Bool) : Bool × State :=
  match (s.cor core).ops.find? fun o => o.moving with
  | none => (claims, s)
  | some o =>
    let k := s.cor core
    if moveCycles o.kind ≤ k.moved || (s.clu (core / 8)).changing then (claims, s)
    else if moveToken o.kind k.moved then
      if !claims || k.free = 0 then (false, s)
      else (true, (s.spend core o.gid 1).modC core fun k => { k with moved := k.moved + 1 })
    else (claims, s.modC core fun k => { k with moved := k.moved + 1 })

/-- The copy engine: the oldest copy that still owes tokens and is not stopped (R20, R239, R359). -/
def claimCopy (s : State) (core : Nat) : Bool × State :=
  match (s.cor core).copies.find? fun c => decide (0 < c.tokens) && !s.halts core c with
  | none => (true, s)
  | some c =>
    if (s.cor core).free = 0 then (false, s)
    else (true, (s.spend core c.gid 1).modCopy core c.id fun x => { x with tokens := x.tokens - 1 })

/-- Tokens that groups and engines of a core, and that of a die, have spent in this interval; ballast apart. -/
def coreSpend (k : Core) : Nat := (k.spent.map (·.2)).foldl (· + ·) 0

def dieCores (s : State) (die : Nat) : List Core := (s.cores.drop (96 * die)).take 96

def dieSpend (s : State) (die : Nat) : Nat := ((s.dieCores die).map coreSpend).foldl (· + ·) 0

def dieBallast (s : State) (die : Nat) : Nat := ((s.dieCores die).map (·.ballast)).foldl (· + ·) 0

/-- Tokens that the ring has given a die's resident cores in this interval, by the rate that P allows (R358). -/
def dieBudget (s : State) (die : Nat) : Nat :=
  let n := ((List.range 96).filter fun i => !(s.groupsOn (96 * die + i)).isEmpty).length
  let t := s.clk - s.power.interval * 10000
  s.power.rateNum * n * t * 95 / (max 1 s.power.rateDen * 100)

/-- What ballast may draw on a die now (R363): up to half of the previous interval's spend, as much of it as the
interval has run, and no more than P allows where the cap or a limit governs. -/
def ballastRoom (s : State) (die : Nat) : Nat :=
  let t := min 10000 (s.clk - s.power.interval * 10000)
  let want := s.power.prevSpend[die]?.getD 0 * t / 20000
  let now := s.dieSpend die + s.dieBallast die
  let most := if s.power.ballastOff[die]?.getD false then min want (s.dieBudget die) else want
  most - now

/-- Ballast draws free tokens that nothing else claimed (R359, R363). -/
def claimBallast (s : State) (core : Nat) : State :=
  let n := min (s.cor core).free (s.ballastRoom (core / 96))
  s.modC core fun k => { k with free := k.free - n, ballast := k.ballast + n }

end State

/-- TOKEN_CLAIM (R359): a lane cycle of a core, with the ring's tokens of it (R370). A claim that free tokens cannot pay holds back every later one. -/
def execTokenClaim (core : Nat) (s : State) : Out :=
  let s0 := (s.towpath core).modC core fun k => { k with lc := k.lc + 1 }
  let r1 := s0.claimRows core
  let r2 := r1.2.claimMove core r1.1
  let r3 := if r2.1 then r2.2.claimCopy core else r2
  let s4 := if r3.1 then r3.2.claimBallast core else r3.2
  .next (s4.settle core)

end Sys2Proof.Machine
end

