-- ==== Sys2Proof/Machine/Power.lean ====
section
/-! DEFINITION. The power controller (R357 to R370): the control interval, clock ratios (R20), energy accounting and
its snapshots. -/

namespace Sys2Proof.Machine

/-! ### Budget (R358, R362) -/

/-- Cap that a PCAP value sets. -/
def capOf (pcap : W32) : Nat := field (pcap.setWidth 64) 0 12

/-- PCAP as a write leaves it (R359): CAP is clamped to 800 to 2,000, and reserved bits keep 0. -/
def pcapWrite (v : W32) : W32 :=
  BitVec.ofNat 32 (max 800 (min 2000 (v.toNat % 4096)) + (if v.getLsbD 24 then 2 ^ 24 else 0))

/-- Whether the current or the thermal limit acted, or a cadence was asked for. -/
def limited (r : PowerReadings) : Bool := r.current.isSome || r.thermal.isSome || !r.cadReqs.isEmpty

/-- P in W (R362). -/
def budget (pcap : W32) (r : PowerReadings) : Nat :=
  let cap := capOf pcap
  let low := min (r.current.getD cap) (min (r.thermal.getD cap) cap)
  if pcap.getLsbD 24 && !limited r then 2000 else low

/-- CAD of the interval (R361): the largest request, or 0. -/
def cadence (r : PowerReadings) : BitVec 16 := BitVec.ofNat 16 ((r.cadReqs.map BitVec.toNat).foldl max 0)

/-- Injection rate per front-end cycle and core as a fraction (R358): 64 pJ at 0.95 GHz is 0.0608 W for a token in
each cycle; at least 2 (R49). -/
def injection (p u n : Nat) : Nat × Nat :=
  let num := (p - u) * 10000
  let den := 608 * n
  if num < 2 * den then (2, 1) else (num, den)

/-! ### Energy (R365) -/

def Energy.add (a b : Energy) : Energy :=
  { coreDyn := a.coreDyn + b.coreDyn, coreStatic := a.coreStatic + b.coreStatic, hbm := a.hbm + b.hbm
    fabric := a.fabric + b.fabric, idle := a.idle + b.idle }

def Energy.sub (a b : Energy) : Energy :=
  { coreDyn := a.coreDyn - b.coreDyn, coreStatic := a.coreStatic - b.coreStatic, hbm := a.hbm - b.hbm
    fabric := a.fabric - b.fabric, idle := a.idle - b.idle }

/-- Shares of an energy in proportion to parts of a whole, and what is left. -/
def shares (e whole : Nat) (parts : List (Nat × Nat)) : List (Nat × Nat) × Nat :=
  if whole = 0 then ([], e)
  else
    let xs := (parts.filter fun p => p.1 != noCtx).map fun p => (p.1, e * p.2 / whole)
    (xs, e - (xs.map (·.2)).foldl (· + ·) 0)

namespace State

/-- Credit an energy to a partition's counters, or to the device owner's. -/
def addEnergy (s : State) (part : Option Nat) (e : Energy) : State :=
  match part with
  | some p =>
    if p < s.parts.length then s.modP p fun x => { x with energy := { x.energy with total := x.energy.total.add e } }
    else { s with ownerEnergy := { s.ownerEnergy with total := s.ownerEnergy.total.add e } }
  | none => { s with ownerEnergy := { s.ownerEnergy with total := s.ownerEnergy.total.add e } }

/-- Credit shares to the partitions of their contexts, and the rest as idle energy of a resource's owner. -/
def credit (s : State) (owner : Option Nat) (mk : Nat → Energy) (x : List (Nat × Nat) × Nat) : State :=
  (x.1.foldl (fun s c => s.addEnergy (s.tagPart c.1) (mk c.2)) s).addEnergy owner { Energy.zero with idle := x.2 }

/-- A die's partition, where one partition owns it all (R375). -/
def partOfDie (s : State) (d : Nat) : Option Nat :=
  if s.parts.isEmpty || decide (4 < s.parts.length) then none else some (d * s.parts.length / 4)

/-- Energy of one cluster (R365): the static share is what the meter's static power makes of the interval, whatever the total. -/
def attributeCluster (s : State) (cl total static : Nat) : State :=
  let ks := (s.cores.drop (8 * cl)).take 8
  let toks := ks.flatMap (·.spent)
  let all := (toks.map (·.2)).foldl (· + ·) 0 + (ks.map (·.ballast)).foldl (· + ·) 0
  let owner := if s.parts.isEmpty then none else some (s.partOfCluster cl)
  (s.credit owner (fun n => { Energy.zero with coreDyn := n }) (shares (total - static) all toks)).credit owner
    (fun n => { Energy.zero with coreStatic := n })
    (shares static (512 * 10000) ((s.slotNs.filter fun x => x.2.1 == cl).map fun x => (x.1, x.2.2)))

/-- Thavin divides the measured energy of an interval (R365). -/
def divideEnergy (s : State) (r : PowerReadings) : State :=
  let pick := fun (xs : List (Nat × Nat × Nat)) (k : Nat) => (xs.filter fun x => x.2.1 == k).map fun x => (x.1, x.2.2)
  let sum := fun (xs : List (Nat × Nat)) => (xs.map (·.2)).foldl (· + ·) 0
  let s1 := r.clusters.zipIdx.foldl (fun s x => s.attributeCluster x.2 x.1.1 x.1.2) s
  let s2 := r.hbm.zipIdx.foldl (fun s x =>
    let ps := pick s.traffic x.2
    s.credit (s.partOfStack x.2) (fun n => { Energy.zero with hbm := n }) (shares x.1 (sum ps) ps)) s1
  r.fabric.zipIdx.foldl (fun s x =>
    let ps := pick s.hops x.2
    s.credit (s.partOfDie x.2) (fun n => { Energy.zero with fabric := n }) (shares x.1 (sum ps) ps)) s2

/-- Whether ballast held a die's spend above what P allowed in the interval that ends (R363). -/
def ballastOver (s : State) (d : Nat) : Bool :=
  decide (0 < s.dieBallast d) && decide (s.dieBudget d < s.dieSpend d + s.dieBallast d)

end State

/-- POWER_INTERVAL (R358 to R365): at a boundary the interval's energy is divided, the registers written in it take
effect, the limiters set P and CAD, and the clusters with a ratio request stop issue (R20). -/
def execPowerInterval (r : PowerReadings) (s : State) : Out :=
  if s.clk < (s.power.interval + 1) * 10000 then .next s
  else
    let s1 := s.divideEnergy r
    let pcap := s.power.pcapReq.getD s.power.pcap
    let p := budget pcap r
    let n := ((List.range Config.cores).filter fun c => !(s.groupsOn c).isEmpty).length
    let enabled := ((List.range Config.cores).filter fun c => !(s.cor c).outOfService).length
    let rate := injection p r.u (if n = 0 then max 1 enabled else n)
    let boosted := pcap.getLsbD 24 && !limited r
    let run : Vector Nat 4 := Vector.ofFn fun d =>
      if boosted then 0 else if s.ballastOver d.val then s.power.ballastRun[d.val] + 1 else 0
    let pw : Power :=
      { s.power with
        pcap := pcap, pcapReq := none, rateNum := rate.1, rateDen := rate.2, interval := s.clk / 10000
        throttled := decide (p < capOf pcap) || cadence r != 0 || s1.clusters.any fun c => c.changing || c.ratioReq.isSome
        prevSpend := Vector.ofFn fun d => s.dieSpend d.val + s.dieBallast d.val
        ballastRun := run, ballastOff := run.map fun n => decide (2 ≤ n) || limited r }
    let stops := fun (c : Nat) => (s.clu (c / 8)).ratioReq.isSome
    .next { s1 with
      power := pw
      cores := s1.cores.zipIdx.map fun x =>
        { x.1 with cad := cadence r, spent := [], ballast := 0, ringAcc := 0, paused := x.1.paused || stops x.2 }
      clusters := s1.clusters.map fun c =>
        if c.changing || c.ratioReq.isNone then c else { c with target := c.ratioReq, ratioReq := none }
      traffic := [], hops := [], slotNs := [] }

/-- RATIO_CHANGE (R20, R364): once every lane of a cluster that stopped issue is idle, its lane clock changes and it
resumes. -/
def execRatioChange (cluster : Nat) (s : State) : Out :=
  let c := s.clu cluster
  let idle := ((s.cores.drop (8 * cluster)).take 8).all fun k => k.laneFree.toList.all fun f => decide (f ≤ k.fe)
  match c.target with
  | none => .next s
  | some q =>
    if !idle then .next s
    else
      let s1 := s.modCl cluster fun x => { x with ratio := q, target := none }
      .next { s1 with cores := s1.cores.zipIdx.map fun x =>
        if x.2 / 8 = cluster then { x.1 with paused := false } else x.1 }

/-! ### Snapshots (R366, R367) -/

/-- The five counters of a snapshot in µJ, 8 bytes each. -/
def energyBytes (e : Energy) : List Byte :=
  [e.coreDyn, e.coreStatic, e.hbm, e.fabric, e.idle].flatMap fun n => bytesLE 8 (n / 1000)

/-- Bytes 0x00 to 0x7F of a snapshot (R367). -/
def snapshotBytes (idx : Nat) (a : EnergyAcct) (end_ : Nat) : List Byte :=
  bytesLE 4 0x5A454E31 ++ bytesLE 1 idx ++ bytesLE 1 ((if a.fresh then 1 else 0) + (if a.restart then 2 else 0)) ++
    bytesLE 2 0 ++ bytesLE 8 a.seq ++ bytesLE 8 a.start ++ bytesLE 8 end_ ++ energyBytes (a.total.sub a.mark) ++
    energyBytes a.total ++ identityDigest.toList

/-- An account after a snapshot. -/
def EnergyAcct.stepOn (a : EnergyAcct) (end_ : Nat) : EnergyAcct :=
  { a with mark := a.total, start := end_, seq := a.seq + 1 }

/-- ENERGY_SNAPSHOT (R367): at a whole second an account that covers a second emits its snapshot; the first whole
second of a series begins its first interval. Part 0xFF is the device owner's account. -/
def execEnergySnapshot (part : Nat) (s : State) : Out :=
  let now := s.clk / 1000000000
  let go := fun (a : EnergyAcct) (put : State → EnergyAcct → State) =>
    if now ≤ a.start / 1000000000 then s
    else if a.start % 1000000000 ≠ 0 then put s { a with start := now * 1000000000, mark := a.total }
    else
      let bytes := snapshotBytes part a (now * 1000000000)
      let high := max a.seq ((s.power.emitted[part]?.getD none).getD 0)
      let s1 : State := { s with power := { s.power with emitted := s.power.emitted.setIfInBounds part (some high) } }
      put (s1.record (.snapshot part bytes (Config.signature bytes).toList)) (a.stepOn (now * 1000000000))
  if part = 0xFF then .next (go s.ownerEnergy fun s a => { s with ownerEnergy := a })
  else if part < s.parts.length ∧ (s.prt part).closed = false then
    .next (go (s.prt part).energy fun s a => s.modP part fun p => { p with energy := a })
  else .next s

end Sys2Proof.Machine
end

