-- ==== Sys2Proof/Machine/Host.lean ====
section
/-! DEFINITION. Commands to Thavin (R277, R310, R312, R318, R344, R360, R364, R368, R372, R374 to R377, R380, R383,
R384), and the completion of invalidations. -/

namespace Sys2Proof.Machine

/-! ### Command areas (R380) -/

namespace State

/-- Partition that a function serves: VF k serves partition k through the port that owns it (R371, R372). -/
def partOfFn (s : State) (fn : Fn) : Option Nat :=
  match fn.vf with
  | some p => if p < s.parts.length ∧ (s.prt p).owner = fn.port then some p else none
  | none => none

/-- A request to the VF of a partition on the port that does not own it completes with Unsupported Request; any other that
reaches nothing has no effect (R372). -/
def turnAway (s : State) (fn : Fn) : State :=
  match fn.vf with
  | some p => if s.fw = .thavin ∧ p < s.parts.length ∧ (s.prt p).owner ≠ fn.port then s.record (.unsupported fn) else s
  | none => s

/-- Register of a function as the host has written it. -/
def hostReg (s : State) (fn : Fn) (addr : BarAddr) : W64 := ((s.hostRegs.find? fun x => x.1 == fn && x.2.1 == addr).map (·.2.2)).getD 0

/-- Sequence number that the host has written for a function's command. -/
def cmdNo (s : State) (fn : Fn) : Nat := (s.hostReg fn { bar := 0, off := 0x40 }).toNat % 2 ^ 32

/-- A function's command of a sequence number is done or refused: status, number and answer, and MSI-X vector 0. -/
def answerTo (s : State) (fn : Fn) (n status : Nat) (data : List Byte) : State :=
  let r : CmdReply := { fn := fn, seq := n, status := status, data := data }
  let rs := (s.replies.filter fun (x : CmdReply) => x.fn != fn) ++ [r]
  let s1 : State := { s with replies := rs }
  s1.record (.msix fn 0)

/-- The function's command is done or refused. -/
def answer (s : State) (fn : Fn) (status : Nat) (data : List Byte) : State := s.answerTo fn (s.cmdNo fn) status data

/-- Generation of a checkpoint that waits for its header, with its slot (R351). -/
def unsealed (c : CkptState) : Option (Nat × CkptSlot) :=
  (List.range 2).findSome? fun i =>
    match c.slots[i]?.getD none with
    | some k => if k.header.isNone then some (i, k) else none
    | none => none

/-- Whether an earlier command of a function is not done: an invalidation or a checkpoint. Thavin has not come to the next one,
which stays in the command area (R380). -/
def cmdWaits (s : State) (fn : Fn) : Bool :=
  (s.invals.any fun i => !i.done && (i.fn.map (·.1)) == some fn) || s.ckpts.any fun c => (c.cmd.map (·.1)) == some fn

/-- A command that only a VF issues, with its partition; without Thavin nobody answers, and a VF on a port that does
not own its partition is turned away (R372). -/
def vfCommand (s : State) (fn : Fn) (f : Nat → State) : Out :=
  if s.fw ≠ .thavin ∨ s.cmdWaits fn = true then .next s
  else
    match fn.vf, s.partOfFn fn with
    | none, _ => .next (s.answer fn 0x11 [])
    | some _, none => .next (s.turnAway fn)
    | some _, some p => .next (f p)

/-- A command of the device owner (R372). -/
def ownerCommand (s : State) (fn : Fn) (f : State) : Out :=
  if s.fw ≠ .thavin ∨ s.cmdWaits fn = true then .next s
  else if fn.vf = none ∧ fn.port = s.ownerPort then .next f
  else if fn.vf.isSome = true ∧ s.partOfFn fn = none then .next (s.turnAway fn)
  else .next (s.answer fn 0x11 [])

/-- The lowest code of the causes that hold (R380). -/
def lowest (cs : List (Nat × Bool)) : Option Nat :=
  (cs.filter (·.2)).foldl (fun (b : Option Nat) c => match b with
    | none => some c.1
    | some n => some (min n c.1)) none

/-- Refuse with the lowest cause, or act and answer. -/
def checked (s : State) (fn : Fn) (cs : List (Nat × Bool)) (act : State) (data : List Byte) : State :=
  match lowest cs with
  | some c => s.answer fn c []
  | none => act.answer fn 0 data

/-- Causes for which a named context is refused. -/
def ctxCauses (s : State) (p ctx : Nat) : List (Nat × Bool) :=
  [(0x13, decide (64 ≤ ctx)), (0x12, !(s.cx ctx).resident), (0x11, (s.cx ctx).resident && (s.cx ctx).part != p)]

/-! ### Contexts (R312) -/

/-- Whether anything in the device still refers to a context's address space. -/
def ctxBusy (s : State) (a : Nat) : Bool :=
  (s.groups.any fun x => x.st != .done && (x.arch.ctx == a || x.arch.frames.any fun f => f.ctx == a)) ||
    (s.cores.any fun k => (k.pound.any fun e => e.ctx == a) || k.copies.any fun c => c.ctx == a) ||
    s.groups.any fun x => x.wbsets.any fun b => b.ctx == a

/-- Drop what cores hold of a context's mappings in a range (R310). -/
def dropMappings (s : State) (a : Nat) (inRange : Nat → Nat → Bool) : State :=
  { s with cores := s.cores.map fun k =>
      { k with
        tlb := k.tlb.filter fun e => !(e.ctx == a && inRange e.va e.size)
        walk := k.walk.filter fun e => e.ctx != a
        held := k.held.filter fun h => !(h.ctx == a && inRange h.va 4) } }

/-- The identifier for a new context. -/
def freeCtx (s : State) : Option Nat :=
  (List.range s.ctxs.length).find? fun a => !(s.cx a).resident && !s.ctxBusy a

end State

/-- Whether a region attribute entry has its reserved bits clear (R301). -/
def regionOk (r : W64) : Bool := field r 55 8 == 0 && field r 0 16 == 0

/-- CREATE_CONTEXT (R312, R301, R341, R348): the identifier is in the answer. -/
def execCreateContext (fn : Fn) (x : CtxArgs) (s : State) : Out :=
  s.vfCommand fn fun p =>
    let a := s.freeCtx
    let id := a.getD 0
    let c : Ctx := { Ctx.absent with resident := true, part := p, dom := x.dom, trapBase := x.trapBase, wdlim := x.wdlim
                                     regions := Vector.ofFn fun i => x.regions[i.val]?.getD 0, inval := (s.cx id).inval + 1 }
    s.checked fn
      [(0x10, !x.regions.all regionOk), (0x13, decide (x.dom < 1) || decide (63 < x.dom) || decide (x.regions.length ≠ 16) ||
          decide (x.trapBase.toNat % 256 ≠ 0) || decide (2 ^ 32 ≤ x.wdlim)),
       (0x14, a.isNone), (0x15, (s.domainCtx p x.dom).isSome)]
      (((s.retag id).dropMappings id fun _ _ => true).modX id fun _ => c) (bytesLE 1 id)

/-- DESTROY_CONTEXT (R312, R342). -/
def execDestroyContext (fn : Fn) (ctx : Nat) (s : State) : Out :=
  s.vfCommand fn fun p => s.checked fn (s.ctxCauses p ctx) (s.terminateCtx ctx) []

/-! ### Loading (R384, R386) -/

namespace State

/-- Put bytes into memory from outside the cores: the copies that cluster caches hold go first. -/
def depositBytes (s : State) (ctx : Nat) (ws : List ByteWrite) : State :=
  ((s.purge (ws.map (·.1))).pocWrite (fun _ => false) ctx ws).publish (ws.map (·.1)) false []

/-- A field of an object's version note: the n bytes from an offset, little-endian (R135). -/
def noteField (o : PrecoObject) (off n : Nat) : Nat := leNat ((o.note.toList.drop off).take n)

/-- NOTEID, LEVEL, FLAGS, the reserved word and FEATURES of a version note (R135). -/
def noteId (o : PrecoObject) : Nat := noteField o 0x00 2
def noteLevel (o : PrecoObject) : Nat := noteField o 0x02 1
def noteFlags (o : PrecoObject) : Nat := noteField o 0x03 1
def noteResv (o : PrecoObject) : Nat := noteField o 0x04 4
def noteFeatures (o : PrecoObject) : Nat := noteField o 0x08 8

/-- An 8-byte word of a function's command area (R380). -/
def cmdWord (s : State) (fn : Fn) (i : Nat) : W64 := s.hostReg fn { bar := 0, off := 8 * i }

/-- Fields of the load command in a function's command area (R386): CODE, OVERRIDE, CTX, SIZE, and whether a reserved bit is set. -/
def loadFn (s : State) (fn : Fn) : Nat := field (s.cmdWord fn 0) 0 8
def loadOverride (s : State) (fn : Fn) : Bool := (s.cmdWord fn 0).getLsbD 8
def loadCtx (s : State) (fn : Fn) : Nat := field (s.cmdWord fn 1) 0 8
def loadSize (s : State) (fn : Fn) : Nat := (s.cmdWord fn 3).toNat
def loadResv (s : State) (fn : Fn) : Bool :=
  field (s.cmdWord fn 0) 9 55 != 0 || field (s.cmdWord fn 1) 8 56 != 0 || (List.range 4).any fun i => s.cmdWord fn (4 + i) != 0

/-- The refusal code of the loader's checks (R384). -/
def loadCode (s : State) (p a : Nat) (override : Bool) (o : PrecoObject) : Option Nat :=
  let lvl := noteLevel o
  lowest
    [(1, decide (noteId o ≠ 0x5A34) || decide (lvl = 0) || decide (15 < lvl) || decide (2 ≤ noteFlags o) || decide (noteResv o ≠ 0)),
     (2, decide (5 ≤ lvl) && !override), (3, decide (2 ^ 5 ≤ noteFeatures o)),
     (4, o.gates.any fun g =>
       let e := s.gateEntry p g.1
       gateValid e && gateDom e != (s.cx a).dom)]

/-- Set a gate-table entry; one of all zeros is not kept. -/
def putGate (s : State) (p idx : Nat) (e : GateEntry) : State :=
  s.modP p fun x => { x with gates := (x.gates.filter fun g => g.1 != idx) ++ if e = GateEntry.zero then [] else [(idx, e)] }

/-- Bytes of an object's sections with the keys at which they go. -/
def sectionWrites (s : State) (a : Nat) (o : PrecoObject) : List (Option Nat × Byte) :=
  o.sections.flatMap fun x => x.2.zipIdx.map fun b => (s.placeOf a (x.1 + BitVec.ofNat 64 b.2), b.1)

/-- Launches accepted from now on do not use the code words of a context that cores hold (R384). -/
def ageHeld (s : State) (a : Nat) : State :=
  let n := s.launches.length
  { s with cores := s.cores.map fun k =>
      { k with held := k.held.map fun h => if h.ctx = a ∧ h.before = none then { h with before := some n } else h } }

/-- The sections, the kernel records and the .gate entries of an object that passed the checks. -/
def loadInto (s : State) (p a : Nat) (o : PrecoObject) : State :=
  let ws := (s.sectionWrites a o).filterMap fun w => w.1.map fun k => (k, w.2, false)
  let s1 := ((s.depositBytes a ws).ageHeld a).modX a fun c => { c with kernels := c.kernels ++ o.kernels, sigblocks := c.sigblocks ++ o.sigblocks }
  o.gates.foldl (fun s g => s.putGate p g.1 { s.gateEntry p g.1 with entry := g.2 }) s1

end State

/-- LOAD_OBJECT (R384, R386): the command in the function's area, and the object that it names. A sector that a berth holds is
snooped first (R143). -/
def execLoadObject (fn : Fn) (x : LoadCmd) (s : State) : Out :=
  s.vfCommand fn fun p =>
    let a := s.loadCtx fn
    let code := x.object.bind (s.loadCode p a (s.loadOverride fn))
    let places := (x.object.map (s.sectionWrites a)).getD []
    let causes := (code.toList.map fun c => (c, true)) ++ s.ctxCauses p a ++
      [(0x10, s.loadResv fn), (0x13, decide (s.loadSize fn < 1) || decide (2 ^ 32 < s.loadSize fn)), (0x17, x.object.isNone),
       (0x13, places.any (·.1.isNone)), (0x13, (x.object.map fun o => o.gates.any fun g => decide (256 ≤ g.1)).getD false)]
    if s.loadFn fn ≠ 2 then s
    else if State.lowest causes = none ∧ (places.any fun w => (w.1.map fun k => s.writeBlocked (sectorOf k)).getD false) = true then s
    else s.checked fn causes ((x.object.map (s.loadInto p a)).getD s) []

/-- WRITE_GATE_ENTRY (R277). -/
def execWriteGateEntry (fn : Fn) (idx : Nat) (x : GateEntry) (s : State) : Out :=
  s.vfCommand fn fun p => s.checked fn [(0x13, decide (256 ≤ idx))] (s.putGate p idx x) []

/-! ### Invalidation (R310, R311) -/

/-- INVALIDATE (R310): a size of 0 names all of the context's mappings. The command is answered on completion. -/
def execInvalidate (fn : Fn) (ctx : Nat) (va : W64) (size : Nat) (s : State) : Out :=
  s.vfCommand fn fun p =>
    match State.lowest (s.ctxCauses p ctx) with
    | some c => s.answer fn c []
    | none =>
      let i : Inval := { ctx := ctx, va := va, size := if size = 0 then none else some size, fn := some (fn, s.cmdNo fn), mark := none, page := none, done := false }
      { s with invals := s.invals ++ [i] }

/-- Whether bytes at an address fall in an invalidation's range. -/
def inInval (i : Inval) (va n : Nat) : Bool :=
  match i.size with
  | none => true
  | some m => decide (va < i.va.toNat + m) && decide (i.va.toNat < va + n)

/-- Translation registers anchored so far are stale (R73, R310). -/
def staleRegs (r : Regs) : Regs := { r with x := r.x.map fun y => { y with stale := true, perm := none } }

namespace State

/-- Mark the registers of every resident group that runs in a context, now and in what a squash would restore. -/
def staleCtx (s : State) (a : Nat) : State :=
  let mark := fun (y : Arch) => if y.ctx = a then { y with regs := staleRegs y.regs } else y
  let gs := s.groups.map fun (x : Group) =>
    if !s.resident x.team then x
    else { x with arch := mark x.arch, reaches := x.reaches.map fun (r : Reach) => { r with snap := mark r.snap } }
  { s with groups := gs }

/-- Whether an invalidation concerns a sector that a team's berth holds, or that is to be filled: its context and address. -/
def invalHits (s : State) (i : Inval) (tid : Nat) (frame : Option Nat) (va : W64) : Bool :=
  s.tableCtx tid frame == i.ctx && inInval i va.toNat 128

/-- The old entry is given up: the cores drop it, anchored registers are stale, and berths are to release what they
hold in the range, what a squash would give back to them, and what is on its way to them (R310, R313). -/
def beginInval (s : State) (id : Nat) (i : Inval) : State :=
  let s1 := (s.dropMappings i.ctx (inInval i)).staleCtx i.ctx
  let snoop := fun (t : Nat) (h : Held) => if s1.invalHits i t h.frame h.va then s1.snoop t h none (some id) else h
  { s1 with
    teams := s1.teams.zipIdx.map fun t =>
      { t.1 with
        held := t.1.held.map (snoop t.2)
        fills := t.1.fills.map fun f => if s1.invalHits i t.2 f.frame f.va then { f with invals := f.invals ++ [id] } else f }
    groups := s1.groups.map fun x =>
      { x with wbsets := x.wbsets.map fun b => if b.cleared then b else { b with held := b.held.map (snoop x.team) } }
    invals := s1.invals.modify id fun x => { x with mark := some (s1.nextSeq, s1.nextId) } }

/-- Held sectors that an invalidation is to have released are, once their reaches have cleared. -/
def releaseHeld (s : State) (id : Nat) : State :=
  (List.range s.teams.length).foldl (fun s t =>
    ((s.tm t).held.filter fun h => h.snoops.any fun q => q.inval == some id).foldl (fun s h => s.serveHeld t h) s) s

/-- Whether nothing that may have used the old entry is left (R310). -/
def invalOver (s : State) (n a seq id : Nat) : Bool :=
  !(s.cores.any fun k =>
    (k.pound.any fun e => e.ctx == a && decide (e.seq < seq) && match e.kind with
      | .store _ _ _ => true
      | .atomr _ _ => true
      | _ => false) || k.copies.any fun c => c.ctx == a && decide (c.id < id)) &&
  !(s.groups.any fun x => x.arch.ctx == a && (!x.loads.isEmpty || x.atom.isSome || x.fences.any fun f => decide (f.id < id))) &&
  !(s.groups.any fun x => x.wbsets.any fun b => b.ctx == a && decide (b.seq < seq)) &&
  !(s.teams.any fun t => (t.held.any fun h => h.snoops.any fun q => q.inval == some n) || t.fills.any fun f => f.invals.contains n)

end State

/-- INVALIDATION_COMPLETE (R310): the cores give up the old entry, and once everything that may have used it is over
the invalidation is complete and its command answered. -/
def execInvalidationComplete (id : Nat) (s : State) : Out :=
  match s.invals[id]? with
  | none => .next s
  | some i =>
    if i.done then .next s
    else
      match i.mark with
      | none => .next (s.beginInval id i)
      | some (seq, n) =>
        let s1 := s.releaseHeld id
        if !s1.invalOver id i.ctx seq n then .next s1
        else
          let s2 := ((s1.dropMappings i.ctx (inInval i)).staleCtx i.ctx).modX i.ctx fun c => { c with inval := c.inval + 1 }
          let s2 := match i.page with
            | some (page, owner) => s2.dropPageAll page owner none
            | none => s2
          let s3 : State := { s2 with invals := s2.invals.modify id fun x => { x with done := true } }
          .next (match i.fn with
            | some c => s3.answerTo c.1 c.2 0 []
            | none => s3)

/-! ### Page faults (R344) -/

namespace State

/-- Whether a group of a partition waits for the service of a page fault. -/
def faultOf (s : State) (g : Nat) : Option Replay :=
  match s.groups[g]? with
  | none => none
  | some x =>
    match x.replay with
    | some r => if x.st == .replay && r.cls == .pageFault && !r.fatal && (r.permit || !s.resident x.team) then some r else none
    | none => none

/-- Table entries are written, at their points of coherence (R304, R308). -/
def writeTables (s : State) (ctx : Nat) (ws : TableWrites) : State :=
  ws.foldl (fun s w => s.depositBytes ctx ((List.range 8).map fun i => (w.1 + i, w.2.extractLsb' (8 * i) 8, false))) s

/-- The service of a page fault ends: the permit is given back, but not an emulation's, and a team that is out may
return (R53, R343, R346). -/
def endService (s : State) (g : Nat) : State :=
  let x := s.grp g
  let s1 := if x.arch.emu.isSome then s else s.releasePermit g
  if s.resident x.team then s1 else s1.modT x.team fun t => { t with returnable := true }

/-- The page has been mapped: the group is in RUN at the instruction, which executes anew (R42, R344). -/
def faultMapped (s : State) (g : Nat) : State :=
  (s.enterRun g).endService g

/-- Service is refused: the fault is delivered in-context with its address (R344). -/
def faultRefused (s : State) (g : Nat) (r : Replay) : State :=
  let s1 := (s.enterRun g).endService g
  let w := if r.fetch then 0 else ((s1.fetch g).1.toOption.getD 0)
  s1.takeTrap g (.at_ .pageFault r.va) (s1.grp g).arch.pc w

end State

/-- Whether every table entry of an answer lies in device HBM, aligned. -/
def tablesOk (ws : TableWrites) : Bool := ws.all fun w => decide (w.1 % 8 = 0) && decide (w.1 < Config.hbmEnd)

/-- PAGE_FAULT_MAP (R344). -/
def execPageFaultMap (fn : Fn) (g : Nat) (x : TableWrites) (s : State) : Out :=
  s.vfCommand fn fun p =>
    let h := s.partHbm p
    let r := s.faultOf g
    s.checked fn
      [(0x12, r.isNone), (0x11, r.isSome && s.partOf g != p),
       (0x13, !tablesOk x || x.any fun w => decide (w.1 < h.1) || decide (h.2 ≤ w.1))]
      ((s.writeTables (s.grp g).arch.ctx x).faultMapped g) []

/-- PAGE_FAULT_REFUSE (R344). -/
def execPageFaultRefuse (fn : Fn) (g : Nat) (s : State) : Out :=
  s.vfCommand fn fun p =>
    match s.faultOf g with
    | none => s.answer fn 0x12 []
    | some r =>
      if s.partOf g == p && State.recordAwaited (s.grp g) then s else s.checked fn [(0x11, s.partOf g != p)] (s.faultRefused g r) []

/-- THAVIN_FAULT_RESOLUTION (R344). -/
def execThavinFaultResolution (g : Nat) (x : TableWrites) (s : State) : Out :=
  match s.faultOf g with
  | none => .next s
  | some _ => .next (if s.fw = .thavin ∧ tablesOk x = true then (s.writeTables (s.grp g).arch.ctx x).faultMapped g else s)

/-! ### Queues, windows, partitions -/

/-- CREATE_QUEUE (R377). -/
def execCreateQueue (fn : Fn) (ctx q prio k : Nat) (ring : W64) (s : State) : Out :=
  s.vfCommand fn fun p =>
    s.checked fn
      (s.ctxCauses p ctx ++ [(0x13, decide (64 ≤ q) || decide (7 < prio) || decide (k < 4) || decide (16 < k) ||
          decide (ring.toNat % (64 * 2 ^ k) ≠ 0)), (0x14, s.queues.all (·.assigned)), (0x15, (s.que q).assigned)])
      (s.modQ q fun _ => { Queue.absent with assigned := true, ctx := ctx, part := p, prio := prio, k := k, ring := ring }) []

/-- DESTROY_QUEUE (R377). -/
def execDestroyQueue (fn : Fn) (q : Nat) (s : State) : Out :=
  s.vfCommand fn fun p =>
    s.checked fn [(0x13, decide (64 ≤ q)), (0x12, !(s.que q).assigned), (0x11, (s.que q).assigned && (s.que q).part != p)]
      (s.modQ q fun _ => Queue.absent) []

/-- QWIN as a write leaves it (R318). -/
def qwinWrite (v : W32) : BitVec 11 := BitVec.ofNat 11 (max 96 (min 1024 (v.toNat % 2048)))

/-- SET_QWIN (R318, R319). -/
def execSetQwin (fn : Fn) (v : W32) (s : State) : Out :=
  s.vfCommand fn fun p => (s.modP p fun x => { x with qwin := qwinWrite v }).answer fn 0 []

/-- Little-endian field of returned bytes. -/
def snapField (bs : List Byte) (i n : Nat) : Nat := leNat ((bs.drop i).take n)

/-- Counters of a returned snapshot, from 0x48 on. -/
def snapEnergy (bs : List Byte) : Energy :=
  let f := fun i => snapField bs (0x48 + 8 * i) 8 * 1000
  { coreDyn := f 0, coreStatic := f 1, hbm := f 2, fabric := f 3, idle := f 4 }

/-- Whether a returned snapshot is accepted for a partition (R368). -/
def snapOk (p : Nat) (highest : Option Nat) (x : SnapArgs) : Bool :=
  x.signature == (Config.signature x.bytes).toList && decide (x.bytes.length = 0x80) && decide (snapField x.bytes 0 4 = 0x5A454E31) &&
    decide (snapField x.bytes 4 1 = p) && (x.bytes.drop 0x70).take 16 == identityDigest.toList &&
    match highest with
    | some h => decide (snapField x.bytes 8 8 = h)
    | none => true

/-- RETURN_ENERGY_SNAPSHOT (R368): the counters resume from the snapshot, or a fresh series starts. -/
def execReturnEnergySnapshot (fn : Fn) (x : SnapArgs) (s : State) : Out :=
  s.vfCommand fn fun p =>
    let a := (s.prt p).energy
    let highest := s.power.emitted[p]?.getD none
    let fresh : EnergyAcct := { EnergyAcct.zero with start := s.clk }
    let e := snapEnergy x.bytes
    let resumed : EnergyAcct :=
      { a with total := e, mark := e, start := s.clk, seq := snapField x.bytes 8 8 + 1
               fresh := (snapField x.bytes 5 1) % 2 == 1
               restart := highest.isNone || (snapField x.bytes 5 1) / 2 % 2 == 1 }
    s.checked fn [(0x16, !x.fresh && !snapOk p highest x)]
      (s.modP p fun y => { y with energy := if x.fresh then fresh else resumed, closed := false }) []

namespace State

/-- Partition of the n-th event record (R330). -/
def eventPart (s : State) (n : Nat) : Option Nat :=
  ((s.records.filterMap fun r => match r with
    | .event _ _ _ d k _ _ _ => some (some (s.partOfCluster (12 * d + k)))
    | .other _ p _ _ _ => some p
    | _ => none)[n]?).getD none

/-- Partition that an object belongs to: none for the device's. -/
def objectPart (s : State) (o : SurveyObj) : Option Nat :=
  match o with
  | .reg f _ => s.partOfFn f
  | .queue q => some (s.que q).part
  | .groupImage g => some (s.partOf g)
  | .teamImage t => some (s.lch (s.tm t).launch).part
  | .eventRecord n => s.eventPart n
  | .energy p => some p
  | .counters p => some p
  | .partState p => some p
  | .identity => none
  | .corrected k => s.partOfStack k
  | .pcap => none
  | .cad c => some (s.partOfCluster (c / 8))

/-- A partition is reset (R376): its contexts end, its queues are switched out with RESET, and it is closed. -/
def resetPartition (s : State) (p : Nat) : State :=
  let s1 := ((List.range s.ctxs.length).filter fun a => (s.cx a).resident && (s.cx a).part == p).foldl (fun s a => s.terminateCtx a) s
  { s1.modP p (fun x => { x with closed := true }) with
    cores := s1.cores.zipIdx.map fun k => if s1.partOfCluster (k.2 / 8) = p then { k.1 with outOfService := false } else k.1
    queues := s1.queues.map fun q =>
      if q.assigned && q.part == p then
        { q with savedHead := if q.resident then q.head else q.savedHead, savedTail := if q.resident then q.tail else q.savedTail
                 resident := false, resetFlag := true, waiting := none, writing := none }
      else q
    surveys := s1.surveys.map fun y => if s1.objectPart y.2.1 = some p then (y.1, y.2.1, y.2.2.1, true) else y }

/-- Whether a partition is empty (R375). -/
def partEmpty (s : State) (p : Nat) : Bool :=
  !(s.ctxs.any fun c => c.resident && c.part == p) && !(s.launches.any fun l => l.part == p && !l.finished) &&
    !(s.queues.any fun q => q.assigned && q.part == p)

/-- Zero-fill all device HBM with valid CRCs, and leave no copy of it in a cache (R375, R336). -/
def zeroHbm (s : State) : State :=
  { s with
    mem := s.mem.filter fun c => decide (2 ^ 52 ≤ c.1)
    poison := s.poison.filter fun c => decide (2 ^ 52 / 64 ≤ c)
    owned := [], staged := []
    clusters := s.clusters.map fun c => { c with cache := c.cache.filter fun x => decide (2 ^ 52 ≤ x.key) } }

/-- A new partition. -/
def newPart (owner clk : Nat) : Part :=
  let p := Part.fresh owner
  { p with energy := { p.energy with start := clk } }

/-- A queue's pending count (R387). -/
def pendingCount (q : Queue) : Nat :=
  if q.resident then (q.tail - q.head).toNat else (q.savedTail - q.savedHead).toNat

end State

/-- PARTITION_RESET (R376). -/
def execPartitionReset (fn : Fn) (s : State) : Out := s.vfCommand fn fun p => (s.resetPartition p).answer fn 0 []

/-- PARTITION_DEVICE (R375). -/
def execPartitionDevice (fn : Fn) (n : Nat) (s : State) : Out :=
  let s1 : State := { s.zeroHbm with parts := List.replicate n (State.newPart s.ownerPort s.clk), ckpts := [], invals := [] }
  s.ownerCommand fn (s.checked fn
    [(0x13, !([1, 2, 4, 8].contains n)), (0x15, !(List.range s.parts.length).all s.partEmpty)] s1 [])

/-- WRITE_PCAP (R359, R360). -/
def execWritePcap (fn : Fn) (v : W32) (s : State) : Out :=
  let s1 : State := { s with power := { s.power with pcapReq := some (pcapWrite v) } }
  s.ownerCommand fn (s1.answer fn 0 [])

/-- The ratio of a command's code. -/
def ratioOf (code : Nat) : Option Ratio :=
  match code with
  | 0 => some .half
  | 1 => some .one
  | 2 => some .two
  | _ => none

/-- SET_CLUSTER_RATIO (R364). -/
def execSetClusterRatio (fn : Fn) (cluster : Nat) (code : Nat) (s : State) : Out :=
  s.ownerCommand fn (s.checked fn [(0x13, decide (Config.clusters ≤ cluster) || (ratioOf code).isNone)]
    (s.modCl cluster fun c => { c with ratioReq := ratioOf code }) [])

/-- TRANSFER_OWNERSHIP (R372, R385). -/
def execTransferOwnership (fn : Fn) (part : Nat) (s : State) : Out :=
  let busy := (List.range s.teams.length).any (fun t => s.resident t && (s.lch (s.tm t).launch).part == part) ||
    s.launches.any (fun l => l.part == part && !l.finished) ||
    s.queues.any fun q => q.assigned && q.part == part && State.pendingCount q != 0
  s.ownerCommand fn (s.checked fn [(0x12, decide (s.parts.length ≤ part)), (0x15, busy)]
    (s.modP part fun p => { p with owner := 1 - p.owner }) [])

/-- The report of R374: nonce, digest of the running image, geometry. -/
def reportBytes (s : State) (nonce : List Byte) : List Byte := nonce ++ s.imageDigest ++ bytesLE 1 s.parts.length

/-- ATTESTATION_REPORT (R374). -/
def execAttestationReport (fn : Fn) (nonce : List Byte) (s : State) : Out :=
  if s.cmdWaits fn then .next s
  else if s.fw ≠ .thavin ∨ (fn.vf.isSome = true ∧ s.partOfFn fn = none) then .next (s.turnAway fn)
  else
    let r := reportBytes s nonce
    .next (s.checked fn [(0x13, decide (nonce.length ≠ 32))] s (r ++ (Config.signature r).toList))

/-- SET_DOMAIN_MEMBERSHIP (R383). -/
def execSetDomainMembership (fn : Fn) (index : Nat) (s : State) : Out :=
  s.ownerCommand fn (s.checked fn [(0x13, decide (15 < index))] ({ s with domIndex := some index } : State) [])

/-- MALFORMED_COMMAND (R380): an unknown code, or a reserved field that is not zero. -/
def execMalformedCommand (fn : Fn) (code : Nat) (s : State) : Out :=
  if s.cmdWaits fn then .next s
  else if s.fw ≠ .thavin ∨ (fn.vf.isSome = true ∧ s.partOfFn fn = none) then .next (s.turnAway fn)
  else .next (s.answer fn 0x10 (bytesLE 1 code))

end Sys2Proof.Machine
end

