-- ==== Sys2Proof/Machine/Queues.lean ====
section
/-! DEFINITION. The hardware queues (R377 to R379, R385, R387): their registers, their entries, and their residence. -/

namespace Sys2Proof.Machine

/-! ### Progress -/

namespace State

/-- Entries not yet consumed lose the oldest. -/
def dropStamp (xs : List (Nat × Nat)) : List (Nat × Nat) :=
  match xs with
  | [] => []
  | (n, t) :: ys => if n ≤ 1 then ys else (n - 1, t) :: ys

/-- One entry of a resident queue is consumed. -/
def consume (s : State) (q : Nat) : State :=
  s.modQ q fun x => { x with head := x.head + 1, stamps := dropStamp x.stamps, waiting := none, writing := none }

/-- An entry is reported with its code and skipped (R378). -/
def skipEntry (s : State) (q code : Nat) : State :=
  (s.modQ q fun x => { x with code := BitVec.ofNat 8 code, rejidx := x.head }).consume q

/-- More entries pending than the ring holds: none is consumed, a wait or a write under way neither (R387). -/
def overfull (s : State) (q : Nat) : State :=
  s.modQ q fun x =>
    if x.resident && decide (2 ^ x.k < pendingCount x) then
      { x with code := 0x0E, rejidx := x.head, head := x.tail, stamps := [], waiting := none, writing := none }
    else x

end State

/-- A queue entry (R377): kind, address, value. -/
structure QEntry where
  kind : Nat
  addr : W64
  value : W64
deriving DecidableEq, Repr

/-- What the entry at HEAD is. -/
inductive AtHead where
  /-- nothing to consume, or a snoop must return bytes of the ring first -/
  | none
  | bad (code : Nat)
  | entry (e : QEntry)
deriving DecidableEq, Repr

/-- Parse an entry's 64 bytes (R377, R378). -/
def parseEntry (bs : List Byte) : AtHead :=
  let e : QEntry := { kind := byteAt bs 0, addr := BitVec.ofNat 64 (leAt bs 8 8), value := BitVec.ofNat 64 (leAt bs 16 8) }
  if 3 < e.kind ∨ leAt bs 1 7 ≠ 0 ∨ leAt bs 24 40 ≠ 0 ∨ (2 ≤ e.kind ∧ e.addr.toNat % 8 ≠ 0) then .bad 0x0C else .entry e

namespace State

/-- The entry at HEAD of a resident queue that is not held up by a wait or a write (R378). -/
def atHead (s : State) (q : Nat) : AtHead :=
  let x := s.que q
  if !x.assigned || !x.resident || x.head == x.tail || x.waiting.isSome || x.writing.isSome || !(s.cx x.ctx).resident then .none
  else
    match s.ctxRead x.ctx (x.ring + BitVec.ofNat 64 (64 * (x.head.toNat % 2 ^ x.k))) 64 with
    | .wait => .none
    | .fault _ => .bad 0x0D
    | .poison => .bad 0x0D
    | .ok bs => parseEntry bs

/-- Take the entry at HEAD, if it is of a kind. -/
def takeEntry (s : State) (q kind : Nat) (f : State → QEntry → State) : State :=
  let x := s.que q
  let r := s.ctxServed x.ctx (x.ring + BitVec.ofNat 64 (64 * (x.head.toNat % 2 ^ x.k))) 64
  match s.atHead q with
  | .none => s
  | .bad c => r.skipEntry q c
  | .entry e => if e.kind = kind then f r e else s

end State

/-- QUEUE_NO_OPERATION (R378). -/
def execQueueNoOperation (q : Nat) (s : State) : Out := .next (s.takeEntry q 0 fun s _ => s.consume q)

/-- QUEUE_LAUNCH (R33, R378): the entry completes at acceptance or rejection; a closed partition accepts no launch
(R376). -/
def execQueueLaunch (q : Nat) (s : State) : Out :=
  let x := s.que q
  .next (s.takeEntry q 1 fun r e =>
    if (s.prt x.part).closed then s
    else
      match s.readDesc x.ctx e.addr with
      | none => s
      | some (.error c) => (r.ctxServed x.ctx e.addr 128).skipEntry q c.toNat
      | some (.ok d) => ((r.ctxServed x.ctx e.addr 128).acceptLaunch x.ctx d e.addr (.queue q) d.prio).consume q)

/-- QUEUE_WAIT (R378): the queue stands at the entry until its word reaches VALUE. -/
def execQueueWait (q : Nat) (s : State) : Out :=
  .next (s.takeEntry q 2 fun s e => s.modQ q fun x => { x with waiting := some (e.addr, e.value) })

/-- QUEUE_WAIT_POLL (R378, R379): a resident queue that stands at a wait reads the word at its point of coherence. -/
def execQueueWaitPoll (q : Nat) (s : State) : Out :=
  let x := s.que q
  match x.waiting with
  | none => .next s
  | some (addr, v) =>
    if !x.resident then .next s
    else
      let r := s.ctxServed x.ctx addr 8
      match s.ctxRead x.ctx addr 8 with
      | .wait => .next s
      | .fault _ => .next (s.skipEntry q 0x0D)
      | .poison => .next (r.skipEntry q 0x0D)
      | .ok bs => .next (if v.toNat ≤ leNat bs then r.consume q else r)

/-- QUEUE_WRITE (R378): the entry waits for the launches accepted earlier from its queue. -/
def execQueueWrite (q : Nat) (s : State) : Out :=
  .next (s.takeEntry q 3 fun s e => s.modQ q fun x => { x with writing := some (e.addr, e.value) })

/-- QUEUE_WRITE_VALUE (R378): VALUE is written with release at SYS scope. -/
def execQueueWriteValue (q : Nat) (s : State) : Out :=
  let x := s.que q
  match x.writing with
  | none => .next s
  | some (addr, v) =>
    if !x.resident || s.launches.any fun l => l.src == .queue q && !l.finished then .next s
    else
      match s.ctxKey x.ctx Need.store addr with
      | .error _ => .next (s.skipEntry q 0x0D)
      | .ok k =>
        let s1 := (List.range Config.clusters).foldl (fun s cl => s.writeBack cl (fun y => State.belongs y x.ctx) fun _ => true) s
        if s1.writeBlocked (sectorOf k) || (List.range Config.clusters).any fun cl =>
            s1.anyDirty cl (fun y => State.belongs y x.ctx) fun _ => true then .next s1
        else
          .next ((s1.pocWrite (fun _ => false) x.ctx (((List.range 8).map (k + ·)).zip (bytesLE 8 v.toNat) |>.map fun y => (y.1, y.2, false))).consume q)

/-! ### Residence (R379) -/

namespace State

/-- Queues of a partition that are resident. -/
def residentQueues (s : State) (p : Nat) : List Nat :=
  (List.range s.queues.length).filter fun q => (s.que q).assigned && (s.que q).resident && (s.que q).part == p

/-- Time of a queue's oldest unconsumed entry. -/
def oldestEntry (x : Queue) : Nat := ((x.stamps.head?).map (·.2)).getD 0

/-- Whether a queue comes before another at a switch-in: higher priority, then the older entry, then the number. -/
def queueBefore (s : State) (a b : Nat) : Bool :=
  let x := s.que a
  let y := s.que b
  if x.prio ≠ y.prio then decide (y.prio < x.prio)
  else if oldestEntry x ≠ oldestEntry y then decide (oldestEntry x < oldestEntry y)
  else decide (a < b)

/-- The queue that the distributor switches in next, one that stands at a wait among them. -/
def nextQueue (s : State) (p : Nat) : Option Nat :=
  ((List.range s.queues.length).filter fun q =>
    let x := s.que q
    x.assigned && !x.resident && x.part == p && pendingCount x != 0).foldl
    (fun (b : Option Nat) q => match b with
      | none => some q
      | some c => if s.queueBefore q c then some q else some c) none

end State

/-- QUEUE_SWITCH_IN (R379, R387). -/
def execQueueSwitchIn (part : Nat) (s : State) : Out :=
  match s.nextQueue part with
  | none => .next s
  | some q =>
    if 16 ≤ (s.residentQueues part).length then .next s
    else .next ((s.modQ q fun x => { x with resident := true, head := x.savedHead, tail := x.savedTail, resetFlag := false }).overfull q)

/-- QUEUE_SWITCH_OUT (R379): a queue that is empty, stands at a wait, or must make room for a higher priority. Its
consumption stops, so that a write entry under way is taken up again after the switch-in; a wait is saved. -/
def execQueueSwitchOut (q : Nat) (s : State) : Out :=
  let x := s.que q
  let full := decide (16 ≤ (s.residentQueues x.part).length)
  let displaced := match s.nextQueue x.part with
    | some r => full && decide (x.prio < (s.que r).prio)
    | none => false
  if x.assigned && x.resident && (x.head == x.tail || x.waiting.isSome || displaced) then
    .next (s.modQ q fun y => { y with resident := false, savedHead := y.head, savedTail := y.tail, writing := none })
  else .next s

/-- QTAIL_WRITE (R377, R379, R387): the write lands in the live copy of a resident queue, else in the saved one. -/
def execQtailWrite (fn : Fn) (q : Nat) (v : W32) (s : State) : Out :=
  let x := s.que q
  if s.fw ≠ .thavin ∨ x.assigned = false ∨ s.partOfFn fn ≠ some x.part then .next (s.turnAway fn)
  else
    let t : BitVec 16 := v.setWidth 16
    let n := (t - (if x.resident then x.tail else x.savedTail)).toNat
    .next ((s.modQ q fun y =>
      { y with tail := if y.resident then t else y.tail, savedTail := if y.resident then y.savedTail else t
               stamps := if n = 0 then y.stamps else y.stamps ++ [(n, s.clk)] }).overfull q)

/-- A queue's registers as reads give them (R377, R379). -/
def qtailRead (x : Queue) : W64 := BitVec.ofNat 64 (if x.resident then x.tail.toNat else x.savedTail.toNat)

def qprogRead (x : Queue) : W64 :=
  BitVec.ofNat 64 ((if x.resident then x.head.toNat else x.savedHead.toNat) + x.rejidx.toNat * 2 ^ 24 + x.code.toNat * 2 ^ 40 +
    (if x.resetFlag then 2 ^ 62 else 0) + (if x.resident then 0 else 2 ^ 63))

end Sys2Proof.Machine
end

