-- ==== Sys2Proof/Machine/Debug.lean ====
section
/-! DEFINITION. Debug and trace from outside (R388 to R397), and host registers without behaviour of their own (R8). -/

namespace Sys2Proof.Machine

/-! ### Trace (R388, R389, R391) -/

/-- TRCCTL as a write leaves it: reserved bits read 0, SIZE is at most 8, and EN stays 0 for a ring that is not
aligned to its size or lies outside the partition's stacks (R388). -/
def trcctlStore (lo hi : Nat) (v : W64) : W64 :=
  let size := min 8 (field v 12 4)
  let base := field v 16 36 * 2 ^ 16
  let n := 2 ^ (16 + size)
  let en := v.getLsbD 0 && decide (base % n = 0) && decide (lo ≤ base) && decide (base + n ≤ hi)
  BitVec.ofNat 64 (base + size * 2 ^ 12 + if en then 1 else 0)

/-- The core whose registers a function's BAR 0 shows under an index in its partition (R388). -/
def State.coreAt (s : State) (a : RegAt) : Option Nat :=
  let n := Config.cores / max 1 s.parts.length
  (s.partOfFn a.fn).bind fun p => if a.n < n then some (p * n + a.n) else none

/-- TRCCTL_WRITE (R388): a write that sets EN zeroes WR and RD. -/
def execTrcctlWrite (a : RegAt) (v : W64) (s : State) : Out :=
  match s.coreAt a with
  | none => .next (s.turnAway a.fn)
  | some core =>
    let h := s.partHbm (s.partOfCluster (core / 8))
    .next (s.modC core fun k =>
      { k with trcctl := trcctlStore h.1 h.2 v, trcptr := if v.getLsbD 0 then 0 else k.trcptr, tsdBase := if v.getLsbD 0 then s.clk else k.tsdBase })

/-- TRACE_TSD (R389): at the end of 4,096 ns in which the core wrote a packet. -/
def execTraceTsd (core : Nat) (s : State) : Out :=
  let k := s.cor core
  if !k.trcctl.getLsbD 0 || !k.tsdWrote || decide (s.clk % 4096 ≠ 0) then .next s
  else
    let r := s.corePacket core { type := 4, slot := 0xFF, icount := 0, a := BitVec.ofNat 64 (s.clk - k.tsdBase), b := 0, c := 0 }
    .next (r.modC core fun k => { k with tsdWrote := false, tsdBase := if s.packetRoom core then s.clk else k.tsdBase })

/-- TRACE_LOSS (R391). -/
def execTraceLoss (core : Nat) (s : State) : Out :=
  .next (if (s.cor core).trcctl.getLsbD 0 then s.flushLoss core else s)

/-! ### Halt, resume, step (R395) -/

namespace State

/-- The group that a DBGCMD value names in a context of the function's partition, when it asks for an operation and every other
bit is 0 (R395). -/
def debugGroup (s : State) (a : RegAt) (v : W64) (op : Nat) : Option Nat :=
  let ctx := a.n
  if field v 0 4 ≠ op ∨ field v 19 45 ≠ 0 ∨ s.partOfFn a.fn ≠ some (s.cx ctx).part then none
  else
    let p := (s.cx ctx).part
    let core := p * (Config.cores / max 1 s.parts.length) + field v 10 9
    if Config.cores / max 1 s.parts.length ≤ field v 10 9 then none
    else (s.groupsOn core).find? fun g => (s.grp g).slot == field v 4 6 && s.homeCtx g == ctx && (s.grp g).st != .done

/-- A halted group goes back to the state that it held, for good or for one instruction. DESIGN CHOICE (log 68): a wait goes on with
its first start. -/
def leaveHalt (s : State) (g : Nat) (step : Bool) : State :=
  if (s.grp g).st = .halt then
    (s.modG g fun x =>
      { x with st := x.held.getD .run, held := none, haltReq := false, stepping := step
               lastIssue := (s.cor (s.coreOf g)).fe, readyFor := 0 }).syncDue g 7
  else s

end State

/-- DEBUG_HALT (R395): the group stops at its next instruction boundary, and halts once its reaches have cleared. -/
def execDebugHalt (a : RegAt) (v : W64) (s : State) : Out :=
  match s.debugGroup a v 1 with
  | none => .next (s.turnAway a.fn)
  | some g => .next (if (s.grp g).st = .halt then s else s.requestHalt g)

/-- DEBUG_RESUME (R395, R42). -/
def execDebugResume (a : RegAt) (v : W64) (s : State) : Out :=
  match s.debugGroup a v 2 with
  | none => .next (s.turnAway a.fn)
  | some g => .next (s.leaveHalt g false)

/-- DEBUG_STEP (R395). -/
def execDebugStep (a : RegAt) (v : W64) (s : State) : Out :=
  match s.debugGroup a v 3 with
  | none => .next (s.turnAway a.fn)
  | some g => .next (s.leaveHalt g true)

/-! ### Other registers (R8) -/

/-- A word of a debug block as a write leaves it (R393). -/
def debugStore (i : Nat) (v : W64) : W64 :=
  if i < 4 then v &&& 0x01FFFFFFFFFFFFFD
  else if i = 20 then v &&& 3
  else if i % 2 = 1 then v &&& 0x3FFFFFFFF
  else if i < 12 then v &&& 0x7FFFF
  else v

/-- Read-only registers of BAR 0: the status words and every QPROG (R377, R380). DESIGN CHOICE (log 65): 0x50 to 0xFF, for which
the spec draws no register, are read-only too. -/
def readOnly (a : Nat) : Bool :=
  (decide (0x48 ≤ a) && decide (a < 0x100)) || (decide (0x1000 ≤ a) && decide (a < 0x1400) && decide (a % 16 = 8))

/-- A register of a function holds what the host wrote. -/
def State.putHostReg (s : State) (fn : Fn) (addr : BarAddr) (v : W64) : State :=
  { s with hostRegs := (s.hostRegs.filter fun x => !(x.1 == fn && x.2.1 == addr)) ++ [(fn, addr, v)] }

/-- Bytes of the firmware window in BAR 2 (R373). -/
def fwWindow : Nat := 2 ^ 26

/-- REGISTER_WRITE (R8): the RW fields are stored: mailbox words (R392), RD of TRCPTR (R388), debug blocks (R393), and in BAR 2 the
firmware window, which the ROM opens to the device owner's PF (R373). DESIGN CHOICE (log 65): an offset for which the spec draws no
register reads as it was written. Registers that rows of their own write are left to those rows. -/
def execRegisterWrite (fn : Fn) (addr : BarAddr) (v : W64) (s : State) : Out :=
  let a := addr.off
  if fn.vf.isSome = true ∧ s.partOfFn fn = none then .next (s.turnAway fn)
  else if addr.bar = 2 then
    .next (if s.fw = .rom ∧ fn.vf = none ∧ fn.port = s.ownerPort ∧ a < fwWindow ∧ a ≠ Config.statusOffset then s.putHostReg fn addr v else s)
  else if addr.bar ≠ 0 ∨ readOnly a = true then .next s
  else
    let per := Config.cores / max 1 s.parts.length
    match s.partOfFn fn with
    | none => .next (s.putHostReg fn addr v)
    | some p =>
      if decide (0x100 ≤ a) && decide (a < 0x140) && decide (a % 8 = 0) then
        .next (s.modP p fun x => { x with mailbox := x.mailbox.setIfInBounds ((a - 0x100) / 8) v })
      else if decide (0x2000 ≤ a) && decide (a < 0x2000 + 16 * per) && decide (a % 16 = 8) then
        .next (s.modC (p * per + (a - 0x2000) / 16) fun k =>
          { k with trcptr := BitVec.ofNat 64 (field v 32 32 * 2 ^ 32 + field k.trcptr 0 32) })
      else if decide (0x4000 ≤ a) && decide (a < 0x8000) && decide (a % 256 ≤ 0xA0) && decide (a % 8 = 0) then
        let c := (a - 0x4000) / 256
        .next (if (s.cx c).resident && (s.cx c).part == p then
            s.modX c fun x => { x with debug := Vector.setIfInBounds x.debug (a % 256 / 8) (debugStore (a % 256 / 8) v) }
          else s)
      else .next (s.putHostReg fn addr v)

end Sys2Proof.Machine
end

