-- ==== Sys2Proof/Machine/Survey.lean ====
section
/-! DEFINITION. The state survey (R381, R385): objects as bytes, and requests with and without FLUSH. -/

namespace Sys2Proof.Machine

/-- An event record's 32 bytes (R330). -/
def eventBytes (te cls index die cluster zone squashed restarted : Nat) : List Byte :=
  bytesLE 8 te ++ bytesLE 1 cls ++ bytesLE 1 index ++ bytesLE 1 die ++ bytesLE 1 cluster ++ bytesLE 1 zone ++ bytesLE 3 0 ++
    bytesLE 4 squashed ++ bytesLE 4 restarted ++ bytesLE 8 0

namespace State

/-- The n-th event record. -/
def eventRecord (s : State) (n : Nat) : List Byte :=
  match (s.records.filterMap fun r => match r with
    | .event te c i d k z q r => some (eventBytes te c i d k z q r)
    | .other te _ what addr key => some (bytesLE 8 te ++ (Config.eventTail what addr key).toList)
    | _ => none)[n]? with
  | some bs => bs
  | none => []

/-- A register of BAR 0 as a function reads it (R377, R380, R388, R392, R393): the physical function reads every queue's, a
virtual one those of its partition. -/
def readRegister (s : State) (fn : Fn) (addr : BarAddr) : W64 :=
  let a := addr.off
  let per := Config.cores / max 1 s.parts.length
  let own := fun (part : Nat) => fn.vf.isNone || s.partOfFn fn == some part
  if addr.bar = 2 ∧ a = Config.statusOffset then BitVec.ofNat 64 s.romStatus
  else if addr.bar ≠ 0 then s.hostReg fn addr
  else if a = 0x48 then
    match s.replies.find? fun r => r.fn == fn with
    | some r => BitVec.ofNat 64 (r.status + r.seq * 2 ^ 32)
    | none => 0
  else if 0x1000 ≤ a ∧ a < 0x1400 then
    let q := s.que ((a - 0x1000) / 16)
    if !own q.part then 0 else if a % 16 = 8 then qprogRead q else qtailRead q
  else
    match s.partOfFn fn with
    | none => s.hostReg fn addr
    | some p =>
      if 0x100 ≤ a ∧ a < 0x140 then (s.prt p).mailbox[(a - 0x100) / 8]?.getD 0
      else if 0x2000 ≤ a ∧ a < 0x2000 + 16 * per then
        let k := s.cor (p * per + (a - 0x2000) / 16)
        if a % 16 = 8 then k.trcptr else k.trcctl
      else if 0x4000 ≤ a ∧ a < 0x8000 then
        let c := s.cx ((a - 0x4000) / 256)
        if c.resident && c.part == p then c.debug[a % 256 / 8]?.getD 0 else 0
      else s.hostReg fn addr

/-- Whether an object is a register of the function itself. -/
def readsOwn (_s : State) (fn : Fn) (o : SurveyObj) : Bool :=
  match o with
  | .reg f _ => f == fn
  | _ => false

/-- The energy counters of an account in µJ (R366). -/
def energyOf (s : State) (part : Nat) : List Byte :=
  energyBytes (if part < s.parts.length then (s.prt part).energy.total else s.ownerEnergy.total)

/-- An object as written (R77, R381). -/
def surveyData (s : State) (o : SurveyObj) : List Byte :=
  match o with
  | .reg f a => bytesLE 8 (s.readRegister f a).toNat
  | .queue q => bytesLE 8 (qtailRead (s.que q)).toNat ++ bytesLE 8 (qprogRead (s.que q)).toNat
  | .groupImage g =>
    s.groupImages g
  | .teamImage t => s.teamImageBytes t
  | .eventRecord n => s.eventRecord n
  | .energy p => s.energyOf p
  | .counters p => (s.prt p).events.toList.flatMap fun v => bytesLE 8 v.toNat
  | .partState p => bytesLE 1 (s.prt p).owner ++ bytesLE 1 (if (s.prt p).closed then 1 else 0) ++ bytesLE 2 (s.prt p).qwin.toNat
  | .identity => Config.attestationKey ++ identityDigest.toList
  | .corrected k => bytesLE 8 ((s.corrected[k]?).getD 0)
  | .pcap => bytesLE 4 s.power.pcap.toNat
  | .cad c => bytesLE 2 (s.cor c).cad.toNat

/-- Groups whose lines an object shows, and their core. -/
def objectGroups (s : State) (o : SurveyObj) : List Nat :=
  match o with
  | .groupImage g => [g]
  | .teamImage t => (s.tm t).groups
  | _ => []

def objectCores (s : State) (o : SurveyObj) : List Nat :=
  distinct (((s.objectGroups o).filter fun g => s.resident (s.grp g).team).map s.coreOf)

/-- What an object shows of the groups of cores that are not stopped is written first (R70, R381). -/
def flushObject (s : State) (o : SurveyObj) (busy : List Nat) : State :=
  let s1 := ((s.objectGroups o).filter fun g => !busy.contains (s.coreOf g)).foldl (fun s g => s.flushImage g) s
  match o with
  | .teamImage t => if s.resident t && busy.contains (s.tm t).core then s1 else s1.writeTeamImage t
  | _ => s1

/-- The reply goes out: RESET tells that the partition has been reset since the request, or that its counters have not resumed
(R385). -/
def surveyReply (s : State) (o : SurveyObj) (incomplete reset : Bool) : State :=
  let closed := match s.objectPart o with
    | some p => (s.prt p).closed
    | none => false
  s.record (.survey (s.surveyData o) incomplete (reset || closed))

end State

/-- SURVEY_REQUEST (R381): the PF reaches the whole device, a VF its own partition. With FLUSH the cores concerned
write their dirty cleared lines first (R70); one whose issue is stopped holds the reply up. -/
def execSurveyRequest (fn : Fn) (x : SurveyObj) (flush : Bool) (s : State) : Out :=
  let mine := fn.vf.isNone || ((s.partOfFn fn).isSome && (s.objectPart x == s.partOfFn fn || x == .identity || s.readsOwn fn x))
  if !mine then .next (s.turnAway fn)
  else if !flush then .next (s.surveyReply x false false)
  else
    let busy := (s.objectCores x).filter fun c => (s.cor c).paused
    let s1 := s.flushObject x busy
    .next (if busy.isEmpty then s1.surveyReply x false false else { s1 with surveys := s1.surveys ++ [(fn, x, busy, false)] })

/-- SURVEY_FLUSH_TIMEOUT (R381): a core that has flushed by 100 µs lets the reply go out whole; one that has not is
skipped, and the reply carries INCOMPLETE. -/
def execSurveyFlushTimeout (core : Nat) (s : State) : Out :=
  match s.surveys.find? fun y => y.2.2.1.contains core with
  | none => .next s
  | some (fn, x, cs, reset) =>
    let late := cs.any fun c => (s.cor c).paused
    let s1 := s.flushObject x (cs.filter fun c => (s.cor c).paused)
    let s2 := s1.surveyReply x late reset
    .next { s2 with surveys := s2.surveys.erase (fn, x, cs, reset) }

end Sys2Proof.Machine
end

