-- ==== Sys2Proof/Machine/Checkpoint.lean ====
section
/-! DEFINITION. Checkpoints and restores (R350 to R353, R355). -/

namespace Sys2Proof.Machine

/-! ### CRC-64 and the header (R351) -/

/-- One step of CRC-64 of ECMA-182: a bit enters at the top. -/
def crc64Bit (c : W64) : W64 := if c.getLsbD 63 then (c <<< 1) ^^^ 0x42F0E1EBA9EA3693 else c <<< 1

def crc64Byte (c : W64) (b : Byte) : W64 :=
  (List.range 8).foldl (fun c _ => crc64Bit c) (c ^^^ (b.setWidth 64 <<< 56))

def crc64 (bs : List Byte) : W64 := bs.foldl crc64Byte 0

/-- The shape field. -/
def shapeWord (parts p : Nat) : W64 := BitVec.ofNat 64 (parts % 16 + p % 16 * 16 + Config.cores / max 1 parts % 512 * 256)

/-- Bytes of a slot's header. -/
def headerBytes (c : CkptSlot) : List Byte :=
  let h := bytesLE 8 0x5A434B50 ++ bytesLE 4 c.head.gen.toNat ++ bytesLE 1 c.head.ndev ++ bytesLE 1 c.index ++ bytesLE 2 0 ++
    bytesLE 8 c.head.shape.toNat ++ bytesLE 4 c.head.teams ++ bytesLE 4 c.head.ranges ++ bytesLE 8 c.head.bytes ++
    bytesLE 8 c.head.crc.toNat
  h ++ bytesLE 8 (crc64 h).toNat

/-- Whether a slot's header verifies (R352). -/
def slotVerifies (c : CkptSlot) : Bool := c.header == some (headerBytes c)

/-! ### Units and rows (R351) -/

/-- Bytes cut into units of 64 KiB, the last one padded with zeros; the fuel is at least the number of units. -/
def cutUnits : Nat → List Byte → List (List Byte)
  | 0, _ => []
  | n + 1, bs => if bs.isEmpty then [] else fitBytes 65536 (bs.take 65536) :: cutUnits n (bs.drop 65536)

/-- Units in rows of m, the last row padded with units of zeros. -/
def cutRows (m : Nat) : Nat → List (List Byte) → List (List (List Byte))
  | 0, _ => []
  | n + 1, us =>
    if us.isEmpty then []
    else (us.take m ++ List.replicate (m - us.length) (zeros 65536)) :: cutRows m n (us.drop m)

/-- The XOR of units. -/
def xorUnits (us : List (List Byte)) : List Byte := us.foldl (fun a b => a.zipWith (· ^^^ ·) b) (zeros 65536)

/-- The rows of a checkpoint of n devices. -/
def ckptRows (n : Nat) (bs : List Byte) : List (List (List Byte)) :=
  let us := cutUnits (bs.length / 65536 + 1) bs
  cutRows (max 1 (n - 1)) (us.length + 1) us

/-- The units that lie on device i of n: of row j its parity unit where i is j mod n, else the data unit in its place. With one
device there is no parity unit. -/
def deviceUnits (n i : Nat) (bs : List Byte) : List (List Byte) :=
  (ckptRows n bs).zipIdx.map fun r =>
    if n ≤ 1 then r.1.headD []
    else if r.2 % n = i then xorUnits r.1
    else (r.1[if i < r.2 % n then i else i - 1]?).getD []

/-- The checkpoint's bytes from the units of its devices, at most one of them missing and rebuilt (R351, R352). -/
def joinUnits (n len : Nat) (cols : List (Option (List (List Byte)))) : Option (List Byte) :=
  let lost := (cols.filter Option.isNone).length
  let rows := ((cols.findSome? id).map List.length).getD 0
  if 1 < lost ∨ (lost = 1 ∧ n ≤ 1) then none
  else
    let unit := fun (i j : Nat) => ((cols[i]?).getD none).bind fun u => u[j]?
    some (((List.range rows).flatMap fun j => ((List.range n).filter fun i => n ≤ 1 || i != j % n).flatMap fun i =>
      match unit i j with
      | some u => u
      | none => xorUnits ((List.range n).filterMap fun k => unit k j)).take len)

/-- Newness modulo 2^32 (R352). -/
def newer (g h : W32) : Bool := g != h && decide ((g - h).toNat < 2 ^ 31)

namespace State

/-- Checkpoint state of a partition. -/
def ckptOf (s : State) (p : Nat) : CkptState :=
  (s.ckpts.find? fun c => c.part == p).getD { part := p, slots := Vector.replicate 2 none, pending := none, cmd := none, waiting := [] }

def putCkpt (s : State) (c : CkptState) : State := { s with ckpts := (s.ckpts.filter fun x => x.part != c.part) ++ [c] }

/-- Unfinished launches of a job, its teams and its groups. -/
def jobLaunches (s : State) (ctxs : List Nat) : List Nat :=
  (List.range s.launches.length).filter fun l => ctxs.contains (s.lch l).ctx && !(s.lch l).finished

def jobTeams (s : State) (ctxs : List Nat) : List Nat :=
  let ls := s.jobLaunches ctxs
  (List.range s.teams.length).filter fun t => ls.contains (s.tm t).launch

def jobGroups (s : State) (ctxs : List Nat) : List Nat := (s.jobTeams ctxs).flatMap fun t => (s.tm t).groups

/-- A launch's record: its descriptor with the address that it came from, its place in the grid, its unfinished teams with their states, its pairs in
entries of 16 bytes (R208, R350 step 4). DESIGN CHOICE (log 42): two partner words of 5 bytes, and a count of 6. -/
def launchRecordBytes (s : State) (l : Nat) : List Byte :=
  let x := s.lch l
  descBytes x.desc ++ bytesLE 8 x.addr.toNat ++ bytesLE 8 x.next ++
    (x.teams.filter fun t => (s.tm t).st != .finished).flatMap (fun t =>
      let y := s.tm t
      bytesLE 4 y.x ++ bytesLE 4 y.y ++ bytesLE 4 y.z ++ bytesLE 1 y.stage ++ bytesLE 1 (tstateCode y.st) ++ bytesLE 2 0) ++
    x.pairs.flatMap fun q => bytesLE 5 q.a ++ bytesLE 5 q.b ++ bytesLE 6 q.count

/-- The checkpoint's bytes: group images, team images, ranges, launch records. -/
def ckptData (s : State) (x : CkptArgs) : List Byte :=
  (s.jobGroups x.ctxs).flatMap (fun g =>
      s.groupImages g) ++
    (s.jobTeams x.ctxs).flatMap s.teamImageBytes ++ x.ranges.flatMap (fun r => s.mem.readBytes r.1 r.2) ++
    (s.jobLaunches x.ctxs).flatMap s.launchRecordBytes

/-- Newest generation so far, 0 where there is none. -/
def lastGen (c : CkptState) : W32 :=
  (c.slots.toList.foldl (fun (b : Option W32) o => match o, b with
    | some x, some g => if newer x.head.gen g then some x.head.gen else b
    | some x, none => some x.head.gen
    | none, _ => b) none).getD 0

/-- The clusters' dirty bytes of the named ranges go to their points of coherence, where Thavin reads them (R139, R350). -/
def flushRanges (s : State) (rs : List (Nat × Nat)) : State :=
  let in_ := fun (k : Nat) => rs.any fun r => decide (r.1 ≤ k) && decide (k < r.1 + r.2)
  (List.range s.clusters.length).foldl (fun s cl => s.writeBack cl (fun _ => true) in_) s

/-- Capture of step 4 (R350) and the stripes of the generation (R351). DESIGN CHOICE (log 43): the checkpoint's bytes are those
of its devices in the order of their indexes. -/
def capture (s : State) (p : Nat) (x : CkptArgs) (others : List CkptShare) : CkptSlot :=
  let ts := s.jobTeams x.ctxs
  let gs := s.jobGroups x.ctxs
  let own := s.ckptData x
  let data := (List.range x.ndev).flatMap fun i =>
    if i = x.index then own else ((others.find? fun o => o.index == i).map (·.data)).getD []
  { head := { gen := lastGen (s.ckptOf p) + 1, ndev := x.ndev, shape := shapeWord s.parts.length p
              teams := ts.length + (others.map (·.teams)).sum, ranges := x.ranges.length + (others.map (·.ranges)).sum
              bytes := data.length, crc := crc64 data }
    index := x.index
    teams := ts.map s.tm, groups := gs.map s.grp, launches := (s.jobLaunches x.ctxs).map fun l => (l, s.lch l)
    teamIds := ts, groupIds := gs, invals := gs.map fun g => (s.img g).inval
    ranges := x.ranges.map fun r => (r.1, s.mem.readBytes r.1 r.2)
    data := data, units := deviceUnits x.ndev x.index data, header := none }

/-- Whether every other device of a job has sent its share (R350). -/
def sharesHere (x : CkptArgs) (others : List CkptShare) : Bool :=
  (List.range x.ndev).all fun i => i == x.index || others.any fun o => o.index == i

/-- Whether the job is still: its teams are out, its copies are done, and every pound entry of its groups has drained
(R350 step 2). -/
def jobStill (s : State) (ctxs : List Nat) : Bool :=
  (s.jobTeams ctxs).all (fun t => !s.resident t) &&
    !s.cores.any fun k => (k.pound.any fun e => (s.jobGroups ctxs).contains e.gid) ||
      k.copies.any fun y => (s.jobGroups ctxs).contains y.gid

/-- Causes for which a checkpoint or restore is refused before anything is read. -/
def ckptCauses (s : State) (p : Nat) (x : CkptArgs) : List (Nat × Bool) :=
  let h := s.partHbm p
  (x.ctxs.flatMap fun a => s.ctxCauses p a) ++
    [(0x13, decide (x.ndev < 1) || decide (16 < x.ndev) || decide (x.ndev ≤ x.index) || (decide (1 < x.ndev) && s.domIndex.isNone) ||
       x.ranges.any fun r => decide (r.1 < h.1) || decide (h.2 < r.1 + r.2))]

/-- A checkpoint begins (R350 step 1): the job's teams are pre-empted and placed no more. -/
def beginCkpt (s : State) (c : CkptState) (x : CkptArgs) (cmd : Fn × Nat) : State :=
  ((s.jobTeams x.ctxs).foldl (fun s t => s.startLeaving t true) s).putCkpt { c with pending := some x, cmd := some cmd }

end State

/-- CHECKPOINT (R350): a request that comes while a generation is unsealed waits for its seal. -/
def execCheckpoint (fn : Fn) (x : CkptArgs) (s : State) : Out :=
  s.vfCommand fn fun p =>
    let c := s.ckptOf p
    match State.lowest (s.ckptCauses p x) with
    | some code => s.answer fn code []
    | none =>
      if c.pending.isSome || (State.unsealed c).isSome then s.putCkpt { c with waiting := c.waiting ++ [(x, fn, s.cmdNo fn)] } else s.beginCkpt c x (fn, s.cmdNo fn)

/-- CHECKPOINT_SEAL (R350, R351): once the job is still, and the shares of its other devices are here, its state is captured and its
teams return; then, every unit being acknowledged, the header is written, and the command is done. A request that waited
begins. -/
def execCheckpointSeal (a : SealArgs) (s : State) : Out :=
  let c := s.ckptOf a.part
  match c.pending, State.unsealed c with
  | some x, _ =>
    if !s.jobStill x.ctxs || !State.sharesHere x a.others then .next s
    else
      let s1 := (s.jobTeams x.ctxs).foldl (fun s t => s.writeTeamImage t) ((s.jobGroups x.ctxs).foldl (fun s g => s.flushImage g) (s.flushRanges x.ranges))
      let k := s1.capture a.part x a.others
      .next (s1.putCkpt { c with pending := none, slots := c.slots.setIfInBounds (k.head.gen.toNat % 2) (some k) })
  | none, some (i, k) =>
    let d : CkptState := { c with slots := c.slots.setIfInBounds i (some { k with header := some (headerBytes k) }), cmd := none, waiting := c.waiting.drop 1 }
    let s1 := match c.cmd with
      | some n => (s.putCkpt d).answerTo n.1 n.2 0 []
      | none => s.putCkpt d
    .next (match c.waiting with
      | [] => s1
      | x :: _ => s1.beginCkpt d x.1 x.2)
  | none, none => .next s

/-! ### Restore (R352, R355) -/

/-- Put an element at an index, with blanks up to it. -/
def putAt {α : Type} (blank : α) (xs : List α) (i : Nat) (x : α) : List α :=
  if i < xs.length then xs.set i x else xs ++ List.replicate (i - xs.length) blank ++ [x]

/-- A saved group: a page fault that it awaited arises afresh (R353), under a halt too. -/
def restoredGroup (x : Group) : Group :=
  { x with st := if x.st = .replay then .run else x.st, held := if x.held = some .replay then some .run else x.held
           replay := none, refused := 0, evictable := true }

/-- A saved team returns as PREEMPTED. -/
def restoredTeam (t : Team) : Team :=
  match t.st with
  | .finished => t
  | _ => { t with st := .preempted, returnable := true, held := [], fills := [] }

namespace State

/-- Restore a generation (R352): ranges, launches, teams. What is left of those teams is stopped first. -/
def restoreSlot (s : State) (k : CkptSlot) : State :=
  let ws := k.ranges.flatMap fun r => r.2.zipIdx.map fun b => (r.1 + b.2, b.1, false)
  let s1 := (k.teamIds.foldl (fun s t => if (s.tm t).st = .finished then s else s.killTeam t) s).depositBytes noCtx ws
  let blankG := Group.fresh 0 0 0 0 0 (Arch.entry 0 0 0)
  let blankT := { Team.fresh 0 0 0 0 0 0 with st := TState.finished }
  let blankL := { Launch.fresh 0 0 Desc.blank 0 (.queue 0) 0 0 with finished := true }
  { s1 with
    launches := k.launches.foldl (fun xs l => putAt blankL xs l.1 { l.2 with stopped := false, finished := false, since := s.clk }) s1.launches
    teams := (k.teamIds.zip k.teams).foldl (fun xs t => putAt blankT xs t.1 (restoredTeam t.2)) s1.teams
    groups := (k.groupIds.zip k.groups).foldl (fun xs g => putAt blankG xs g.1 (restoredGroup g.2)) s1.groups
    images := ((k.groupIds.zip k.groups).zip k.invals).foldl (fun xs g =>
      putAt (GImage.fresh 0 (Arch.entry 0 0 0)) xs g.1.1 (State.writtenImage (GImage.fresh 0 g.1.2.arch) (restoredGroup g.1.2) g.2)) s1.images
    lines := (s1.lines.filter fun l => !k.groupIds.contains l.gid) ++ (k.groupIds.zip k.groups).flatMap fun g => imageLines g.1 g.2.arch }

/-- The header of a generation on device i of a job, where it verifies; a device named as replaced has none (R352, R355). -/
def headOn (s : State) (p : Nat) (x : CkptArgs) (g : W32) (i : Nat) : Option CkptHead :=
  if x.replaced = some i then none
  else if i = x.index then
    ((s.ckptOf p).slots.toList.filterMap id).findSome? fun k => if k.head.gen = g ∧ slotVerifies k = true then some k.head else none
  else
    (x.peers.find? fun q => q.1 == i).bind fun q => q.2.findSome? fun k => if k.head.gen = g ∧ k.verifies = true then some k.head else none

/-- The units of a generation on device i, where they can be read. -/
def unitsOn (s : State) (p : Nat) (x : CkptArgs) (g : W32) (i : Nat) : Option (List (List Byte)) :=
  if x.replaced = some i then none
  else if i = x.index then
    ((s.ckptOf p).slots.toList.filterMap id).findSome? fun k => if k.head.gen = g then some k.units else none
  else
    (x.peers.find? fun q => q.1 == i).bind fun q => q.2.findSome? fun k => if k.head.gen = g then k.units else none

/-- A generation that can be restored (R352, R355): every device's header of it verifies, that of a replaced device by the
agreement of all the others, and its data CRC does, with at most one device's units rebuilt. The bytes so found. -/
def genBytes (s : State) (p : Nat) (x : CkptArgs) (g : W32) : Option (List Byte) :=
  let hs := (List.range x.ndev).map (s.headOn p x g)
  match hs.findSome? id with
  | none => none
  | some h =>
    let ok := hs.zipIdx.all fun y => match y.1 with
      | some _ => true
      | none => x.replaced == some y.2 && hs.zipIdx.all fun z => z.2 == y.2 || z.1 == some h
    (if ok then joinUnits x.ndev h.bytes ((List.range x.ndev).map (s.unitsOn p x g)) else none).bind fun bs =>
      if crc64 bs = h.crc then some bs else none

/-- The newest generation that can be restored (R352, R355). DESIGN CHOICE (log 43): what its bytes say of this device is what the
device itself wrote into the generation. -/
def chooseSlot (s : State) (p : Nat) (x : CkptArgs) : Option CkptSlot :=
  (s.ckptOf p).slots.toList.foldl (fun b o => match o with
    | some k =>
      if s.genBytes p x k.head.gen = some k.data then (match b with
        | some c => if newer k.head.gen c.head.gen then some k else b
        | none => some k)
      else b
    | none => b) none

end State

/-- RESTORE (R352, R353): refused for another count of devices or another shape. -/
def execRestore (fn : Fn) (x : CkptArgs) (s : State) : Out :=
  s.vfCommand fn fun p =>
    let k := s.chooseSlot p x
    let bad := match k with
      | none => true
      | some c => decide (c.head.ndev ≠ x.ndev) || c.head.shape != shapeWord s.parts.length p
    s.checked fn (s.ckptCauses p x ++ [(0x16, bad)]) ((k.map s.restoreSlot).getD s) []

end Sys2Proof.Machine
end

