-- ==== Sys2Proof/Machine/Routes.lean ====
section
/-! DEFINITION. The routing tables that Thavin writes at boot (R25, R26): minimal paths that avoid harvested positions
under a west-first turn rule. DESIGN CHOICE (log 44): where harvesting leaves no path under that rule, the shortest path
that avoids harvested positions; which of several minimal moves is `Config.bootRoute`'s. -/

namespace Sys2Proof.Machine

/-- Neighbour of a grid router by an output: 1 north, 2 south, 3 east, 4 west (R25). -/
def moveTo (code u : Nat) : Option Nat :=
  match code with
  | 1 => if u < 12 then none else some (u - 12)
  | 2 => if u < 36 then some (u + 12) else none
  | 3 => if u % 12 = 11 then none else some (u + 1)
  | 4 => if u % 12 = 0 then none else some (u - 1)
  | _ => none

/-- Whether a grid position of a die is in service at boot (R21). -/
def inService (die u : Nat) : Bool := u % 12 != harvestedColumn die (u / 12)

/-- Moves to a destination from each of the 48 grid routers; `farAway` where there is no path. -/
abbrev Distances := Vector Nat 48

def farAway : Nat := 99

def Distances.get (ds : Distances) (u : Nat) : Nat := ds[u]?.getD farAway

/-- One more round of shortening. -/
def relax (ok : Nat → Nat → Bool) (codes : List Nat) (ds : Distances) : Distances :=
  Vector.ofFn fun u => codes.foldl (fun d c =>
    match moveTo c u.val with
    | some v => if ok u.val v then min d (ds.get v + 1) else d
    | none => d) ds[u]

/-- Distances by some of the moves, along allowed steps: no path of the grid is longer than 47 moves. -/
def distances (ok : Nat → Nat → Bool) (codes goals : List Nat) : Distances :=
  (List.range 47).foldl (fun ds _ => relax ok codes ds) (Vector.ofFn fun u => if goals.contains u.val then 0 else farAway)

/-- Outputs that bring a router one move nearer. -/
def nearer (ok : Nat → Nat → Bool) (codes : List Nat) (ds : Distances) (u : Nat) : List Nat :=
  codes.filter fun c => match moveTo c u with
    | some v => ok u v && ds.get v + 1 == ds.get u
    | none => false

/-- Whether moves west, and then north, south and east only, lead to the destination. -/
def westFirst (ok : Nat → Nat → Bool) (ds : Distances) : Nat → Nat → Bool
  | 0, _ => false
  | n + 1, u => match moveTo 4 u with
    | some v => ok u v && (decide (ds.get v < farAway) || westFirst ok ds n v)
    | none => false

/-- The entries of a die's 48 grid routers for one index: the destination's position, or the joins of the edge router that
leads to another die. `half`: the half that routers in it do not leave (R26). -/
def routeColumn (die : Nat) (goals : List Nat) (half : Option Nat) (last index : Nat) : Vector (BitVec 4) 48 :=
  let okAll := fun (_u v : Nat) => inService die v
  let ok := fun (u v : Nat) => inService die v && match half with
    | some h => u / 24 != h || v / 24 == h
    | none => true
  let nse := distances ok [1, 2, 3] goals
  let any := distances ok [1, 2, 3, 4] goals
  let all := distances okAll [1, 2, 3, 4] goals
  Vector.ofFn fun u =>
    let pick := fun (cs : List Nat) => BitVec.ofNat 4 (cs[Config.bootRoute die u.val index % cs.length]?.getD 0)
    if !inService die u.val then 0
    else if goals.contains u.val then BitVec.ofNat 4 last
    else if nse.get u.val < farAway then pick (nearer ok [1, 2, 3] nse u.val)
    else if westFirst ok nse 12 u.val then 4
    else if any.get u.val < farAway then pick (nearer ok [1, 2, 3, 4] any u.val)
    else if all.get u.val < farAway then pick (nearer okAll [1, 2, 3, 4] all u.val)
    else 0

/-- Edge router that traffic for another die leaves by: x before y (R25). -/
def edgeFor (die d : Nat) : Nat := if dieX d ≠ dieX die then 0 else 1

/-- The columns of a die's routing tables, index 0 first. -/
def dieRoutes (die : Nat) : List (Vector (BitVec 4) 48) :=
  ((List.range 48).map fun i => routeColumn die (if inService die i then [i] else []) (some (i / 24)) 5 i) ++
    (List.range 4).map fun d =>
      routeColumn die (if d = die then [] else (joins die (edgeFor die d)).map fun j => gridIndex j.1 j.2) none 6 (48 + d)

/-- Routers as Thavin leaves them at boot. -/
def bootRouters : List Router :=
  (List.range 4).flatMap fun d =>
    let cols := dieRoutes d
    ((blankRouters.drop (53 * d)).take 53).zipIdx.map fun (r, n) =>
      { r with table := Vector.ofFn fun i => ((cols[i.val]?.getD (Vector.replicate 48 0))[n]?).getD 0 }

end Sys2Proof.Machine
end

