-- ==== Sys2Proof/Machine/Firmware.lean ====
section
/-! DEFINITION. Power-up, the boot ROM and the ports (R25, R371 to R375, R385). -/

namespace Sys2Proof.Machine

/-- POWER_UP (R373): the device as after reset, its links as they are; port 1 owns it when port 0 has no link (R372). What comes
about outside it goes on. -/
def execPowerUp (link0 link1 : Bool) (s : State) : Out :=
  .next { State.reset with fw := .rom, link0 := link0, link1 := link1, ownerPort := if link0 then 0 else 1, agenda := s.agenda }

/-- Bytes of the firmware window as a function has written them (R373). -/
def State.windowBytes (s : State) (fn : Fn) (off n : Nat) : List Byte :=
  (List.range n).map fun i => (s.hostReg fn { bar := 2, off := (off + i) / 8 * 8 }).extractLsb' ((off + i) % 8 * 8) 8

/-- FIRMWARE_GO (R373): the device owner's PF writes 1 to the window's GO word, and the ROM verifies the image in the window; it
starts Thavin, which creates one partition, or it reports a failure code. DESIGN CHOICE (log 66): the image stands at the window's
first byte, and its signature of 512 bytes follows. -/
def execFirmwareGo (fn : Fn) (len : Nat) (s : State) : Out :=
  if s.fw ≠ .rom ∨ fn.vf ≠ none ∨ fn.port ≠ s.ownerPort then .next s
  else
    let image := s.windowBytes fn 0 len
    let s1 := s.putHostReg fn { bar := 2, off := Config.goOffset } 1
    if len + 512 ≤ fwWindow ∧ Config.vendorVerifies image (s.windowBytes fn len 512) = true then
      .next { s1 with
        fw := .thavin, romStatus := 0, imageDigest := (sha512 image).toList, routers := bootRouters
        parts := [State.newPart s.ownerPort s.clk], ownerEnergy := { EnergyAcct.zero with start := s.clk } }
    else .next { s1 with romStatus := Config.romFailure image + 1 }

/-- OWNER_LINK_DOWN (R372, R385): after 1 s without a port's link the PF of the other, whose link is up, may claim that port's
partitions, and the device if the port owned it; the ROM waits for an image on the new owner port without a claim. -/
def execOwnerLinkDown (x : LinkLoss) (s : State) : Out :=
  let other := 1 - x.port
  let s1 : State := { s with link0 := if x.port = 0 then false else s.link0, link1 := if x.port = 1 then false else s.link1 }
  let up := if other = 0 then s1.link0 else s1.link1
  let claimed := match x.claim with
    | some f => f.vf == none && f.port == other
    | none => s.fw == .rom
  .next (if up && claimed then
      { s1 with
        ownerPort := if s.ownerPort = x.port then other else s.ownerPort
        parts := s.parts.map fun p => if p.owner = x.port then { p with owner := other } else p }
    else s1)

end Sys2Proof.Machine
end

