-- ==== Sys2Proof/Machine/Links.lean ====
section
/-! DEFINITION. The mesh (R23 to R28), the die links (R29), failures of routers and of shared-cache lines (R27, R335),
and accesses that cross the device's edge (R222, R336, R382, R383). -/

namespace Sys2Proof.Machine

/-! ### The mesh (R22 to R28) -/

/-- Number of a router on its die. -/
def nodeOf : RouterAt → Nat
  | .grid r c => gridIndex r c
  | .edge n => 48 + n

/-- Number of a die's link in x and in y. -/
def linkX (d : Nat) : Nat := dieY d
def linkY (d : Nat) : Nat := 2 + dieX d

/-- One move of a flit: the output it needs, the direction of the link it crosses, and where it is latched next with its
input port. Outputs are 1 to 4 the neighbours, 6 the edge or the die link, 7 the transit channel, 8 + n the local port n,
64 + n grid position n from an edge. -/
structure Hop where
  out : Nat
  link : Option Nat
  die : Nat
  at_ : RouterAt
  inp : Nat
deriving DecidableEq, Repr

/-- Entry of a routing table for a destination (R25). -/
def routeIndex (die : Nat) (d : Dest) : Nat := if d.die = die then gridIndex d.row d.col else 48 + d.die

/-- The move that a router's table gives (R25); none for an invalid entry. At its position a flit takes the local port, or
the edge router that is joined there; code 6 leads to an edge router only from a join (R22). -/
def gridHop (code : Nat) (die row col : Nat) (d : Dest) : Option Hop :=
  let toEdge := fun (e : Nat) =>
    if (joins die e).contains (row, col) then
      some { out := 6, link := none, die := die, at_ := .edge e, inp := 1 + (joins die e).idxOf (row, col) }
    else none
  match code with
  | 1 => if row = 0 then none else some { out := 1, link := none, die := die, at_ := .grid (row - 1) col, inp := 2 }
  | 2 => if row = 3 then none else some { out := 2, link := none, die := die, at_ := .grid (row + 1) col, inp := 1 }
  | 3 => if col = 11 then none else some { out := 3, link := none, die := die, at_ := .grid row (col + 1), inp := 4 }
  | 4 => if col = 0 then none else some { out := 4, link := none, die := die, at_ := .grid row (col - 1), inp := 3 }
  | 5 => match d.edge with
    | none => some { out := 8 + d.port, link := none, die := die, at_ := .grid row col, inp := 0 }
    | some e => toEdge e
  | 6 => toEdge (edgeFor die d.die)
  | _ => none

/-- The move from an edge router into its die's grid. DESIGN CHOICE (log 44): the join nearest the destination, the first
of two that are equally near. -/
def intoGrid (die e : Nat) (d : Dest) : Option Hop :=
  let far := fun (j : Nat × Nat) => (j.1 - d.row) + (d.row - j.1) + ((j.2 - d.col) + (d.col - j.2))
  match joins die e with
  | [] => none
  | j :: js =>
    let b := js.foldl (fun b x => if far x < far b then x else b) j
    some { out := 64 + gridIndex b.1 b.2, link := none, die := die, at_ := .grid b.1 b.2, inp := 6 }

/-- The move of an edge router (R22, R25): over its link, over the transit channel, into the grid, or to what it carries. -/
def edgeHop (die n : Nat) (d : Dest) : Option Hop :=
  let dx := dieX d.die != dieX die
  let dy := dieY d.die != dieY die
  let cross := fun (l nd : Nat) =>
    some { out := 6, link := some (if die < nd then l else 4 + l), die := nd, at_ := .edge n, inp := 6 }
  let transit := fun (e : Nat) => some { out := 7, link := none, die := die, at_ := .edge e, inp := 7 }
  match n with
  | 0 => if dx then cross (linkX die) (dieY die * 2 + (1 - dieX die)) else if dy then transit 1 else intoGrid die 0 d
  | 1 => if dx then transit 0 else if dy then cross (linkY die) ((1 - dieY die) * 2 + dieX die) else intoGrid die 1 d
  | e =>
    if dx || dy then
      (joins die e).head?.map fun j => { out := 64 + gridIndex j.1 j.2, link := none, die := die, at_ := .grid j.1 j.2, inp := 6 }
    else if d.edge = some e then some { out := 8, link := none, die := die, at_ := .edge e, inp := 0 }
    else intoGrid die e d

namespace State

/-- A router of a die. -/
def routerOf (s : State) (die node : Nat) : Option Router := s.routers[53 * die + node]?

/-- Whether a router, or the transit channel (node 52), works. -/
def routerUp (s : State) (die node : Nat) : Bool := ((s.routerOf die node).map fun r => !r.failed).getD false

/-- The move of a flit's destination at a router, if its entry is valid and the routers at both ends work. -/
def hopOf (s : State) (die : Nat) (at_ : RouterAt) (d : Dest) : Option Hop :=
  match s.routerOf die (nodeOf at_) with
  | none => none
  | some r =>
    let h := match at_ with
      | .grid row col => gridHop ((r.table[routeIndex die d]?.getD 0).toNat) die row col d
      | .edge n => edgeHop die n d
    match h with
    | none => none
    | some h =>
      if r.failed || !s.routerUp h.die (nodeOf h.at_) || (h.out == 7 && !s.routerUp die 52) then none else some h

/-- Destinations of a flit by the output that each needs. -/
def branches (s : State) (f : Flit) : List (Option Hop × List Dest) :=
  f.dests.foldl (fun bs d =>
    let h := s.hopOf f.die f.at_ d
    let same := fun (b : Option Hop × List Dest) => b.1.map (·.out) == h.map (·.out)
    if bs.any same then bs.map fun b => if same b then (b.1, b.2 ++ [d]) else b else bs ++ [(h, [d])]) []

/-- Whether a flit still needs an output. -/
def needs (s : State) (f : Flit) (out : Nat) : Bool :=
  f.dests.any fun d => ((s.hopOf f.die f.at_ d).map (·.out)) == some out

/-- Whether a retry keeps a flit from its link: the retried flit for this step, and every later one on the plane until the
retried flit has crossed (R29). -/
def linkBusy (s : State) (l : Nat) (f : Flit) : Bool :=
  s.linkRetries.any fun r => r.link == l && r.plane == f.plane && (r.busy || r.flit.any fun i => i != f.id)

/-- Whether one flit of a plane came before another by the same input port of a router. -/
def ahead (x f : Flit) : Bool :=
  x.inp == f.inp && x.plane == f.plane && (decide (f.age < x.age) || (x.age == f.age && decide (x.id < f.id)))

/-- Whether what a router has latched keeps a flit from an output (R28): where the holding slot is occupied a fork waits, and a
packet that came by the remainder's input port waits for a port that the remainder needs; on a plane nothing passes an earlier
flit that came by its port and needs the output. -/
def heldBack (s : State) (held : List Flit) (f : Flit) (out : Nat) (fork : Bool) : Bool :=
  held.any fun x => x.id != f.id && x.die == f.die && x.at_ == f.at_ &&
    ((x.holding && (fork || (x.inp == f.inp && s.needs x out))) || (ahead x f && s.needs x out))

end State

/-- An output of a router in a step: die, router, plane, output. -/
abbrev Grant := Nat × Nat × Nat × Nat

/-- The output that a flit needs for a move. -/
def grantOf (f : Flit) (h : Hop) : Grant := (f.die, nodeOf f.at_, f.plane, h.out)

/-- Whether one latched flit is granted an output before another (R24): the older, then the next input port after the one
last granted; DESIGN CHOICE (log 44): then the one that entered the mesh first. -/
def grantBefore (last : Nat) (a b : Flit) : Bool :=
  let turn := fun (f : Flit) => (f.inp + 7 - last) % 8
  decide (b.age < a.age) || (a.age == b.age &&
    (decide (turn a < turn b) || (turn a == turn b && decide (a.id < b.id))))

namespace State

/-- Input port last granted an output. -/
def lastTurn (s : State) (g : Grant) : Nat :=
  ((s.meshTurns.find? fun r => (r.1, r.2.1, r.2.2.1, r.2.2.2.1) == g).map (·.2.2.2.2)).getD 7

/-- What the flits latched in the routers ask for: the flit, and the move of each branch that nothing holds back. A flit's
first step sets its segment up and asks for nothing (R24). -/
def meshRequests (s : State) : List (Flit × Hop) :=
  (s.flits.filter fun f => f.age != 0).flatMap fun f =>
    let bs := s.branches f
    let fork := decide (1 < bs.length) && !f.holding
    bs.filterMap fun b =>
      match b.1 with
      | none => none
      | some h =>
        if s.heldBack s.flits f h.out fork || (h.link.any fun l => s.linkBusy l f) then none else some (f, h)

/-- Whether a fork is among grants with some of the outputs that it needs and not with all. -/
def partFork (s : State) (gs : List (Flit × Hop)) (f : Flit) : Bool :=
  let bs := s.branches f
  decide (1 < bs.length) && !f.holding && decide ((gs.filter fun r => r.1 == f).length < (bs.filter (·.1.isSome)).length)

/-- The requests that are granted: for each output the first in the order of R24. A router's holding slot takes one remainder: of
several forks that would leave one, the first goes, and the others wait whole (R28). -/
def meshGrants (s : State) : List (Flit × Hop) :=
  let rs := s.meshRequests
  let gs := rs.filter fun r => rs.all fun q =>
    q.1 == r.1 || grantOf q.1 q.2 != grantOf r.1 r.2 || grantBefore (s.lastTurn (grantOf r.1 r.2)) r.1 q.1
  gs.filter fun r => !s.partFork gs r.1 || gs.all fun q =>
    q.1 == r.1 || q.1.die != r.1.die || q.1.at_ != r.1.at_ || !s.partFork gs q.1 || decide (q.1.age < r.1.age) ||
      (q.1.age == r.1.age && decide (r.1.id < q.1.id))

end State

/-- Whether a move is to the local port: the flit has arrived. -/
def Hop.local_ (h : Hop) (f : Flit) : Bool := h.die == f.die && h.at_ == f.at_

/-- Progress of one mesh step. -/
structure MeshStep where
  granted : List Grant
  /-- flits as they are latched after the step -/
  out : List Flit
  hops : List (Nat × Nat × Nat)
  /-- flits dropped at invalid entries, with die and router -/
  faults : List (Nat × Nat)
  /-- link directions and planes crossed -/
  crossed : List (Nat × Nat)

/-- A flit has taken a move: a hop is counted, unless it reached its local port. -/
def MeshStep.moved (m : MeshStep) (f : Flit) (h : Hop) : MeshStep :=
  { m with
    hops := if h.local_ f then m.hops else addCount m.hops f.ctx f.die 1
    crossed := m.crossed ++ (h.link.map fun l => (l, f.plane)).toList }

/-- A flit as it arrives by a move. -/
def Flit.after (f : Flit) (h : Hop) (ds : List Dest) : Flit :=
  { f with die := h.die, at_ := h.at_, inp := h.inp, dests := ds, holding := false }

/-- A flit that arrives at a router on bypass goes on, up to so many routers, while all of its destinations need one
output that is free; else it is latched (R24). DESIGN CHOICE (log 44): a packet forks only from where it is latched. -/
def State.bypass (s : State) : Nat → MeshStep → Flit → MeshStep
  | n, m, f =>
    let stop : MeshStep := { m with out := m.out ++ [f] }
    match s.branches f with
    | [(none, _)] => { m with faults := m.faults ++ [(f.die, nodeOf f.at_)] }
    | [(some h, ds)] =>
      if m.granted.contains (grantOf f h) || s.heldBack (s.flits ++ m.out) f h.out false ||
          (h.link.any fun l => s.linkBusy l f) then stop
      else
        let m1 := { m.moved f h with granted := m.granted ++ [grantOf f h] }
        if h.local_ f then m1
        else
          match n with
          | 0 => stop
          | n + 1 => match f.at_, h.at_ with
            | .edge _, _ => stop
            | _, .edge _ => { m1 with out := m1.out ++ [f.after h ds] }
            | _, _ => bypass s n m1 (f.after h ds)
    | _ => stop

/-- A latched flit in one mesh step: the branches that were granted leave and go on by bypass; a remainder waits, in the
holding slot once a copy has left (R28). -/
def State.stepFlit (s : State) (grants : List (Flit × Hop)) (m : MeshStep) (f : Flit) : MeshStep :=
  let aged := { f with age := f.age + 1 }
  if f.age = 0 then { m with out := m.out ++ [aged] }
  else
    let mine := fun (h : Hop) => grants.any fun r => r.1 == f && r.2.out == h.out
    let bs := s.branches f
    let left := bs.any fun b => (b.1.map mine).getD true
    let stay := (bs.filter fun b => !(b.1.map mine).getD true).flatMap (·.2)
    let m1 := bs.foldl (fun m b =>
      match b.1 with
      | none => { m with faults := m.faults ++ [(f.die, nodeOf f.at_)] }
      | some h =>
        if !mine h then m
        else if h.local_ f then m.moved f h
        else match h.at_ with
          | .edge _ => { m.moved f h with out := m.out ++ [aged.after h b.2] }
          | .grid _ _ => s.bypass 7 (m.moved f h) (aged.after h b.2)) m
    if stay.isEmpty then m1
    else { m1 with out := m1.out ++ [{ aged with dests := stay, holding := left || f.holding }] }

/-- Oldest first (R24). -/
def insertAge (f : Flit) : List Flit → List Flit
  | [] => [f]
  | g :: gs => if g.age < f.age then f :: g :: gs else g :: insertAge f gs

/-- FLIT_ADVANCE (R24): one mesh step of 0.5 ns. Latched flits are granted first; DESIGN CHOICE (log 44): flits on bypass
then take what is left oldest first. A retry under way ends with the step (R29). -/
def execFlitAdvance (s : State) : Out :=
  let grants := s.meshGrants
  let fs := s.flits.foldl (fun acc f => insertAge f acc) []
  let m := fs.foldl (s.stepFlit grants)
    { granted := grants.map fun r => grantOf r.1 r.2, out := [], hops := s.hops, faults := [], crossed := [] }
  let turns := grants.map fun r => grantOf r.1 r.2
  let s1 : State :=
    { s with flits := m.out, hops := m.hops, droppedFlits := s.droppedFlits + m.faults.length
             meshTurns := (s.meshTurns.filter fun r => !turns.contains (r.1, r.2.1, r.2.2.1, r.2.2.2.1)) ++
               grants.map fun r => let g := grantOf r.1 r.2; (g.1, g.2.1, g.2.2.1, g.2.2.2, r.1.inp)
             linkRetries := (s.linkRetries.filter fun r => !m.crossed.contains (r.link, r.plane)).map fun r => { r with busy := false } }
  .next (m.faults.foldl (fun s x => s.record (.routerFault x.1 x.2)) s1)

/-! ### Failures (R27, R29, R335) -/

/-- Edge routers and transit channels that traffic from one die to another crosses: x before y (R25). -/
def crossing (a b : Nat) : List (Nat × Nat) :=
  if a = b then []
  else
    let mid := dieY a * 2 + dieX b
    (if dieX a ≠ dieX b then [(a, 48), (mid, 48)] else []) ++
      (if dieY a ≠ dieY b then (if dieX a ≠ dieX b then [(mid, 52)] else []) ++ [(mid, 49), (b, 49)] else [])

namespace State

/-- Dies that a partition's clusters lie on. -/
def ownDies (s : State) (p : Nat) : List Nat :=
  distinct (((List.range Config.clusters).filter fun c => s.partOfCluster c == p).map (· / 12))

/-- Whether a core of a partition holds a translation to a host port (R303). -/
def usesPort (s : State) (p port : Nat) : Bool :=
  s.cores.zipIdx.any fun k => s.partOfCluster (k.2 / 8) == p && k.1.tlb.any fun e => leafSpace e.leaf == .host port

/-- Pairs of dies that a partition's traffic runs between (R27): its own; its own and the ports that it uses. DESIGN CHOICE
(log 44): those are its owner's port, a host port to which a core holds a translation, and in a load-store domain the
scale-out ports. -/
def trafficPairs (s : State) (p : Nat) : List (Nat × Nat) :=
  let own := s.ownDies p
  let ports := ([0, 1].filter fun x => (s.prt p).owner == x || s.usesPort p x).map portDie ++
    if s.domIndex.isSome then [1, 2] else []
  own.flatMap fun a => (own.map fun b => (a, b)) ++ ports.flatMap fun b => [(a, b), (b, a)]

/-- Partitions that the failure of a router resets (R26, R27). -/
def failedParts (s : State) (die router : Nat) : List Nat :=
  let half := fun (h : Nat) => [s.partOfCluster (12 * die + 6 * h)]
  if s.parts.isEmpty then []
  else if router < 48 then half (router / 24)
  else if router = 50 then half 0
  else if router = 51 then half 1
  else (List.range s.parts.length).filter fun p => (s.trafficPairs p).any fun x => (crossing x.1 x.2).contains (die, router)

/-- A router fails: what it holds is lost, and the partitions concerned are reset (R27). -/
def failRouter (s : State) (die router : Nat) : State :=
  let s1 : State :=
    { s with routers := s.routers.modify (53 * die + router) fun r => { r with failed := true }
             flits := s.flits.filter fun f => !(f.die == die && nodeOf f.at_ == router)
             linkRetries := s.linkRetries.filter fun r =>
               !s.flits.any fun f => f.die == die && nodeOf f.at_ == router && r.flit == some f.id }
  (s.failedParts die router).foldl (fun s p => s.resetPartition p) (s1.record (.routerFault die router))

end State

/-- ROUTER_FAILURE (R27). -/
def execRouterFailure (die router : Nat) (s : State) : Out := .next (s.failRouter die router)

/-- Dies that a link joins, and the edge router on both. Links count CD0–CD1, CD2–CD3, CD0–CD2, CD1–CD3 (R12). -/
def linkEnds (link : Nat) : Nat × Nat × Nat :=
  match link % 4 with
  | 0 => (0, 1, 48)
  | 1 => (2, 3, 48)
  | 2 => (0, 2, 49)
  | _ => (1, 3, 49)

/-- The flit that would cross a link next on a plane: of those latched for it the first in the order of R24. -/
def State.nextOver (s : State) (link plane : Nat) : Option Flit :=
  let fs := s.flits.filter fun f => f.plane == plane && (s.branches f).any fun b => (b.1.bind (·.link)) == some link
  fs.find? fun f => fs.all fun x => x.id == f.id || grantBefore 7 f x

/-- LINK_CRC_RETRY (R29): the next flit on the plane in one direction of a link is sent again, and later ones wait behind it; when
its 16th retry has failed too, its edge has failed. DESIGN CHOICE (log 44): the edge routers at both ends. -/
def execLinkCrcRetry (link plane : Nat) (s : State) : Out :=
  let old := s.linkRetries.find? fun r => r.link == link && r.plane == plane
  let n := (old.map (·.tries)).getD 0 + 1
  let f := (old.bind (·.flit)).or ((s.nextOver link plane).map (·.id))
  let rest := s.linkRetries.filter fun r => !(r.link == link && r.plane == plane)
  if n ≤ 16 then .next { s with linkRetries := rest ++ [{ link := link, plane := plane, tries := n, busy := true, flit := f }] }
  else
    let (a, b, e) := linkEnds link
    let s1 : State := { s with linkRetries := rest }
    .next ((s1.failRouter a e).failRouter b e)

/-- DIRTY_LINE_ERROR (R335, R339): the line's owner ends and its page is retired; then every dirty line of the way is written
back, those of the owner poisoned, and the way goes out of use. A line that the drain finds in error in its turn is handled in
the same way, with its own owner. -/
def execDirtyLineError (line way : Nat) (s : State) : Out :=
  match s.owned.find? fun o => o.line == line with
  | none => .next s
  | some o =>
    let slice := sliceOf (256 * line)
    let inWay := fun (x : OwnedLine) => sliceOf (256 * x.line) == slice && Config.sliceWay x.line % 16 == way
    let s1 := s.badLine line o.owner
    let found := s1.owned.filter fun x => inWay x && s.ecc.lines.contains x.line
    let s2 := found.foldl (fun s x => if s.owned.any fun y => y.line == x.line then s.badLine x.line x.owner else s) s1
    let s3 := s2.drainLines o.owner (some line) (s2.owned.filter inWay)
    .next { s3 with retiredWays := s3.retiredWays ++ [(slice, way)] }

/-! ### Peers (R382, R383) -/

namespace State

/-- The oldest load of a group that waits for a peer comes back poisoned. -/
def timeoutLoad (s : State) (g : Nat) : State :=
  match (s.grp g).loads with
  | [] => s
  | l :: ls =>
    if l.peers.isEmpty then s
    else
      let (n, s1) := s.drawMany
      let l1 : PendLoad :=
        { l with
          vals := l.vals.map fun v => if l.peers.contains v.1 then (v.1, v.2.1.zipIdx.map fun w => Config.free32 (n + 4 * v.1 + w.2), true) else v
          sval := if l.peers.isEmpty then l.sval else Config.free64 n, spoison := l.spoison || !l.peers.isEmpty, peers := [] }
      (s1.modG g fun x => { x with loads := l1 :: ls }).tell (some (s.partOf g)) "PEER_LOAD" 0 g

/-- A cleared store or remote atomic of a group to a peer, still in the pound, is discarded. -/
def timeoutStore (s : State) (g : Nat) : State :=
  let peer := fun (e : PEntry) => e.gid == g && e.cleared && match e.kind with
    | .store sec _ _ => isPeerKey sec
    | .atomr accs _ => accs.any fun a => isPeerKey a.key
    | _ => false
  match (s.poundOf g).find? peer with
  | none => s
  | some e => ((s.dropEntry g e).tidyTeam (s.grp g).team).tell (some (s.partOf g)) "PEER_STORE" 0 g

/-- A store that a cluster cache was writing back to a peer is discarded: its bytes are gone (R144, R383). -/
def timeoutWriteBack (s : State) (cl sec : Nat) : State :=
  if !isPeerKey sec || (s.csector cl sec).all fun x => (dirtyOf x fun _ => true).isEmpty then s
  else
    let part := ((s.csector cl sec).map fun x => (s.cx x.writer).part)
    (s.modCl cl fun c => { c with cache := c.cache.map fun x =>
      if x.key = sec then { x with bytes := x.bytes.map fun b => b.bind fun y => if y.dirty then none else some y } else x }).tell part
      "PEER_STORE" 0 sec

/-- The bytes for a peer in the oldest write-back set of a group are discarded, and the set arrives. -/
def timeoutSet (s : State) (g : Nat) : State :=
  match (s.grp g).wbsets.find? fun b => b.cleared && b.bytes.any fun w => isPeerKey w.1 with
  | none => s
  | some b =>
    ((s.endSet g b).pocWrite (fun _ => false) b.ctx (b.bytes.filter fun w => !isPeerKey w.1)).tell (some (s.partOf g)) "PEER_STORE" 0 g

/-- What a berth was writing back to a peer is discarded, and the sector is held no more. -/
def timeoutHeld (s : State) (team sec : Nat) : State :=
  match (s.tm team).held.find? fun h => h.key == sec && isPeerKey sec && h.dirty != 0 with
  | none => s
  | some h =>
    (s.modT team fun t => { t with held := t.held.filter fun x => x != h }).tell (some (s.lch (s.tm team).launch).part) "PEER_STORE" 0 sec

/-- A returning atomic on a peer's memory ends in the poison-consumed trap. -/
def timeoutAtom (s : State) (g : Nat) : State :=
  match (s.grp g).atom with
  | none => s
  | some a =>
    match a.reqs.find? fun q => isPeerKey q.key with
    | none => s
    | some q =>
      if State.recordAwaited (s.grp g) then s
      else
        ((s.modG g fun x =>
          { x with atom := none, arch := { x.arch with pc := a.pc, regs := { x.arch.regs with sig := a.sig0 } } }).takeTrap g
          (.at_ .poison q.va) a.pc a.word).tell (some (s.partOf g)) "PEER_ATOM" q.va q.key

/-- A CPYR to a peer counts as done, its signal not performed. -/
def timeoutCopy (s : State) (core id : Nat) : State :=
  match s.copyOf core id with
  | none => s
  | some c =>
    if c.form = 2 ∧ c.cleared = true ∧ (c.elems.any fun e => isPeerKey e.1.key) = true then
      (s.endCopy core c).tell (some (s.partOf c.gid)) "PEER_CPYR" 0 id
    else s

end State

/-- PEER_TIMEOUT (R383). -/
def execPeerTimeout (t : PeerTarget) (s : State) : Out :=
  match t with
  | .load g => .next (s.timeoutLoad g)
  | .store g => .next (s.timeoutStore g)
  | .writeBack cl sec => .next (s.timeoutWriteBack cl sec)
  | .set g => .next (s.timeoutSet g)
  | .held t sec => .next (s.timeoutHeld t sec)
  | .atom g => .next (s.timeoutAtom g)
  | .cpyr core copy => .next (s.timeoutCopy core copy)

/-! ### Accesses from outside (R222, R336, R383) -/

/-- Bytes of an access and whether it writes. -/
def outsideSpan : OutsideAccess → Nat × Bool
  | .read n => (n, false)
  | .write d _ => (d.length, true)
  | .fetchAdd w _ => (if w then 8 else 4, true)
  | .swap w _ => (if w then 8 else 4, true)
  | .cas w _ _ => (if w then 8 else 4, true)
  | .atomic f _ => (atBytes f, true)

/-- New value of an atomic access from outside. -/
def outsideNew (x : OutsideAccess) (old : W64) : W64 :=
  match x with
  | .fetchAdd false v => (atApply (.f32 .add) old v).1
  | .fetchAdd true v => (atApply (.f64 .add) old v).1
  | .swap false v => (atApply (.f32 .exch) old v).1
  | .swap true v => (atApply (.f64 .exch) old v).1
  | .cas false c n => if old.setWidth 32 = c.setWidth 32 then n else old
  | .cas true c n => if old = c then n else old
  | .atomic f v => (atApply f old v).1
  | _ => old

namespace State

/-- An access from outside is performed at the home slices of its bytes; a snoop of held sectors comes first (R143).
Poisoned data is written poisoned, an atomic on poisoned bytes is not performed, and a poisoned answer says so. An atomic's
bytes leave every cluster cache first (R147). -/
def outside (s : State) (who addr : Nat) (port : Dest) (x : OutsideAccess) : State :=
  let (n, wr) := outsideSpan x
  let ks := (List.range n).map (addr + ·)
  let secs := distinct (ks.map sectorOf)
  if secs.any (fun sec => if wr then s.writeBlocked sec else s.readBlocked none .outside sec) then s
  else
    let s := if wr then s else s.takeServed .outside secs
    let (wr1, rd) := match x with
      | .read _ => (false, true)
      | .write _ _ => (true, false)
      | _ => (true, true)
    let s := s.portTraffic port secs wr1 rd
    let s := if wr1 && rd then s.purge ks else s
    let old := s.mem.readBytes addr n
    let bad := ks.any s.pocPoison
    match x with
    | .read _ => (s.chargeBytes noCtx ks).record (.reply who addr old bad)
    | .write d po => (s.pocWrite (fun _ => false) noCtx ((ks.zip d).map fun b => (b.1, b.2, po))).publish ks false []
    | x =>
      if bad then (s.tellAt "ATOMIC" 0 addr).record (.reply who addr old true)
      else
        (s.pocWrite (fun _ => false) noCtx ((ks.zip (bytesLE n (outsideNew x (w64Of old)).toNat)).map fun b => (b.1, b.2, false))).record
          (.reply who addr old false)

end State

/-- PEER_ACCESS_ARRIVAL (R383): an access of a device of the domain to this device's HBM. -/
def execPeerAccessArrival (dev addr : Nat) (x : OutsideAccess) (s : State) : Out :=
  if s.fw ≠ .thavin ∨ s.domIndex = none ∨ Config.hbmEnd < addr + (outsideSpan x).1 then .next s else .next (s.outside dev addr (peerPlace dev) x)

/-- HOST_DMA_ACCESS (R222, R336, R371): a VF reaches its own partition's stacks, the device owner's PF the device. The
host's AtomicOps are FetchAdd, Swap and CAS. -/
def execHostDmaAccess (fn : Fn) (addr : Nat) (x : OutsideAccess) (s : State) : Out :=
  let h := match s.partOfFn fn with
    | some p => s.partHbm p
    | none => if fn.vf = none ∧ fn.port = s.ownerPort then (0, Config.hbmEnd) else (0, 0)
  let op := match x with
    | .atomic _ _ => false
    | _ => true
  if s.fw ≠ .thavin ∨ op = false ∨ addr < h.1 ∨ h.2 < addr + (outsideSpan x).1 then .next (s.turnAway fn)
  else .next (s.outside (16 + fn.port) addr (portPlace (portDie fn.port)) x)

/-- TRANSPORT_RETRANSMIT (R382): a frame that was lost or damaged is sent again; what it carries is performed once,
when it arrives, so nothing changes here. -/
def execTransportRetransmit (_port _seq : Nat) (s : State) : Out := .next s

end Sys2Proof.Machine
end

