-- ==== Sys2Proof/Machine/Dispatch.lean ====
section
/-! DEFINITION. The dispatch: one arm for each instruction or step, each one call of its meaning. -/

namespace Sys2Proof.Machine

def exec (i : Instr) (s : State) : Host.Outcome State Fault Refusal :=
  match i with
  | .sadd w e => Sys2Proof.Machine.execSadd w e s
  | .ssub w e => Sys2Proof.Machine.execSsub w e s
  | .smul w e => Sys2Proof.Machine.execSmul w e s
  | .smulh w e => Sys2Proof.Machine.execSmulh w e s
  | .smulhu w e => Sys2Proof.Machine.execSmulhu w e s
  | .sdiv w e => Sys2Proof.Machine.execSdiv w e s
  | .sdivu w e => Sys2Proof.Machine.execSdivu w e s
  | .srem w e => Sys2Proof.Machine.execSrem w e s
  | .sremu w e => Sys2Proof.Machine.execSremu w e s
  | .sand w e => Sys2Proof.Machine.execSand w e s
  | .sor w e => Sys2Proof.Machine.execSor w e s
  | .sxor w e => Sys2Proof.Machine.execSxor w e s
  | .sandn w e => Sys2Proof.Machine.execSandn w e s
  | .sshl w e => Sys2Proof.Machine.execSshl w e s
  | .sshr w e => Sys2Proof.Machine.execSshr w e s
  | .ssra w e => Sys2Proof.Machine.execSsra w e s
  | .srol w e => Sys2Proof.Machine.execSrol w e s
  | .smin w e => Sys2Proof.Machine.execSmin w e s
  | .smax w e => Sys2Proof.Machine.execSmax w e s
  | .sminu w e => Sys2Proof.Machine.execSminu w e s
  | .smaxu w e => Sys2Proof.Machine.execSmaxu w e s
  | .sclz w e => Sys2Proof.Machine.execSclz w e s
  | .sctz w e => Sys2Proof.Machine.execSctz w e s
  | .spopc w e => Sys2Proof.Machine.execSpopc w e s
  | .sbrev w e => Sys2Proof.Machine.execSbrev w e s
  | .sbfx w e => Sys2Proof.Machine.execSbfx w e s
  | .sbfxu w e => Sys2Proof.Machine.execSbfxu w e s
  | .sbfi w e => Sys2Proof.Machine.execSbfi w e s
  | .ssel e => Sys2Proof.Machine.execSsel e s
  | .smov e => Sys2Proof.Machine.execSmov e s
  | .smovi e => Sys2Proof.Machine.execSmovi e s
  | .smovh e => Sys2Proof.Machine.execSmovh e s
  | .scmp c w e => Sys2Proof.Machine.execScmp c w e s
  | .sgetsr e => Sys2Proof.Machine.execSgetsr e s
  | .ssetsr e => Sys2Proof.Machine.execSsetsr e s
  | .sld w e => Sys2Proof.Machine.execSld w e s
  | .sldu w e => Sys2Proof.Machine.execSldu w e s
  | .sst w e => Sys2Proof.Machine.execSst w e s
  | .anch e => Sys2Proof.Machine.execAnch e s
  | .bra e => Sys2Proof.Machine.execBra e s
  | .brz e => Sys2Proof.Machine.execBrz e s
  | .brnz e => Sys2Proof.Machine.execBrnz e s
  | .brany e => Sys2Proof.Machine.execBrany e s
  | .brall e => Sys2Proof.Machine.execBrall e s
  | .brnone e => Sys2Proof.Machine.execBrnone e s
  | .call e => Sys2Proof.Machine.execCall e s
  | .calli e => Sys2Proof.Machine.execCalli e s
  | .ret e => Sys2Proof.Machine.execRet e s
  | .jmpi e => Sys2Proof.Machine.execJmpi e s
  | .loop e => Sys2Proof.Machine.execLoop e s
  | .nop e => Sys2Proof.Machine.execNop e s
  | .yield e => Sys2Proof.Machine.execYield e s
  | .exit e => Sys2Proof.Machine.execExit e s
  | .vadd w e => Sys2Proof.Machine.execVadd w e s
  | .vsub w e => Sys2Proof.Machine.execVsub w e s
  | .vmul e => Sys2Proof.Machine.execVmul e s
  | .vmulh e => Sys2Proof.Machine.execVmulh e s
  | .vmulhu e => Sys2Proof.Machine.execVmulhu e s
  | .vmad e => Sys2Proof.Machine.execVmad e s
  | .vand e => Sys2Proof.Machine.execVand e s
  | .vor e => Sys2Proof.Machine.execVor e s
  | .vxor e => Sys2Proof.Machine.execVxor e s
  | .vandn e => Sys2Proof.Machine.execVandn e s
  | .vshl e => Sys2Proof.Machine.execVshl e s
  | .vshr e => Sys2Proof.Machine.execVshr e s
  | .vsra e => Sys2Proof.Machine.execVsra e s
  | .vmin e => Sys2Proof.Machine.execVmin e s
  | .vmax e => Sys2Proof.Machine.execVmax e s
  | .vminu e => Sys2Proof.Machine.execVminu e s
  | .vmaxu e => Sys2Proof.Machine.execVmaxu e s
  | .vclz e => Sys2Proof.Machine.execVclz e s
  | .vpopc e => Sys2Proof.Machine.execVpopc e s
  | .vbfx e => Sys2Proof.Machine.execVbfx e s
  | .vbfxu e => Sys2Proof.Machine.execVbfxu e s
  | .vbfi e => Sys2Proof.Machine.execVbfi e s
  | .vsel e => Sys2Proof.Machine.execVsel e s
  | .vmov w e => Sys2Proof.Machine.execVmov w e s
  | .vidx e => Sys2Proof.Machine.execVidx e s
  | .vfadd t e => Sys2Proof.Machine.execVfadd t e s
  | .vfsub t e => Sys2Proof.Machine.execVfsub t e s
  | .vfmul t e => Sys2Proof.Machine.execVfmul t e s
  | .vfma t e => Sys2Proof.Machine.execVfma t e s
  | .vfmin t e => Sys2Proof.Machine.execVfmin t e s
  | .vfmax t e => Sys2Proof.Machine.execVfmax t e s
  | .vfdiv t e => Sys2Proof.Machine.execVfdiv t e s
  | .vfsqrt t e => Sys2Proof.Machine.execVfsqrt t e s
  | .vfrcp t e => Sys2Proof.Machine.execVfrcp t e s
  | .vfrsq t e => Sys2Proof.Machine.execVfrsq t e s
  | .vfex2 t e => Sys2Proof.Machine.execVfex2 t e s
  | .vflg2 t e => Sys2Proof.Machine.execVflg2 t e s
  | .vfclass t e => Sys2Proof.Machine.execVfclass t e s
  | .vcvt k e => Sys2Proof.Machine.execVcvt k e s
  | .vcvt8 k e => Sys2Proof.Machine.execVcvt8 k e s
  | .vpk4 e => Sys2Proof.Machine.execVpk4 e s
  | .vupk4 e => Sys2Proof.Machine.execVupk4 e s
  | .vcmp c e => Sys2Proof.Machine.execVcmp c e s
  | .vfcmp c t e => Sys2Proof.Machine.execVfcmp c t e s
  | .pand e => Sys2Proof.Machine.execPand e s
  | .por e => Sys2Proof.Machine.execPor e s
  | .pxor e => Sys2Proof.Machine.execPxor e s
  | .pnot e => Sys2Proof.Machine.execPnot e s
  | .pmovs e => Sys2Proof.Machine.execPmovs e s
  | .psets e => Sys2Proof.Machine.execPsets e s
  | .pcnt e => Sys2Proof.Machine.execPcnt e s
  | .vshfl e => Sys2Proof.Machine.execVshfl e s
  | .xswap e => Sys2Proof.Machine.execXswap e s
  | .sred op e => Sys2Proof.Machine.execSred op e s
  | .vscan op e => Sys2Proof.Machine.execVscan op e s
  | .ldv w e => Sys2Proof.Machine.execLdv w e s
  | .stv w e => Sys2Proof.Machine.execStv w e s
  | .ldsh w e => Sys2Proof.Machine.execLdsh w e s
  | .stsh w e => Sys2Proof.Machine.execStsh w e s
  | .atom f e => Sys2Proof.Machine.execAtom f e s
  | .acas w e => Sys2Proof.Machine.execAcas w e s
  | .atomr f e => Sys2Proof.Machine.execAtomr f e s
  | .atomsh f e => Sys2Proof.Machine.execAtomsh f e s
  | .bbind e => Sys2Proof.Machine.execBbind e s
  | .bunbind e => Sys2Proof.Machine.execBunbind e s
  | .bflush e => Sys2Proof.Machine.execBflush e s
  | .fence sc k e => Sys2Proof.Machine.execFence sc k e s
  | .ifence e => Sys2Proof.Machine.execIfence e s
  | .cflush sc e => Sys2Proof.Machine.execCflush sc e s
  | .cinv sc e => Sys2Proof.Machine.execCinv sc e s
  | .pref e => Sys2Proof.Machine.execPref e s
  | .bar e => Sys2Proof.Machine.execBar e s
  | .bara e => Sys2Proof.Machine.execBara e s
  | .barw e => Sys2Proof.Machine.execBarw e s
  | .waita e => Sys2Proof.Machine.execWaita e s
  | .waitc e => Sys2Proof.Machine.execWaitc e s
  | .barx e => Sys2Proof.Machine.execBarx e s
  | .cpy e => Sys2Proof.Machine.execCpy e s
  | .cpy2 e => Sys2Proof.Machine.execCpy2 e s
  | .cpyr e => Sys2Proof.Machine.execCpyr e s
  | .mldw f t e => Sys2Proof.Machine.execMldw f t e s
  | .mloop e => Sys2Proof.Machine.execMloop e s
  | .mrdy e => Sys2Proof.Machine.execMrdy e s
  | .mbatch e => Sys2Proof.Machine.execMbatch e s
  | .mwait e => Sys2Proof.Machine.execMwait e s
  | .mzero e => Sys2Proof.Machine.execMzero e s
  | .msta f e => Sys2Proof.Machine.execMsta f e s
  | .mlda e => Sys2Proof.Machine.execMlda e s
  | .mrda e => Sys2Proof.Machine.execMrda e s
  | .mwra e => Sys2Proof.Machine.execMwra e s
  | .qnt e => Sys2Proof.Machine.execQnt e s
  | .mfmt e => Sys2Proof.Machine.execMfmt e s
  | .gcall e => Sys2Proof.Machine.execGcall e s
  | .gret e => Sys2Proof.Machine.execGret e s
  | .trap e => Sys2Proof.Machine.execTrap e s
  | .tret e => Sys2Proof.Machine.execTret e s
  | .sigchk e => Sys2Proof.Machine.execSigchk e s
  | .reach e => Sys2Proof.Machine.execReach e s
  | .lnch e => Sys2Proof.Machine.execLnch e s
  | .brk e => Sys2Proof.Machine.execBrk e s
  | .dbgm e => Sys2Proof.Machine.execDbgm e s
  | .trc e => Sys2Proof.Machine.execTrc e s
  | .sleep e => Sys2Proof.Machine.execSleep e s
  | .emur e => Sys2Proof.Machine.execEmur e s
  | .vdot4 w => Sys2Proof.Machine.execVdot4 w s
  | .vswz w => Sys2Proof.Machine.execVswz w s
  | .sbar w => Sys2Proof.Machine.execSbar w s
  | .cpyl w => Sys2Proof.Machine.execCpyl w s
  | .mma16 w => Sys2Proof.Machine.execMma16 w s
  | .mmac16 w => Sys2Proof.Machine.execMmac16 w s
  | .illegalOpcode w => Sys2Proof.Machine.execIllegalOpcode w s
  | .fetchFault => Sys2Proof.Machine.execFetchFault s
  | .synthesisedGret g => Sys2Proof.Machine.execSynthesisedGret g s
  | .trapPermitAcquire g => Sys2Proof.Machine.execTrapPermitAcquire g s
  | .permitBackoffExpiry g => Sys2Proof.Machine.execPermitBackoffExpiry g s
  | .yieldExpiry g => Sys2Proof.Machine.execYieldExpiry g s
  | .sleepExpiry g => Sys2Proof.Machine.execSleepExpiry g s
  | .waitConditionMet g => Sys2Proof.Machine.execWaitConditionMet g s
  | .waitRecheck core => Sys2Proof.Machine.execWaitRecheck core s
  | .xswapReceive g h => Sys2Proof.Machine.execXswapReceive g h s
  | .issueSelect core => Sys2Proof.Machine.execIssueSelect core s
  | .tokenReservation g => Sys2Proof.Machine.execTokenReservation g s
  | .issuePromotion g => Sys2Proof.Machine.execIssuePromotion g s
  | .towpathDelivery core => Sys2Proof.Machine.execTowpathDelivery core s
  | .tokenClaim core => Sys2Proof.Machine.execTokenClaim core s
  | .powerInterval r => Sys2Proof.Machine.execPowerInterval r s
  | .ratioChange cluster => Sys2Proof.Machine.execRatioChange cluster s
  | .energySnapshot part => Sys2Proof.Machine.execEnergySnapshot part s
  | .placeTeam part => Sys2Proof.Machine.execPlaceTeam part s
  | .placeTrain part => Sys2Proof.Machine.execPlaceTrain part s
  | .placementWaitExpiry part => Sys2Proof.Machine.execPlacementWaitExpiry part s
  | .longWaitCheck g => Sys2Proof.Machine.execLongWaitCheck g s
  | .leavingComplete team => Sys2Proof.Machine.execLeavingComplete team s
  | .returnTeam part => Sys2Proof.Machine.execReturnTeam part s
  | .launchCompletion launch => Sys2Proof.Machine.execLaunchCompletion launch s
  | .watchdogExpiry launch => Sys2Proof.Machine.execWatchdogExpiry launch s
  | .reachClear g => Sys2Proof.Machine.execReachClear g s
  | .poundDrain g => Sys2Proof.Machine.execPoundDrain g s
  | .poundStage g => Sys2Proof.Machine.execPoundStage g s
  | .poundEccError core idx => Sys2Proof.Machine.execPoundEccError core idx s
  | .sensorEvent cls cluster core sensor => Sys2Proof.Machine.execSensorEvent cls cluster core sensor s
  | .sensorSelfTest cls cluster core sensor pass => Sys2Proof.Machine.execSensorSelfTest cls cluster core sensor pass s
  | .fenceComplete g => Sys2Proof.Machine.execFenceComplete g s
  | .fenceRollback g => Sys2Proof.Machine.execFenceRollback g s
  | .loadReturn g => Sys2Proof.Machine.execLoadReturn g s
  | .atomReturn g => Sys2Proof.Machine.execAtomReturn g s
  | .berthFill team berth sector => Sys2Proof.Machine.execBerthFill team berth sector s
  | .berthWriteback team berth => Sys2Proof.Machine.execBerthWriteback team berth s
  | .heldSectorSnoop addr reader => Sys2Proof.Machine.execHeldSectorSnoop addr reader s
  | .copySignal core copy => Sys2Proof.Machine.execCopySignal core copy s
  | .copyDone core copy => Sys2Proof.Machine.execCopyDone core copy s
  | .cpyrElement core copy => Sys2Proof.Machine.execCpyrElement core copy s
  | .barrierComplete team n => Sys2Proof.Machine.execBarrierComplete team n s
  | .peerTimeout t => Sys2Proof.Machine.execPeerTimeout t s
  | .callStackSpill g => Sys2Proof.Machine.execCallStackSpill g s
  | .lineEviction g line => Sys2Proof.Machine.execLineEviction g line s
  | .mooringReclaim g line => Sys2Proof.Machine.execMooringReclaim g line s
  | .sequencerTransferStart core => Sys2Proof.Machine.execSequencerTransferStart core s
  | .sequencerTransferComplete core => Sys2Proof.Machine.execSequencerTransferComplete core s
  | .mloopStepStart core op => Sys2Proof.Machine.execMloopStepStart core op s
  | .rowInject core macroNo => Sys2Proof.Machine.execRowInject core macroNo s
  | .stepEntry core macroNo => Sys2Proof.Machine.execStepEntry core macroNo s
  | .flitAdvance => Sys2Proof.Machine.execFlitAdvance s
  | .linkCrcRetry link plane => Sys2Proof.Machine.execLinkCrcRetry link plane s
  | .routerFailure die router => Sys2Proof.Machine.execRouterFailure die router s
  | .dirtyLineError line way => Sys2Proof.Machine.execDirtyLineError line way s
  | .invalidationComplete id => Sys2Proof.Machine.execInvalidationComplete id s
  | .checkpointSeal a => Sys2Proof.Machine.execCheckpointSeal a s
  | .createContext fn x => Sys2Proof.Machine.execCreateContext fn x s
  | .destroyContext fn ctx => Sys2Proof.Machine.execDestroyContext fn ctx s
  | .loadObject fn x => Sys2Proof.Machine.execLoadObject fn x s
  | .writeGateEntry fn idx x => Sys2Proof.Machine.execWriteGateEntry fn idx x s
  | .invalidate fn ctx va size => Sys2Proof.Machine.execInvalidate fn ctx va size s
  | .pageFaultMap fn g x => Sys2Proof.Machine.execPageFaultMap fn g x s
  | .pageFaultRefuse fn g => Sys2Proof.Machine.execPageFaultRefuse fn g s
  | .checkpoint fn x => Sys2Proof.Machine.execCheckpoint fn x s
  | .restore fn x => Sys2Proof.Machine.execRestore fn x s
  | .createQueue fn ctx q prio k ring => Sys2Proof.Machine.execCreateQueue fn ctx q prio k ring s
  | .destroyQueue fn q => Sys2Proof.Machine.execDestroyQueue fn q s
  | .setQwin fn v => Sys2Proof.Machine.execSetQwin fn v s
  | .returnEnergySnapshot fn x => Sys2Proof.Machine.execReturnEnergySnapshot fn x s
  | .partitionReset fn => Sys2Proof.Machine.execPartitionReset fn s
  | .partitionDevice fn n => Sys2Proof.Machine.execPartitionDevice fn n s
  | .writePcap fn v => Sys2Proof.Machine.execWritePcap fn v s
  | .setClusterRatio fn cluster code => Sys2Proof.Machine.execSetClusterRatio fn cluster code s
  | .transferOwnership fn part => Sys2Proof.Machine.execTransferOwnership fn part s
  | .attestationReport fn nonce => Sys2Proof.Machine.execAttestationReport fn nonce s
  | .setDomainMembership fn index => Sys2Proof.Machine.execSetDomainMembership fn index s
  | .malformedCommand fn code => Sys2Proof.Machine.execMalformedCommand fn code s
  | .queueNoOperation q => Sys2Proof.Machine.execQueueNoOperation q s
  | .queueLaunch q => Sys2Proof.Machine.execQueueLaunch q s
  | .queueWait q => Sys2Proof.Machine.execQueueWait q s
  | .queueWaitPoll q => Sys2Proof.Machine.execQueueWaitPoll q s
  | .queueWrite q => Sys2Proof.Machine.execQueueWrite q s
  | .queueWriteValue q => Sys2Proof.Machine.execQueueWriteValue q s
  | .queueSwitchIn part => Sys2Proof.Machine.execQueueSwitchIn part s
  | .queueSwitchOut q => Sys2Proof.Machine.execQueueSwitchOut q s
  | .qtailWrite fn q v => Sys2Proof.Machine.execQtailWrite fn q v s
  | .trcctlWrite a v => Sys2Proof.Machine.execTrcctlWrite a v s
  | .debugHalt a v => Sys2Proof.Machine.execDebugHalt a v s
  | .debugResume a v => Sys2Proof.Machine.execDebugResume a v s
  | .debugStep a v => Sys2Proof.Machine.execDebugStep a v s
  | .registerWrite fn addr v => Sys2Proof.Machine.execRegisterWrite fn addr v s
  | .traceTsd core => Sys2Proof.Machine.execTraceTsd core s
  | .traceLoss core => Sys2Proof.Machine.execTraceLoss core s
  | .surveyRequest fn x flush => Sys2Proof.Machine.execSurveyRequest fn x flush s
  | .surveyFlushTimeout core => Sys2Proof.Machine.execSurveyFlushTimeout core s
  | .powerUp link0 link1 => Sys2Proof.Machine.execPowerUp link0 link1 s
  | .firmwareGo fn len => Sys2Proof.Machine.execFirmwareGo fn len s
  | .ownerLinkDown x => Sys2Proof.Machine.execOwnerLinkDown x s
  | .thavinFaultResolution g x => Sys2Proof.Machine.execThavinFaultResolution g x s
  | .launchVerdict g => Sys2Proof.Machine.execLaunchVerdict g s
  | .peerAccessArrival dev addr x => Sys2Proof.Machine.execPeerAccessArrival dev addr x s
  | .hostDmaAccess fn addr x => Sys2Proof.Machine.execHostDmaAccess fn addr x s
  | .writebackSetComplete g => Sys2Proof.Machine.execWritebackSetComplete g s
  | .transportRetransmit port seq => Sys2Proof.Machine.execTransportRetransmit port seq s

end Sys2Proof.Machine
end

