-- ==== Sys2Proof/Machine/Step.lean ====
section
/-! DEFINITION. One step of the device: a group chosen to issue takes its next instruction; otherwise the
next of the device's other steps comes about; otherwise a reference nanosecond passes. -/

namespace Sys2Proof.Machine

/-- A candidate takes its instruction: a breakpoint comes first (R117, R394). -/
def stepGroup (s : State) (g : Nat) : Host.Outcome State Fault Refusal :=
  if s.canRun g && s.fetchReady g then
    let pc := (s.grp g).arch.pc
    let r := nextInstr s g
    if r.1 ≠ .fetchFault ∧ s.ibpHit g pc then
      .next ((r.2.takeTrap g (.of .breakpoint) pc ((r.2.fetch g).1.toOption.getD 0)).modG g fun x => { x with brkPass := false })
    else exec r.1 r.2
  else .next s

/-- A scheduler's first candidate takes its instruction; when that leaves its group as it was, the candidate was not
ready (R399) and the scheduler turns to its next one (R46). -/
def stepScheduler (s : State) (g : Nat) (alts : List Nat) : Host.Outcome State Fault Refusal :=
  match stepGroup s g with
  | .next t => if alts ≠ [] ∧ t.grp g = s.grp g then .next { t with selected := alts :: t.selected } else .next t
  | o => o

/-- The next of the device's other steps comes about, or a reference nanosecond passes. -/
def stepDevice (s : State) : Host.Outcome State Fault Refusal :=
  match s.agenda with
  | st :: rest => exec st.ev ((State.tick { s with agenda := rest, ecc := st.ecc } st.dt).meet st.ev)
  | [] => .next (s.tick 1)

/-- Whether a sensor event of this cycle covers the core of a group: it comes before what the group would issue (R329, R337). -/
def struckNow (s : State) (g : Nat) : Bool :=
  match s.agenda with
  | { dt := 0, ev := .sensorEvent cls cluster core _, .. } :: _ => (zoneCores cls cluster core).contains (s.coreOf g)
  | _ => false

def step (s : State) : Host.Outcome State Fault Refusal :=
  match s.selected with
  | (g :: alts) :: rest =>
    if struckNow s g then stepDevice s else stepScheduler { s with selected := rest, cur := g } g alts
  | [] :: rest => .next { s with selected := rest }
  | [] => stepDevice s

/-- Virtual and physical address of the code that `withFetchWord` places: the launch entry and the walk that
R312 works by hand. -/
def codeVa : W64 := 0x7F0002000000
def codePa : Nat := 0x34000000

/-- Table and leaf entries of that walk. -/
def codeTables : List (Nat × W64) := [(0x1000F8, 0x110001), (0x11C000, 0x120001), (0x121000, 0x3400000B)]

/-- A context whose region 0 maps the code (R301). -/
def codeCtx : Ctx :=
  { Ctx.absent with resident := true, dom := 1, regions := Ctx.absent.regions.set 0 0x8010000000100000 }

/-- The largest allocation that a launch may declare (R32). -/
def codeDesc : Desc :=
  { Desc.blank with vregs := 256, sregs := 128, stash := 65536, berths := 16, tiles := 8, accs := 8, waitLimit := 16
                    entries := [codeVa] }

/-- A device that runs: a partition, a context, a launch, its team on core 0 and its group, the word in
memory at the group's PC, and the group chosen to issue. -/
def State.withFetchWord (s : State) (nbits w : Nat) : State :=
  let l := s.launches.length
  let t := s.teams.length
  let g := s.groups.length
  let mem := codeTables.foldl (fun m e => m.writeBytes e.1 (bytesLE 8 e.2.toNat)) s.mem
  { s with
    fw := .thavin
    parts := if s.parts.isEmpty then [Part.fresh 0] else s.parts
    ctxs := s.ctxs.set 1 codeCtx
    launches := s.launches ++ [{ Launch.fresh 1 0 codeDesc 0 (.queue 0) 0 s.clk with next := 1, teams := [t] }]
    teams := s.teams ++ [{ Team.fresh l 0 0 0 0 0 with groups := [g] }]
    groups := s.groups ++ [Group.fresh t 0 0 0 0xFFFFFFFF (Arch.entry codeVa 1 1)]
    images := s.images ++ [GImage.fresh 0xFFFFFFFF (Arch.entry codeVa 1 1)]
    cores := s.cores.modify 0 fun k => { k with free := 256, tlb := [], walk := [], held := [], paused := false }
    mem := mem.writeBytes codePa (bytesOfWord (BitVec.ofNat 96 (w % 2 ^ nbits)))
    selected := [[g]]
    cur := g }

end Sys2Proof.Machine
end

