-- ==== Sys2Proof/Safety.lean ====
section
/-! DEFINITION. What a safe run is, and the terms in which claims speak of one instruction: the conditions under
which a group's instruction issues and commits (R45, R167, R320, R399), and what an issue leaves alone. -/

namespace Sys2Proof.Safety

open Sys2Proof.Machine

/-- A step of the machine that neither faults nor is refused. -/
def StepsFrom (s t : Machine.State) : Prop := Machine.step s = .next t

/-- States that a run can reach. -/
inductive Reachable (s : Machine.State) : Machine.State → Prop where
  | here : Reachable s s
  | further {t u : Machine.State} : Reachable s t → StepsFrom t u → Reachable s u

/-- The threads for which an instruction of the chosen group acts (R107, R167). -/
def maskAt (s : State) (i : Instr) (e : Enc) : W32 :=
  if (form i).t then effMask (s.grp s.cur) e else (s.grp s.cur).live

/-- Instruction `i` with fields `e` can issue and commit in the chosen group (R45, R67, R167, R320, R324, R399): the group
can take it, its toll is payable, what it seals on has cleared, its head is open or can be opened, there is room for what it
leaves, and its lane file holds the lines that it needs in a reach that is open and in one that opens for it. -/
structure Ready (s : State) (i : Instr) (e : Enc) : Prop where
  group : s.cur < s.groups.length
  take : s.canTake s.cur i e = true
  toll : s.payable s.cur (tollOf (s.regsOf s.cur) (maskAt s i e) i) = true
  sealed : s.sealWaits s.cur i = false
  reaches : s.freshHead s.cur = true ∨ (s.grp s.cur).reaches.length < 2
  room : s.roomFor s.cur = true
  lines : ∀ s0 ∈ [s.prepare s.cur i e, (s.prepare s.cur i e).openHead s.cur], s0.laneHolds s.cur (s0.linesNeeded s.cur i e) = true

/-- A group without what the issue of any instruction moves: its registers and PC, its reaches' bookkeeping, its
place in the issue order, the results that it awaits, and its debug and trace marks. -/
def keptGroup (x : Group) : Group :=
  { x with arch := Arch.entry 0 0 0, st := .run, held := none, reaches := [], yieldUntil := 0, lastIssue := 0
           readyFor := 0, promoted := false, denied := 0, haltReq := false, stepping := false, skipIbp := false
           skipWatch := false, unwatched := false, brkPass := false, prevMask := 0, slow := [] }

/-- A core without what the issue of any instruction moves: tokens, lanes and the trace unit's bookkeeping (R388 to R391, R398). -/
def keptCore (k : Core) : Core :=
  { k with free := 0, resv := [], laneFree := Vector.replicate 16 0, spent := [], trcptr := 0, dropped := 0
           lossDue := false, tsdBase := 0, tsdWrote := false, slots := Vector.replicate 64 SlotTrace.blank }

/-- The device without its tables of groups and cores, the counter of reaches, memory, and where register lines lie. -/
def keptState (s : State) : State := { s with groups := [], cores := [], nextReach := 0, mem := [], images := [], lines := [] }

/-- From `s` to `t`, only group `g` has changed, and of it only registers and the bookkeeping of an issue; memory has
changed only where a trace ring is written (R388). -/
structure Quiet (g : Nat) (s t : State) : Prop where
  rest : keptState t = keptState s
  size : t.groups.length = s.groups.length
  ncores : t.cores.length = s.cores.length
  own : keptGroup (t.grp g) = keptGroup (s.grp g)
  others : ∀ h, h ≠ g → t.grp h = s.grp h
  cores : ∀ c, keptCore (t.cor c) = keptCore (s.cor c)
  mem : (s.cor (s.coreOf g)).trcctl.getLsbD 0 = false → t.mem = s.mem

/-- The registers and PC with which the chosen group's instruction has its effect: SIG has taken its unit and the PC
has gone past it (R118, R167). -/
def begunArch (s : State) (i : Instr) : Arch :=
  let a := (s.grp s.cur).arch
  { a with pc := a.pc + 12, regs := { a.regs with sig := sigFeed a.regs.sig (unitOf (wordOf i)) } }

end Sys2Proof.Safety
end

