-- ==== Sys2Proof/Certificates/Slice0/Obligations.lean ====
section
/-! DEFINITION. The statements: what the rules of the spec say of the machine, for the provers. -/

namespace Sys2Proof.Claim

open Sys2Proof.Machine Sys2Proof.Safety

/-! ### Terms of the statements -/

/-- The group that executes. -/
def me (s : State) : Group := s.grp s.cur

/-- Registers of the group that executes. -/
def rg (s : State) : Regs := (me s).arch.regs

/-- Value and poison of a scalar operand, all 64 bits (R168). -/
def src (s : State) (o : Operand) : W64 × Bool := readOp (rg s) .i64 o 0

/-- Low 32 bits. -/
def lo (v : W64) : W32 := v.setWidth 32

/-- The instruction completes: only the chosen group changes, its bookkeeping apart only in its registers and PC, which
become `A`; memory changes only where trace is on. -/
def Gives (s : State) (i : Instr) (A : Arch) : Prop :=
  ∃ t, exec i s = .next t ∧ Quiet s.cur s t ∧ (t.grp s.cur).arch = A

/-- Registers and PC after an instruction that writes one scalar register with its poison. -/
def putS (s : State) (i : Instr) (d : Operand) (v : W64) (p : Bool) : Arch :=
  { begunArch s i with regs := (begunArch s i).regs.setS (opReg d) v p }

/-- Registers and PC after a transfer of control. -/
def goTo (A : Arch) (taken : Bool) (pc : W64) : Arch := { A with pc := if taken then pc else A.pc }

/-- PC + 4 × imm of a branch (R181). -/
def target (s : State) (o : Operand) : W64 := (me s).arch.pc + BitVec.ofInt 64 (4 * opImm o)

/-- A two-operand scalar instruction computes `f` at its width: a .32 form on the low 32 bits, its result
sign-extended; the result's poison is that of the sources (R170, R171). -/
def ScalarOp (c : SWidth → Enc → Instr) (f : ∀ n, BitVec n → BitVec n → BitVec n) : Prop :=
  ∀ (s : State) (e : Enc),
    (Ready s (c .w64 e) e → Gives s (c .w64 e) (putS s (c .w64 e) e.d (f 64 (src s e.a).1 (src s e.b).1) ((src s e.a).2 || (src s e.b).2))) ∧
    (Ready s (c .w32 e) e → Gives s (c .w32 e) (putS s (c .w32 e) e.d ((f 32 (lo (src s e.a).1) (lo (src s e.b).1)).signExtend 64)
      ((src s e.a).2 || (src s e.b).2)))

/-- A one-operand scalar instruction gives a value that has a property of its operand (R170, R171). -/
def ScalarCount (c : SWidth → Enc → Instr) (P : ∀ n, BitVec n → BitVec n → Prop) : Prop :=
  ∀ (s : State) (e : Enc),
    (Ready s (c .w64 e) e → ∃ r, P 64 (src s e.a).1 r ∧ Gives s (c .w64 e) (putS s (c .w64 e) e.d r (src s e.a).2)) ∧
    (Ready s (c .w32 e) e → ∃ r, P 32 (lo (src s e.a).1) r ∧ Gives s (c .w32 e) (putS s (c .w32 e) e.d (r.signExtend 64) (src s e.a).2))

/-- Position and number of bits of a field (R173). -/
def fpos {n : Nat} (b : BitVec n) : Nat := b.toNat % n
def flen {n : Nat} (b : BitVec n) : Nat := min (b.toNat / 256 % 128) (n - fpos b)

/-- A condition on two n-bit values (R119, R175). -/
def holds {n : Nat} (c : Cond) (a b : BitVec n) : Prop :=
  match c with
  | .eq => a = b
  | .ne => a ≠ b
  | .lt => a.toInt < b.toInt
  | .le => a.toInt ≤ b.toInt
  | .gt => b.toInt < a.toInt
  | .ge => b.toInt ≤ a.toInt
  | .ltu => a.toNat < b.toNat
  | .leu => a.toNat ≤ b.toNat
  | .gtu => b.toNat < a.toNat
  | .geu => b.toNat ≤ a.toNat

/-- Threads of LIVE whose predicate bit is 1 (R182). -/
def predLive (s : State) (o : Operand) : W32 := (rg s).pv (opReg o) &&& (me s).live

end Sys2Proof.Claim

open Sys2Proof Sys2Proof.Machine Sys2Proof.Safety Sys2Proof.Claim

/-- R171: sum, difference, low product, minima and maxima; logic, shifts by b mod n, and the left rotate. -/
def Obligations.ScalarArithmeticAndLogic : Prop :=
  ScalarOp .sadd (fun n a b => BitVec.ofInt n (a.toInt + b.toInt)) ∧
  ScalarOp .ssub (fun n a b => BitVec.ofInt n (a.toInt - b.toInt)) ∧
  ScalarOp .smul (fun n a b => BitVec.ofInt n (a.toInt * b.toInt)) ∧
  ScalarOp .smin (fun n a b => BitVec.ofInt n (min a.toInt b.toInt)) ∧
  ScalarOp .smax (fun n a b => BitVec.ofInt n (max a.toInt b.toInt)) ∧
  ScalarOp .sminu (fun n a b => BitVec.ofNat n (min a.toNat b.toNat)) ∧
  ScalarOp .smaxu (fun n a b => BitVec.ofNat n (max a.toNat b.toNat)) ∧
  ScalarOp .sand (fun n a b => BitVec.ofNat n (a.toNat &&& b.toNat)) ∧
  ScalarOp .sor (fun n a b => BitVec.ofNat n (a.toNat ||| b.toNat)) ∧
  ScalarOp .sxor (fun n a b => BitVec.ofNat n (a.toNat ^^^ b.toNat)) ∧
  ScalarOp .sandn (fun n a b => BitVec.ofNat n (a.toNat &&& (2 ^ n - 1 - b.toNat))) ∧
  ScalarOp .sshl (fun n a b => BitVec.ofNat n (a.toNat * 2 ^ (b.toNat % n))) ∧
  ScalarOp .sshr (fun n a b => BitVec.ofNat n (a.toNat / 2 ^ (b.toNat % n))) ∧
  ScalarOp .ssra (fun n a b => BitVec.ofInt n (a.toInt / 2 ^ (b.toNat % n))) ∧
  ScalarOp .srol (fun n a b => BitVec.ofNat n (a.toNat * 2 ^ (b.toNat % n) + a.toNat / 2 ^ (n - b.toNat % n)))

/-- R171, R172: high halves of products; quotients and remainders, which never trap. -/
def Obligations.ScalarDivision : Prop :=
  ScalarOp .smulh (fun n a b => BitVec.ofInt n (a.toInt * b.toInt / 2 ^ n)) ∧
  ScalarOp .smulhu (fun n a b => BitVec.ofNat n (a.toNat * b.toNat / 2 ^ n)) ∧
  ScalarOp .sdiv (fun n a b => if b = 0 then BitVec.allOnes n else BitVec.ofInt n (a.toInt.tdiv b.toInt)) ∧
  ScalarOp .sdivu (fun n a b => if b = 0 then BitVec.allOnes n else BitVec.ofNat n (a.toNat / b.toNat)) ∧
  ScalarOp .srem (fun n a b => if b = 0 then a else BitVec.ofInt n (a.toInt - b.toInt * a.toInt.tdiv b.toInt)) ∧
  ScalarOp .sremu (fun n a b => if b = 0 then a else BitVec.ofNat n (a.toNat % b.toNat))

/-- R171, R173: leading and trailing zeros, number of ones, reversal of the bits; field extracts and insert, where a field
never extends beyond bit n−1 and an empty field gives 0. That SBFI.32 of an empty field still writes its result
sign-extended (R170) is the model's reading (log 50). -/
def Obligations.ScalarCountsAndFields : Prop :=
  ScalarCount .sclz (fun n a r => r.toNat ≤ n ∧ a.toNat < 2 ^ (n - r.toNat) ∧ (r.toNat < n → 2 ^ (n - 1 - r.toNat) ≤ a.toNat)) ∧
  ScalarCount .sctz (fun n a r => r.toNat ≤ n ∧ 2 ^ r.toNat ∣ a.toNat ∧ (r.toNat < n → a.getLsbD r.toNat = true)) ∧
  ScalarCount .spopc (fun n a r => r.toNat = ((List.range n).filter fun i => a.getLsbD i).length) ∧
  ScalarCount .sbrev (fun n a r => ∀ i, i < n → r.getLsbD (n - 1 - i) = a.getLsbD i) ∧
  ScalarOp .sbfx (fun n a b => BitVec.ofInt n ((a.toNat / 2 ^ fpos b : Int).bmod (2 ^ flen b))) ∧
  ScalarOp .sbfxu (fun n a b => BitVec.ofNat n (a.toNat / 2 ^ fpos b % 2 ^ flen b)) ∧
  ∀ (s : State) (e : Enc), let p := (src s e.d).2 || (src s e.a).2 || (src s e.b).2
    let ins := fun (n : Nat) (d a b r : BitVec n) =>
      ∀ i, i < n → r.getLsbD i = if fpos b ≤ i ∧ i < fpos b + flen b then a.getLsbD (i - fpos b) else d.getLsbD i
    (Ready s (.sbfi .w64 e) e → ∃ r, ins 64 (src s e.d).1 (src s e.a).1 (src s e.b).1 r ∧
      Gives s (.sbfi .w64 e) (putS s (.sbfi .w64 e) e.d r p)) ∧
    (Ready s (.sbfi .w32 e) e → ∃ r, ins 32 (lo (src s e.d).1) (lo (src s e.a).1) (lo (src s e.b).1) r ∧
      Gives s (.sbfi .w32 e) (putS s (.sbfi .w32 e) e.d (r.signExtend 64) p))

/-- R174, R175: select, moves and compares. -/
def Obligations.ScalarMovesAndCompares : Prop :=
  ∀ (s : State) (e : Enc),
    (Ready s (.ssel e) e → Gives s (.ssel e) (putS s (.ssel e) e.d
      (if (src s e.d).1 = 0 then (src s e.b).1 else (src s e.a).1)
      ((src s e.d).2 || if (src s e.d).1 = 0 then (src s e.b).2 else (src s e.a).2))) ∧
    (Ready s (.smov e) e → Gives s (.smov e) (putS s (.smov e) e.d (src s e.a).1 (src s e.a).2)) ∧
    (Ready s (.smovi e) e → Gives s (.smovi e) (putS s (.smovi e) e.d (BitVec.ofInt 64 ((joinedValue e : Int).bmod (2 ^ 40))) false)) ∧
    (joinedValue e < 2 ^ 24 → Ready s (.smovh e) e → Gives s (.smovh e) (putS s (.smovh e) e.d
      (BitVec.ofNat 64 (joinedValue e * 2 ^ 40 + (src s e.d).1.toNat % 2 ^ 40)) (src s e.d).2)) ∧
    (∀ c, Ready s (.scmp c .w64 e) e → ∃ v : W64, (v = 1 ∧ Claim.holds c (src s e.a).1 (src s e.b).1 ∨
        v = 0 ∧ ¬ Claim.holds c (src s e.a).1 (src s e.b).1) ∧
      Gives s (.scmp c .w64 e) (putS s (.scmp c .w64 e) e.d v ((src s e.a).2 || (src s e.b).2))) ∧
    (∀ c, Ready s (.scmp c .w32 e) e → ∃ v : W64, (v = 1 ∧ Claim.holds c (lo (src s e.a).1) (lo (src s e.b).1) ∨
        v = 0 ∧ ¬ Claim.holds c (lo (src s e.a).1) (lo (src s e.b).1)) ∧
      Gives s (.scmp c .w32 e) (putS s (.scmp c .w32 e) e.d v ((src s e.a).2 || (src s e.b).2)))

/-! ### Special registers and control flow -/

namespace Sys2Proof.Claim

/-- What SGETSR reads from a special register, for a group that holds no token reservation (R63, R176, R177). -/
def special (s : State) (i : Nat) : Option W64 :=
  let t := s.teamOf s.cur
  match i with
  | 0 => some ((rg s).mode.setWidth 64)
  | 1 => some ((me s).live.setWidth 64)
  | 2 => some (BitVec.ofNat 64 (me s).gidx)
  | 3 => some (BitVec.ofNat 64 t.x)
  | 4 => some (BitVec.ofNat 64 t.y)
  | 5 => some (BitVec.ofNat 64 t.z)
  | 6 => some (BitVec.ofNat 64 t.stage)
  | 7 => some (BitVec.ofNat 64 ((me s).gidx * 32))
  | 8 => some (BitVec.ofNat 64 s.clk)
  | 9 => if ((s.cor t.core).resv.any fun r => r.gid == s.cur) = true then none else some (BitVec.ofNat 64 (s.cor t.core).free)
  | 10 => some ((s.cor t.core).cad.setWidth 64)
  | 11 => some ((rg s).sig.setWidth 64)
  | 12 => some ((rg s).eflag.setWidth 64)
  | 13 => some (BitVec.ofNat 64 (256 * ((me s).arch.frames.length % 8) + (me s).arch.dom % 64))
  | _ => none

/-- Bits of MODE that software writes: every bit but [31:13], [7] and [3] (R63). -/
def modeBit (i : Nat) : Bool := decide (i < 13) && i != 7 && i != 3

end Sys2Proof.Claim

/-- R63, R64, R176, R177: SGETSR copies each special register, zero-extended and without poison; SIG reads as it was before
the instruction's own unit. SSETSR writes MODE's fields, sets SIG to exactly the value written, and clears bits of EFLAG
where the value holds 1. -/
def Obligations.SpecialRegisterReadsAndWrites : Prop :=
  (∀ (s : State) (e : Enc) (v : W64), Ready s (.sgetsr e) e → special s (opReg e.a) = some v →
    Gives s (.sgetsr e) (putS s (.sgetsr e) e.d v false)) ∧
  ∀ (s : State) (e : Enc), let i := Instr.ssetsr e
    Ready s i e → (src s e.a).2 = false → let v := lo (src s e.a).1
    let A := begunArch s i
    (opReg e.d = 0 → v.extractLsb' 0 3 ≠ 0 → v.extractLsb' 0 3 ≠ 7 →
      ∃ m : W32, (∀ k, k < 32 → m.getLsbD k = (modeBit k && v.getLsbD k)) ∧ Gives s i { A with regs := { A.regs with mode := m } }) ∧
    (opReg e.d = 11 → Gives s i { A with regs := { A.regs with sig := v } }) ∧
    (opReg e.d = 12 → ∃ m : W32, (∀ k, k < 32 → m.getLsbD k = ((rg s).eflag.getLsbD k && !(decide (k < 2) && v.getLsbD k))) ∧
      Gives s i { A with regs := { A.regs with eflag := m } })

namespace Sys2Proof.Claim

/-- Registers and PC of every group, and what memory holds, are as before. -/
structure Still (s t : State) : Prop where
  arch : ∀ g, (t.grp g).arch = (s.grp g).arch
  size : t.groups.length = s.groups.length
  mem : t.mem = s.mem

end Sys2Proof.Claim

/-- R181, R182, R184: branches go to PC + 4 × imm where their condition holds and to PC + 12 where it does not; LOOP
counts its scalar down first. -/
def Obligations.Branches : Prop :=
  ∀ (s : State) (e : Enc),
    (Ready s (.bra e) e → Gives s (.bra e) (goTo (begunArch s (.bra e)) true (target s e.d))) ∧
    (Ready s (.brz e) e → (src s e.d).2 = false →
      Gives s (.brz e) (goTo (begunArch s (.brz e)) (decide ((src s e.d).1 = 0)) (target s e.a))) ∧
    (Ready s (.brnz e) e → (src s e.d).2 = false →
      Gives s (.brnz e) (goTo (begunArch s (.brnz e)) (decide ((src s e.d).1 ≠ 0)) (target s e.a))) ∧
    (Ready s (.brany e) e → Gives s (.brany e) (goTo (begunArch s (.brany e)) (decide (predLive s e.d ≠ 0)) (target s e.a))) ∧
    (Ready s (.brall e) e → Gives s (.brall e) (goTo (begunArch s (.brall e)) (decide (predLive s e.d = (me s).live)) (target s e.a))) ∧
    (Ready s (.brnone e) e → Gives s (.brnone e) (goTo (begunArch s (.brnone e)) (decide (predLive s e.d = 0)) (target s e.a))) ∧
    (Ready s (.loop e) e → (src s e.d).2 = false →
      Gives s (.loop e) (goTo (putS s (.loop e) e.d ((src s e.d).1 - 1) false) (decide ((src s e.d).1 ≠ 1)) (target s e.a)))

/-- R183: calls push PC + 12 while the stack holds fewer than 64 entries, fewer than 16 of them in the core; RET pops it;
JMPI goes to its scalar. -/
def Obligations.CallsAndReturns : Prop :=
  ∀ (s : State) (e : Enc), let push := fun (i : Instr) (pc : W64) =>
      { begunArch s i with pc := pc, regs := { (begunArch s i).regs with calls := ((me s).arch.pc + 12) :: (rg s).calls } }
    let room := (rg s).calls.length < 64 ∧ (rg s).calls.length - (rg s).spilled < 16
    let ok := (src s e.d).2 = false ∧ (src s e.d).1.extractLsb' 0 2 = 0
    (Ready s (.call e) e → room → Gives s (.call e) (push (.call e) (target s e.d))) ∧
    (Ready s (.calli e) e → room → ok → Gives s (.calli e) (push (.calli e) (src s e.d).1)) ∧
    (Ready s (.jmpi e) e → ok → Gives s (.jmpi e) (goTo (begunArch s (.jmpi e)) true (src s e.d).1)) ∧
    (∀ pc rest, Ready s (.ret e) e → (rg s).calls = pc :: rest → ∃ t, exec (.ret e) s = .next t ∧
      (t.grp s.cur).arch = { begunArch s (.ret e) with pc := pc, regs := { (begunArch s (.ret e)).regs with
          calls := rest, spilled := min (rg s).spilled rest.length } } ∧ (∀ g, g ≠ s.cur → (t.grp g).arch = (s.grp g).arch) ∧ t.teams = s.teams)

/-- R185, R186, R291: NOP, YIELD and REACH change no register but the PC and SIG; YIELD keeps the group from being ready for n
front-end cycles, or 8; REACH opens one head, whose snapshot holds the registers before it. R167, R320, R328: a head that would open a third reach
ends the executing one and stalls; an instruction that seals ends the executing reach and waits for the open ones, that of ATOM and ACAS also for the
group's incomplete fences. EXIT at gate depth 0 discards the
call stack and leaves the group in DONE, its executing reach ended. -/
def Obligations.PlainControl : Prop :=
  ∀ (s : State) (e : Enc),
    (Ready s (.nop e) e → Gives s (.nop e) (begunArch s (.nop e))) ∧
    (Ready s (.yield e) e → ∃ t, exec (.yield e) s = .next t ∧ Quiet s.cur s t ∧ (t.grp s.cur).arch = begunArch s (.yield e) ∧
      (hintYld e = false → (t.grp s.cur).yieldUntil =
        (s.cor (s.coreOf s.cur)).fe + 1 + if (opImm e.d).toNat = 0 then 8 else (opImm e.d).toNat)) ∧
    (Ready s (.reach e) e → ∃ t, exec (.reach e) s = .next t ∧ Quiet s.cur s t ∧ (t.grp s.cur).arch = begunArch s (.reach e) ∧
      (s.freshHead s.cur = false → (t.grp s.cur).reaches.length = (me s).reaches.length + 1 ∧
        ((t.grp s.cur).reaches.getLast?).map (·.snap) = some (me s).arch) ∧
      (s.freshHead s.cur = true → (t.grp s.cur).reaches.length = (me s).reaches.length)) ∧
    (∀ a b, s.cur < s.groups.length → s.atBoundary s.cur = true → hintRh e = true → (me s).reaches = [a, b] → b.ended = none → s.freshHead s.cur = false →
      ∃ t, exec (.nop e) s = .next t ∧ Still s t ∧
        (t.grp s.cur).reaches = [a, { b with ended := some (s.clk, (s.prt (s.partOf s.cur)).qwin.toNat) }]) ∧
    (∀ i r rs, i ∈ [Instr.xswap e, .gcall e, .gret e, .lnch e] ∨ (∃ f, i = .atom f e) ∨ (∃ w, i = .acas w e) ∨ (∃ f u, i = .mldw f u e) →
      s.cur < s.groups.length → s.atBoundary s.cur = true → (me s).reaches = r :: rs → s.freshHead s.cur = false →
      ∃ t, exec i s = .next t ∧ Still s t ∧ (t.grp s.cur).st = .wait ∧ (t.grp s.cur).wait.map (·.what) = some (.sealing (isReturning i)) ∧
        ((t.grp s.cur).reaches.getLast?).map (·.ended.isSome) = some true) ∧
    (Ready s (.exit e) e → (me s).arch.frames = [] → ∃ t, exec (.exit e) s = .next t ∧ (t.grp s.cur).st = .done ∧
      (t.grp s.cur).arch = { begunArch s (.exit e) with regs := { (begunArch s (.exit e)).regs with calls := [], spilled := 0 } } ∧
      (t.grp s.cur).reaches ≠ [] ∧ ((t.grp s.cur).reaches.getLast?).map (·.ended.isSome) = some true ∧
      (∀ g, g ≠ s.cur → (t.grp g).arch = (s.grp g).arch) ∧ t.teams = s.teams)

/-! ### Vector instructions -/

namespace Sys2Proof.Claim

/-- Value and poison that thread t reads from an operand in a 32-bit position (R168). -/
def el (s : State) (ty : PTy) (o : Operand) (t : Nat) : W32 × Bool := read32 (rg s) ty o t

/-- Value and poison that thread t reads from an operand in a 64-bit position. -/
def el64 (s : State) (o : Operand) (t : Nat) : W64 × Bool := readOp (rg s) .i64 o t

/-- Result of one thread: value, poison and flags raised. -/
abbrev Res32 := W32 × Bool × Fp.Flags
abbrev Res64 := W64 × Bool × Fp.Flags

/-- Flags that the active threads raise (R64). -/
def raised (m : W32) (f : Nat → Fp.Flags) : Fp.Flags := (threadsOf m).foldl (fun x t => x ||| f t) 0

/-- A vector instruction completes: thread t of register d + j, j < k, holds `val j t` where the mask has bit t, and
nothing else of the group's registers changes but the PC, SIG and MODE's sticky flags (R107, R169, R189). -/
def VecGives (s : State) (i : Instr) (e : Enc) (k : Nat) (val : Nat → Nat → W32 × Bool) (fl : Fp.Flags) : Prop :=
  ∃ t, exec i s = .next t ∧ Quiet s.cur s t ∧
    (∀ j th, j < k → th < 32 →
      (rg { t with cur := s.cur }).vt (opReg e.d + j) th = (if (maskAt s i e).getLsbD th then (val j th).1 else (rg s).vt (opReg e.d + j) th) ∧
      (rg { t with cur := s.cur }).vpt (opReg e.d + j) th = (if (maskAt s i e).getLsbD th then (val j th).2 else (rg s).vpt (opReg e.d + j) th)) ∧
    (∀ r th, (r < opReg e.d ∨ opReg e.d + k ≤ r) →
      (rg { t with cur := s.cur }).vt r th = (rg s).vt r th ∧ (rg { t with cur := s.cur }).vpt r th = (rg s).vpt r th) ∧
    { (t.grp s.cur).arch with regs := { (t.grp s.cur).arch.regs with v := (rg s).v, vp := (rg s).vp } } =
      { begunArch s i with regs := { (begunArch s i).regs with mode := modeOr (rg s).mode fl } }

/-- The same of an instruction that reads the stash, where values may carry a release (R148, log 52). -/
def VecHears (s : State) (i : Instr) (e : Enc) (k : Nat) (val : Nat → Nat → W32 × Bool) : Prop :=
  ∃ t h, exec i s = .next t ∧ Quiet s.cur s t ∧
    (∀ j th, j < k → th < 32 →
      (rg { t with cur := s.cur }).vt (opReg e.d + j) th = (if (maskAt s i e).getLsbD th then (val j th).1 else (rg s).vt (opReg e.d + j) th) ∧
      (rg { t with cur := s.cur }).vpt (opReg e.d + j) th = (if (maskAt s i e).getLsbD th then (val j th).2 else (rg s).vpt (opReg e.d + j) th)) ∧
    (∀ r th, (r < opReg e.d ∨ opReg e.d + k ≤ r) →
      (rg { t with cur := s.cur }).vt r th = (rg s).vt r th ∧ (rg { t with cur := s.cur }).vpt r th = (rg s).vpt r th) ∧
    { (t.grp s.cur).arch with regs := { (t.grp s.cur).arch.regs with v := (rg s).v, vp := (rg s).vp } } =
      { begunArch s i with seen := (me s).arch.seen ++ h }

/-- A vector instruction whose destination is one register. -/
def Vec32 (i : Enc → Instr) (f : State → Enc → Nat → Res32) : Prop :=
  ∀ (s : State) (e : Enc), Ready s (i e) e → opReg e.d < 256 →
    VecGives s (i e) e 1 (fun _ t => ((f s e t).1, (f s e t).2.1)) (raised (maskAt s (i e) e) fun t => (f s e t).2.2)

/-- A vector instruction whose destination is a pair, the low half in the lower register. -/
def Vec64 (i : Enc → Instr) (f : State → Enc → Nat → Res64) : Prop :=
  ∀ (s : State) (e : Enc), Ready s (i e) e → opReg e.d + 1 < 256 →
    VecGives s (i e) e 2 (fun j t => ((f s e t).1.extractLsb' (32 * j) 32, (f s e t).2.1))
      (raised (maskAt s (i e) e) fun t => (f s e t).2.2)

/-- An integer operation of two operands, without flags; the result's poison is that of the operands read. -/
def VecInt (i : Enc → Instr) (f : W32 → W32 → W32) : Prop :=
  Vec32 i fun s e t => (f (el s .i32 e.a t).1 (el s .i32 e.b t).1, (el s .i32 e.a t).2 || (el s .i32 e.b t).2, 0)

/-- The same on 64-bit pairs. -/
def VecInt64 (i : Enc → Instr) (f : W64 → W64 → W64) : Prop :=
  Vec64 i fun s e t => (f (el64 s e.a t).1 (el64 s e.b t).1, (el64 s e.a t).2 || (el64 s e.b t).2, 0)

/-- An operation on each element of a packed type: the whole word for FP32, each half for the 16-bit types; inputs that
are subnormal are flushed first where MODE.FTZI is set (R91, R190). -/
def elements (t : FType) (ftzi : Bool) (op : Fp.FFmt → Nat → Nat → Nat → Fp.Res) (a b d : W32) : W32 × Fp.Flags :=
  let one := fun (F : Fp.FFmt) (x y z : Nat) => op F (F.flushIn ftzi x) (F.flushIn ftzi y) (F.flushIn ftzi z)
  let halves := fun (F : Fp.FFmt) =>
    let l := one F (a.toNat % 2 ^ 16) (b.toNat % 2 ^ 16) (d.toNat % 2 ^ 16)
    let h := one F (a.toNat / 2 ^ 16) (b.toNat / 2 ^ 16) (d.toNat / 2 ^ 16)
    (BitVec.ofNat 32 (l.code + 2 ^ 16 * h.code), l.flags ||| h.flags)
  match t with
  | .f32 => (BitVec.ofNat 32 (one Fp.fp32 a.toNat b.toNat d.toNat).code, (one Fp.fp32 a.toNat b.toNat d.toNat).flags)
  | .f16x2 => halves Fp.fp16
  | .bf16x2 => halves Fp.bf16

/-- The rounding mode of an instruction: its rounding field, or MODE.RM where that is 0 (R88, R113). -/
def rounding (s : State) (e : Enc) : Fp.RM :=
  if e.rnd = 0 then .ofField ((rg s).mode.extractLsb' 0 3) else .ofField e.rnd

/-- MODE.FTZI, MODE.FTZO and MODE.SAT (R63). -/
def ftzi (s : State) : Bool := (rg s).mode.getLsbD 4
def ftzo (s : State) : Bool := (rg s).mode.getLsbD 5
def sat (s : State) : Bool := (rg s).mode.getLsbD 6

/-- A floating-point operation of one, two or three operands; the third is the destination's old value. -/
def VecFloat (i : FType → Enc → Instr) (n : Nat) (op : State → Enc → Fp.FFmt → Nat → Nat → Nat → Fp.Res) : Prop :=
  ∀ ty, Vec32 (i ty) fun s e t =>
    let z : W32 × Bool := (0, false)
    let p := match ty with | .f32 => PTy.f32 | _ => PTy.p16
    let a := el s p e.a t
    let b := if 2 ≤ n then el s p e.b t else z
    let d := if 3 ≤ n then el s p e.d t else z
    let r := elements ty (ftzi s) (op s e) a.1 b.1 d.1
    (r.1, a.2 || b.2 || d.2, r.2)

/-- A conversion that gives 32 bits from one operand. -/
def VecConv (i : Enc → Instr) (ty : PTy) (f : State → Enc → W64 → Fp.Res) : Prop :=
  Vec32 i fun s e t =>
    let a := readOp (rg s) ty e.a t
    (BitVec.ofNat 32 (f s e a.1).code, a.2, (f s e a.1).flags)

/-- A conversion of an FP32 value into n bits of the destination, from bit n × h, the others kept. -/
def VecNarrow (i : Enc → Instr) (n : Nat) (F : Fp.FFmt) (saturate : Bool) : Prop :=
  Vec32 i fun s e t =>
    let a := el s .f32 e.a t
    let d := el s .i32 e.d t
    let h := n * (opImm e.b).toNat
    let r := Fp.convert F (rounding s e) (ftzo s) saturate (Fp.fp32.value (Fp.fp32.flushIn (ftzi s) a.1.toNat))
    (BitVec.ofNat 32 (d.1.toNat % 2 ^ h + r.code % 2 ^ n * 2 ^ h + d.1.toNat / 2 ^ (h + n) * 2 ^ (h + n)), a.2 || d.2, r.flags)

/-- A conversion to FP32 of n bits of the operand from bit n × h. -/
def widened (n : Nat) (F : Fp.FFmt) (s : State) (e : Enc) (a : W64) : Fp.Res :=
  Fp.convert Fp.fp32 .rne (ftzo s) false (F.value (F.flushIn (ftzi s) (a.toNat / 2 ^ (n * (opImm e.b).toNat) % 2 ^ n)))

/-- An FP32 operand converted to an integer between two bounds (R95). -/
def toInt (bits : Nat) (least most : Int) (s : State) (e : Enc) (a : W64) : Fp.Res :=
  Fp.convertInt bits least most (sat s) (rounding s e) (Fp.fp32.value (Fp.fp32.flushIn (ftzi s) a.toNat))

/-- A compare completes: predicate d holds the outcome in the active threads (R200, R201). -/
def CompareGives (s : State) (i : Instr) (e : Enc) (f : Nat → Bool × Fp.Flags) : Prop :=
  ∃ m : W32, (∀ t, t < 32 → m.getLsbD t = if (maskAt s i e).getLsbD t then (f t).1 else ((rg s).pv (opReg e.d)).getLsbD t) ∧
    Gives s i { begunArch s i with regs := { (begunArch s i).regs with
      p := (rg s).p.setIfInBounds (opReg e.d) m, mode := modeOr (rg s).mode (raised (maskAt s i e) fun t => (f t).2) } }

end Sys2Proof.Claim

/-- R189, R191: integer arithmetic, logic, shifts, minima and maxima on each active thread; VMAD adds the destination's old
value; the .64 forms work on pairs. -/
def Obligations.VectorInteger : Prop :=
  VecInt (.vadd .w32) (fun a b => BitVec.ofInt 32 (a.toInt + b.toInt)) ∧
  VecInt (.vsub .w32) (fun a b => BitVec.ofInt 32 (a.toInt - b.toInt)) ∧
  VecInt64 (.vadd .w64) (fun a b => BitVec.ofInt 64 (a.toInt + b.toInt)) ∧
  VecInt64 (.vsub .w64) (fun a b => BitVec.ofInt 64 (a.toInt - b.toInt)) ∧
  VecInt .vmul (fun a b => BitVec.ofInt 32 (a.toInt * b.toInt)) ∧
  VecInt .vmulh (fun a b => BitVec.ofInt 32 (a.toInt * b.toInt / 2 ^ 32)) ∧
  VecInt .vmulhu (fun a b => BitVec.ofNat 32 (a.toNat * b.toNat / 2 ^ 32)) ∧
  Vec32 .vmad (fun s e t => (BitVec.ofInt 32 ((el s .i32 e.a t).1.toInt * (el s .i32 e.b t).1.toInt + (el s .i32 e.d t).1.toInt),
    (el s .i32 e.a t).2 || (el s .i32 e.b t).2 || (el s .i32 e.d t).2, 0)) ∧
  VecInt .vand (fun a b => BitVec.ofNat 32 (a.toNat &&& b.toNat)) ∧
  VecInt .vor (fun a b => BitVec.ofNat 32 (a.toNat ||| b.toNat)) ∧
  VecInt .vxor (fun a b => BitVec.ofNat 32 (a.toNat ^^^ b.toNat)) ∧
  VecInt .vandn (fun a b => BitVec.ofNat 32 (a.toNat &&& (2 ^ 32 - 1 - b.toNat))) ∧
  VecInt .vshl (fun a b => BitVec.ofNat 32 (a.toNat * 2 ^ (b.toNat % 32))) ∧
  VecInt .vshr (fun a b => BitVec.ofNat 32 (a.toNat / 2 ^ (b.toNat % 32))) ∧
  VecInt .vsra (fun a b => BitVec.ofInt 32 (a.toInt / 2 ^ (b.toNat % 32))) ∧
  VecInt .vmin (fun a b => BitVec.ofInt 32 (min a.toInt b.toInt)) ∧
  VecInt .vmax (fun a b => BitVec.ofInt 32 (max a.toInt b.toInt)) ∧
  VecInt .vminu (fun a b => BitVec.ofNat 32 (min a.toNat b.toNat)) ∧
  VecInt .vmaxu (fun a b => BitVec.ofNat 32 (max a.toNat b.toNat))

/-- R191, R192: counts, fields, select, moves and the thread index. -/
def Obligations.VectorFieldsAndMoves : Prop :=
  (∃ f : W32 → W32, (∀ a, (f a).toNat ≤ 32 ∧ a.toNat < 2 ^ (32 - (f a).toNat) ∧ ((f a).toNat < 32 → 2 ^ (31 - (f a).toNat) ≤ a.toNat)) ∧
    Vec32 .vclz fun s e t => (f (el s .i32 e.a t).1, (el s .i32 e.a t).2, 0)) ∧
  Vec32 .vpopc (fun s e t => (BitVec.ofNat 32 ((List.range 32).filter fun i => (el s .i32 e.a t).1.getLsbD i).length, (el s .i32 e.a t).2, 0)) ∧
  VecInt .vbfx (fun a b => BitVec.ofInt 32 ((a.toNat / 2 ^ fpos b : Int).bmod (2 ^ flen b))) ∧
  VecInt .vbfxu (fun a b => BitVec.ofNat 32 (a.toNat / 2 ^ fpos b % 2 ^ flen b)) ∧
  (∃ f : W32 → W32 → W32 → W32, (∀ d a b i, i < 32 →
      (f d a b).getLsbD i = if fpos b ≤ i ∧ i < fpos b + flen b then a.getLsbD (i - fpos b) else d.getLsbD i) ∧
    Vec32 .vbfi fun s e t => (f (el s .i32 e.d t).1 (el s .i32 e.a t).1 (el s .i32 e.b t).1,
      (el s .i32 e.a t).2 || (el s .i32 e.b t).2 || (el s .i32 e.d t).2, 0)) ∧
  Vec32 .vsel (fun s e t =>
    let x := if (el s .i32 e.d t).1 = 0 then el s .i32 e.b t else el s .i32 e.a t
    (x.1, (el s .i32 e.d t).2 || x.2, 0)) ∧
  Vec32 (.vmov .w32) (fun s e t => ((el s .i32 e.a t).1, (el s .i32 e.a t).2, 0)) ∧
  Vec64 (.vmov .w64) (fun s e t => ((el64 s e.a t).1, (el64 s e.a t).2, 0)) ∧
  Vec32 .vidx (fun s e t => (BitVec.ofNat 32 ((el s .i32 e.a t).1.toNat + t), (el s .i32 e.a t).2, 0))

/-- R190, R193 to R196: floating-point arithmetic element by element, rounded as the instruction or MODE says, the flags of
the active threads ORed into MODE. -/
def Obligations.VectorFloat : Prop :=
  VecFloat .vfadd 2 (fun s e F a b _ => Fp.add F (rounding s e) (ftzo s) (F.value a) (F.value b)) ∧
  VecFloat .vfsub 2 (fun s e F a b _ => Fp.add F (rounding s e) (ftzo s) (F.value a) (F.value b).neg) ∧
  VecFloat .vfmul 2 (fun s e F a b _ => Fp.mul F (rounding s e) (ftzo s) (F.value a) (F.value b)) ∧
  VecFloat .vfma 3 (fun s e F a b d => Fp.fma F (rounding s e) (ftzo s) (F.value a) (F.value b) (F.value d)) ∧
  VecFloat .vfmin 2 (fun s _ F a b _ => Fp.minMax F false (ftzo s) a b) ∧
  VecFloat .vfmax 2 (fun s _ F a b _ => Fp.minMax F true (ftzo s) a b) ∧
  VecFloat .vfdiv 2 (fun s e F a b _ => Fp.div F (rounding s e) (ftzo s) (F.value a) (F.value b)) ∧
  VecFloat .vfsqrt 1 (fun s e F a _ _ => Fp.sqrt F (rounding s e) (ftzo s) (F.value a)) ∧
  VecFloat .vfrcp 1 (fun s e F a _ _ => Fp.rcp F (rounding s e) (ftzo s) (F.value a)) ∧
  VecFloat .vfrsq 1 (fun s e F a _ _ => Fp.rsq F (rounding s e) (ftzo s) (F.value a)) ∧
  VecFloat .vfex2 1 (fun s _ F a _ _ => Fp.ex2 F (ftzo s) (F.value a)) ∧
  VecFloat .vflg2 1 (fun s _ F a _ _ => Fp.lg2 F (ftzo s) (F.value a)) ∧
  VecFloat .vfclass 1 (fun _ _ F a _ _ => { code := 2 ^ Fp.classOf F a, flags := 0 })

/-- R94, R95, R197 to R199: conversions between floating-point formats and integers. How an immediate in A of the forms that
widen a half or a byte is read is the model's choice (log 50). -/
def Obligations.VectorConversions : Prop :=
  VecConv (.vcvt .f32s32) .i32 (fun s e a => Fp.ofInt Fp.fp32 (rounding s e) (lo a).toInt) ∧
  VecConv (.vcvt .f32z32) .i32 (fun s e a => Fp.ofInt Fp.fp32 (rounding s e) (lo a).toNat) ∧
  VecConv (.vcvt .s32f32) .f32 (Claim.toInt 32 (-2 ^ 31) (2 ^ 31 - 1)) ∧
  VecConv (.vcvt .z32f32) .f32 (Claim.toInt 32 0 (2 ^ 32 - 1)) ∧
  VecConv (.vcvt .f32s64) .i64 (fun s e a => Fp.ofInt Fp.fp32 (rounding s e) a.toInt) ∧
  Vec64 (.vcvt .s64f32) (fun s e t =>
    let a := readOp (rg s) .f32 e.a t
    let r := Claim.toInt 64 (-2 ^ 63) (2 ^ 63 - 1) s e a.1
    (BitVec.ofNat 64 r.code, a.2, r.flags)) ∧
  VecConv (.vcvt .f32f16) .i32 (widened 16 Fp.fp16) ∧ VecNarrow (.vcvt .f16f32) 16 Fp.fp16 false ∧
  VecConv (.vcvt .f32bf16) .i32 (widened 16 Fp.bf16) ∧ VecNarrow (.vcvt .bf16f32) 16 Fp.bf16 false ∧
  VecConv (.vcvt .s32s64) .i64 (fun s _ a => { code := Fp.clampInt 32 (sat s) a.toInt, flags := 0 }) ∧
  Vec64 (.vcvt .s64s32) (fun s e t => ((el s .i32 e.a t).1.signExtend 64, (el s .i32 e.a t).2, 0)) ∧
  VecNarrow (.vcvt8 .e4m3f32) 8 Fp.e4m3 false ∧ VecNarrow (.vcvt8 .e4m3f32sat) 8 Fp.e4m3 true ∧
  VecNarrow (.vcvt8 .e5m2f32) 8 Fp.e5m2 false ∧ VecNarrow (.vcvt8 .e5m2f32sat) 8 Fp.e5m2 true ∧
  VecConv (.vcvt8 .f32e4m3) .i32 (widened 8 Fp.e4m3) ∧ VecConv (.vcvt8 .f32e5m2) .i32 (widened 8 Fp.e5m2) ∧
  Vec32 .vpk4 (fun s e t =>
    let a := el s .f32 e.a t
    let b := el s .i32 e.b t
    let d := el s .i32 e.d t
    let h := 4 * (b.1.toNat % 8)
    let r := Fp.convert Fp.fp4 (rounding s e) false true (Fp.fp32.value (Fp.fp32.flushIn (ftzi s) a.1.toNat))
    (BitVec.ofNat 32 (d.1.toNat % 2 ^ h + r.code % 16 * 2 ^ h + d.1.toNat / 2 ^ (h + 4) * 2 ^ (h + 4)), a.2 || b.2 || d.2, r.flags)) ∧
  Vec32 .vupk4 (fun s e t =>
    let a := el s .i32 e.a t
    let b := el s .i32 e.b t
    let c := a.1.toNat / 2 ^ (4 * (b.1.toNat % 8)) % 16
    (BitVec.ofNat 32 (([0x0, 0x3F000000, 0x3F800000, 0x3FC00000, 0x40000000, 0x40400000, 0x40800000, 0x40C00000] : List Nat)[c % 8]?.getD 0 +
      c / 8 * 2 ^ 31), a.2 || b.2, 0))

/-- R200, R201: compares write the active bits of a predicate; the others keep their values. -/
def Obligations.VectorCompares : Prop :=
  ∀ (s : State) (e : Enc),
    (∀ c, Ready s (.vcmp c e) e →
      (∀ t, t < 32 → (maskAt s (.vcmp c e) e).getLsbD t = true → (el s .i32 e.a t).2 = false ∧ (el s .i32 e.b t).2 = false) →
      ∃ f : Nat → Bool × Fp.Flags, (∀ t, (f t).2 = 0 ∧ ((f t).1 = true ↔ Claim.holds c (el s .i32 e.a t).1 (el s .i32 e.b t).1)) ∧
        CompareGives s (.vcmp c e) e f) ∧
    (∀ c ty, Ready s (.vfcmp c ty e) e → let p := match ty with | .f32 => PTy.f32 | _ => PTy.p16
      let F := match ty with | .f32 => Fp.fp32 | .f16 => Fp.fp16 | .bf16 => Fp.bf16
      let n := match ty with | .f32 => 32 | _ => 16
      let val := fun (o : Operand) (t : Nat) => F.value (F.flushIn (ftzi s) ((el s p o t).1.toNat % 2 ^ n))
      (∀ t, t < 32 → (maskAt s (.vfcmp c ty e) e).getLsbD t = true → (el s p e.a t).2 = false ∧ (el s p e.b t).2 = false) →
      CompareGives s (.vfcmp c ty e) e fun t => Fp.compare c (val e.a t) (val e.b t))

/-- R203: logic of predicates in the active threads, and the moves between predicates and scalars; under an all-zero mask a
scalar keeps its value (R107). -/
def Obligations.Predicates : Prop :=
  ∀ (s : State) (e : Enc), let pa := (rg s).pv (opReg e.a)
    let pb := (rg s).pv (opReg e.b)
    let logic := fun (i : Instr) (v : W32) => CompareGives s i e fun t => (v.getLsbD t, 0)
    (Ready s (.pand e) e → logic (.pand e) (pa &&& pb)) ∧ (Ready s (.por e) e → logic (.por e) (pa ||| pb)) ∧
    (Ready s (.pxor e) e → logic (.pxor e) (pa ^^^ pb)) ∧ (Ready s (.pnot e) e → logic (.pnot e) (~~~pa)) ∧
    (Ready s (.psets e) e → (el s .i32 e.a 0).2 = false → logic (.psets e) (el s .i32 e.a 0).1) ∧
    (Ready s (.pmovs e) e → Gives s (.pmovs e) (if maskAt s (.pmovs e) e = 0 then begunArch s (.pmovs e)
      else putS s (.pmovs e) e.d (BitVec.ofNat 64 (pa &&& maskAt s (.pmovs e) e).toNat) false)) ∧
    (Ready s (.pcnt e) e → Gives s (.pcnt e) (if maskAt s (.pcnt e) e = 0 then begunArch s (.pcnt e)
      else putS s (.pcnt e) e.d (BitVec.ofNat 64 ((List.range 32).filter fun t => pa.getLsbD t && (maskAt s (.pcnt e) e).getLsbD t).length) false))

/-! ### Exchange, reductions and scans -/

namespace Sys2Proof.Claim

/-- The pairwise tree of R96: node i of level n combines nodes 2i and 2i + 1 of the level below. -/
def tree (f : W32 → W32 → W32 × Fp.Flags) (leaf : Nat → W32) : Nat → Nat → W32 × Fp.Flags
  | 0, i => (leaf i, 0)
  | n + 1, i =>
    let x := tree f leaf n (2 * i)
    let y := tree f leaf n (2 * i + 1)
    let z := f x.1 y.1
    (z.1, x.2 ||| y.2 ||| z.2)

/-- Value and flags of a thread after k rounds of the scan of R97; round j combines with the thread 2^j below. -/
def scan (f : W32 → W32 → W32 × Fp.Flags) (m : W32) (leaf : Nat → W32) : Nat → Nat → W32 × Fp.Flags
  | 0, t => (leaf t, 0)
  | k + 1, t =>
    let x := scan f m leaf k t
    if m.getLsbD t = true ∧ 2 ^ k ≤ t then
      let z := f (scan f m leaf k (t - 2 ^ k)).1 x.1
      (z.1, x.2 ||| z.2)
    else x

/-- What an operation combines: the left operand first, inputs flushed where MODE.FTZI is set (R91, R209). -/
def combine (s : State) (op : RedOp) (rm : Fp.RM) (a b : W32) : W32 × Fp.Flags :=
  let x := Fp.fp32.flushIn (ftzi s) a.toNat
  let y := Fp.fp32.flushIn (ftzi s) b.toNat
  let fl := fun (r : Fp.Res) => (BitVec.ofNat 32 r.code, r.flags)
  match op with
  | .add => (BitVec.ofNat 32 (a.toNat + b.toNat), 0)
  | .fadd => fl (Fp.add Fp.fp32 rm (ftzo s) (Fp.fp32.value x) (Fp.fp32.value y))
  | .min => (BitVec.ofInt 32 (min a.toInt b.toInt), 0)
  | .max => (BitVec.ofInt 32 (max a.toInt b.toInt), 0)
  | .minu => (BitVec.ofNat 32 (min a.toNat b.toNat), 0)
  | .maxu => (BitVec.ofNat 32 (max a.toNat b.toNat), 0)
  | .and => (BitVec.ofNat 32 (a.toNat &&& b.toNat), 0)
  | .or => (BitVec.ofNat 32 (a.toNat ||| b.toNat), 0)
  | .xor => (BitVec.ofNat 32 (a.toNat ^^^ b.toNat), 0)
  | .fmin => fl (Fp.minMax Fp.fp32 false (ftzo s) x y)
  | .fmax => fl (Fp.minMax Fp.fp32 true (ftzo s) x y)

/-- What an inactive thread contributes (R209). -/
def identity (op : RedOp) : W32 :=
  match op with
  | .add => 0
  | .or => 0
  | .xor => 0
  | .maxu => 0
  | .fadd => 0x80000000
  | .max => 0x80000000
  | .min => 0x7FFFFFFF
  | .minu => 0xFFFFFFFF
  | .and => 0xFFFFFFFF
  | .fmin => 0x7FC00000
  | .fmax => 0x7FC00000

/-- Whether a reduction's scalar is sign-extended (R209). -/
def signedRed (op : RedOp) : Bool := op == .add || op == .min || op == .max

/-- What a thread contributes to a reduction or scan. -/
def leafOf (s : State) (op : RedOp) (e : Enc) (m : W32) (t : Nat) : W32 :=
  if m.getLsbD t then (el s .f32 e.a t).1 else identity op

/-- What a thread starts a scan with: every input of a floating-point form is flushed where MODE.FTZI is set (R91, R210). -/
def scanLeaf (s : State) (op : RedOp) (e : Enc) (m : W32) (t : Nat) : W32 :=
  if m.getLsbD t = true ∧ op ∈ [RedOp.fadd, .fmin, .fmax] then BitVec.ofNat 32 (Fp.fp32.flushIn (ftzi s) (leafOf s op e m t).toNat) else leafOf s op e m t

/-- What a scan delivers. Thread 0 combines nothing: that its floating-point result is made canonical, raises NV for a
signalling NaN and is flushed under MODE.FTZO as any result is (R82, R91) is the model's reading (log 53). -/
def scanOut (s : State) (op : RedOp) (t : Nat) (x : W32 × Fp.Flags) : W32 × Fp.Flags :=
  let v := Fp.fp32.value x.1.toNat
  if t ≠ 0 ∨ op ∉ [RedOp.fadd, .fmin, .fmax] then x
  else if v.isNan then (0x7FC00000, x.2 ||| Fp.snanFlag [v])
  else if ftzo s ∧ Fp.fp32.isSub x.1.toNat then (x.1 &&& 0x80000000, x.2 ||| Fp.fUF ||| Fp.fNX)
  else x

end Sys2Proof.Claim

/-- R96, R204, R209: the shuffle reads the thread that b names; a reduction is the pairwise tree over the 32 threads, an
inactive one giving the identity, and writes nothing under an all-zero mask. -/
def Obligations.ShuffleAndReduce : Prop :=
  Vec32 .vshfl (fun s e t =>
    let b := el s .i32 e.b t
    let a := el s .i32 e.a (b.1.toNat % 32)
    (a.1, a.2 || b.2, 0)) ∧
  (∀ op (s : State) (e : Enc), let i := Instr.sred op e
    let m := maskAt s i e
    Ready s i e → let r := tree (combine s op .rne) (leafOf s op e m) 5 0
    let A := putS s i e.d (if signedRed op then r.1.signExtend 64 else BitVec.ofNat 64 r.1.toNat) ((List.range 32).any fun t => m.getLsbD t && (el s .f32 e.a t).2)
    Gives s i (if m = 0 then begunArch s i else { A with regs := { A.regs with mode := modeOr (rg s).mode r.2 } }))

/-- R97, R210: a scan is the five rounds of R97 over the inputs as R91 reads them. R98, R268: QNT writes the FP4 codes of
each eight threads' block into vd and its scale into the next register; the sign of an exact zero is the model's choice (log 50). -/
def Obligations.ScanAndQuantise : Prop :=
  (∀ op, Vec32 (.vscan op) fun s e t =>
    let m := maskAt s (.vscan op e) e
    let r := scanOut s op t (scan (combine s op (rounding s e)) m (scanLeaf s op e m) 5 t)
    (r.1, ((List.range (t + 1)).any fun u => m.getLsbD u && (el s .f32 e.a u).2), r.2)) ∧
  ∀ (s : State) (e : Enc), let i := Instr.qnt e
    let m := maskAt s i e
    Ready s i e → opReg e.d + 1 < 256 →
    let sb := readOp (rg s) .i64 e.b 0
    let blk := fun (j : Nat) => quantBlock (Fp.bf16.value (sb.1.toNat % 2 ^ 16)) ((List.range 8).map fun k =>
      Fp.fp32.value (if m.getLsbD (8 * j + k) then (el s .f32 e.a (8 * j + k)).1.toNat else 0))
    let po := fun (j : Nat) => sb.2 || (List.range 8).any fun k => m.getLsbD (8 * j + k) && (el s .f32 e.a (8 * j + k)).2
    VecGives s i e 2 (fun r t => (if r = 0 then packCodes (blk (t / 8)).q else BitVec.ofNat 32 (blk (t / 8)).scale, po (t / 8)))
      (raised m fun t => (blk (t / 8)).flags)

/-- R205 to R207, R323: XSWAP outside a frame names another group by its partner word; with a pound entry for its record, it leaves its value with the
launch and waits at its own PC; with a receive record it completes, writing the threads active on both sides. -/
def Obligations.ExchangeIssues : Prop :=
  ∀ (s : State) (e : Enc), let i := Instr.xswap e
    let w := (src s e.b).1.toNat
    Ready s i e → s.depthOf s.cur = 0 → (src s e.b).2 = false → partnerBad s s.cur w = false →
    (receiveRecord s s.cur (me s).arch.pc = none → s.poundUsed (s.coreOf s.cur) < 512 →
      ∃ t, exec i s = .next t ∧ (t.grp s.cur).st = .wait ∧ ((t.grp s.cur).wait.map (·.what)) = some (.xswap w) ∧
        (t.grp s.cur).arch = (me s).arch ∧ (∀ g, g ≠ s.cur → (t.grp g).arch = (s.grp g).arch) ∧
        ∃ x ∈ t.sends, x.gid = s.cur ∧ x.partner = w ∧ x.mask = maskAt s i e ∧ x.reg = opReg e.d ∧
          ∀ th, th < 32 → x.v[th]?.getD 0 = (if (maskAt s i e).getLsbD th then (el s .i32 e.a th).1 else 0) ∧
            x.poison.getLsbD th = ((maskAt s i e).getLsbD th && (el s .i32 e.a th).2)) ∧
    (∀ m v po, opReg e.d < 256 → receiveRecord s s.cur (me s).arch.pc = some (m, v, po) →
      ∃ t, exec i s = .next t ∧ (t.grp s.cur).st = .run ∧
        (∀ r th, th < 32 → ((t.grp s.cur).arch.regs.vt r th, (t.grp s.cur).arch.regs.vpt r th) =
          if r = opReg e.d ∧ (maskAt s i e &&& m).getLsbD th = true then (v[th]?.getD 0, po.getLsbD th) else ((rg s).vt r th, (rg s).vpt r th)) ∧
        { (t.grp s.cur).arch with regs := { (t.grp s.cur).arch.regs with v := (rg s).v, vp := (rg s).vp } } = begunArch s i ∧
        (∀ g, g ≠ s.cur → (t.grp g).arch = (s.grp g).arch) ∧ t.teams = s.teams)

/-! ### Memory -/

namespace Sys2Proof.Claim

/-- No watchpoint or breakpoint of the executing context is set. -/
def NoDebug (s : State) : Prop := (s.cx (me s).arch.ctx).debug = Vector.replicate 21 0

/-- The core writes no trace. -/
def Untraced (s : State) : Prop := (s.cor (s.coreOf s.cur)).trcctl.getLsbD 0 = false

/-- The translation register that an operand names. -/
def xr (s : State) (o : Operand) : XReg := ((rg s).x)[opReg o]?.getD XReg.entry

/-- An access of n bytes at an offset goes by the frame of a translation register that is not stale and grants it (R179, R213). -/
def InFrame (x : XReg) (need : Need) (n : Nat) (o : W64) : Prop :=
  x.stale = false ∧ (∃ p, x.perm = some p ∧ p.grant need = true) ∧ 0 ≤ o.toInt ∧ o.toNat + n ≤ x.limit.toNat

/-- Key of the first byte of such an access: the frame plus the offset, in the frame's space. -/
def keyAt (x : XReg) (o : W64) : Nat := x.space.key (x.frame.toNat + o.toNat)

/-- Threads that act. -/
def active (s : State) (i : Instr) (e : Enc) : List Nat := threadsOf (maskAt s i e)

/-- Offset of a thread, with its poison (R213). -/
def off (s : State) (o : Operand) (t : Nat) : W64 × Bool := readOff (rg s) o t

/-- Every active thread's access is clean of poison and goes by the frame. -/
def FrameAccess (s : State) (i : Instr) (e : Enc) (x o : Operand) (need : Need) (n : Nat) : Prop :=
  NoDebug s ∧ ∀ t ∈ active s i e, (off s o t).2 = false ∧ InFrame (xr s x) need n (off s o t).1

/-- No read of the group is speculative, no sector that it reads is held by a berth, and no remote atomic of an earlier reach
of its own that has yet to be performed changes the bytes (R143, R151, R155). -/
def ReadsFreely (s : State) (keys : List Nat) : Prop :=
  s.specFences s.cur = [] ∧ ∀ k ∈ keys, s.writeBlocked (sectorOf k) = false ∧
    State.awaitsAtomic (s.goingEntries s.cur) k = false

/-- The cluster's cache takes the sectors of one access without evicting another (R2, R15). -/
def Roomy (s : State) : Prop := (s.clu (s.clusterOf s.cur)).cache.length + 64 ≤ Config.cacheSectors

/-- Bytes of an access as the group reads them. -/
def seen (s : State) (k n : Nat) : List Byte := (List.range n).map fun i => (s.viewByte s.cur (k + i)).1

/-- No byte of an access is poisoned for the group, in its cluster's cache or at its point of coherence. -/
def cleanBytes (s : State) (k n : Nat) : Prop := ∀ i, i < n → (s.viewByte s.cur (k + i)).2 = false ∧ s.pocPoison (k + i) = false ∧
  ∀ x, s.csector (s.clusterOf s.cur) (sectorOf (k + i)) = some x → x.poison.getLsbD ((k + i) % 128 / 4) = false

/-- The group's store and remote-atomic entries in the pound touch no sector of some bytes. -/
def FreshSectors (s : State) (keys : List Nat) : Prop :=
  ∀ en ∈ s.poundOf s.cur, en.gid = s.cur →
    match en.kind with
    | .store x _ _ => ∀ k ∈ keys, sectorOf k ≠ x
    | .atomr accs _ => ∀ k ∈ keys, ∀ a ∈ accs, sectorOf a.key ≠ sectorOf k
    | _ => True

/-- Room in the core's pound and in the group's counters for what an access instruction adds (R236, R324). -/
def Spacious (s : State) (n : Nat) : Prop :=
  s.coreOf s.cur < s.cores.length ∧ s.poundUsed (s.coreOf s.cur) + n ≤ 512 ∧ (me s).cld < 65535 ∧ (me s).cst < 65535

/-- Registers and PC of the group that executed become `A`, but that it may have read values which carry a release (R148, log 52). -/
def Heard (s t : State) (A : Arch) : Prop := ∃ h, (t.grp s.cur).arch = { A with seen := A.seen ++ h }

/-- Registers and PC of the other groups, the contexts and the launches are as before. -/
def Apart (s t : State) : Prop :=
  (∀ g, g ≠ s.cur → (t.grp g).arch = (s.grp g).arch) ∧ t.ctxs = s.ctxs ∧ t.launches = s.launches

/-- The same, and memory, where the core writes no trace. -/
def Elsewhere (s t : State) : Prop := Apart s t ∧ (Untraced s → t.mem = s.mem)

/-- Of several accesses of n bytes, the last one that covers an address, as `(address, data)` in thread order (R152). -/
def lastOver (n a : Nat) (ws : List (Nat × List Byte)) : Option Byte :=
  ((ws.filter fun w => decide (w.1 ≤ a) && decide (a < w.1 + n)).getLast?).bind fun w => w.2[a - w.1]?

end Sys2Proof.Claim

/-- R147, R179, R236: a scalar load by the frame reads its bytes as the group sees them, extends them, and is counted in cld until its
value returns to the destination. What it reads and memory's bytes are stated where no sector leaves the cluster's cache for the ones that it fills
(the order of eviction is the model's, log 17). -/
def Obligations.ScalarLoads : Prop :=
  ∀ (s : State) (e : Enc) (i : Instr) (n : Nat) (signed : Bool),
    ((n, signed, i) ∈ [(1, true, Instr.sld .b8 e), (2, true, .sld .b16 e), (4, true, .sld .b32 e), (8, true, .sld .b64 e),
      (1, false, .sldu .b8 e), (2, false, .sldu .b16 e), (4, false, .sldu .b32 e)]) →
    let k := keyAt (xr s e.a) (off s e.b 0).1
    Ready s i e → NoDebug s → ReadsFreely s ((List.range n).map (k + ·)) → Spacious s 0 → (off s e.b 0).2 = false →
    InFrame (xr s e.a) .load n (off s e.b 0).1 →
    let v : W64 := if signed then BitVec.ofInt 64 ((leNat (seen s k n) : Int).bmod (2 ^ (8 * n))) else BitVec.ofNat 64 (leNat (seen s k n))
    ∃ t l, exec i s = .next t ∧ Heard s t (begunArch s i) ∧ (t.grp s.cur).loads = (me s).loads ++ [l] ∧
      l.dst = .inl (opReg e.d) ∧ (t.grp s.cur).cld = (me s).cld + 1 ∧ Apart s t ∧ t.teams = s.teams ∧
      (Roomy s → l.sval = v ∧ (cleanBytes s k n → l.spoison = false) ∧ Elsewhere s t)

/-- R157, R179, R236: a scalar store by the frame puts its low bytes into the pound, where only its group sees them, and is
counted in cst; memory itself is unchanged. -/
def Obligations.ScalarStores : Prop :=
  ∀ (s : State) (e : Enc) (w : MWidth), let i := Instr.sst w e
    let n := MWidth.n w
    let o := off s e.a 0
    let k := keyAt (xr s e.d) o.1
    Ready s i e → NoDebug s → Spacious s 2 → Untraced s → o.2 = false → (src s e.b).2 = false → InFrame (xr s e.d) .store n o.1 →
    FreshSectors s ((List.range n).map (k + ·)) →
    ∃ t, exec i s = .next t ∧ (t.grp s.cur).arch = begunArch s i ∧ (t.grp s.cur).cst = (me s).cst + 1 ∧
      (∀ a, t.viewByte s.cur a = if k ≤ a ∧ a < k + n then (BitVec.ofNat 8 ((src s e.b).1.toNat / 2 ^ (8 * (a - k))), false) else s.viewByte s.cur a) ∧
      (∀ g a, g ≠ s.cur → t.viewByte g a = s.viewByte g a) ∧ Elsewhere s t ∧ t.teams = s.teams

/-- R180: ANCH writes base, frame, limit, page size and permissions of a translation register from one walk, and raises no fault: frame and
limit are 0 where the base does not map, and the limit is the length where the base's own page holds it. -/
def Obligations.AnchorWrites : Prop :=
  ∀ (s : State) (e : Enc), Ready s (.anch e) e → Untraced s → (src s e.a).2 = false → (src s e.b).2 = false →
    let base := (src s e.a).1
    let len := (src s e.b).1
    let asid := s.asid s.cur base
    let page := if canonical base = true then (s.walkPage (s.coreOf s.cur) asid base true).1 else none
    let x := s.anchor (s.coreOf s.cur) asid base len
    Gives s (.anch e) { begunArch s (.anch e) with regs := { (begunArch s (.anch e)).regs with x := (rg s).x.setIfInBounds (opReg e.d) x } } ∧
      x.base = base ∧ x.stale = false ∧ x.psz = BitVec.ofNat 3 (field (s.regionEntry asid base) 52 3) ∧ x.limit.toNat ≤ len.toNat ∧
      (page = none → x.frame = 0 ∧ x.limit = 0) ∧
      ∀ pg, page = some pg → x.frame = BitVec.ofNat 52 (leafFrame pg.leaf + (base.toNat - pg.va)) ∧ x.space = leafSpace pg.leaf ∧
        x.perm = some (s.pagePerms asid pg) ∧ (base.toNat + len.toNat ≤ pg.va + pg.size → x.limit = len)

/-- R147, R215, R236: a vector load by the frame holds, for each active thread and for no other, the words of its bytes as the group sees them,
until they return to the destination registers. What it reads and memory's bytes are stated where no sector leaves the cluster's cache for the
ones that it fills (the order of eviction is the model's, log 17). -/
def Obligations.VectorLoads : Prop :=
  ∀ (s : State) (e : Enc) (w : LdWidth), let i := Instr.ldv w e
    let keys := (active s i e).flatMap fun t => (List.range w.bytes).map (keyAt (xr s e.a) (off s e.b t).1 + ·)
    Ready s i e → ReadsFreely s keys → Spacious s 0 → FrameAccess s i e e.a e.b .load w.bytes →
    ∃ t l, exec i s = .next t ∧ Heard s t (begunArch s i) ∧ (t.grp s.cur).loads = (me s).loads ++ [l] ∧
      l.dst = .inr (opReg e.d, w.regs) ∧ l.vals.map (·.1) = active s i e ∧
      (t.grp s.cur).cld = (me s).cld + 1 ∧ Apart s t ∧ t.teams = s.teams ∧
      (Roomy s → Elsewhere s t ∧ ∀ x ∈ l.vals, let k := keyAt (xr s e.a) (off s e.b x.1).1
        x.2.1 = loadWords w (seen s k w.bytes) ∧ (cleanBytes s k w.bytes → x.2.2 = false))

/-- R152, R157, R215, R236: a vector store by the frame puts the bytes of its active threads into the pound, the highest thread's
standing where two cover one byte; only its group sees them, and memory itself is unchanged. -/
def Obligations.VectorStores : Prop :=
  ∀ (s : State) (e : Enc) (w : StWidth), let i := Instr.stv w e
    let ws := (active s i e).map fun t => (keyAt (xr s e.d) (off s e.a t).1, (readData (rg s) e.b w.bytes t).1)
    Ready s i e → Spacious s 64 → Untraced s → FrameAccess s i e e.d e.a .store w.bytes →
    (∀ t ∈ active s i e, (readData (rg s) e.b w.bytes t).2 = false) →
    FreshSectors s (ws.flatMap fun x => (List.range w.bytes).map (x.1 + ·)) →
    ∃ t, exec i s = .next t ∧ (t.grp s.cur).arch = begunArch s i ∧
      (t.grp s.cur).cst = (me s).cst + (if ws = [] then 0 else 1) ∧
      (∀ a, t.viewByte s.cur a = match lastOver w.bytes a ws with | some b => (b, false) | none => s.viewByte s.cur a) ∧
      (∀ g a, g ≠ s.cur → t.viewByte g a = s.viewByte g a) ∧ Elsewhere s t ∧ t.teams = s.teams

/-! ### Atomics, the stash, berths, fences -/

namespace Sys2Proof.Claim

/-- New value of an atomic form on an old one (R221). -/
def atomic32 (op : AtOp) (old v : W32) : W32 :=
  match op with
  | .add => BitVec.ofNat 32 (old.toNat + v.toNat)
  | .min => BitVec.ofInt 32 (min old.toInt v.toInt)
  | .max => BitVec.ofInt 32 (max old.toInt v.toInt)
  | .and => BitVec.ofNat 32 (old.toNat &&& v.toNat)
  | .or => BitVec.ofNat 32 (old.toNat ||| v.toNat)
  | .xor => BitVec.ofNat 32 (old.toNat ^^^ v.toNat)
  | .exch => v
  | .incwrap => if v.toNat ≤ old.toNat then 0 else BitVec.ofNat 32 (old.toNat + 1)
  | .fadd => BitVec.ofNat 32 (Fp.add Fp.fp32 .rne false (Fp.fp32.value old.toNat) (Fp.fp32.value v.toNat)).code

/-- Addresses that an atomic of n bytes may use: aligned, and host memory only where the form is one of PCI Express's (R222). -/
def AtomicAccess (s : State) (i : Instr) (e : Enc) (x o : Operand) (n : Nat) (pcie : Bool) : Prop :=
  FrameAccess s i e x o .store n ∧ ∀ t ∈ active s i e, ((xr s x).base + (off s o t).1).toNat % n = 0 ∧
    (pcie = false → ∀ j, j < n → isHostKey (keyAt (xr s x) (off s o t).1 + j) = false)

/-- A returning atomic issues: it is on its way with one access for each active thread. -/
def AtomIssues (s : State) (i : Instr) (e : Enc) (n : Nat) (form : AtForm) (v : Nat → W64) (cmp : Nat → Option W64) : Prop :=
  ∃ t, exec i s = .next t ∧ (t.grp s.cur).arch = begunArch s i ∧ Elsewhere s t ∧ t.teams = s.teams ∧
    (active s i e = [] → (t.grp s.cur).atom = none) ∧
    (active s i e ≠ [] → ∃ a, (t.grp s.cur).atom = some a ∧ a.pc = (me s).arch.pc ∧ a.sig0 = (rg s).sig ∧ a.reg = opReg e.d ∧
      a.wide = decide (n = 8) ∧ a.reqs = (active s i e).map fun th =>
        { thread := th, key := keyAt (xr s e.a) (off s e.b th).1, va := (xr s e.a).base + (off s e.b th).1, form := form, v := v th, cmp := cmp th })

/-- A vector register, or a pair of them, of a thread. -/
def wideReg (s : State) (n reg t : Nat) : W64 :=
  if n = 8 then (rg s).vt (reg + 1) t ++ (rg s).vt reg t else ((rg s).vt reg t).setWidth 64

/-- A returning atomic's instruction completes from the values and flags that its accesses have given: they go to its register or pair, without
poison, and its flags join MODE's (R221, R223). -/
def CompletesFrom (s : State) (i : Instr) (e : Enc) (n : Nat) (vals : List (Nat × W64)) (fl : W32) : Prop :=
  ∃ t, exec i s = .next t ∧ Elsewhere s t ∧ t.teams = s.teams ∧ (t.grp s.cur).atom = none ∧
    (∀ j th, j < n / 4 → th < 32 → (t.grp s.cur).arch.regs.vt (opReg e.d + j) th =
        (match vals.find? fun x => x.1 == th with | some x => x.2.extractLsb' (32 * j) 32 | none => (rg s).vt (opReg e.d + j) th) ∧
      (t.grp s.cur).arch.regs.vpt (opReg e.d + j) th = (!(vals.any fun x => x.1 == th) && (rg s).vpt (opReg e.d + j) th)) ∧
    (∀ r th, (r < opReg e.d ∨ opReg e.d + n / 4 ≤ r) → (t.grp s.cur).arch.regs.vt r th = (rg s).vt r th) ∧
    { (t.grp s.cur).arch with regs := { (t.grp s.cur).arch.regs with v := (rg s).v, vp := (rg s).vp } } =
      { begunArch s i with regs := { (begunArch s i).regs with mode := (rg s).mode ||| fl } }

/-- Stash addresses of an unbound berth's window: base of the group's region plus base of the berth plus the offset (R218, R280). -/
def shAt (s : State) (b : Operand) (o : W64) : Nat := s.regionBase s.cur + (s.berthOf s.cur (opReg b)).base + o.toNat

/-- Every active thread's access is clean of poison and inside the window of an unbound berth (R218). -/
def WindowAccess (s : State) (i : Instr) (e : Enc) (b o : Operand) (n : Nat) : Prop :=
  NoDebug s ∧ opReg b < s.berthLimit s.cur ∧ (s.berthOf s.cur (opReg b)).bound = false ∧
    ∀ t ∈ active s i e, (off s o t).2 = false ∧ 0 ≤ (off s o t).1.toInt ∧ (off s o t).1.toNat + n ≤ (s.berthOf s.cur (opReg b)).size

/-- A byte of the executing team's stash, and whether its word is poisoned. -/
def shByte (s : State) (a : Nat) : Byte := (s.teamOf s.cur).stash.read a
def shPoison (s : State) (a : Nat) : Bool := (s.teamOf s.cur).stashPoison.contains (a / 4 * 4)

/-- One access of ATOMSH on the words of the stash (R224). -/
def shStep (f : ShForm) (s : State) (e : Enc) (t : Nat) (old : W32) : W32 :=
  match f with
  | .op o => atomic32 o old ((rg s).vt (opReg e.d) t)
  | .cas => if old = (rg s).vt (opReg e.d) t then (rg s).vt (opReg e.d + 1) t else old

/-- The word of stash at an address after the accesses of some threads, in order. -/
def shAfter (f : ShForm) (s : State) (e : Enc) (a : Nat) (ts : List Nat) (w : W32) : W32 :=
  ts.foldl (fun w t => if shAt s e.a (off s e.b t).1 = a then shStep f s e t w else w) w

/-- The word of the executing team's stash at an address. -/
def shWord (s : State) (a : Nat) : W32 := w32Of ((List.range 4).map fun i => shByte s (a + i))

/-- The team of the executing group changes only in its stash, its log and its berths; other teams do not change. -/
def StashOnly (s t : State) : Prop :=
  (∀ g, g ≠ s.cur → (t.grp g).arch = (s.grp g).arch) ∧ t.mem = s.mem ∧ ∀ m, m ≠ (me s).team → t.tm m = s.tm m

end Sys2Proof.Claim

/-- R154, R220 to R223, R323: ATOM and ACAS, sealed and past every fence, with a pound entry for their record, send one access for each active thread, and with no active thread complete at
once; from the return record of their accesses they complete with the values it holds. -/
def Obligations.ReturningAtomics : Prop :=
  ∀ (s : State) (e : Enc), Untraced s → (me s).atom = none → (me s).fences = [] →
    (∀ f, let i := Instr.atom f e
      let n := atBytes f
      Ready s i e → AtomicAccess s i e e.a e.b n (hostForm f) → returnRecord s s.cur (me s).arch.pc = none →
      (active s i e ≠ [] → s.poundUsed (s.coreOf s.cur) < 512) → (∀ t ∈ active s i e, ∀ k, k < n / 4 → (rg s).vpt (opReg e.d + k) t = false) →
      AtomIssues s i e n f (fun t => wideReg s n (opReg e.d) t) fun _ => none) ∧
    (∀ f vals fl, Ready s (.atom f e) e → opReg e.d + atBytes f / 4 ≤ 256 → returnRecord s s.cur (me s).arch.pc = some (vals, fl) →
      CompletesFrom s (.atom f e) e (atBytes f) vals fl) ∧
    (∀ w, let i := Instr.acas w e
      let n := match w with | .w32 => 4 | .w64 => 8
      Ready s i e → AtomicAccess s i e e.a e.b n true → returnRecord s s.cur (me s).arch.pc = none →
      (active s i e ≠ [] → s.poundUsed (s.coreOf s.cur) < 512) → (∀ t ∈ active s i e, ∀ k, k < n / 2 → (rg s).vpt (opReg e.d + k) t = false) →
      AtomIssues s i e n (match w with | .w32 => .f32 .exch | .w64 => .f64 .exch) (fun t => wideReg s n (opReg e.d + n / 4) t)
        fun t => some (wideReg s n (opReg e.d) t)) ∧
    (∀ w vals fl, let n := match w with | .w32 => 4 | .w64 => 8
      Ready s (.acas w e) e → opReg e.d + n / 4 ≤ 256 → returnRecord s s.cur (me s).arch.pc = some (vals, fl) →
      CompletesFrom s (.acas w e) e n vals fl)

/-- R158, R222, R236: ATOMR puts its accesses into the pound, one entry a sector, in thread order, and is counted in cst; PREF brings the
sectors of the active threads' addresses into the cluster cache, as long as it has room for them (the order of eviction is the model's, log 17). -/
def Obligations.RemoteAtomicsAndPrefetch : Prop :=
  ∀ (s : State) (e : Enc), Untraced s →
    (∀ f, let i := Instr.atomr f e
      let n := atBytes f
      Ready s i e → Spacious s 32 → AtomicAccess s i e e.d e.a n (hostForm f) →
      (∀ t ∈ active s i e, (readData (rg s) e.b n t).2 = false) →
      ∃ t es, exec (.atomr f e) s = .next t ∧ (t.grp s.cur).arch = begunArch s i ∧ Elsewhere s t ∧ t.teams = s.teams ∧
        t.poundOf s.cur = s.poundOf s.cur ++ es ∧ (∀ en ∈ es, en.gid = s.cur ∧ en.cleared = false) ∧
        (∀ sec, (es.flatMap fun en => match en.kind with | .atomr accs _ => accs | _ => []).filter (fun a => sectorOf a.key == sec) =
          ((active s i e).map fun th => ({ key := keyAt (xr s e.d) (off s e.a th).1, form := f, v := w64Of (readData (rg s) e.b n th).1 } : AtomAcc)).filter
            fun a => sectorOf a.key == sec) ∧
        (t.grp s.cur).cst = (me s).cst + if active s i e = [] then 0 else 1) ∧
    (let i := Instr.pref e
     Ready s i e → s.clusterOf s.cur < s.clusters.length → (xr s e.d).stale = false → (xr s e.d).perm.isSome = true →
      ∃ t, exec (.pref e) s = .next t ∧ (t.grp s.cur).arch = begunArch s i ∧ Apart s t ∧ t.teams = s.teams ∧ (t.grp s.cur).loads = (me s).loads ∧
        (Roomy s → Elsewhere s t) ∧
        ∀ th ∈ active s i e, Roomy s → (off s e.a th).2 = false → InFrame (xr s e.d) .load 1 (off s e.a th).1 →
          let k := keyAt (xr s e.d) (off s e.a th).1
          isHostKey (sectorOf k) = false → s.readBlocked (some (me s).team) (.group s.cur) (sectorOf k) = false → (t.cbyte (s.clusterOf s.cur) k).isSome = true)

/-- R218, R219: LDSH reads the team's stash through the window, with the poison of its words; STSH writes it, the highest thread's
byte standing, and clears the poison of the words written. (What LDSH reads is stated where no MSTA of the team is unfinished for the group: R270 leaves
an unfinished one's destination undefined. It is stated of bytes that no bound berth holds; over those the group's own stores to global memory stand, R150.) -/
def Obligations.StashAccesses : Prop :=
  ∀ (s : State) (e : Enc),
    (∀ w, let i := Instr.ldsh w e
      Ready s i e → WindowAccess s i e e.a e.b w.bytes → opReg e.d + w.regs ≤ 256 → s.openDest s.cur = [] →
      (∀ t ∈ active s i e, ∀ k, k < w.bytes → s.heldKeyAt (me s).team (shAt s e.a (off s e.b t).1 + k) = none) →
      VecHears s i e w.regs (fun j t => ((loadWords w ((List.range w.bytes).map fun k => shByte s (shAt s e.a (off s e.b t).1 + k)))[j]?.getD 0,
        (List.range w.bytes).any fun k => shPoison s (shAt s e.a (off s e.b t).1 + k)))) ∧
    (∀ w, let i := Instr.stsh w e
      let ws := (active s i e).map fun t => (shAt s e.d (off s e.a t).1, (readData (rg s) e.b w.bytes t).1)
      Ready s i e → Untraced s → Spacious s 64 → WindowAccess s i e e.d e.a w.bytes → (me s).team < s.teams.length → (s.teamOf s.cur).stash.wf = true →
      (∀ t ∈ active s i e, (readData (rg s) e.b w.bytes t).2 = false) →
      ∃ t, exec i s = .next t ∧ (t.grp s.cur).arch = begunArch s i ∧ StashOnly s t ∧
        ∀ a, (t.teamOf s.cur).stash.read a = (lastOver w.bytes a ws).getD (shByte s a) ∧
          ((t.teamOf s.cur).stashPoison.contains (a / 4 * 4) = true ↔
            shPoison s a = true ∧ ∀ x ∈ ws, ∀ k, k < w.bytes → (x.1 + k) / 4 ≠ a / 4))

/-- R152, R224: ATOMSH performs its accesses in thread order at issue: a thread receives the word as the lower threads left it, and the
stash holds what the last thread left; its flags join MODE's. (Stated of bytes that no bound berth holds, and where no MSTA of the team is unfinished for the group: R270 leaves an
unfinished one's destination undefined.) -/
def Obligations.StashAtomics : Prop :=
  ∀ (s : State) (e : Enc) (f : ShForm), let i := Instr.atomsh f e
    let k := match f with | .op _ => 1 | .cas => 2
    Ready s i e → Untraced s → Spacious s 32 → WindowAccess s i e e.a e.b 4 → s.openDest s.cur = [] → (me s).team < s.teams.length → (s.teamOf s.cur).stash.wf = true → opReg e.d < 256 →
    (∀ t ∈ active s i e, (shAt s e.a (off s e.b t).1) % 4 = 0 ∧ (off s e.b t).1.toNat % 4 = 0 ∧ ∀ j, j < k → (rg s).vpt (opReg e.d + j) t = false) →
    (∀ t ∈ active s i e, ∀ j, j < 4 → s.heldKeyAt (me s).team (shAt s e.a (off s e.b t).1 + j) = none) →
    ∃ t fl h, exec i s = .next t ∧ StashOnly s t ∧ (f ≠ .op .fadd → fl = 0) ∧
      { (t.grp s.cur).arch with regs := { (t.grp s.cur).arch.regs with v := (rg s).v, vp := (rg s).vp } } =
        { begunArch s i with regs := { (begunArch s i).regs with mode := modeOr (rg s).mode fl }, seen := (me s).arch.seen ++ h } ∧
      (∀ th ∈ active s i e, (t.grp s.cur).arch.regs.vt (opReg e.d) th =
          shAfter f s e (shAt s e.a (off s e.b th).1) ((active s i e).filter (· < th)) (shWord s (shAt s e.a (off s e.b th).1)) ∧
        (t.grp s.cur).arch.regs.vpt (opReg e.d) th = false) ∧
      (∀ r th, th < 32 → (r ≠ opReg e.d ∨ th ∉ active s i e) → (t.grp s.cur).arch.regs.vt r th = (rg s).vt r th) ∧
      ∀ a, a % 4 = 0 → w32Of ((List.range 4).map fun j => (t.teamOf s.cur).stash.read (a + j)) =
        shAfter f s e a (active s i e) (shWord s a)

/-- R225 to R227, R236: at gate depth 0, BBIND configures a berth of the team, bound where it names a global address; BUNBIND and BFLUSH send the dirty
bytes of a bound berth on their way as one write-back set counted in cst, and BUNBIND lets go of its sectors, as BBIND does of those that the berth held
before. (What BBIND and BUNBIND leave of the stash is stated where no MSTA through the berth is unfinished: R227 and R270 make its results undefined.) -/
def Obligations.BerthBinding : Prop :=
  ∀ (s : State) (e : Enc), let b := opReg e.d
    let old := s.berthOf s.cur b
    let defined := ∀ o ∈ (s.teamOf s.cur).undone, o.berth = some b → o.past = true
    Untraced s → Spacious s 1 → (me s).arch.frames = [] → (me s).team < s.teams.length → b < 16 →
    (let i := Instr.bbind e
     let win := src s e.a
     let bound := match e.b with | .scal _ => true | _ => false
     let sva := if bound then src s e.b else (0, false)
     Ready s i e → win.2 = false → sva.2 = false → windowBad s s.cur b win.1 sva.1 = false → (old.bound = true → Spacious s 2) →
      ∃ t, exec i s = .next t ∧ Heard s t (begunArch s i) ∧ t.mem = s.mem ∧
        t.berthOf s.cur b = { base := win.1.toNat % 2 ^ 20, size := win.1.toNat / 2 ^ 32 % 2 ^ 20, bound := bound, gva := sva.1 } ∧
        (∀ c, c ≠ b → t.berthOf s.cur c = s.berthOf s.cur c) ∧ (defined → ∀ a, (t.teamOf s.cur).stash.read a = shByte s a) ∧
        (old.bound = true → t.heldBy s.cur b = [])) ∧
    (∀ i, i ∈ [Instr.bunbind e, Instr.bflush e] → Ready s i e → (old.bound = true → Spacious s 2) →
      ∃ t, exec i s = .next t ∧ Heard s t (begunArch s i) ∧ t.mem = s.mem ∧
        (defined ∨ i = .bflush e → ∀ a, (t.teamOf s.cur).stash.read a = shByte s a) ∧
        (old.bound = false → t.teams = s.teams ∧ (t.grp s.cur).wbsets = (me s).wbsets) ∧
        (old.bound = true → i = .bunbind e → t.berthOf s.cur b = { old with bound := false, gva := 0 } ∧ t.heldBy s.cur b = []) ∧
        (old.bound = true → i = .bflush e → t.berthOf s.cur b = old ∧ ∀ h ∈ t.heldBy s.cur b, h.dirty = 0) ∧
        (old.bound = true → (s.heldBy s.cur b).any (fun h => h.dirty != 0) = true →
          ∃ x, (t.grp s.cur).wbsets = (me s).wbsets ++ [x] ∧ x.held = (s.heldBy s.cur b).filter (fun h => h.dirty != 0) ∧
            x.bytes = x.held.flatMap (s.heldBytes (me s).team) ∧ (t.grp s.cur).cst = (me s).cst + 1))

/-- R145, R154, R164, R228, R229: a fence wider than the group is left incomplete behind the instruction, its acquire having made the clean
cached bytes of every context in whose frames the group has executed invalid at DEV scope and wider (R299); IFENCE, once the group's writes have drained, drops the words of code that the core holds for its
context; CINV beyond the cluster makes the clean bytes of its context, or of its range, invalid, and changes no value at the cluster's scope; CFLUSH beyond
the cluster sends a write-back set. (What a fence adds to the record of what happens-before what is the model's bookkeeping, log 52.) -/
def Obligations.FencesAndCacheControl : Prop :=
  ∀ (s : State) (e : Enc), Untraced s → Spacious s 0 → (me s).arch.emu = none →
    let runs := s.rangeRuns (s.coreOf s.cur) s.cur ((src s e.a).1.toNat / 4096 + 2) (xr s e.d).base.toNat (src s e.a).1.toNat
    (∀ sc k, let i := Instr.fence sc k e
      Ready s i e → ∃ t, exec (.fence sc k e) s = .next t ∧
        { (t.grp s.cur).arch with hb := (me s).arch.hb, rel := (me s).arch.rel } = begunArch s i ∧ Elsewhere s t ∧ t.teams = s.teams ∧
        (sc = .grp → (t.grp s.cur).fences = (me s).fences) ∧
        (sc ≠ .grp → (t.grp s.cur).fences.length = (me s).fences.length + 1 ∧
          ∃ f, (t.grp s.cur).fences.getLast? = some f ∧ f.scope = sc ∧ f.kind = k ∧ f.pc = (me s).arch.pc ∧ f.fired = [] ∧ f.watch = []) ∧
        (sc ∈ [Scope.dev, .dom, .sys] → k ≠ .rel → ∀ x ∈ (t.clu (s.clusterOf s.cur)).cache, ∀ c ∈ (me s).visited, State.belongs x c = true →
          ∀ j : Fin 128, ∀ b, x.bytes[j] = some b → b.dirty = true)) ∧
    (let i := Instr.ifence e
     Ready s i e → s.drained s.cur s.nextSeq = true → ∃ t, exec (.ifence e) s = .next t ∧ (t.grp s.cur).arch = begunArch s i ∧ Elsewhere s t ∧ t.teams = s.teams ∧
        (s.coreOf s.cur < s.cores.length → ∀ h, h ∈ (t.cor (s.coreOf s.cur)).held ↔ h ∈ (s.cor (s.coreOf s.cur)).held ∧ h.ctx ≠ (me s).arch.ctx)) ∧
    (∀ sc, let i := Instr.cinv sc e
      Ready s i e → (src s e.a).2 = false → ∃ t, exec (.cinv sc e) s = .next t ∧ (t.grp s.cur).arch = begunArch s i ∧ Elsewhere s t ∧ t.teams = s.teams ∧
        (sc = .clu → t.clusters = s.clusters) ∧
        (sc ≠ .clu → ∀ x ∈ (t.clu (s.clusterOf s.cur)).cache, ∀ j : Fin 128, ∀ b, x.bytes[j] = some b →
          (if (src s e.a).1 = 0 then State.belongs x (me s).arch.ctx = true else inRuns (runs.map (·.2)) (x.key + j) = true) → b.dirty = true)) ∧
    (∀ sc, let i := Instr.cflush sc e
      Ready s i e → (src s e.a).2 = false → ∃ t, exec (.cflush sc e) s = .next t ∧ (t.grp s.cur).arch = begunArch s i ∧ Elsewhere s t ∧ t.teams = s.teams ∧
        (sc = .clu → (t.grp s.cur).wbsets = (me s).wbsets ∧ (t.grp s.cur).cst = (me s).cst) ∧
        (sc ≠ .clu → (t.grp s.cur).cst = (me s).cst + 1 ∧
          ∃ x, (t.grp s.cur).wbsets = (me s).wbsets ++ [x] ∧ x.scope = sc ∧ x.ctx = (me s).arch.ctx ∧
            x.range = if (src s e.a).1 = 0 then none else some runs))

/-! ### Barriers, waits and copies -/

namespace Sys2Proof.Claim

/-- A barrier of the executing group's team. -/
def barOf (s : State) (n : Nat) : Barrier := s.bar (me s).team n

/-- The executing group's bit in ARRIVED and PEND (R231). -/
def mine (s : State) : BitVec 16 := 1#16 <<< (me s).gidx

/-- Registers and PC without the model's record of what happens-before the group's next instruction (log 52). -/
def BegunBut (s t : State) (i : Instr) : Prop := { (t.grp s.cur).arch with hb := (me s).arch.hb } = begunArch s i

/-- An instruction of the barrier family completes: registers as begun, memory and stash untouched, every other barrier of the team
unchanged, other groups' registers too. -/
def BarrierStep (s : State) (i : Instr) (n : Nat) (P : State → Prop) : Prop :=
  ∃ t, exec i s = .next t ∧ BegunBut s t i ∧ t.mem = s.mem ∧ (∀ g, g ≠ s.cur → (t.grp g).arch = (s.grp g).arch) ∧
    (t.teamOf s.cur).stash = (s.teamOf s.cur).stash ∧ (∀ k, k ≠ n → t.bar (me s).team k = barOf s k) ∧ P t

/-- The group waits for something, or goes on. -/
def waitsFor (s t : State) (w : Option WaitFor) : Prop :=
  match w with
  | some x => (t.grp s.cur).st = .wait ∧ ((t.grp s.cur).wait.map (·.what)) = some x
  | none => (t.grp s.cur).st = .run ∧ (t.grp s.cur).wait = (me s).wait

end Sys2Proof.Claim

/-- R231 to R233: BAR and BARA set the group's ARRIVED bit, BARA its PEND bit too; BAR waits for the phase to end; BARW waits only in a
phase that BARA joined, and clears PEND once it has ended; BARX adds to EXPECTED, after the phase has ended where it can (R244). -/
def Obligations.Barriers : Prop :=
  ∀ (s : State) (e : Enc), let n := opReg e.d
    let b := barOf s n
    let joined := b.pend &&& mine s ≠ 0
    let here := b.arrived &&& mine s ≠ 0
    Untraced s → Spacious s 2 → (me s).team < s.teams.length → n < 8 → (me s).arch.frames = [] →
    (Ready s (.bar e) e → ¬ (joined ∧ here) → BarrierStep s (.bar e) n fun t =>
      (t.bar (me s).team n).arrived = b.arrived ||| mine s ∧ (t.bar (me s).team n).pend = b.pend &&& ~~~(mine s) ∧
      (t.bar (me s).team n).phase = b.phase ∧ waitsFor s t (some (.barrier n b.phase))) ∧
    (Ready s (.bara e) e → ¬ (joined ∧ here) → BarrierStep s (.bara e) n fun t =>
      (t.bar (me s).team n).arrived = b.arrived ||| mine s ∧ (t.bar (me s).team n).pend = b.pend ||| mine s ∧
      (t.bar (me s).team n).phase = b.phase ∧ waitsFor s t none) ∧
    (Ready s (.bara e) e → joined ∧ here → ∃ t, exec (.bara e) s = .next t ∧ (t.grp s.cur).arch = (me s).arch ∧
      waitsFor s t (some (.barrierPend n b.phase))) ∧
    (Ready s (.barw e) e → BarrierStep s (.barw e) n fun t =>
      (t.bar (me s).team n).arrived = b.arrived ∧ (t.bar (me s).team n).phase = b.phase ∧
      (¬ joined → t.bar (me s).team n = b ∧ waitsFor s t none) ∧
      (joined → here → t.bar (me s).team n = b ∧ waitsFor s t (some (.barrier n b.phase))) ∧
      (joined → ¬ here → (t.bar (me s).team n).pend = b.pend &&& ~~~(mine s) ∧ waitsFor s t none)) ∧
    (Ready s (.barx e) e → (src s e.a).2 = false → barrierDone s (me s).team n = true → BarrierStep s (.barx e) n fun t =>
      (t.bar (me s).team n).expected = (src s e.a).1 ∧ (t.bar (me s).team n).arrived = 0 ∧
      (t.bar (me s).team n).bytes = b.bytes - b.expected ∧ (t.bar (me s).team n).phase = b.phase + 1 ∧ waitsFor s t none) ∧
    (Ready s (.barx e) e → (src s e.a).2 = false → barrierDone s (me s).team n = false → BarrierStep s (.barx e) n fun t =>
      (t.bar (me s).team n).expected = b.expected + (src s e.a).1 ∧ (t.bar (me s).team n).arrived = b.arrived ∧
      (t.bar (me s).team n).bytes = b.bytes ∧ (t.bar (me s).team n).phase = b.phase ∧ waitsFor s t none)

/-- R235, R236, R295: WAITA, WAITC and SLEEP go on at once where their condition holds, and otherwise leave the group in WAIT for it. (WAITA's word is
stated of bytes that no bound berth holds, where no MSTA of the team is unfinished for the group: R270 leaves an unfinished one's destination undefined.) -/
def Obligations.Waits : Prop :=
  ∀ (s : State) (e : Enc),
    (let i := Instr.waita e
     let a := shAt s e.d (src s e.a).1
     let word := leNat ((List.range 8).map fun k => shByte s (a + k))
     Ready s i e → NoDebug s → (me s).arch.frames = [] → s.openDest s.cur = [] → (src s e.a).2 = false → (src s e.b).2 = false →
      opReg e.d < s.berthLimit s.cur → (s.berthOf s.cur (opReg e.d)).bound = false →
      (src s e.a).1.toNat % 8 = 0 → 0 ≤ (src s e.a).1.toInt → (src s e.a).1.toNat + 8 ≤ (s.berthOf s.cur (opReg e.d)).size →
      (∀ k, k < 8 → s.heldKeyAt (me s).team (a + k) = none) →
      ∃ t c, exec (.waita e) s = .next t ∧ Heard s t { begunArch s i with hb := c } ∧ t.teams = s.teams ∧
        waitsFor s t (if (src s e.b).1.toNat ≤ word then none else some (.stashWord (opReg e.d) (src s e.a).1.toNat (src s e.b).1))) ∧
    (let i := Instr.waitc e
     let count := match opReg e.d with | 0 => (me s).cld | 1 => (me s).cst | 2 => (me s).ccpy | _ => (me s).ctile
     Ready s i e → ∃ t, exec (.waitc e) s = .next t ∧ BegunBut s t i ∧ t.teams = s.teams ∧
        waitsFor s t (if count ≤ opReg e.a then none else some (.counter (opReg e.d) (opReg e.a)))) ∧
    (let i := Instr.sleep e
     Ready s i e → (src s e.d).2 = false → ∃ t, exec (.sleep e) s = .next t ∧ (t.grp s.cur).arch = begunArch s i ∧ t.teams = s.teams ∧
        waitsFor s t (if (src s e.d).1 = 0 then none else some (.sleep (s.clk + (src s e.d).1.toNat))))

/-- R160, R237 to R242, R245: CPY, CPY2 and CPYR whose checks pass hand one command to the core's copy engine, with the places that they resolved
at issue, one token for each 512 bytes, and their completion; ccpy counts it, a descriptor enters the pound, and no byte has moved. -/
def Obligations.CopiesIssue : Prop :=
  ∀ (s : State) (e : Enc) (i : Instr) (form : Nat), (form, i) ∈ [(0, Instr.cpy e), (1, .cpy2 e), (2, .cpyr e)] →
    let k := (copyCmd (rg s) (opReg e.d) form).1
    let teams := s.copyTeams s.cur k
    let gd := if k.dstash then (Except.ok [], s) else s.globalSide s.cur .store k k.dstRow
    let gs := if k.sstash then (Except.ok [], gd.2) else gd.2.globalSide s.cur .load k k.srcRow
    ∀ (rows : Nat → List Nat) (ss : List Nat) (drs srs : List (Nat × Nat)),
    Ready s i e → Untraced s → Spacious s 1 → (me s).ccpy < 65535 → s.coreOf s.cur < s.cores.length →
    (s.cor (s.coreOf s.cur)).copies.length < 16 → (copyCmd (rg s) (opReg e.d) form).2 = false →
    ((me s).arch.frames = [] ∨ k.mcast = 0 ∧ k.comp ≠ 2) → s.copyBad s.cur k = false →
    (form = 2 → k.comp = 1 → ∃ sig, (gs.2.globalRuns s.cur .store 2 k.s4 8).1 = .ok sig) →
    (k.dstash = true → ∀ t ∈ teams, s.stashRows s.cur t k.dst k.dstride k = .ok (rows t)) →
    (k.sstash = true → s.stashRows s.cur (me s).team k.src k.sstride k = .ok ss) →
    (k.comp = 1 → form ≠ 2 → ∀ t ∈ teams, (s.copyWindow s.cur t k.sberth (k.soff * 8) 8).isSome = true) →
    gd.1 = .ok drs → gs.1 = .ok srs → (form = 2 → ∀ r ∈ drs, isHostKey r.1 = false) →
    ∃ t c, exec i s = .next t ∧ (t.grp s.cur).arch = begunArch s i ∧ t.mem = s.mem ∧ t.teams = s.teams ∧
      (t.grp s.cur).ccpy = (me s).ccpy + 1 ∧ (t.cor (s.coreOf s.cur)).copies = (s.cor (s.coreOf s.cur)).copies ++ [c] ∧
      c.gid = s.cur ∧ c.form = form ∧ c.scope = k.scope ∧ c.comp = k.comp ∧ c.len = k.total ∧ c.tokens = (k.total + 511) / 512 ∧
      c.sigVal = k.sigVal ∧ c.landed = false ∧ c.applied = false ∧ c.cleared = false ∧
      c.src = (if k.sstash then (some (me s).team, ss.map fun a => (a, k.len)) else (none, srs)) ∧
      c.dsts = (if k.dstash then teams.map fun t => (some t, State.swizzle k (rows t)) else [(none, drs)]) ∧
      ∃ en ∈ t.poundOf s.cur, en.gid = s.cur ∧ en.kind = .copyDesc c.id

/-! ### The matrix engine -/

namespace Sys2Proof.Claim

/-- A stash range of n bytes that a sequencer operation may use: its offset is clean of poison and a multiple of 128, and it lies in the
window of an unbound berth; its stash address (R257). -/
def Panel (s : State) (b o : Operand) (n : Nat) (a : Nat) : Prop :=
  (off s o 0).2 = false ∧ (off s o 0).1.toNat % 128 = 0 ∧ (s.berthOf s.cur (opReg b)).bound = false ∧
    s.window s.cur (opReg b) (off s o 0).1 n = some a

/-- The sequencer takes another operation: fewer than 32 are incomplete, and fewer than 8 MLOOPs (R254). -/
def SequencerRoom (s : State) : Prop :=
  seqFull s (s.coreOf s.cur) true = false ∧ s.coreOf s.cur < s.cores.length ∧ (me s).ctile < 65535 ∧ (me s).team < s.teams.length ∧
    (me s).arch.frames = []

/-- An operation joins the sequencer, incomplete, and the group's open set; `n` is what it counts on ctile. No accumulator and no byte
of the stash changes yet (R252, R254, R256). -/
def Accepted (s : State) (i : Instr) (n : Nat) (K : SeqKind → Prop) (Q : State → Prop) : Prop :=
  ∃ t o, exec i s = .next t ∧ K o.kind ∧ o.gid = s.cur ∧ o.team = (me s).team ∧ o.complete = false ∧ o.id = s.nextId ∧
    (t.cor (s.coreOf s.cur)).ops = (s.cor (s.coreOf s.cur)).ops ++ [o] ∧
    (t.grp s.cur).arch = { begunArch s i with regs := { (begunArch s i).regs with openSet := (rg s).openSet ++ [o.id] } } ∧
    (t.grp s.cur).ctile = (me s).ctile + n ∧ t.mem = s.mem ∧ (t.teamOf s.cur).stash = (s.teamOf s.cur).stash ∧
    (t.teamOf s.cur).accs = (s.teamOf s.cur).accs ∧ (∀ g, g ≠ s.cur → (t.grp g).arch = (s.grp g).arch) ∧ Q t

/-- Element of thread t in segment q of an accumulator: four segments of 32 columns to a row (R267). -/
def segment (q t : Nat) : Nat := 128 * (q / 4) + 32 * (q % 4) + t

/-- The low n bits of a scalar operand, or an immediate. -/
def small (s : State) (o : Operand) (n : Nat) : Nat :=
  match o with
  | .imm v => v.toNat
  | o => (src s o).1.toNat % 2 ^ n

end Sys2Proof.Claim

/-- R249, R252, R254, R257, R258, R264, R265: MLDW, MLOOP, MSTA and MLDA whose checks pass join the sequencer; MLDW latches the slot's
format and marks it loading; MSTA keeps the rounding mode of its issue. -/
def Obligations.SequencerAccepts : Prop :=
  ∀ (s : State) (e : Enc), Untraced s → SequencerRoom s →
    (∀ f tr a, let i := Instr.mldw f tr e
      Ready s i e → opReg e.d < 8 → Panel s e.a e.b (weightBytes f) a → Accepted s i 1 (fun k => ∃ again, k = .mldw (opReg e.d) f tr a again) fun t =>
        (t.slot (me s).team (opReg e.d)).fmt = some f ∧ (t.slot (me s).team (opReg e.d)).trans = tr ∧
        (t.slot (me s).team (opReg e.d)).loading = true ∧ ∀ w, w ≠ opReg e.d → t.slot (me s).team w = s.slot (me s).team w) ∧
    (let i := Instr.mloop e
     let c := (src s e.b).1
     let b := c.toNat / 2 ^ 56 % 16
     let steps := c.toNat / 2 ^ 32 % 2 ^ 16
     ∀ f, Ready s i e → (src s e.b).2 = false → ctlFmt c = some f → c.toNat / 2 ^ 60 = 0 → c.toNat / 2 ^ 48 % 4 = 0 → steps ≠ 0 →
      (s.berthOf s.cur b).bound = false →
      (∀ k, k < steps → ctlSlot c (opReg e.a) k < (s.descOf s.cur).tiles ∧ (s.slot (me s).team (ctlSlot c (opReg e.a) k)).fmt.isSome = true) →
      (∀ k, k < steps → (s.window s.cur b (BitVec.ofInt 64 (ctlPanel c k)) (actBytes f)).isSome = true) →
      Accepted s i 0 (· = .mloop (opReg e.d) c (opReg e.a) (s.regionBase s.cur + (s.berthOf s.cur b).base)) fun t =>
        ∀ w, t.slot (me s).team w = s.slot (me s).team w) ∧
    (∀ f a, let i := Instr.msta f e
      Ready s i e → Panel s e.d e.a (match f with | .f32 => 16384 | _ => 8192) a →
      Accepted s i 1 (· = .msta (opReg e.b) f (if e.rnd = 0 then (rg s).mode.extractLsb' 0 3 else e.rnd) a) fun _ => True) ∧
    (∀ a, let i := Instr.mlda e
      Ready s i e → Panel s e.a e.b 16384 a → Accepted s i 1 (· = .mlda (opReg e.d) a) fun _ => True)

/-- R256, R263, R269: MRDY orders and changes no register (that it records what is ordered is the model's bookkeeping, log 52); MBATCH closes the open set under NEXT, writes that number and steps NEXT; MWAIT goes on
when the batch is complete and waits for it otherwise; MFMT reads a slot's state. -/
def Obligations.BatchesAndFormats : Prop :=
  ∀ (s : State) (e : Enc), Untraced s → (me s).arch.frames = [] → (me s).team < s.teams.length →
    (Ready s (.mrdy e) e → Gives s (.mrdy e) { begunArch s (.mrdy e) with rdy := s.clockOf s.cur }) ∧
    (let i := Instr.mbatch e
     Ready s i e → s.batchDone s.cur (rg s).next.toNat = true →
      ∃ t, exec i s = .next t ∧ t.teams = s.teams ∧ t.mem = s.mem ∧ (∀ g, g ≠ s.cur → (t.grp g).arch = (s.grp g).arch) ∧
        (t.grp s.cur).batches[(rg s).next.toNat]? = some (rg s).openSet ∧
        (t.grp s.cur).arch = (let A := putS s i e.d (BitVec.ofNat 64 (rg s).next.toNat) false
          { A with regs := { A.regs with next := (rg s).next + 1, openSet := [] } })) ∧
    (let i := Instr.mwait e
     let n := small s e.d 4
     Ready s i e → (src s e.d).2 = false → (∀ o ∈ (s.teamOf s.cur).undone, o.dirty = [] ∧ o.whole = false) →
      ∃ t, exec (.mwait e) s = .next t ∧ BegunBut s t i ∧ t.mem = s.mem ∧
        (t.teamOf s.cur).stash = (s.teamOf s.cur).stash ∧ (t.teamOf s.cur).accs = (s.teamOf s.cur).accs ∧
        waitsFor s t (if s.batchDone s.cur n = true then none else some (.batch n))) ∧
    (let i := Instr.mfmt e
     let w := s.slot (me s).team (opReg e.a)
     Ready s i e → Gives s i (putS s i e.d (BitVec.ofNat 64 (match w.fmt with
       | none => 0
       | some f => 128 + (if w.loading then 64 else 0) + (if w.trans then 32 else 0) + fmtCode f)) false))

namespace Sys2Proof.Claim

/-- The group's reaches have numbers of their own, given before the next one. -/
def ReachIds (s : State) : Prop := ((me s).reaches.map (·.id)).Nodup ∧ ∀ r ∈ (me s).reaches, r.id < s.nextReach

/-- The group's executing reach has written an accumulator anew: its first write of it takes a physical one from the core's free ones and keeps
what the accumulator held; a later write takes none (R68). -/
def TakesAcc (s t : State) (k : Nat) : Prop :=
  ∃ r, (t.grp s.cur).reaches.getLast? = some r ∧
    if (me s).reaches.any (fun q => q.id == r.id && q.accPre.any fun p => p.1 == k) = true then
      (t.cor (s.coreOf s.cur)).accFree = (s.cor (s.coreOf s.cur)).accFree
    else (t.cor (s.coreOf s.cur)).accFree + 1 = (s.cor (s.coreOf s.cur)).accFree ∧
      (k, s.acc (me s).team k, (s.teamOf s.cur).accBy[k]?.getD none) ∈ r.accPre

end Sys2Proof.Claim

/-- R60, R68, R252, R264, R267, R270: MZERO with no earlier operation in its core's sequencer leaves every element of its accumulator +0.0, takes one
physical accumulator for the first write of its reach, as MWRA does, and is complete, ctile counting as before. MRDA reads and MWRA writes the 32 elements of a
segment of an accumulator that no unfinished operation touches; MRDA of one that an unfinished operation writes still completes. -/
def Obligations.AccumulatorAccess : Prop :=
  ∀ (s : State) (e : Enc),
    (let i := Instr.mzero e
     Ready s i e → Untraced s → SequencerRoom s → (s.cor (s.coreOf s.cur)).ops = [] → 0 < (s.cor (s.coreOf s.cur)).accFree → opReg e.d < 8 →
       (∀ o ∈ (s.teamOf s.cur).undone, o.id < s.nextId) → s.cur ∈ (s.teamOf s.cur).groups → ReachIds s →
       ∃ t, exec (.mzero e) s = .next t ∧ (t.grp s.cur).ctile = (me s).ctile ∧
         (t.grp s.cur).arch = { begunArch s i with regs := { (begunArch s i).regs with openSet := (rg s).openSet ++ [s.nextId] } } ∧
         (∀ n, n < 4096 → Acc.get (t.acc (me s).team (opReg e.d)) n = 0) ∧
         (∀ k, k ≠ opReg e.d → t.acc (me s).team k = s.acc (me s).team k) ∧
         (∀ o ∈ (t.cor (s.coreOf s.cur)).ops, o.complete = true) ∧ TakesAcc s t (opReg e.d) ∧ (t.teamOf s.cur).stash = (s.teamOf s.cur).stash ∧ t.mem = s.mem) ∧
    (Untraced s → (me s).arch.frames = [] → (me s).team < s.teams.length →
    (let i := Instr.mrda e
     Ready s i e → (src s e.b).2 = false → opReg e.d < 256 →
      ((s.unfinished s.cur fun o => kindWrites o (opReg e.a)) = false →
        VecGives s i e 1 (fun _ t => (Acc.get (s.acc (me s).team (opReg e.a)) (segment (small s e.b 7) t), false)) 0) ∧
      ((s.unfinished s.cur fun o => kindWrites o (opReg e.a)) = true →
        ∃ t, exec i s = .next t ∧ (t.grp s.cur).arch.pc = (me s).arch.pc + 12 ∧ t.teams = s.teams ∧ t.mem = s.mem ∧
          ∀ r th, th < 32 → (r ≠ opReg e.d ∨ (maskAt s i e).getLsbD th = false) →
            (t.grp s.cur).arch.regs.vt r th = (rg s).vt r th ∧ (t.grp s.cur).arch.regs.vpt r th = (rg s).vpt r th)) ∧
    (let i := Instr.mwra e
     let m := maskAt s i e
     Ready s i e → (src s e.b).2 = false → (∀ t, t < 32 → m.getLsbD t = true → (el s .i32 e.a t).2 = false) → opReg e.d < 8 →
      (∀ o ∈ (s.cor (s.coreOf s.cur)).ops, o.steps = []) → 0 < (s.cor (s.coreOf s.cur)).accFree → (s.unfinished s.cur fun o => kindTouches o (opReg e.d)) = false →
      ∃ t, exec i s = .next t ∧ (t.grp s.cur).arch = begunArch s i ∧ t.mem = s.mem ∧ (t.teamOf s.cur).stash = (s.teamOf s.cur).stash ∧
        (∀ n, n < 4096 → Acc.get (t.acc (me s).team (opReg e.d)) n =
          if n = segment (small s e.b 7) (n % 32) ∧ m.getLsbD (n % 32) = true then (el s .i32 e.a (n % 32)).1
          else Acc.get (s.acc (me s).team (opReg e.d)) n) ∧
        (m ≠ 0 → s.coreOf s.cur < s.cores.length → ReachIds s → TakesAcc s t (opReg e.d)) ∧
        ∀ k, k ≠ opReg e.d → t.acc (me s).team k = s.acc (me s).team k))

/-! ### Gates, traps and system instructions -/

namespace Sys2Proof.Claim

/-- The gate entry that a GCALL names. -/
def gateOf (s : State) (o : Operand) : GateEntry := s.gateEntry (s.partOf s.cur) (opReg o)

/-- Room in the core's pound for the before-images of a region of the stash that becomes zero: one entry for each sector of it that is not zero or has a
poisoned word (R279, R323); where those are more than the pound has, one for the region (log 10). -/
def RegionRoom (s : State) (r n : Nat) : Prop :=
  let in_ := fun (a : Nat) => decide (r ≤ a) && decide (a < r + n)
  let secs := ((((s.teamOf s.cur).stash.map (·.1)).filter in_ ++ (s.teamOf s.cur).stashPoison.filter in_).map sectorOf).eraseDups.length
  s.poundUsed (s.coreOf s.cur) + (if secs ≤ 512 then secs else 1) ≤ 512

/-- A trap of a class will be delivered to a handler: no debug routing and no single step, not emulating, not in a handler, no load on its way to s0 to
s4, and a trap-table entry that names one (R286, R287, R341). -/
structure Delivers (s : State) (c : TrapClass) (h : W64) : Prop where
  group : s.cur < s.groups.length
  debug : NoDebug s
  step : (me s).stepping = false
  emu : (me s).arch.emu = none
  out : (rg s).tf.inHandler = false
  idle : State.recordAwaited (me s) = false
  entry : s.trapEntry s.cur c = .handler h

/-- Delivery of a trap (R286): the frame keeps s0 to s4, their poison, p14, SIG, the PC and the unit; s0 to s4 hold the record without poison, SIG is
0 and the handler's PC follows; every other register stands. -/
structure Entered (s t : State) (inf : TrapInfo) (w : IWord) (h : W64) : Prop where
  pc : (t.grp s.cur).arch.pc = h
  code : (t.grp s.cur).arch.regs.sv 0 = BitVec.ofNat 64 (State.classCode inf.cls + inf.operand * 2 ^ 16 + s.depthOf s.cur % 16 * 2 ^ 24 + inf.imm % 2 ^ 16 * 2 ^ 32)
  at_ : (t.grp s.cur).arch.regs.sv 1 = (me s).arch.pc
  info : (t.grp s.cur).arch.regs.sv 2 = inf.s2
  low : (t.grp s.cur).arch.regs.sv 3 = BitVec.ofNat 64 (w.toNat % 2 ^ 64)
  high : (t.grp s.cur).arch.regs.sv 4 = BitVec.ofNat 64 (w.toNat / 2 ^ 64)
  clean : ∀ k, k < 5 → (t.grp s.cur).arch.regs.spo k = false
  frameIn : (t.grp s.cur).arch.regs.tf.inHandler = true
  framePc : (t.grp s.cur).arch.regs.tf.pc = (me s).arch.pc
  frameS : ∀ k, k < 5 → (t.grp s.cur).arch.regs.tf.s[k]? = some ((rg s).sv k)
  framePoison : ∀ k, k < 5 → (t.grp s.cur).arch.regs.tf.sp.getLsbD k = (rg s).spo k
  frameSig : (t.grp s.cur).arch.regs.tf.sig = (rg s).sig
  frameP14 : (t.grp s.cur).arch.regs.tf.p14 = (rg s).pv 14
  frameUnit : (t.grp s.cur).arch.regs.tf.unit = BitVec.ofNat 16 (w.toNat / 2 ^ 81 * 2 + w.toNat / 2 ^ 77 % 2)
  sig : (t.grp s.cur).arch.regs.sig = 0
  others : ∀ k, 5 ≤ k → (t.grp s.cur).arch.regs.sv k = (rg s).sv k ∧ (t.grp s.cur).arch.regs.spo k = (rg s).spo k
  rest : { (t.grp s.cur).arch with pc := (me s).arch.pc, regs := { (t.grp s.cur).arch.regs with
    s := (rg s).s, sp := (rg s).sp, tf := (rg s).tf, sig := (rg s).sig } } = (me s).arch
  elsewhere : Elsewhere s t
  teams : t.teams = s.teams

/-- An instruction traps: it commits nothing and its trap is delivered (R167, R282). -/
def Traps (s : State) (i : Instr) (inf : TrapInfo) : Prop :=
  ∀ h, Delivers s inf.cls h → ∃ t, exec i s = .next t ∧ Entered s t inf (wordOf i) h

/-- Return from a handler (R289): s0 to s4 with their poison, p14 and SIG come back, IN-HANDLER clears; `skip` feeds the saved unit and goes past
the instruction. -/
structure Returned (s t : State) (skip : Bool) : Prop where
  pc : (t.grp s.cur).arch.pc = (rg s).tf.pc + if skip then 12 else 0
  values : ∀ k, k < 5 → (t.grp s.cur).arch.regs.sv k = (rg s).tf.s[k]?.getD 0 ∧ (t.grp s.cur).arch.regs.spo k = (rg s).tf.sp.getLsbD k
  p14 : (t.grp s.cur).arch.regs.pv 14 = (rg s).tf.p14
  sig : (t.grp s.cur).arch.regs.sig = if skip then sigFeed (rg s).tf.sig (rg s).tf.unit else (rg s).tf.sig
  out : (t.grp s.cur).arch.regs.tf = { (rg s).tf with inHandler := false }
  others : ∀ k, 5 ≤ k → (t.grp s.cur).arch.regs.sv k = (rg s).sv k ∧ (t.grp s.cur).arch.regs.spo k = (rg s).spo k
  preds : ∀ k, k ≠ 14 → (t.grp s.cur).arch.regs.pv k = (rg s).pv k
  rest : { (t.grp s.cur).arch with pc := (me s).arch.pc, regs := { (t.grp s.cur).arch.regs with
    s := (rg s).s, sp := (rg s).sp, p := (rg s).p, tf := (rg s).tf, sig := (rg s).sig } } = (me s).arch

end Sys2Proof.Claim

/-- R278, R279, R280, R323: a GCALL that no check refuses, with pound entries for the sectors that it zeroes, opens a frame: the caller's registers are hidden, the callee starts with the passed ones, every other zero
and without poison, in the gate's domain and context, at its entry PC, over a zeroed stash region. -/
def Obligations.GateCallOpens : Prop :=
  ∀ (s : State) (e : Enc), let i := Instr.gcall e
    let ge := gateOf s e.d
    Ready s i e → Untraced s → (me s).loads = [] → s.gateReason s.cur ge = none → (me s).team < s.teams.length →
    (∀ k, k < ge.nspass.toNat → (rg s).spo k = false) → (∀ k, k < ge.nvpass.toNat → (rg s).vp[k]?.getD 0 &&& (me s).live = 0) →
    RegionRoom s ((s.frameRegion s.cur ge).getD 0) ge.allow.toNat → (s.teamOf s.cur).stash.wf = true →
    ∃ t f, exec i s = .next t ∧ (t.grp s.cur).arch.frames = f :: (me s).arch.frames ∧ (t.grp s.cur).arch.pc = ge.entry ∧
      (t.grp s.cur).arch.dom = ge.tdom.toNat % 64 ∧ some (t.grp s.cur).arch.ctx = s.domainCtx (s.partOf s.cur) (ge.tdom.toNat % 64) ∧
      f.saved = (begunArch s i).regs ∧ f.retPc = (me s).arch.pc + 12 ∧ f.gate = opReg e.d ∧ f.dom = (me s).arch.dom ∧ f.ctx = (me s).arch.ctx ∧ f.entry = ge ∧
      (∀ k, k < 128 → (t.grp s.cur).arch.regs.sv k = (if k < ge.nspass.toNat then (rg s).sv k else 0) ∧ (t.grp s.cur).arch.regs.spo k = false) ∧
      (∀ r th, r < 256 → th < 32 → (t.grp s.cur).arch.regs.vt r th = (if r < ge.nvpass.toNat then (rg s).vt r th else 0) ∧
        (t.grp s.cur).arch.regs.vpt r th = false) ∧
      (∀ k, k < 15 → (t.grp s.cur).arch.regs.pv k = if ge.scrub.getLsbD 1 && decide (k < 14) then (rg s).pv k else 0) ∧
      (t.grp s.cur).arch.regs.mode = (if ge.scrub.getLsbD 0 then (rg s).mode &&& 0x77 else 1) ∧ (t.grp s.cur).arch.regs.sig = 0 ∧
      (t.grp s.cur).arch.regs.eflag = 0 ∧ (t.grp s.cur).arch.regs.calls = [] ∧ (t.grp s.cur).arch.regs.tf = TrapFrame.empty ∧
      (∀ a, (s.frameRegion s.cur ge).getD 0 ≤ a → a < (s.frameRegion s.cur ge).getD 0 + ge.allow.toNat → (t.teamOf s.cur).stash.read a = 0) ∧ t.mem = s.mem

/-- R67, R284, R285, R323: GRET with the frame drained, with lines for what it writes and pound entries for the sectors that it zeroes, returns the results, clears the passed registers that are not results, and gives back every other register,
predicate, MODE, EFLAG with GATEERR 0, SIG, call stack, trap frame and PC of the caller. -/
def Obligations.GateReturnRestores : Prop :=
  ∀ (s : State) (e : Enc) (f : GateFrame) (fs : List GateFrame), let i := Instr.gret e
    let ge := f.entry
    Ready s i e → Untraced s → (me s).arch.frames = f :: fs → frameDrained s s.cur = true →
    (∀ s0 ∈ [s.prepare s.cur i e, (s.prepare s.cur i e).openHead s.cur], s0.regsRoom s.cur (backRegs s0 s.cur) = true) →
    RegionRoom s (s.regionBase s.cur) ge.allow.toNat → (s.teamOf s.cur).stash.wf = true → (me s).team < s.teams.length →
    ∃ t, exec i s = .next t ∧ (t.grp s.cur).arch.frames = fs ∧ (t.grp s.cur).arch.pc = f.retPc ∧ (t.grp s.cur).arch.dom = f.dom ∧
      (t.grp s.cur).arch.ctx = f.ctx ∧
      (∀ k, k < 128 → let r := (t.grp s.cur).arch.regs
        (r.sv k, r.spo k) = if k < ge.nsres.toNat then ((rg s).sv k, (rg s).spo k) else if k < ge.nspass.toNat then (0, false)
          else (f.saved.sv k, f.saved.spo k)) ∧
      (∀ n th, n < 256 → th < 32 → let r := (t.grp s.cur).arch.regs
        (r.vt n th, r.vpt n th) = if n < ge.nvres.toNat then ((rg s).vt n th, (rg s).vpt n th) else if n < ge.nvpass.toNat then (0, false)
          else (f.saved.vt n th, f.saved.vpt n th)) ∧
      (∀ k, k < 14 → (t.grp s.cur).arch.regs.pv k = if ge.scrub.getLsbD 1 then (rg s).pv k else f.saved.pv k) ∧
      (t.grp s.cur).arch.regs.pv 14 = 0xFFFFFFFF ∧
      (t.grp s.cur).arch.regs.mode = (if ge.scrub.getLsbD 2 then f.saved.mode ||| (rg s).mode &&& 0x1F00 else f.saved.mode) ∧
      (t.grp s.cur).arch.regs.eflag = f.saved.eflag &&& ~~~1 ∧ (t.grp s.cur).arch.regs.sig = f.saved.sig ∧
      (t.grp s.cur).arch.regs.calls = f.saved.calls ∧ (t.grp s.cur).arch.regs.tf = f.saved.tf ∧ (t.grp s.cur).arch.regs.next = f.saved.next ∧ t.mem = s.mem ∧
      ∀ a, s.regionBase s.cur ≤ a → a < s.regionBase s.cur + ge.allow.toNat → (t.teamOf s.cur).stash.read a = 0

/-- R115, R116, R286, R288: TRAP and BRK take their trap, with their immediate in the record; a word that fails a decode check takes the trap of that
check; all are delivered through the trap table. -/
def Obligations.TrapDelivery : Prop :=
  ∀ (s : State),
    (∀ e, Ready s (.trap e) e → Untraced s → Traps s (.trap e) { cls := .trap, operand := 0, imm := (opImm e.d).toNat, s2 := 0 }) ∧
    (∀ e, Ready s (.brk e) e → Untraced s → (me s).brkPass = false →
      Traps s (.brk e) { cls := .breakpoint, operand := 0, imm := (opImm e.d).toNat, s2 := 0 }) ∧
    ∀ w c h, decodeIn (s.allocOf s.cur) w = .error c → Delivers s (decodeInfo c).cls h →
      ∃ t, exec (.illegalOpcode w) s = .next t ∧ Entered s t (decodeInfo c) w h

/-- R107, R170, R183, R281, R284, R289, R296: what an operand, the call stack or the frame makes trap: a poisoned value that is consumed, a misaligned jump, a
full or empty call stack, a form that a gate frame forbids (a per-thread one where a thread acts), GRET outside a frame, TRET outside a handler and EMUR outside emulation. -/
def Obligations.OperandAndPrivilegeTraps : Prop :=
  ∀ (s : State) (e : Enc) (i : Instr), Ready s i e → Untraced s → State.recordAwaited (me s) = false →
    ((i ∈ [Instr.brz e, .brnz e, .loop e, .calli e, .jmpi e] ∧ (src s e.d).2 = true → Traps s i (.poisonOf [(1, true)])) ∧
    (i ∈ [Instr.ssetsr e, .barx e, .anch e] ∧ (src s e.a).2 = true → s.depthOf s.cur = 0 → Traps s i (.poisonOf [(2, true)])) ∧
    (i ∈ [Instr.calli e, .jmpi e] ∧ (src s e.d).2 = false ∧ (src s e.d).1.extractLsb' 0 2 ≠ 0 → Traps s i (.operandN 1)) ∧
    (i = .ssetsr e ∧ (src s e.a).2 = false ∧ opReg e.d = 0 ∧ ((src s e.a).1.extractLsb' 0 3 = 0 ∨ (src s e.a).1.extractLsb' 0 3 = 7) → Traps s i (.operandN 2)) ∧
    (i = .call e ∧ 64 ≤ (rg s).calls.length → Traps s i (.at_ .callStack 64)) ∧
    (i = .ret e ∧ (rg s).calls = [] → Traps s i (.at_ .callStack 0)) ∧
    ((i ∈ [Instr.bar e, .bara e, .barw e, .barx e, .waita e, .xswap e, .lnch e, .mloop e, .mrdy e, .mbatch e, .mwait e, .mzero e, .mlda e, .mrda e, .mwra e, .mfmt e] ∨
        (∃ f tr, i = .mldw f tr e) ∨ ∃ f, i = .msta f e) ∧ s.depthOf s.cur ≠ 0 ∧ (i ∈ [Instr.xswap e, .mrda e, .mwra e] → maskAt s i e ≠ 0) →
        Traps s i (.of .permission)) ∧
    (i = .gret e ∧ s.depthOf s.cur = 0 → Traps s i (.at_ .gateDenied 7)) ∧
    (i = .tret e ∧ (rg s).tf.inHandler = false → Traps s i (.of .permission)) ∧
    (i = .emur e ∧ (me s).arch.emu = none → Traps s i (.of .permission)))

/-- R285, R289, R342: TRET 0 returns to the trapping instruction and TRET 1 past it; any other gives up: it ends the context at gate depth 0, and in a frame
a synthesised return of cause 3 with the trap's class follows. -/
def Obligations.HandlerReturns : Prop :=
  ∀ (s : State) (e : Enc), let i := Instr.tret e
    Ready s i e → (rg s).tf.inHandler = true → State.recordAwaited (me s) = false →
    ((opImm e.d).toNat = 0 → ∃ t, exec i s = .next t ∧ Returned s t false ∧ Elsewhere s t ∧ t.teams = s.teams) ∧
    ((opImm e.d).toNat = 1 → ∃ t, exec i s = .next t ∧ Returned s t true ∧ Elsewhere s t ∧ t.teams = s.teams) ∧
    (2 ≤ (opImm e.d).toNat → (me s).arch.frames = [] → ∃ t, exec i s = .next t ∧ .terminated (me s).arch.ctx ∈ t.records ∧
      (t.cx (me s).arch.ctx).resident = false) ∧
    (2 ≤ (opImm e.d).toNat → (me s).arch.frames ≠ [] → ∃ t, exec i s = .next t ∧ (t.grp s.cur).synth = some { cause := 3, cls := (rg s).tf.cls } ∧
      (t.grp s.cur).arch = begunArch s i)

/-- R285, R287, R340, R342, R343: a trap for which the table names no handler is escalated with its own class, committing nothing; with a permit, which those of
lower slots get first (log 30), that ends the context at gate depth 0, its record going to the host, and in a frame a synthesised return of cause 2 with its
class follows. A trap inside a handler at gate depth 0 ends the context, whose groups stop. -/
def Obligations.UnhandledTraps : Prop :=
  (∀ (s : State) (g : Nat) (r : Replay), let x := s.grp g
    g < s.groups.length → x.st = .replay → x.replay = some r → r.fatal = true → r.permit = false → r.backoff = none → x.reaches = [] → s.resident x.team = true →
    (s.cor (s.coreOf g)).permits.length + (s.seekersBefore g).length < 4 →
    (x.arch.frames = [] → ∃ t, exec (.trapPermitAcquire g) s = .next t ∧ .trap g r.info ∈ t.records ∧ .terminated x.arch.ctx ∈ t.records ∧
      (t.cx x.arch.ctx).resident = false ∧ ∀ c, g ∉ (t.cor c).permits) ∧
    (x.arch.frames ≠ [] → ∃ t, exec (.trapPermitAcquire g) s = .next t ∧ (t.grp g).synth = some { cause := 2, cls := State.classCode r.cls } ∧
      (t.grp g).arch = x.arch ∧ ∀ c, g ∉ (t.cor c).permits)) ∧
  ∀ (s : State) (e : Enc), let i := Instr.trap e
    Ready s i e → Untraced s → NoDebug s → (me s).stepping = false → (me s).arch.emu = none → State.recordAwaited (me s) = false →
    ((rg s).tf.inHandler = false → s.trapEntry s.cur .trap = .none →
      ∃ t, exec i s = .next t ∧ (t.grp s.cur).st = .replay ∧ (t.grp s.cur).arch = (me s).arch ∧
        ((t.grp s.cur).replay.map fun r => (r.cls, r.fatal, r.permit)) = some (.trap, true, false) ∧ t.mem = s.mem) ∧
    ((rg s).tf.inHandler = true → (me s).arch.frames = [] → (s.tm (me s).team).st ≠ .finished → s.launchOf s.cur < s.launches.length →
      (s.lch (s.launchOf s.cur)).finished = false → (s.cx (s.homeCtx s.cur)).resident = true → s.homeCtx s.cur < s.ctxs.length →
      s.cur ∈ (s.teamOf s.cur).groups → (me s).team < s.teams.length →
      ∃ t, exec i s = .next t ∧ (t.grp s.cur).st = .done ∧ (t.cx (s.homeCtx s.cur)).resident = false ∧ (t.lch (s.launchOf s.cur)).finished = true ∧
        .terminated (s.homeCtx s.cur) ∈ t.records)

/-- R288, R290, R292 to R294, R337, R397: SIGCHK of the signature clears SIG; of another value it squashes the group's open reaches, where none of the device's is
due to clear, sets bit 1 of EFLAG and is reported, and at the same PC with no reach cleared since it ends the context or, with cause 5, the frame; LNCH hands its request to the distributor or completes from its return record; DBGM puts a word
for the mailbox into the pound; TRC changes no register; BRK after a halt at it is a no-op once. -/
def Obligations.SystemInstructions : Prop :=
  ∀ (s : State) (e : Enc),
    (let i := Instr.sigchk e
     Ready s i e → (rg s).sig = BitVec.ofNat 32 (joinedValue e) → Gives s i { begunArch s i with regs := { (begunArch s i).regs with sig := 0 } }) ∧
    (let i := Instr.sigchk e
     let pc := (me s).arch.pc
     Ready s i e → (rg s).sig ≠ BitVec.ofNat 32 (joinedValue e) → (s.prepare s.cur i e).clearSet = [] →
      ((me s).sigFail ≠ some pc → ∃ t r x, exec i s = .next t ∧ (me (s.prepare s.cur i e)).reaches.head? = some r ∧
        (t.grp s.cur).arch = { r.snap with regs := { r.snap.regs with eflag := r.snap.regs.eflag ||| 2 } } ∧ (t.grp s.cur).reaches = [] ∧
        (t.grp s.cur).sigFail = some pc ∧ .controlCheck s.cur pc x ∈ t.records) ∧
      ((me s).sigFail = some pc → (me s).arch.frames = [] → ∃ t x, exec i s = .next t ∧ .controlCheck s.cur pc x ∈ t.records ∧
        .terminated (me s).arch.ctx ∈ t.records ∧ (t.cx (me s).arch.ctx).resident = false) ∧
      ((me s).sigFail = some pc → (me s).arch.frames ≠ [] → ∃ t x, exec i s = .next t ∧ .controlCheck s.cur pc x ∈ t.records ∧
        (t.grp s.cur).synth = some { cause := 5, cls := 0 } ∧ (t.grp s.cur).arch = begunArch s i)) ∧
    (let i := Instr.lnch e
     Ready s i e → (me s).arch.frames = [] → (src s e.a).2 = false → launchRecord s s.cur (me s).arch.pc = none →
      s.drained s.cur s.nextSeq = true → s.releaseDone s.cur = true → s.poundUsed (s.coreOf s.cur) < 512 →
      ∃ t, exec i s = .next t ∧ (t.grp s.cur).arch = begunArch s i ∧ (t.grp s.cur).verdict = some ((src s e.a).1, (me s).arch.pc, opReg e.d) ∧
        Elsewhere s t ∧ t.teams = s.teams) ∧
    (let i := Instr.lnch e
     ∀ code, Ready s i e → (me s).arch.frames = [] → (src s e.a).2 = false → launchRecord s s.cur (me s).arch.pc = some code →
      ∃ t, exec i s = .next t ∧ (t.grp s.cur).arch = putS s i e.d (code.setWidth 64) false ∧ (t.grp s.cur).verdict = none ∧ Elsewhere s t ∧ t.teams = s.teams) ∧
    (let i := Instr.dbgm e
     Ready s i e → Spacious s 1 → (src s e.a).2 = false →
      ∃ t, exec (.dbgm e) s = .next t ∧ (t.grp s.cur).arch = begunArch s i ∧ (t.grp s.cur).cst = (me s).cst + 1 ∧ Elsewhere s t ∧ t.teams = s.teams ∧
        (t.poundOf s.cur).length ≤ (s.poundOf s.cur).length + 1 ∧
        ((∀ en ∈ s.poundOf s.cur, en.gid = s.cur → ∀ p ws, en.kind ≠ .mailbox p ws) → ∃ en, t.poundOf s.cur = s.poundOf s.cur ++ [en] ∧
          en.gid = s.cur ∧ en.cleared = false ∧ en.kind = .mailbox (s.partOf s.cur) [(opReg e.d, (src s e.a).1)])) ∧
    (Ready s (.trc e) e → Gives s (.trc e) (begunArch s (.trc e))) ∧
    (let i := Instr.brk e
     Ready s i e → (me s).brkPass = true → ∃ t, exec i s = .next t ∧ (t.grp s.cur).arch = begunArch s i ∧ (t.grp s.cur).brkPass = false ∧ Elsewhere s t ∧ t.teams = s.teams)

/-- R121, R296, R340, R343, R346, R347: a retired word sends its group to REPLAY with class retired, its executing reach ended and nothing committed, and inside an
emulation ends the emulated context. With a permit, which those of lower slots get first (log 30), VSWZ, SBAR, CPYL, MMA16 and MMAC16 enter emulation: the group's
registers are hidden, it executes in domain 0 at Thavin's handler with every register zero but x0, which grants the 4 KiB of its emulation frame, and the
frame records its PC, the word, LIVE, the effective mask and MODE; a uniform one under a guard is over at once. EMUR 0 gives the group its own registers back, commits what
the commit mask names of the frame's results, and goes past the word; EMUR 1 raises the trap that the frame names on the word. Where the handlers and the frames lie
is Thavin's (log 31). -/
def Obligations.RetiredWords : Prop :=
  ∀ (s : State),
    (∀ w i, i ∈ [Instr.vdot4 w, .vswz w, .sbar w, .cpyl w, .mma16 w, .mmac16 w] → s.cur < s.groups.length → s.canTake s.cur i (encOf w) = true →
      ((me s).arch.emu.isSome = true → ∃ t, exec i s = .next t ∧ .terminated (me s).arch.ctx ∈ t.records) ∧
      ((me s).arch.emu = none → ∃ t, exec i s = .next t ∧ (t.grp s.cur).st = .replay ∧ (t.grp s.cur).arch = (me s).arch ∧
        ((t.grp s.cur).replay.map fun r => (r.cls, r.word, r.permit)) = some (.retired, w, false) ∧
        (∀ r ∈ (t.grp s.cur).reaches.getLast?, r.ended.isSome = true) ∧ t.mem = s.mem ∧ t.teams = s.teams)) ∧
    (∀ e em, let i := Instr.emur e
      Ready s i e → (me s).arch.emu = some em → (me s).loads = [] → opImm e.d = 0 → emuField s s.cur 0x800 8 = 0 →
      ∃ t, exec i s = .next t ∧ (t.grp s.cur).arch.pc = em.pc + 12 ∧ (t.grp s.cur).arch.dom = em.dom ∧ (t.grp s.cur).arch.emu = none ∧
        (∀ k, (t.grp s.cur).arch.regs.sv k = em.saved.sv k ∧ (t.grp s.cur).arch.regs.spo k = em.saved.spo k) ∧
        (∀ r th, (t.grp s.cur).arch.regs.vt r th = em.saved.vt r th) ∧ (t.grp s.cur).arch.regs.mode = em.saved.mode ∧
        (t.grp s.cur).arch.regs.sig = sigFeed em.saved.sig (unitOf em.word) ∧ s.cur ∉ (t.cor (s.coreOf s.cur)).permits) ∧
    (∀ (g : Nat) (r : Replay), let x := s.grp g
      let w := r.word
      let k := emuKey s g
      g < s.groups.length → x.st = .replay → x.replay = some r → r.cls = .retired → r.fatal = false → r.permit = false → r.backoff = none → x.reaches = [] →
      s.resident x.team = true → s.emuReady g r = true → (s.cor (s.coreOf g)).permits.length + (s.seekersBefore g).length < 4 → s.mem.wf = true → opcOf w ≠ 0x170 →
      (uniformGuarded w = false → s.coreOf g < s.cores.length → ∃ t em x0, exec (.trapPermitAcquire g) s = .next t ∧ (t.grp g).st = .run ∧ g ∈ (t.cor (s.coreOf g)).permits ∧
        (t.grp g).arch.pc = handlerVa (opcOf w) ∧ (t.grp g).arch.dom = 0 ∧ (t.grp g).arch.ctx = x.arch.ctx ∧ (t.grp g).arch.frames = x.arch.frames ∧
        (t.grp g).arch.emu = some em ∧ em.saved = x.arch.regs ∧ em.pc = x.arch.pc ∧ em.dom = x.arch.dom ∧ em.word = w ∧
        (∀ n, (t.grp g).arch.regs.sv n = 0 ∧ (t.grp g).arch.regs.spo n = false) ∧ (∀ n th, (t.grp g).arch.regs.vt n th = 0 ∧ (t.grp g).arch.regs.vpt n th = false) ∧
        (∀ n, n < 15 → (t.grp g).arch.regs.pv n = 0) ∧ (t.grp g).arch.regs.x[0]? = some x0 ∧ x0.base = emulationBase (s.coreOf g) x.slot ∧ x0.limit = 4096 ∧
        x0.stale = false ∧ x0.frame = BitVec.ofNat 52 k ∧ x0.perm = some { r := true, w := true, x := false } ∧
        t.mem.readBytes k 8 = bytesLE 8 x.arch.pc.toNat ∧ t.mem.readBytes (k + 8) 12 = bytesLE 12 w.toNat ∧ t.mem.readBytes (k + 20) 4 = bytesLE 4 x.live.toNat ∧
        t.mem.readBytes (k + 24) 4 = bytesLE 4 (if opcOf w = 0x270 then effMask x (encOf w) else x.live).toNat ∧
        t.mem.readBytes (k + 28) 4 = bytesLE 4 x.arch.regs.mode.toNat) ∧
      (uniformGuarded w = true → ∃ t, exec (.trapPermitAcquire g) s = .next t ∧ (t.grp g).arch.emu = none)) ∧
    (∀ e em, let i := Instr.emur e
      let d := operandOf (opdOf em.word)
      let m := emuField s s.cur 0x800 8
      Ready s i e → (me s).arch.emu = some em → (me s).loads = [] → opImm e.d = 0 → emuBad (s.descOf s.cur) d m = false →
      (∀ s0 ∈ [s.prepare s.cur i e, (s.prepare s.cur i e).openHead s.cur], (s0.leaveEmulation s.cur em).regsRoom s.cur (emuRegs d m) = true) →
      ∃ t, exec i s = .next t ∧ (t.grp s.cur).arch.pc = em.pc + 12 ∧ (t.grp s.cur).arch.emu = none ∧
        (∀ n th, th < 32 → ((t.grp s.cur).arch.regs.vt n th, (t.grp s.cur).arch.regs.vpt n th) =
          if opReg d ≤ n ∧ n < opReg d + 4 ∧ m / 2 ^ (n - opReg d) % 2 = 1 ∧ (me s).live.getLsbD th = true then
            (BitVec.ofNat 32 (emuField s s.cur (0x900 + 128 * (n - opReg d) + 4 * th) 4), (emuField s s.cur (0x840 + 4 * (n - opReg d)) 4).testBit th)
          else (em.saved.vt n th, em.saved.vpt n th)) ∧
        (∀ n, ((t.grp s.cur).arch.regs.sv n, (t.grp s.cur).arch.regs.spo n) = if n = opReg d ∧ m / 16 % 2 = 1 then
          (BitVec.ofNat 64 (emuField s s.cur 0x808 8), (emuField s s.cur 0x840 4).testBit 0) else (em.saved.sv n, em.saved.spo n)) ∧
        (∀ n, n < 15 → (t.grp s.cur).arch.regs.pv n = if n = opReg d ∧ m / 32 % 2 = 1 then BitVec.ofNat 32 (emuField s s.cur 0x810 4) else em.saved.pv n) ∧
        (t.grp s.cur).arch.regs.mode = em.saved.mode ||| if m / 64 % 2 = 1 then BitVec.ofNat 32 (emuField s s.cur 0x814 4) &&& 0x1F00 else 0) ∧
    (∀ e em h, let i := Instr.emur e
      let c := State.classOfCode (emuField s s.cur 0x818 2)
      Ready s i e → (me s).arch.emu = some em → (me s).loads = [] → opImm e.d ≠ 0 → NoDebug s → em.saved.tf.inHandler = false →
      (s.leaveEmulation s.cur em).trapEntry s.cur c = .handler h →
      ∃ t, exec i s = .next t ∧ (t.grp s.cur).arch.pc = h ∧ (t.grp s.cur).arch.emu = none ∧ (t.grp s.cur).arch.dom = em.dom ∧
        (t.grp s.cur).arch.regs.sv 0 = BitVec.ofNat 64 (State.classCode c + emuField s s.cur 0x81A 1 % 4 * 2 ^ 16 + s.depthOf s.cur % 16 * 2 ^ 24) ∧
        (t.grp s.cur).arch.regs.sv 1 = em.pc ∧ (t.grp s.cur).arch.regs.sv 2 = BitVec.ofNat 64 (emuField s s.cur 0x820 8) ∧
        (t.grp s.cur).arch.regs.tf.pc = em.pc ∧ (t.grp s.cur).arch.regs.sig = 0)

/-- R67, R343, R346, R347, R356: VDOT4 whose group, its loads returned and a line free for the result, gets a permit, which those of lower slots get first (log 30), runs its handler, as one step (log 31): each thread of its mask adds the sum of its four signed byte products to vd, and the group
goes past the word. -/
def Obligations.RetiredDotProduct : Prop :=
  ∀ (s : State) (g : Nat) (r : Replay), let x := s.grp g
    let w := r.word
    let d := operandOf (opdOf w)
    let m := effMask x (encOf w)
    let arg := fun (o : BitVec 22) (t : Nat) => (read32 x.arch.regs .i32 (operandOf o) t)
    g < s.groups.length → x.st = .replay → x.replay = some r → r.cls = .retired → r.fatal = false → r.permit = false → r.backoff = none → x.reaches = [] →
    (s.cor (s.coreOf g)).permits.length + (s.seekersBefore g).length < 4 → opcOf w = 0x170 → vdotBad (s.descOf g) w = none → (∀ n, s.writeBlocked n = false) →
    (∀ en ∈ s.poundOf g, en.gid ≠ g) → s.resident x.team = true → s.emuReady g r = true → x.stepping = false → (∀ h ∈ (s.tm x.team).groups, (s.grp h).wbsets = []) →
    s.mem.wf = true → s.clusters.length = 48 → s.coreOf g < 384 →
    ∃ t, exec (.trapPermitAcquire g) s = .next t ∧ (t.grp g).st = .run ∧ (t.grp g).arch.pc = x.arch.pc + 12 ∧ (t.grp g).arch.emu = none ∧
      (∀ th, th < 32 → (t.grp g).arch.regs.vt (opReg d) th = if m.getLsbD th = true then
          BitVec.ofInt 32 ((arg (opdOf w) th).1.toInt + (((List.range 4).map fun k =>
            ((arg (opaOf w) th).1.extractLsb' (8 * k) 8).toInt * ((arg (opbOf w) th).1.extractLsb' (8 * k) 8).toInt)).sum)
        else x.arch.regs.vt (opReg d) th) ∧
      (∀ n th, n ≠ opReg d → (t.grp g).arch.regs.vt n th = x.arch.regs.vt n th) ∧ (∀ k, (t.grp g).arch.regs.sv k = x.arch.regs.sv k)

/-! ### Decoding, the step, reset and the device's invariant -/

/-- R105 to R115, R119, R121: decoding and encoding are inverse, with every operand and every hint: a well-formed instruction's word decodes to it, and a
word that decodes is the word of what it decodes to. -/
def Obligations.DecodeEncodeInverse : Prop :=
  (∀ (al : Alloc) (i : Instr) (e : Enc), enc? i = some e → wellFormedIn al i = true →
    ∃ w, encode i = some w ∧ decodeIn al w = .ok i) ∧
  ∀ (al : Alloc) (w : IWord) (i : Instr), decodeIn al w = .ok i → encode i = some w ∧ wellFormedIn al i = true

/-- R105, R119: words written out from their three 32-bit parts decode to the instructions that they stand for. -/
def Obligations.DecodeWords : Prop :=
  let v := fun (r : Nat) => Operand.vec (BitVec.ofNat 8 r) .none false false
  let o := fun (c x : Nat) => Operand.obj (BitVec.ofNat 4 c) (BitVec.ofNat 16 x)
  let e := fun (d a b : Operand) => ({ gn := false, gp := 15, rnd := 0, hint := 0, d := d, a := a, b := b } : Enc)
  decode (0x601E0000#32 ++ 0x06000010#32 ++ 0x00005000#32) = .ok (.vfadd .f32 (e (v 6) (v 4) (v 5))) ∧
  decode (0xA11E0000#32 ++ 0x04000C40#32 ++ 0x00805000#32) = .ok (.ldv .b32 (e (v 4) (o 1 2) (v 5))) ∧
  decode (0xA25E0003#32 ++ 0x1000100C#32 ++ 0x00006000#32) = .ok (.stv .b32 (e (o 1 1) (v 3) (v 6))) ∧
  decode (0xC3DE0003#32 ++ 0x40002CC0#32 ++ 0x00114000#32) = .ok (.mloop (e (o 4 2) (o 3 0) (.scal 10))) ∧
  decode (0xE01E0003#32 ++ 0x60007000#32 ++ 0x00000000#32) = .ok (.gcall (e (o 6 7) .zero .zero)) ∧
  decode (0x5C1E0000#32 ++ 0x06000008#32 ++ 0x00003000#32) = .ok (.vdot4 0x5C1E00000600000800003000)

namespace Sys2Proof.Claim

/-- What a step answers when a scheduler's candidate has been given something: where that left the group as it was, the scheduler's other candidates are
tried next (R46, R399). -/
def thenNext (s : State) (g : Nat) (alts : List Nat) (o : Host.Outcome State Fault Refusal) : Host.Outcome State Fault Refusal :=
  match o with
  | .next t => if alts ≠ [] ∧ t.grp g = s.grp g then .next { t with selected := alts :: t.selected } else .next t
  | x => x

end Sys2Proof.Claim

/-- R45, R46, R106: a step gives the chosen group the instruction that the twelve bytes at its PC decode to, or the step that a word without meaning raises
(the cluster's cache notes who uses their sectors, R145); a sensor event of the same cycle on the group's core comes first (R337); otherwise the next of the device's other steps comes about after its time, on what the errors that it meets leave (log 54), or one reference nanosecond passes. The order of steps is the model's (log 1). -/
def Obligations.StepRunsDecoded : Prop :=
  ∀ (s : State),
    (∀ g alts rest k pg s1, s.selected = (g :: alts) :: rest → let s0 : State := { s with selected := rest, cur := g }
      let pc := (s.grp g).arch.pc
      let c := s.coreOf g
      let a := s.asid g pc
      struckNow s g = false → s0.canRun g = true → s0.fetchReady g = true → s0.ibpHit g pc = false → s0.translate c (s0.asid g pc) Need.fetch pc = (.ok k pg, s1) → pc.toNat + 12 ≤ pg.va + pg.size →
      (s1.cor c).held = [] →
      let w := wordOfBytes ((List.range 12).map fun n => s1.codeByte c (k + n))
      let used := (distinct ((List.range 12).map fun n => sectorOf (k + n))).foldl (fun (s : State) sec => s.shareSector (c / 8) a sec) s1
      let s2 := used.modC c fun x => { x with held := [{ ctx := a, va := pc.toNat, word := w.extractLsb' 0 32, before := none },
        { ctx := a, va := pc.toNat + 4, word := w.extractLsb' 32 32, before := none }, { ctx := a, va := pc.toNat + 8, word := w.extractLsb' 64 32, before := none }] }
      (∀ i, decodeIn (s.allocOf g) w = .ok i → step s = thenNext s0 g alts (exec i s2)) ∧
      (∀ x, decodeIn (s.allocOf g) w = .error x → step s = thenNext s0 g alts (exec (.illegalOpcode w) s2))) ∧
    (∀ g alts rest st as, s.selected = (g :: alts) :: rest → s.agenda = st :: as → struckNow s g = true →
      step s = exec st.ev ((State.tick { s with agenda := as, ecc := st.ecc } st.dt).meet st.ev)) ∧
    (∀ st rest, s.selected = [] → s.agenda = st :: rest → step s = exec st.ev ((State.tick { s with agenda := rest, ecc := st.ecc } st.dt).meet st.ev)) ∧
    (∀ i, s.ecc = .none → s.meet i = s) ∧
    (s.selected = [] → s.agenda = [] → ∃ t, step s = .next t ∧ t.clk = s.clk + 1 ∧ t.groups = s.groups ∧ t.cores = s.cores ∧ t.teams = s.teams ∧ t.mem = s.mem)

namespace Sys2Proof.Claim

/-- PCAP as the device may hold it: CAP in 800 to 2,000, BOOSTEN in bit 24, every other bit 0 (R359). -/
def CapOk (v : W32) : Prop := ∃ cap b, 800 ≤ cap ∧ cap ≤ 2000 ∧ b < 2 ∧ v.toNat = cap + b * 2 ^ 24

/-- What every step keeps: memory and each stash in canonical form, those of saved checkpoints too; the power cap and each partition's window within
their limits (R318, R359). -/
structure Sound (s : State) : Prop where
  mem : s.mem.wf = true
  stash : ∀ t ∈ s.teams, t.stash.wf = true
  saved : ∀ c ∈ s.ckpts, ∀ k ∈ c.slots.toList, ∀ x, k = some x → ∀ t ∈ x.teams, t.stash.wf = true
  cap : CapOk s.power.pcap
  asked : ∀ v, s.power.pcapReq = some v → CapOk v
  windows : ∀ p ∈ s.parts, 96 ≤ p.qwin.toNat ∧ p.qwin.toNat ≤ 1024

/-- Threads outside LIVE hold +0.0 and no poison in every vector register of a block (R212). -/
def DeadRegs (live : W32) (r : Regs) : Prop := ∀ n th, th < 32 → live.getLsbD th = false → r.vt n th = 0 ∧ r.vpt n th = false

/-- The same in the registers of every gate depth, and in those that an emulation hides. -/
def DeadArch (live : W32) (a : Arch) : Prop :=
  DeadRegs live a.regs ∧ (∀ f ∈ a.frames, DeadRegs live f.saved) ∧ ∀ e, a.emu = some e → DeadRegs live e.saved

/-- Threads that are all in LIVE. -/
def LiveThreads (live : W32) (ts : List Nat) : Prop := ∀ th ∈ ts, th < 32 ∧ live.getLsbD th = true

/-- The same in a group's registers and in the heads that a squash restores, and what is on its way to them is for threads in LIVE. -/
structure DeadGroup (x : Machine.Group) : Prop where
  arch : DeadArch x.live x.arch
  heads : ∀ r ∈ x.reaches, DeadArch x.live r.snap
  loads : ∀ l ∈ x.loads, LiveThreads x.live (l.vals.map (·.1))
  atom : ∀ a, x.atom = some a → LiveThreads x.live (a.reqs.map (·.thread))

/-- R212 of a state: every group, the values in return records and in sends, and the groups that a checkpoint saved, which are groups of this device with the
same LIVE. -/
structure DeadThreads (s : State) : Prop where
  groups : ∀ x ∈ s.groups, DeadGroup x
  returned : ∀ k ∈ s.cores, ∀ e ∈ k.pound, ∀ pc vals fl, e.kind = .retAtom pc vals fl → LiveThreads (s.grp e.gid).live (vals.map (·.1))
  sends : ∀ x ∈ s.sends, ∀ th, th < 32 → x.mask.getLsbD th = true → (s.grp x.gid).live.getLsbD th = true
  members : ∀ t ∈ s.teams, ∀ g ∈ t.groups, g < s.groups.length
  saved : ∀ c ∈ s.ckpts, ∀ k ∈ c.slots.toList, ∀ x, k = some x → (∀ t ∈ x.teams, ∀ g ∈ t.groups, g < s.groups.length) ∧
    ∀ y ∈ x.groupIds.zip x.groups, y.1 < s.groups.length ∧ y.2.live = (s.grp y.1).live ∧ DeadGroup y.2

end Sys2Proof.Claim

/-- R318, R359, and the model's form of a memory: every step of every state keeps `Sound`. -/
def Obligations.StepKeepsSound : Prop := ∀ s t, Sound s → step s = .next t → Sound t

/-- R212: every step of every state keeps the threads outside LIVE at +0.0 with no poison, in every vector register of every group. -/
def Obligations.StepKeepsDeadThreads : Prop := ∀ s t, DeadThreads s → step s = .next t → DeadThreads t

/-- R63, R212, R359, R361, R366, R373: at device reset CLK is 0, PCAP is 1,800 W with BOOSTEN 0, CAD is 0 in every core, the energy counters are 0, and no firmware
runs; the state is `Sound`, and no thread outside LIVE holds anything. Empty tables and memory that reads 0 are the model's own values (log 3, log 4). -/
def Obligations.ResetStateAndSound : Prop :=
  let s := State.reset
  Sound s ∧ DeadThreads s ∧
    s.clk = 0 ∧ s.power.pcap.toNat % 4096 = 1800 ∧ s.power.pcap.getLsbD 24 = false ∧ (∀ c, c < 384 → (s.cor c).cad = 0 ∧ (s.cor c).free = 0) ∧
    s.ownerEnergy.total = Energy.zero ∧ s.fw = .off ∧ s.groups = [] ∧ s.selected = [] ∧ (∀ k, s.mem.read k = 0) ∧
    ∀ c, c < 384 → (s.cor c).pound = [] ∧ (s.cor c).permits = [] ∧ (s.cor c).accFree = 24

/-! ### The device's other steps -/

namespace Sys2Proof.Claim

/-- A group is in RUN and waits for nothing. -/
def Runs (t : State) (g : Nat) : Prop := (t.grp g).st = .run ∧ (t.grp g).wait = none

/-- Registers and PC of every group, and what memory holds, are as before; what the model records as happening before a group's next instruction, and
as read by it, may have grown (log 52). -/
structure StillBut (s t : State) : Prop where
  arch : ∀ g, { (t.grp g).arch with hb := (s.grp g).arch.hb, seen := (s.grp g).arch.seen } = (s.grp g).arch
  size : t.groups.length = s.groups.length
  mem : t.mem = s.mem

end Sys2Proof.Claim

/-- R20, R45 to R49, R185, R357 to R368, R370: a front-end cycle lines up each scheduler's groups by R46; reservation, promotion, delivery of a lane cycle's tokens, once
(reservations first, 256 at most), the engines' claims, the control interval, a clock-ratio change, an energy snapshot and the end of a YIELD. -/
def Obligations.IssueAndPowerSteps : Prop :=
  ∀ (s : State),
    (∀ core, core < s.cores.length → let s0 := s.cycleStart core
      ∃ t new, exec (.issueSelect core) s = .next t ∧ t.selected = s.selected ++ new ∧ Still s t ∧ (t.cor core).fe = (s.cor core).fe + 1 ∧
        (t.cor core).free = (s0.cor core).free ∧
        (∀ cs ∈ new, ∃ g gs, cs = g :: gs ∧ ∀ h ∈ gs, State.Rank.before (s0.rank h) (s0.rank g) = false) ∧
        (∀ g, (∃ cs ∈ new, g ∈ cs) ↔ g ∈ s.groupsOn core ∧ (s0.wants g).isSome = true ∧ (s.grp g).slot < 64) ∧
        ∀ g e i s1, s.groupsOn core = [g] → s.atBoundary g = true → nextInstr s g = (i, s1) → i = .nop e → hintRh e = true → s1.ibpHit g (s.grp g).arch.pc = false →
          s.fetchReady g = true →
          (s.grp g).reaches.length < 2 → s0.freshHead g = true) ∧
    (∀ g toll, s.wants g = some toll → 512 ≤ (s.grp g).denied → (∀ r ∈ (s.cor (s.coreOf g)).resv, r.gid ≠ g) → s.coreOf g < s.cores.length →
      ∃ t, exec (.tokenReservation g) s = .next t ∧ t.groups = s.groups ∧ t.teams = s.teams ∧ t.mem = s.mem ∧
        (t.cor (s.coreOf g)).resv = (s.cor (s.coreOf g)).resv ++ [{ gid := g, toll := toll, heldTok := 0 }]) ∧
    (∀ g, g < s.groups.length → (s.grp g).st = .run → 2048 ≤ (s.grp g).readyFor →
      ∃ t, exec (.issuePromotion g) s = .next t ∧ (t.grp g).promoted = true ∧ Still s t ∧ t.cores = s.cores) ∧
    (∀ core, (s.cor core).lc < (s.cor core).fed → exec (.towpathDelivery core) s = .next s) ∧
    (∀ core, core < s.cores.length → (s.cor core).fed ≤ (s.cor core).lc → s.groupsOn core ≠ [] → (s.cor core).free + heldTokens (s.cor core) ≤ 256 →
      ∃ t, exec (.towpathDelivery core) s = .next t ∧ t.groups = s.groups ∧ t.teams = s.teams ∧ t.mem = s.mem ∧
        (t.cor core).fed = (s.cor core).lc + 1 ∧ (t.cor core).lc = (s.cor core).lc ∧
        (s.cor core).free + heldTokens (s.cor core) ≤ (t.cor core).free + heldTokens (t.cor core) ∧
        (t.cor core).free + heldTokens (t.cor core) ≤ min 256 ((s.cor core).free + heldTokens (s.cor core) + 32) ∧
        (t.cor core).resv.map (·.gid) = (s.cor core).resv.map (·.gid) ∧ (∀ r ∈ (t.cor core).resv, r.toll = s.nextToll r.gid) ∧
        ((s.cor core).free < (t.cor core).free → ∀ r ∈ (t.cor core).resv, r.toll ≤ r.heldTok)) ∧
    (∀ core, core < s.cores.length → (s.cor core).lc < (s.cor core).fed → (s.cor core).ops = [] → (s.cor core).copies = [] →
      ∃ t, exec (.tokenClaim core) s = .next t ∧ (t.cor core).lc = (s.cor core).lc + 1 ∧ (t.cor core).free ≤ (s.cor core).free ∧
        (t.cor core).free + (t.cor core).ballast = (s.cor core).free + (s.cor core).ballast ∧ t.groups = s.groups ∧ t.mem = s.mem) ∧
    (∀ core c, core < s.cores.length → (s.cor core).lc < (s.cor core).fed → (s.cor core).ops = [] → (s.cor core).copies = [c] → 0 < c.tokens → 0 < (s.cor core).free →
      (s.clu (core / 8)).changing = false →
      ∃ t, exec (.tokenClaim core) s = .next t ∧ (t.cor core).copies = [{ c with tokens := c.tokens - 1 }] ∧ (t.cor core).free < (s.cor core).free ∧
        t.groups = s.groups ∧ t.mem = s.mem) ∧
    (∀ r, (s.power.interval + 1) * 10000 ≤ s.clk →
      ∃ t, exec (.powerInterval r) s = .next t ∧ t.groups = s.groups ∧ t.teams = s.teams ∧ t.mem = s.mem ∧
        t.power.pcap = s.power.pcapReq.getD s.power.pcap ∧ t.power.pcapReq = none ∧ t.power.interval = s.clk / 10000 ∧
        0 < t.power.rateDen ∧ 2 * t.power.rateDen ≤ t.power.rateNum ∧
        ∀ c, c < s.cores.length → (∀ q ∈ r.cadReqs, q.toNat ≤ (t.cor c).cad.toNat) ∧ (r.cadReqs = [] → (t.cor c).cad = 0) ∧
          (t.cor c).spent = [] ∧ (t.cor c).ballast = 0 ∧ (t.cor c).free = (s.cor c).free ∧
          ((s.clu (c / 8)).ratioReq.isSome = true → (t.cor c).paused = true)) ∧
    (∀ cl q, cl < s.clusters.length → (s.clu cl).target = some q →
      (∀ c, c < s.cores.length → c / 8 = cl → ∀ f ∈ (s.cor c).laneFree.toList, f ≤ (s.cor c).fe) →
      ∃ t, exec (.ratioChange cl) s = .next t ∧ (t.clu cl).ratio = q ∧ (t.clu cl).ratioReq = (s.clu cl).ratioReq ∧ (t.clu cl).target = none ∧
        (t.clu cl).cache = (s.clu cl).cache ∧ t.groups = s.groups ∧ t.mem = s.mem ∧
        ∀ c, c < s.cores.length → (t.cor c).paused = if c / 8 = cl then false else (s.cor c).paused) ∧
    (∀ p, let a := (s.prt p).energy
      p < s.parts.length → p ≠ 0xFF → (s.prt p).closed = false → a.start % 1000000000 = 0 → a.start / 1000000000 < s.clk / 1000000000 →
      ∃ t bytes, exec (.energySnapshot p) s = .next t ∧ t.records = s.records ++ [.snapshot p bytes (Config.signature bytes).toList] ∧
        leNat (bytes.take 4) = 0x5A454E31 ∧ leNat ((bytes.drop 8).take 8) = a.seq % 2 ^ 64 ∧
        (t.prt p).energy = { a with mark := a.total, start := s.clk / 1000000000 * 1000000000, seq := a.seq + 1 } ∧
        (p < 8 → (t.power.emitted[p]?).getD none = some (max a.seq (((s.power.emitted[p]?).getD none).getD 0))) ∧
        t.groups = s.groups ∧ t.mem = s.mem) ∧
    ∀ g, g < s.groups.length → (s.grp g).yieldUntil ≤ (s.cor (s.coreOf g)).fe →
      ∃ t, exec (.yieldExpiry g) s = .next t ∧ (t.grp g).yieldUntil = 0 ∧ Still s t ∧ t.cores = s.cores

/-- R42, R45, R51, R52, R106, R206 to R208, R232, R236, R285, R292, R295, R343, R344, R354: what ends a group's wait or its service: a sleep, a condition met,
a re-examination, a completed pair, a phase, a launch verdict, a fetch fault, a synthesised return, a trap permit, which groups of lower slots that seek one too get first (log 30), and its back-off; and the start of a swap. -/
def Obligations.WaitAndServiceSteps : Prop :=
  ∀ (s : State),
    (∀ g w u, g < s.groups.length → (s.grp g).st = .wait → (s.grp g).wait = some w → w.what = .sleep u → w.monitor = true → u ≤ s.clk → (s.grp g).stepping = false →
      ∃ t, exec (.sleepExpiry g) s = .next t ∧ Runs t g ∧ Still s t) ∧
    (∀ g w, g < s.groups.length → (s.grp g).st = .wait → (s.grp g).wait = some w → w.monitor = true → waitMet s g w.what = true → (s.grp g).stepping = false →
      ∃ t, exec (.waitConditionMet g) s = .next t ∧ Runs t g ∧ StillBut s t) ∧
    (∀ g w, (s.grp g).wait = some w → waitMet s g w.what = false → exec (.waitConditionMet g) s = .next s) ∧
    (∀ core g w c lim, s.recheckDue core = true → core < s.cores.length → g ∈ s.groupsOn core → (s.grp g).st = .wait → (s.grp g).wait = some w → w.monitor = false → w.what = .counter c lim →
      (match c with | 0 => (s.grp g).cld | 1 => (s.grp g).cst | 2 => (s.grp g).ccpy | _ => (s.grp g).ctile) ≤ lim → (s.grp g).stepping = false →
      ∃ t, exec (.waitRecheck core) s = .next t ∧ Runs t g ∧ StillBut s t ∧ (t.cor core).recheckAt = (s.cor core).fe + 256) ∧
    (∀ core, s.recheckDue core = false → exec (.waitRecheck core) s = .next s) ∧
    (∀ g h a b p q, let found := fun (x : Nat) => (s.grp x).wait.map fun w => (w.what, w.monitor || s.recheckDue (s.coreOf x))
      g < s.groups.length → h < s.groups.length → g ≠ h → s.sends.find? (fun x => x.gid == g) = some a →
      s.sends.find? (fun x => x.gid == h) = some b → a.partner = partnerWord s h → b.partner = partnerWord s g → s.launchOf g = s.launchOf h →
      (s.grp g).st = .wait → (s.grp h).st = .wait → found g = some (.xswap p, true) → found h = some (.xswap q, true) →
      s.resident (s.grp g).team = true → s.resident (s.grp h).team = true → (s.grp g).stepping = false → (s.grp h).stepping = false → a.reg < 256 → b.reg < 256 →
      s.regsRoom g [a.reg] = true → (s.receive a b).regsRoom h [b.reg] = true →
      ∃ t, exec (.xswapReceive g h) s = .next t ∧ Runs t g ∧ Runs t h ∧ t.mem = s.mem ∧
        (t.grp g).arch.pc = (s.grp g).arch.pc + 12 ∧ (t.grp h).arch.pc = (s.grp h).arch.pc + 12 ∧
        (∀ th, th < 32 → let m := (a.mask &&& b.mask).getLsbD th
          (t.grp g).arch.regs.vt a.reg th = (if m then b.v[th]?.getD 0 else (s.grp g).arch.regs.vt a.reg th) ∧
          (t.grp h).arch.regs.vt b.reg th = (if m then a.v[th]?.getD 0 else (s.grp h).arch.regs.vt b.reg th)) ∧
        (∀ n th, n ≠ a.reg → (t.grp g).arch.regs.vt n th = (s.grp g).arch.regs.vt n th) ∧
        (∀ n th, n ≠ b.reg → (t.grp h).arch.regs.vt n th = (s.grp h).arch.regs.vt n th) ∧
        (∀ k, k ≠ g → k ≠ h → (t.grp k).arch = (s.grp k).arch)) ∧
    (∀ m n, n < 8 → m < s.teams.length → barrierDone s m n = true →
      ∃ t, exec (.barrierComplete m n) s = .next t ∧ (t.bar m n).phase = (s.bar m n).phase + 1 ∧ (t.bar m n).arrived = 0 ∧ (t.bar m n).expected = 0 ∧
        (t.bar m n).bytes = (s.bar m n).bytes - (s.bar m n).expected ∧ (t.bar m n).pend = (s.bar m n).pend ∧ (t.tm m).stash = (s.tm m).stash ∧
        (∀ k, k ≠ n → t.bar m k = s.bar m k) ∧ t.groups = s.groups ∧ t.mem = s.mem) ∧
    (∀ g addr pc sd, g < s.groups.length → sd < 128 → (s.grp g).verdict = some (addr, pc, sd) → let a := (s.grp g).arch.ctx
      (∀ d, s.readDesc a addr = some (.ok d) → (s.launches.filter fun l => l.part == s.partOf g && !l.finished && match l.src with
          | .lnch _ => true
          | .queue _ => false).length < 1024 →
        ∃ t l, exec (.launchVerdict g) s = .next t ∧ t.launches = s.launches ++ [l] ∧ l.ctx = a ∧ l.desc = d ∧ l.addr = addr ∧ l.next = 0 ∧
          l.prio = min d.prio (s.lch (s.launchOf g)).prio ∧ (t.grp g).verdict = none ∧ (t.grp g).arch.regs.sv sd = 0 ∧ (t.grp g).arch.regs.spo sd = false ∧
          (∀ k, k ≠ sd → (t.grp g).arch.regs.sv k = (s.grp g).arch.regs.sv k) ∧ (t.grp g).arch.pc = (s.grp g).arch.pc ∧ t.mem = s.mem) ∧
      (∀ c, s.readDesc a addr = some (.error c) →
        ∃ t, exec (.launchVerdict g) s = .next t ∧ t.launches = s.launches ∧ (t.grp g).verdict = none ∧ (t.grp g).arch.regs.sv sd = c.setWidth 64 ∧
          (∀ k, k ≠ sd → (t.grp g).arch.regs.sv k = (s.grp g).arch.regs.sv k) ∧ (t.grp g).arch.pc = (s.grp g).arch.pc ∧ t.mem = s.mem)) ∧
    (∀ va s1, s.cur < s.groups.length → s.fetch s.cur = (.error (true, va), s1) →
      ∃ t, exec .fetchFault s = .next t ∧ (t.grp s.cur).st = .replay ∧ Still s t ∧
        (t.grp s.cur).replay.map (fun r => (r.cls, r.va, r.fetch, r.fatal)) = some (.pageFault, va, true, false)) ∧
    (∀ va s1 h, s.cur < s.groups.length → s.fetch s.cur = (.error (false, va), s1) → Delivers s1 .permission h →
      ∃ t, exec .fetchFault s = .next t ∧ Entered s1 t (.at_ .permission va) 0 h) ∧
    (∀ g y f fs, g < s.groups.length → (s.grp g).synth = some y → (s.grp g).arch.frames = f :: fs → (s.grp g).reaches = [] → (s.grp g).st ≠ .halt → frameDrained s g = true →
      s.regsRoom g (backRegs s g) = true → ∃ t, exec (.synthesisedGret g) s = .next t ∧ (t.grp g).arch.frames = fs ∧ (t.grp g).arch.pc = f.retPc ∧ (t.grp g).arch.dom = f.dom ∧
        (t.grp g).arch.ctx = f.ctx ∧ (t.grp g).arch.regs.eflag = f.saved.eflag ||| 1 ∧ (t.grp g).arch.regs.pv 14 = 0 ∧
        (t.grp g).arch.regs.mode = f.saved.mode ∧ (t.grp g).arch.regs.sig = f.saved.sig ∧
        (t.grp g).arch.regs.sv 0 = BitVec.ofNat 64 (f.gate % 256 * 2 ^ 32 + (fs.length + 1) % 16 * 2 ^ 24 +
          (if y.cause = 2 ∨ y.cause = 3 ∨ y.cause = 4 ∨ y.cause = 7 then y.cls % 2 ^ 16 * 2 ^ 8 else 0) + y.cause % 256) ∧
        (∀ k, 0 < k → k < 128 → (t.grp g).arch.regs.sv k =
          if k < f.entry.nsres.toNat ∨ k < f.entry.nspass.toNat then 0 else f.saved.sv k) ∧
        .synth g f.gate (fs.length + 1) y.cause ∈ t.records ∧ t.mem = s.mem ∧ ∀ h, h ≠ g → (t.grp h).arch = (s.grp h).arch) ∧
    (∀ g r, g < s.groups.length → s.coreOf g < s.cores.length → (s.grp g).st = .replay → (s.grp g).replay = some r → (s.grp g).reaches = [] →
      r.permit = false → r.backoff = none → s.resident (s.grp g).team = true → s.emuReady g r = true → g ∉ (s.cor (s.coreOf g)).permits → let k := s.cor (s.coreOf g)
      (k.permits.length + (s.seekersBefore g).length < 4 → r.cls = .pageFault → r.fatal = false →
        ∃ t, exec (.trapPermitAcquire g) s = .next t ∧ (t.cor (s.coreOf g)).permits = k.permits ++ [g] ∧ (t.grp g).replay.map (·.permit) = some true ∧
          (t.grp g).refused = 0 ∧ (t.grp g).st = .replay ∧ t.records = s.records ++ [.pageFault g r.va r.entry] ∧ Still s t) ∧
      (4 ≤ k.permits.length + (s.seekersBefore g).length →
        ∃ t, exec (.trapPermitAcquire g) s = .next t ∧ t.cores = s.cores ∧ (t.grp g).refused = (s.grp g).refused + 1 ∧
          (t.grp g).replay.map (·.backoff) = some (some (k.fe + 64 * 2 ^ min (s.grp g).refused 8)) ∧ Still s t)) ∧
    (∀ g r u, g < s.groups.length → (s.grp g).st = .replay → (s.grp g).replay = some r → r.backoff = some u → u ≤ (s.cor (s.coreOf g)).fe →
      ∃ t, exec (.permitBackoffExpiry g) s = .next t ∧ (t.grp g).st = .run ∧ (t.grp g).replay = none ∧ Still s t) ∧
    ∀ g w, (s.grp g).team < s.teams.length → (s.grp g).st = .wait → (s.grp g).wait = some w → (s.teamOf g).st = .resident →
      w.since + (if (s.descOf g).waitLimit = 0 then 16 else (s.descOf g).waitLimit) * 1000 < s.clk →
      (∀ h ∈ (s.teamOf g).groups, (s.grp h).st = .replay ∨ (s.grp h).st = .done ∨
        (s.grp h).st = .wait ∧ ∃ x, (s.grp h).wait = some x ∧ x.monitor = true) → s.wouldFit (s.partOf g) (s.grp g).team = true →
      ∃ t, exec (.longWaitCheck g) s = .next t ∧ (t.tm (s.grp g).team).st = .leavingSwap ∧ Still s t

namespace Sys2Proof.Claim

/-- No cluster cache holds anything. -/
def Uncached (s : State) : Prop := ∀ c ∈ s.clusters, c.cache = []

/-- Bytes of memory are as before but for n bytes at an address, which hold a value, least significant byte first (R6). -/
def Wrote (s t : State) (a n : Nat) (v : Nat) : Prop :=
  (∀ k, k < n → t.mem.read (a + k) = BitVec.ofNat 8 (v / 2 ^ (8 * k))) ∧ ∀ k, k < a ∨ a + n ≤ k → t.mem.read k = s.mem.read k

/-- Memory takes the dirty bytes of a held sector from the stash, and no other byte changes (R141). -/
def PutBack (s t : State) (m : Nat) (h : Held) : Prop :=
  (∀ i, i < 128 → t.mem.read (h.key + i) = if h.dirty.getLsbD i then (s.tm m).stash.read (h.off + i) else s.mem.read (h.key + i)) ∧
    ∀ k, k < h.key ∨ h.key + 128 ≤ k → t.mem.read k = s.mem.read k

/-- A group of a team is not DONE: the team goes on (R40, R186). -/
def GoesOn (s : State) (m : Nat) : Prop := ∃ h ∈ (s.tm m).groups, (s.grp h).st ≠ .done

/-- The current line of a register of a gate depth of a group. -/
def lineAt (s : State) (g depth reg : Nat) : Option Line :=
  s.lines.find? fun l => l.gid == g && l.depth == depth && l.reg == reg && l.pre.isNone

/-- The image of a gate depth of a group holds a register as the group has it there, and the register's line lies in the image, clean (R70, R72). -/
def InImage (s t : State) (g depth reg : Nat) (l : Line) : Prop :=
  t.lines = (s.lines.map fun x => if x.same l then { x with at_ := .image, dirty := false } else x) ∧
    ∃ b, (t.img g).blocks[depth]? = some b ∧ ∀ th, b.regs.vt reg th = (depthRegs (s.grp g).arch depth).1.vt reg th ∧
      b.regs.vpt reg th = (depthRegs (s.grp g).arch depth).1.vpt reg th

/-- Registers and PC of every group are as before. -/
def SameRegs (s t : State) : Prop := ∀ g, (t.grp g).arch = (s.grp g).arch

end Sys2Proof.Claim

/-- R57, R65, R70, R141 to R145, R154 to R156, R179, R183, R215, R222, R223, R229, R236, R253, R322 to R330: loads and returning atomics come back, a codeword of HBM that
cannot be corrected poisoning what it feeds (R333, R334), a stash word in error and a sector whose CRC does not match are poisoned (R332, R336), reaches clear, the pound drains
and stages, fences complete or roll back, sectors fill and are written back, lines move to moorings and images, and sensors strike. The numbers by which a step names a line are the model's (log 54). -/
def Obligations.MemorySteps : Prop :=
  ∀ (s : State),
    (∀ g l ls n, s.ecc = .none → g < s.groups.length → GoesOn s (s.grp g).team → (s.grp g).loads = l :: ls → l.dst = .inl n → n < 128 →
      ∃ t, exec (.loadReturn g) s = .next t ∧ (t.grp g).loads = ls ∧ (t.grp g).cld = (s.grp g).cld - 1 ∧ (t.grp g).arch.regs.sv n = l.sval ∧
        (t.grp g).arch.regs.spo n = l.spoison ∧
        (∀ k, k ≠ n → (t.grp g).arch.regs.sv k = (s.grp g).arch.regs.sv k ∧ (t.grp g).arch.regs.spo k = (s.grp g).arch.regs.spo k) ∧
        (t.grp g).arch.regs.v = (s.grp g).arch.regs.v ∧ (t.grp g).arch.pc = (s.grp g).arch.pc ∧ (∀ h, h ≠ g → t.grp h = s.grp h) ∧
        t.mem = s.mem ∧ t.teams = s.teams) ∧
    (∀ i m w sec, s.ecc = { words := [], threads := 0, stash := [(m, w)], sectors := [sec] } → m < s.teams.length → 4 * w + 4 ≤ (s.lch (s.tm m).launch).desc.stash →
      4 * w ∈ ((s.meet i).tm m).stashPoison ∧ 2 * sec ∈ (s.meet i).poison ∧ 2 * sec + 1 ∈ (s.meet i).poison ∧
        (∃ p, (s.meet i).records = s.records ++ [.other s.clk p "CRC" 0 (128 * sec)]) ∧ SameRegs s (s.meet i)) ∧
    (∀ g l ls r k, s.ecc = .none → g < s.groups.length → GoesOn s (s.grp g).team → (s.grp g).loads = l :: ls → l.dst = .inr (r, k) → r + k ≤ 256 →
      ∃ t, exec (.loadReturn g) s = .next t ∧ (t.grp g).loads = ls ∧ (t.grp g).cld = (s.grp g).cld - 1 ∧
        (∀ i th, i < k → th < 32 → ((t.grp g).arch.regs.vt (r + i) th, (t.grp g).arch.regs.vpt (r + i) th) =
          match l.vals.find? fun v => v.1 == th with
          | some v => (v.2.1[i]?.getD 0, v.2.2)
          | none => ((s.grp g).arch.regs.vt (r + i) th, (s.grp g).arch.regs.vpt (r + i) th)) ∧
        (∀ n th, n < r ∨ r + k ≤ n → (t.grp g).arch.regs.vt n th = (s.grp g).arch.regs.vt n th) ∧ (t.grp g).arch.regs.s = (s.grp g).arch.regs.s ∧
        (t.grp g).arch.pc = (s.grp g).arch.pc ∧ (∀ h, h ≠ g → t.grp h = s.grp h) ∧ t.mem = s.mem ∧ t.teams = s.teams) ∧
    (∀ g l ls, g < s.groups.length → GoesOn s (s.grp g).team → (s.grp g).loads = l :: ls →
      ∃ t, exec (.loadReturn g) s = .next t ∧ (t.grp g).loads = ls ∧ (t.grp g).cld = (s.grp g).cld - 1 ∧ (t.grp g).arch.pc = (s.grp g).arch.pc ∧
        t.teams = s.teams ∧
        ∀ cw n, (cw, n) ∈ s.ecc.words → 2 ≤ n →
          (∀ n, l.dst = .inl n → n < 128 → (∃ x ∈ l.cws, x.1 = 0 ∧ cw ∈ x.2) → (t.grp g).arch.regs.spo n = true) ∧
          ∀ r k i th, l.dst = .inr (r, k) → r + k ≤ 256 → i < k → th < 32 → (∃ v ∈ l.vals, v.1 = th) → (∃ x ∈ l.cws, x.1 = th ∧ cw ∈ x.2) →
            (t.grp g).arch.regs.vpt (r + i) th = true) ∧
    (∀ g l ls cw, s.ecc.words = [(cw, 1)] → g < s.groups.length → (s.grp g).loads = l :: ls → l.readsWord cw = true →
      ∃ t, exec (.loadReturn g) s = .next t ∧ t.mem = s.mem ∧
        t.corrected = s.corrected.setIfInBounds (stackOf (64 * cw)) ((s.corrected[stackOf (64 * cw)]?).getD 0 + 1)) ∧
    (∀ g a q, let n := atBytes q.form
      let old : W64 := BitVec.ofNat 64 (leNat ((List.range n).map fun i => s.mem.read (q.key + i)))
      g < s.groups.length → (s.grp g).atom = some a → a.reqs = [q] → q.thread < 32 → a.reg + 1 < 256 → s.ownBefore g a = false → s.writeBlocked (sectorOf q.key) = false →
      s.regsRoom g (a.reg :: if a.wide then [a.reg + 1] else []) = true → Uncached s →
      (∀ i, i < n → s.pocPoison (q.key + i) = false) → s.mem.wf = true →
      ∃ t, exec (.atomReturn g) s = .next t ∧ (t.grp g).atom = none ∧ Wrote s t q.key n (reqNew q old).1.toNat ∧
        (a.wide = false → (t.grp g).arch.regs.vt a.reg q.thread = old.setWidth 32) ∧
        (a.wide = true → (t.grp g).arch.regs.vt (a.reg + 1) q.thread ++ (t.grp g).arch.regs.vt a.reg q.thread = old) ∧
        (∀ r th, th < 32 → th ≠ q.thread ∨ (r ≠ a.reg ∧ r ≠ a.reg + 1) → (t.grp g).arch.regs.vt r th = (s.grp g).arch.regs.vt r th) ∧
        (t.grp g).arch.regs.s = (s.grp g).arch.regs.s ∧ (t.grp g).arch.pc = (s.grp g).arch.pc ∧ t.teams = s.teams ∧
        ∀ h, h ≠ g → (t.grp h).arch = (s.grp h).arch) ∧
    (∀ g, s.clearable g = false → exec (.reachClear g) s = .next s) ∧
    (∀ g r rest, g < s.groups.length → s.coreOf g < s.cores.length → (s.grp g).reaches = r :: rest → s.reachReady g r = true → (∀ d ∈ r.deps, s.isOpen d = false) →
      (∀ h, h ≠ g → ∀ y ∈ (s.grp h).reaches, y.id ≠ r.id) → (∀ y ∈ rest, y.id ≠ r.id) → (∀ c ∈ (s.cor (s.coreOf g)).copies, c.gid ≠ g ∨ c.reach ≠ r.id) →
      ∃ t, exec (.reachClear g) s = .next t ∧ (t.grp g).reaches = rest ∧ (t.grp g).sigFail = none ∧ Still s t ∧
        (∀ e ∈ (t.cor (s.coreOf g)).pound, e.gid = g → e.reach = r.id → e.cleared = true) ∧
        ∀ e ∈ (s.cor (s.coreOf g)).pound, e.gid = g → e.reach = r.id → (∃ sec ws st, e.kind = .store sec ws st) →
          { e with cleared := true } ∈ (t.cor (s.coreOf g)).pound) ∧
    (∀ g e sec ws, let c := s.coreOf g
      g < s.groups.length → c < s.cores.length → c / 8 < s.clusters.length → (s.poundOf g).find? (fun x => x.gid == g && s.drains c x) = some e → e.cleared = true →
      e.kind = .store sec ws false → (s.grp g).fences = [] → s.writeBlocked sec = false → (∀ w ∈ ws, sectorOf w.1 = sec) →
      (s.clu (c / 8)).cache.length < Config.cacheSectors →
      ∃ t, exec (.poundDrain g) s = .next t ∧ Still s t ∧ (∀ x ∈ t.poundOf g, x.seq ≠ e.seq) ∧ (∀ x ∈ s.poundOf g, x.seq ≠ e.seq → x ∈ t.poundOf g) ∧
        ∀ k w, ws.find? (fun x => x.1 == k) = some w → State.PEntry.stands e k = true → t.cbyte (c / 8) k = some { val := w.2.1, dirty := true }) ∧
    (∀ g e rest sec ws, s.coreOf g < s.cores.length → s.poundOf g = e :: rest → e.gid = g → e.cleared = false → e.kind = .store sec ws false → sec < 2 ^ 52 →
      (∀ x ∈ rest, x.seq ≠ e.seq) → (s.staged.filter fun x => x.slice == sliceOf sec).length < 64 →
      ∃ t, exec (.poundStage g) s = .next t ∧ Still s t ∧ t.poundOf g = { e with kind := .store sec ws true } :: rest ∧
        t.staged = s.staged ++ [{ slice := sliceOf sec, reach := e.reach, seq := e.seq, sec := sec, cluster := s.clusterOf g, ctx := e.ctx }]) ∧
    (∀ core i e sec ws st, let p := s.partOfCluster (core / 8)
      core < s.cores.length → (s.cor core).pound[i]? = some e → e.cleared = true → e.kind = .store sec ws st → (∀ x ∈ (s.cor core).pound, x.seq = e.seq → x = e) →
      p < s.parts.length → s.clearSet = [] →
      ∃ t u, exec (.poundEccError core i) s = .next t ∧ Still s t ∧ u < 16 ∧
        { e with kind := .store sec (ws.map fun w => (w.1, w.2.1, w.2.2 || decide ((w.1 - sec) / 8 = u))) st } ∈ (t.cor core).pound ∧
        (t.prt p).events[3] = (s.prt p).events[3] + 1 ∧ t.records.length = s.records.length + 1) ∧
    (∀ core i e, (s.cor core).pound[i]? = some e → e.cleared = false → (∀ x ∈ (s.cor core).pound, x.seq = e.seq → x = e) → s.clearSet = [] →
      ∃ t n m, exec (.poundEccError core i) s = .next t ∧
        t.records.getLast? = some (.event s.clk 4 0 (core / 8 / 12) (core / 8 % 12) (2 ^ (core % 8)) n m)) ∧
    (∀ g f, g < s.groups.length → (s.grp g).fences = [f] → fenceMet s g f = true → (f.kind ≠ .acq → beyondCluster f.scope = true → s.releaseDone g = true) →
      ∃ t, exec (.fenceComplete g) s = .next t ∧ (t.grp g).fences = [] ∧ (∀ r ∈ (t.grp g).reaches, f.id ∉ r.spec) ∧ Still s t ∧ t.teams = s.teams) ∧
    (∀ g f r, g < s.groups.length → (s.grp g).fences = [f] → f.fired ≠ [] → (s.grp g).reaches = [r] → f.id ∈ r.spec → (s.grp g).st = .run → (s.grp g).haltReq = false → (s.grp g).stepping = false →
      (∀ h, h ≠ g → (s.grp h).reaches = []) → (∀ k ∈ s.cores, k.pound = []) →
      ∃ t, exec (.fenceRollback g) s = .next t ∧ (t.grp g).arch = r.snap ∧ (t.grp g).reaches = [] ∧ (t.grp g).st = .run ∧ (t.grp g).rollbacks.2 = f.pc ∧
        t.mem = s.mem ∧ (∀ m, (t.tm m).stash = (s.tm m).stash) ∧ ∀ h, h ≠ g → (t.grp h).arch = (s.grp h).arch) ∧
    (∀ g b, g < s.groups.length → GoesOn s (s.grp g).team → (s.grp g).wbsets = [b] → b.held = [] → (∀ e ∈ s.poundOf g, e.gid ≠ g) →
      s.anyDirty (s.clusterOf g) (rangeSel b.ctx b.range) (rangeByte b.range) = false →
      ∃ t, exec (.writebackSetComplete g) s = .next t ∧ (t.grp g).wbsets = [] ∧ (t.grp g).cst = (s.grp g).cst - 1 ∧ Still s t ∧ t.teams = s.teams) ∧
    (∀ m b sec f, let cl := s.coreOf f.gid / 8
      m < s.teams.length → (s.tm m).fills.find? (fun x => x.berth == b && x.off == sec) = some f →
      (s.berthOf f.gid b).bound = true → f.frame = s.frameTag f.gid → s.writeBlocked f.key = false → s.specFences f.gid = [] → (s.clu cl).changing = false →
      (s.tm m).undone = [] → (s.tm m).stash.wf = true →
      ∃ t, exec (.berthFill m b sec) s = .next t ∧ SameRegs s t ∧ f ∉ (t.tm m).fills ∧
        (∀ i, i < 128 → (t.tm m).stash.read (f.off + i) = (s.clusterByte cl (f.key + i)).1) ∧
        ∃ h ∈ (t.tm m).held, h.berth = b ∧ h.frame = f.frame ∧ h.off = f.off ∧ h.key = f.key ∧ h.dirty = 0 ∧
          h.snoops.map (·.inval) = f.invals.map some) ∧
    (∀ m b, (s.clu ((s.tm m).core / 8)).changing = true → exec (.berthWriteback m b) s = .next s) ∧
    (∀ m b h, m < s.teams.length → (∀ g ∈ (s.tm m).groups, (s.grp g).wbsets = []) → (s.tm m).held = [h] → h.berth = b → h.dirty ≠ 0 →
      (s.clu ((s.tm m).core / 8)).changing = false → s.heldBusy m h (s.heldWriters m h) = false →
      (∀ i, i < 128 → s.clearedByte m (h.off + i) = none) → s.mem.wf = true →
      ∃ t, exec (.berthWriteback m b) s = .next t ∧ (t.tm m).held = [{ h with dirty := 0, served := [] }] ∧ PutBack s t m h ∧ SameRegs s t ∧ (t.tm m).stash = (s.tm m).stash) ∧
    (∀ m b g x, g < s.groups.length → (s.tm m).groups = [g] → (s.grp g).team = m → (s.grp g).st ≠ .done → (s.grp g).wbsets = [x] → x.cleared = true →
      (∃ h ∈ x.held, h.berth = b) → (s.clu ((s.tm m).core / 8)).changing = false →
      ∃ t, exec (.berthWriteback m b) s = .next t ∧ (t.grp g).wbsets = [] ∧ (t.grp g).cst = (s.grp g).cst - 1 ∧ SameRegs s t ∧ t.teams = s.teams ∧
        t.mem = s.mem.writeAll (x.bytes.map fun w => (w.1, w.2.1))) ∧
    (∀ m h a reader, let release := reader.isNone || h.snoops.any fun q => q.reader.isNone
      m < s.teams.length → (s.tm m).held = [h] → h.key = sectorOf a → (∀ k, k ≠ m → (s.tm k).held = []) →
      (∀ l ∈ (s.tm m).logged, l.1 ≠ h.off) → (∀ g ∈ (s.tm m).groups, (s.grp g).wbsets = []) → (s.clu ((s.tm m).core / 8)).changing = false →
      (∀ i, i < 128 → s.clearedByte m (h.off + i) = none) → s.mem.wf = true →
      ∃ t, exec (.heldSectorSnoop a reader) s = .next t ∧
        (t.tm m).held = (if release then [] else [{ h with dirty := 0, snoops := [], served := [] }]) ∧
        PutBack s t m h ∧ SameRegs s t ∧ (t.tm m).stash = (s.tm m).stash) ∧
    (∀ m h a, m < s.teams.length → (s.tm m).held = [h] → h.key = sectorOf a → (∀ k, k ≠ m → (s.tm k).held = []) → h.snoops = [] →
      (∃ r, (h.off, r) ∈ (s.tm m).logged) →
      ∃ t, exec (.heldSectorSnoop a none) s = .next t ∧ SameRegs s t ∧ t.mem = s.mem ∧ (t.tm m).stash = (s.tm m).stash ∧
        (t.tm m).held = [{ h with snoops := [{ reader := none, inval := none, awaits := distinct (s.heldWriters m h) }] }]) ∧
    (∀ g d r l, s.ecc = .none → g < s.images.length → r < 256 → d < 5 → lineAt s g d r = some l → l.at_ = .cache → s.laneFree (s.coreOf g) (s.grp g).lane = 0 →
      s.lineCleared l = true → s.lineAwaited l = false → (s.grp g).evictable = false →
      ∃ t, exec (.lineEviction g (384 * d + r)) s = .next t ∧ InImage s t g d r l ∧ Still s t) ∧
    (∀ g d r l c k, s.ecc = .none → g < s.images.length → r < 256 → d < 5 → lineAt s g d r = some l → l.at_ = .cache → s.laneFree (s.coreOf g) (s.grp g).lane = 0 →
      s.lineCleared l = true → s.lineAwaited l = false → (s.grp g).evictable = true → s.mooringFor (s.coreOf g) = some c → k = s.mooringLane c →
      ∃ t, exec (.lineEviction g (384 * d + r)) s = .next t ∧ Still s t ∧ t.images = s.images ∧ c ≠ s.coreOf g ∧ c / 8 = s.coreOf g / 8 ∧
        t.lines = s.lines.map fun x => if x.same l then { x with at_ := .mooring c k } else x) ∧
    (∀ g r l, g < s.groups.length → r < 256 → (s.grp g).arch.frames = [] → (s.grp g).arch.emu = none → lineAt s g 0 r = some l →
      ∃ t, exec (.lineEviction g r) s = .next t ∧ (∀ h, h ≠ g → (t.grp h).arch = (s.grp h).arch) ∧ t.mem = s.mem ∧
        ∀ n th, th < 32 → (t.grp g).arch.regs.vpt n th =
          ((s.grp g).arch.regs.vpt n th || (decide (n = r) && s.ecc.threads.getLsbD th && (s.grp g).live.getLsbD th))) ∧
    (∀ g r, g < s.groups.length → r < 128 → (s.grp g).arch.frames = [] → (s.grp g).arch.emu = none → s.ecc.threads ≠ 0 → (∀ l ∈ s.lines, l.reg < 256) →
      ∃ t, exec (.lineEviction g (256 + r)) s = .next t ∧ (∀ h, h ≠ g → (t.grp h).arch = (s.grp h).arch) ∧ t.mem = s.mem ∧
        (t.grp g).arch = { (s.grp g).arch with regs := { (s.grp g).arch.regs with sp := (s.grp g).arch.regs.sp ||| (1#128 <<< r) } }) ∧
    (∀ g d r l c k, s.ecc = .none → g < s.images.length → r < 256 → d < 5 → lineAt s g d r = some l → l.at_ = .mooring c k →
      ∃ t, exec (.mooringReclaim g (384 * d + r)) s = .next t ∧ InImage s t g d r l ∧ Still s t) ∧
    (∀ g n d r q l c k, s.ecc = .none → g < s.images.length → r < 256 → d < 5 → (s.grp g).reaches[n]? = some q →
      s.lines.find? (fun x => x.gid == g && x.depth == d && x.reg == r && x.pre == some q.id) = some l → l.at_ = .mooring c k →
      (s.grp g).reaches.find? (fun x => x.id == q.id) = some q →
      ∃ t b, exec (.mooringReclaim g (2304 * (n + 1) + 384 * d + r)) s = .next t ∧ Still s t ∧
        t.lines = (s.lines.map fun x => if x.same l then { x with at_ := .image, dirty := false } else x) ∧ (t.img g).blocks[d]? = some b ∧
        ∀ th, b.regs.vt r th = (depthRegs q.snap d).1.vt r th) ∧
    (∀ g, let n := (s.grp g).arch.regs.spilled
      g < s.groups.length → g < s.images.length → n < (s.grp g).arch.regs.calls.length → (s.grp g).depth < 5 → (s.grp g).reaches = [] →
      ∃ t, exec (.callStackSpill g) s = .next t ∧
        (t.grp g).arch = { (s.grp g).arch with regs := { (s.grp g).arch.regs with spilled := n + 1 } } ∧ (∀ h, h ≠ g → t.grp h = s.grp h) ∧ t.mem = s.mem ∧
        ∃ b, (t.img g).blocks[(s.grp g).depth]? = some b ∧ b.regs.calls = ((s.grp g).arch.regs.calls.reverse.take (n + 1)).reverse) ∧
    (∀ cls cl core i, let p := s.partOfCluster cl
      sensorOk s cls cl core i = true → p < s.parts.length →
      ∃ t z n m, exec (.sensorEvent cls cl core i) s = .next t ∧ t.records.getLast? = some (.event s.clk cls i (cl / 12) (cl % 12) z n m) ∧
        (t.prt p).events[cls - 1]? = some ((s.prt p).events[cls - 1]?.getD 0 + 1) ∧
        ∀ g, s.resident (s.grp g).team = true → g ∈ (s.teamOf g).groups → s.coreOf g ∈ zoneCores cls cl core → (t.grp g).reaches = []) ∧
    ∀ cls cl core i, sensorOk s cls cl core i = true →
      ∃ t, exec (.sensorSelfTest cls cl core i false) s = .next t ∧ t.sensorsOff = s.sensorsOff ++ [sensorId cls cl core i] ∧ (cls = 1 → Still s t) ∧
        (cls ≠ 1 → t.records.getLast? = some (.zoneOut cls cl core) ∧ ∀ c ∈ zoneCores cls cl core, c < s.cores.length → (t.cor c).outOfService = true)

namespace Sys2Proof.Claim

/-- The number that m × 2^e stands for. -/
def dyVal (x : Dy) : ℚ := (x.m : ℚ) * (2 : ℚ) ^ x.e

/-- The number of a finite value. -/
def fvVal (v : Fp.FVal) : ℚ := dyVal (Dy.of v)

/-- A finite value. -/
def Finite (v : Fp.FVal) : Prop := ∃ n m e, v = .fin n m e

/-- The value of an E3M5 code other than 0xFF (R84). -/
def e3m5Val (c : Nat) : ℚ := (if c < 32 then (c : ℚ) else ((c % 32 + 32) * 2 ^ (c / 32 - 1) : Nat)) / 128

/-- One side of a step is 16 blocks of eight elements with a scale each (R250, R251). -/
def Sized (a : Side) : Prop := a.elems.length = 16 ∧ (∀ x ∈ a.elems, x.length = 8) ∧ a.scales.length = 16

/-- Elements and scale of a block of a side. -/
def blockOf (a : Side) (j : Nat) : List Fp.FVal := a.elems[j]?.getD []
def scaleOf (a : Side) (j : Nat) : Nat := a.scales[j]?.getD 0

/-- A block that takes part in a step: neither scale is 0x00 (R100, R101). -/
def TakesPart (a w : Side) (j : Nat) : Prop := j < 16 ∧ scaleOf a j ≠ 0 ∧ scaleOf w j ≠ 0

/-- Two elements that meet in a block that takes part. -/
def Meets (a w : Side) (x y : Fp.FVal) : Prop := ∃ j i, TakesPart a w j ∧ i < 8 ∧ (blockOf a j)[i]? = some x ∧ (blockOf w j)[i]? = some y

/-- An infinite product of two elements, and its sign. -/
def InfProduct (x y : Fp.FVal) (neg : Bool) : Prop :=
  (fvInf x = true ∨ fvInf y = true) ∧ x.isNan = false ∧ y.isNan = false ∧ fvZero x = false ∧ fvZero y = false ∧ neg = (fvNeg x != fvNeg y)

/-- The exact total of the 16 block terms of a step (R100). -/
def stepTotal (a w : Side) : ℚ :=
  ((List.range 16).map fun j =>
    if scaleOf a j = 0 ∨ scaleOf w j = 0 then 0 else
      let p := alignBlock a.fmt (blockOf a j)
      let q := alignBlock w.fmt (blockOf w j)
      ((((p.1.zip q.1).map fun z => z.1 * z.2).sum : Int) : ℚ) * (2 : ℚ) ^ (p.2 + q.2) * e3m5Val (scaleOf a j) * e3m5Val (scaleOf w j)).sum

/-- Nothing in a step is a NaN (R101). -/
def NoNan (a w : Side) : Prop :=
  a.band.isNan = false ∧ w.band.isNan = false ∧ (∀ j, TakesPart a w j → scaleOf a j ≠ 0xFF ∧ scaleOf w j ≠ 0xFF) ∧
    ∀ x y, Meets a w x y → x.isNan = false ∧ y.isNan = false ∧ ¬(fvInf x = true ∧ fvZero y = true) ∧ ¬(fvInf y = true ∧ fvZero x = true)

/-- R99 to R101, R260: integers are rounded to nearest-even; a block is aligned to the grid of its format; a step value is one rounding to FP32 of the exact
total times both band scales, or NaN or an infinity under the conditions of R101; and an accumulator's element takes one more rounding. -/
def MatrixArithmetic : Prop :=
  (∀ x : Dy, |dyVal x - x.rint| ≤ 1 / 2 ∧ (|dyVal x - x.rint| = 1 / 2 → x.rint % 2 = 0)) ∧
  (∀ (f : Fmt) (xs : List Fp.FVal), (∀ x ∈ xs, Finite x) → let q := alignBlock f xs
    q.1 = (xs.map fun x => Dy.rint { m := (Dy.of x).m, e := (Dy.of x).e - q.2 }) ∧ (f = .fp4 → q.2 = -1) ∧ (f = .int8 → q.2 = 0) ∧
    (f ≠ .fp4 → f ≠ .int8 → (∃ x ∈ xs, fvVal x ≠ 0) → let emax := q.2 + (fmtW f - 2 : Nat)
      (∃ x ∈ xs, (2 : ℚ) ^ emax ≤ |fvVal x|) ∧ ∀ x ∈ xs, |fvVal x| < (2 : ℚ) ^ (emax + 1))) ∧
  (∀ x : Dy, x.fp32 = if dyVal x = 0 then 0 else BitVec.ofNat 32 (Fp.roundFin Fp.fp32 .rne false false (decide (x.m < 0)) x.m.natAbs x.e).code) ∧
  (∀ a w, Sized a → Sized w → (∀ j, ¬TakesPart a w j) → stepValue a w = 0) ∧
  (∀ a w, Sized a → Sized w → NoNan a w → Finite a.band → Finite w.band → (∀ x y, Meets a w x y → Finite x ∧ Finite y) →
    ∃ x : Dy, dyVal x = stepTotal a w * fvVal a.band * fvVal w.band ∧ stepValue a w = x.fp32) ∧
  (∀ a w j, Sized a → Sized w → TakesPart a w j → ¬NoNan a w → stepValue a w = fp32Nan) ∧
  (∀ a w x y n, Sized a → Sized w → NoNan a w → Meets a w x y → InfProduct x y n →
    ((∃ x2 y2, Meets a w x2 y2 ∧ InfProduct x2 y2 (!n)) ∨ ¬(Finite a.band ∧ fvZero a.band = false ∧ Finite w.band ∧ fvZero w.band = false) →
      stepValue a w = fp32Nan) ∧
    ((∀ x2 y2 m, Meets a w x2 y2 → InfProduct x2 y2 m → m = n) → Finite a.band → fvZero a.band = false → Finite w.band → fvZero w.band = false →
      stepValue a w = fp32Inf (n != (fvNeg a.band != fvNeg w.band)))) ∧
  (∀ a w j, Sized a → Sized w → TakesPart a w j → NoNan a w → (∀ x y, Meets a w x y → Finite x ∧ Finite y) → fvInf a.band = true ∨ fvInf w.band = true →
    stepValue a w = if fvZero a.band = true ∨ fvZero w.band = true ∨ stepTotal a w = 0 then fp32Nan
      else fp32Inf (decide (stepTotal a w < 0) != (fvNeg a.band != fvNeg w.band))) ∧
  ∀ (a : Acc) (rows : List (List W32)) (n : Nat), rows.length = 32 → (∀ r ∈ rows, r.length = 128) → n < 4096 →
    Acc.get (Acc.addStep a rows) n = BitVec.ofNat 32 (Fp.add Fp.fp32 .rne false (Fp.fp32.value (Acc.get a n).toNat)
      (Fp.fp32.value (((rows[n / 128]?.getD [])[n % 128]?).getD 0).toNat)).code

/-- The sequencer of a core has one operation, not complete, of a team that goes on and holds its stash bytes unraced (R270). -/
structure OneOp (s : State) (core : Nat) (o : SeqOp) : Prop where
  place : core < s.cores.length
  ops : (s.cor core).ops = [o]
  going : o.complete = false
  group : o.gid < s.groups.length
  team : (s.grp o.gid).team = o.team
  teamLt : o.team < s.teams.length
  goesOn : GoesOn s o.team
  defined : o.undef = false
  unraced : ∀ r ∈ (s.tm o.team).undone, r.id = o.id → r.dirty = [] ∧ r.mwra = false

/-- The one copy of a core's engine, whose payload has landed. -/
structure OneCopy (s : State) (core : Nat) (c : Copy) : Prop where
  place : core < s.cores.length
  copies : (s.cor core).copies = [c]
  group : c.gid < s.groups.length
  landed : c.landed = true
  near : c.scope < 3
  drained : s.drained c.gid c.seq = true

/-- A stash byte of a team, and whether its 4-byte word is poisoned (R219). -/
def stashAt (s : State) (m a : Nat) : Byte := (s.tm m).stash.read a
def stashBad (s : State) (m a : Nat) : Bool := (s.tm m).stashPoison.contains (a / 4 * 4)

/-- Element i of an area of elements of some bits each: the bits from i × bits on, little-endian, 4-bit elements low nibble first (R6, R75). -/
def elemAt (bits : Nat) (rd : Nat → Byte) (base i : Nat) : Nat :=
  ((rd (base + bits * i / 8)).toNat + 256 * (rd (base + bits * i / 8 + 1)).toNat) / 2 ^ (bits * i % 8) % 2 ^ bits

/-- What an MLDW loads (R250, R257): element (k, n), the scale of block j of column n, and the band scales. A column with a poisoned word takes block scale
0xFF, or canonical NaN elements where the format has no scales. -/
def Loaded (s : State) (m : Nat) (x : WSlot) (f : Fmt) (tr : Bool) (a : Nat) : Prop :=
  let bits := fmtBits f
  let bad := fun (n : Nat) => (columnBytes f tr a n).any (stashBad s m)
  x.cells = some f ∧
    (∀ k n, k < 128 → n < 128 → x.elems[128 * k + n]? = some (if bad n && !fmtScaled f then fmtNan f
      else elemAt bits (stashAt s m) a (if tr then 128 * n + k else 128 * k + n))) ∧
    (fmtScaled f = true → (∀ j n, j < 16 → n < 128 →
        x.scales[128 * j + n]? = some (if bad n then 0xFF else (stashAt s m (a + 2048 * bits + 128 * j + n)).toNat)) ∧
      ∀ c, c < 2 → x.bands[c]? = some (stashAt s m (a + 2048 * bits + 2049 + 2 * c) ++ stashAt s m (a + 2048 * bits + 2048 + 2 * c)))

/-- Values of one row of a step (R100, R260): of the activation row and each weight column, or NaN where a word of the row is poisoned. -/
def rowOf (s : State) (m : Nat) (f : Fmt) (w : WSlot) (at_ r : Nat) : List W32 :=
  if (rowBytes f at_ r).any (stashBad s m) then List.replicate 128 0x7FC00000
  else (List.range 128).map fun n => stepValue (panelRow f (stashAt s m) at_ r) (slotColumn w (w.cells.getD .fp4) n)

end Sys2Proof.Claim

/-- R162, R222, R233, R236, R242, R243: COPY_SIGNAL performs a copy's signal, COPY_DONE ends the copy, and CPYR_ELEMENT performs an element; each goes on to the next
state that its own effect gives, where the copy engine holds the copy alone. -/
def Obligations.CopyEngineSteps : Prop :=
  ∀ (s : State) (core : Nat),
    (∀ c m a, OneCopy s core c → m < s.teams.length → c.signalled = false → c.form ≠ 2 → c.comp = 1 → c.notify = [(m, a)] → (s.grp c.gid).team = m →
      (∃ d ∈ c.dsts, d.1 = some m) → (s.tm m).stash.wf = true → State.applyDue c = false → (s.clu (core / 8)).changing = false →
      s.poundUsed core + 1 ≤ 512 → c.sigUndef = false →
      ∃ t, exec (.copySignal core c.id) s = .next t ∧ (t.cor core).copies = [{ c with notify := [], signalled := true }] ∧
        (∀ k, k < 8 → (t.tm m).stash.read (a + k) = c.sigVal.extractLsb' (8 * k) 8) ∧
        (∀ x, x < a ∨ a + 8 ≤ x → (t.tm m).stash.read x = (s.tm m).stash.read x) ∧ Still s t) ∧
    (∀ c m, OneCopy s core c → m < s.teams.length → c.signalled = false → c.form ≠ 2 → c.comp = 2 → c.notify = [(m, 0)] → (s.grp c.gid).team = m →
      (∃ d ∈ c.dsts, d.1 = some m) → c.bar < 8 → State.applyDue c = false → (s.clu (core / 8)).changing = false →
      s.poundUsed core + 1 ≤ 512 → c.sigUndef = false → barrierDone s m c.bar = false →
      ∃ t, exec (.copySignal core c.id) s = .next t ∧ (t.cor core).copies = [{ c with notify := [], signalled := true }] ∧
        (t.bar m c.bar).bytes = (s.bar m c.bar).bytes + BitVec.ofNat 64 c.len ∧ (t.bar m c.bar).expected = (s.bar m c.bar).expected ∧ Still s t) ∧
    (∀ c, OneCopy s core c → c.signalled = true → c.applied = true → c.elems = [] → c.cleared = true → s.resident (s.grp c.gid).team = true →
      GoesOn s (s.grp c.gid).team →
      ∃ t, exec (.copyDone core c.id) s = .next t ∧ (t.cor core).copies = [] ∧ (t.grp c.gid).ccpy = (s.grp c.gid).ccpy - 1 ∧
        (∀ e ∈ (t.cor core).pound, e.kind ≠ .copyDesc c.id ∧ ∀ n, e.kind ≠ .elements c.id n) ∧ Still s t ∧ t.teams = s.teams) ∧
    ∀ c x po, OneCopy s core c → c.form = 2 → c.cleared = true → c.undef = false → c.elems = [(x, po)] → (s.grp c.gid).fences = [] →
      s.writeBlocked (sectorOf x.key) = false → Uncached s → (∀ i, i < atBytes x.form → s.pocPoison (x.key + i) = false) → s.mem.wf = true →
      ∃ t, exec (.cpyrElement core c.id) s = .next t ∧ (t.cor core).copies = [{ c with elems := [], applied := true }] ∧
        (∀ e ∈ (t.cor core).pound, e.kind ≠ .elements c.id (sectorOf x.key)) ∧ SameRegs s t ∧ t.teams = s.teams ∧ (po = true → t.mem = s.mem) ∧
        (po = false → Wrote s t x.key (atBytes x.form)
          (atApply x.form (BitVec.ofNat 64 (leNat ((List.range (atBytes x.form)).map fun i => s.mem.read (x.key + i)))) x.v).1.toNat)

/-- R99 to R101, R250 to R255, R257, R260 to R262, R264, R265, R275: what a step of the matrix engine computes; SEQUENCER_TRANSFER_START tags a transfer and
SEQUENCER_TRANSFER_COMPLETE ends it with what it loads or stores; MLOOP_STEP_START starts a step, ROW_INJECT enters its rows, and STEP_ENTRY enters it into the
accumulator; each goes on to the next state that its own effect gives, where the sequencer holds the operation alone. -/
def Obligations.SequencerSteps : Prop :=
  MatrixArithmetic ∧ ∀ (s : State) (core : Nat),
    (∀ o, core < s.cores.length → nextMove s (s.cor core).ops = some o → (∀ x ∈ (s.cor core).ops, x.moving = false) → moveReady s core o = true →
      ∃ t r, exec (.sequencerTransferStart core) s = .next t ∧ (∀ n, o.tag = some n → r = n) ∧
        (∀ q, o.tag = none → (s.grp o.gid).reaches.getLast? = some q → r = q.id) ∧ (t.cor core).moved = 0 ∧ Still s t ∧ t.teams = s.teams ∧
        (t.cor core).ops = (s.cor core).ops.map fun x => if x.id = o.id then { x with moving := true, tag := some r } else x) ∧
    (∀ o k a, OneOp s core o → o.moving = true → o.kind = .mlda k a → k < 8 → 128 ≤ (s.cor core).moved →
      ∃ t, exec (.sequencerTransferComplete core) s = .next t ∧
        (∀ n, n < 4096 → Acc.get (t.acc o.team k) n = if stashBad s o.team (a + 4 * n) then 0x7FC00000
          else BitVec.ofNat 32 (leNat ((List.range 4).map fun b => (s.tm o.team).stash.read (a + 4 * n + b)))) ∧
        (∀ j, j ≠ k → t.acc o.team j = s.acc o.team j) ∧ (∀ x ∈ (t.cor core).ops, x.complete = true) ∧
        (t.grp o.gid).ctile = (s.grp o.gid).ctile - 1 ∧ (t.tm o.team).stash = (s.tm o.team).stash ∧ Still s t) ∧
    (∀ o k rm a, OneOp s core o → o.moving = true → o.kind = .msta k .f32 rm a → 128 ≤ (s.cor core).moved → (s.tm o.team).stash.wf = true →
      s.poundUsed core + 130 ≤ 512 →
      ∃ t, exec (.sequencerTransferComplete core) s = .next t ∧
        (∀ n b, n < 4096 → b < 4 → (t.tm o.team).stash.read (a + 4 * n + b) = (Acc.get (s.acc o.team k) n).extractLsb' (8 * b) 8) ∧
        (∀ x, x < a ∨ a + 16384 ≤ x → (t.tm o.team).stash.read x = (s.tm o.team).stash.read x) ∧ (∀ j, t.acc o.team j = s.acc o.team j) ∧
        (∀ x ∈ (t.cor core).ops, x.complete = true) ∧ (t.grp o.gid).ctile = (s.grp o.gid).ctile - 1 ∧ Still s t) ∧
    (∀ o k f rm a, OneOp s core o → o.moving = true → o.kind = .msta k f rm a → f ≠ .f32 → 64 ≤ (s.cor core).moved → (s.tm o.team).stash.wf = true →
      s.poundUsed core + 130 ≤ 512 →
      ∃ t, exec (.sequencerTransferComplete core) s = .next t ∧
        (∀ n b, n < 4096 → b < 2 → (t.tm o.team).stash.read (a + 2 * n + b) = BitVec.ofNat 8 ((Fp.convert (if f = .bf16 then Fp.bf16 else Fp.fp16)
          (.ofField rm) false false (Fp.fp32.value (Acc.get (s.acc o.team k) n).toNat)).code / 2 ^ (8 * b))) ∧
        (∀ x, x < a ∨ a + 8192 ≤ x → (t.tm o.team).stash.read x = (s.tm o.team).stash.read x) ∧ (∀ j, t.acc o.team j = s.acc o.team j) ∧
        (∀ x ∈ (t.cor core).ops, x.complete = true) ∧ (t.grp o.gid).ctile = (s.grp o.gid).ctile - 1 ∧ Still s t) ∧
    (∀ o w f tr a g, OneOp s core o → o.moving = true → o.kind = .mldw w f tr a g → w < 8 → (s.slot o.team w).redo = [] → moveCycles o.kind ≤ (s.cor core).moved →
      ∃ t, exec (.sequencerTransferComplete core) s = .next t ∧ (t.slot o.team w).loading = false ∧ (t.slot o.team w).fmt = (s.slot o.team w).fmt ∧
        Loaded s o.team (t.slot o.team w) f tr a ∧ (t.slot o.team w).by_ = o.tag ∧
        (∀ x, x ≠ w → t.slot o.team x = s.slot o.team x) ∧ (∀ x ∈ (t.cor core).ops, x.complete = true) ∧
        (t.grp o.gid).ctile = (s.grp o.gid).ctile - 1 ∧ (t.tm o.team).stash = (s.tm o.team).stash ∧ Still s t) ∧
    (∀ o a c w0 base, let w := ctlSlot c w0 o.next
      OneOp s core o → o.kind = .mloop a c w0 base → o.steps = [] → o.next < ctlSteps c → s.loadsFirst o w = false → (s.tm o.team).st ≠ .leavingPreempt →
      0 < (s.cor core).accFree →
      ∃ t st, exec (.mloopStepStart core o.id) s = .next t ∧ (t.cor core).ops = [{ o with next := o.next + 1, steps := [st] }] ∧ st.k = o.next ∧ st.slot = w ∧
        st.rows = 0 ∧ st.paid = false ∧ st.vals = [] ∧ st.lastAt = (s.cor core).lc ∧ Still s t ∧ t.teams = s.teams) ∧
    (∀ o a c w0 (base : Nat) f m, let at_ := ((base : Int) + ctlPanel c m.k).toNat
      OneOp s core o → o.kind = .mloop a c w0 base → ctlFmt c = some f → o.steps = [m] → m.rows < 32 → m.paid = true →
      (if m.rows = 0 then m.lastAt else m.lastAt + max (s.cor core).cad.toNat (fmtW f)) ≤ (s.cor core).lc → (s.clu (core / 8)).changing = false →
      ∃ t, exec (.rowInject core m.macroNo) s = .next t ∧ Still s t ∧ t.teams = s.teams ∧
        (t.cor core).ops = [{ o with steps := [{ m with
          told := m.told || (rowBytes f at_ m.rows).any (stashBad s o.team), rows := m.rows + 1, paid := false, lastAt := (s.cor core).lc
          vals := m.vals ++ [rowOf s o.team f (s.slot o.team m.slot) at_ m.rows] }] }]) ∧
    ∀ o a c w0 base f m, OneOp s core o → o.kind = .mloop a c w0 base → ctlFmt c = some f → o.steps = [m] → m.rows = 32 → a < 8 → m.k = o.entered →
      max (m.lastAt + max (s.cor core).cad.toNat (fmtW f)) (s.cor core).entryFree + 8 ≤ (s.cor core).lc →
      ∃ t, exec (.stepEntry core m.macroNo) s = .next t ∧ t.acc o.team a = Acc.addStep (s.acc o.team a) m.vals ∧ (∀ k, k ≠ a → t.acc o.team k = s.acc o.team k) ∧
        (t.cor core).ops.map (fun x => (x.id, x.steps, x.entered, x.complete)) = [(o.id, [], m.k + 1, decide (m.k + 1 = ctlSteps c))] ∧
        (t.cor core).entryFree = (s.cor core).lc ∧ (t.tm o.team).stash = (s.tm o.team).stash ∧ Still s t

/-- R31, R34 to R44, R52, R53, R55, R73, R348, R349: teams and trains are placed with their groups at entry, return and leave; a launch that waits too long blocks; a launch
completes with its completion word, or its watchdog stops it. -/
def Obligations.LaunchSteps : Prop :=
  ∀ (s : State),
    (∀ p l c, let x := s.lch l
      let d := x.desc
      let m := s.teams.length
      s.nextPlacement p = some (.next l, c) → d.nstage = 1 → c < s.cores.length →
      ∃ t, exec (.placeTeam p) s = .next t ∧ t.teams.length = m + 1 ∧ (t.lch l).next = x.next + 1 ∧ t.mem = s.mem ∧
        (∀ g, g < s.groups.length → (t.grp g).arch = (s.grp g).arch ∧ (t.grp g).st = (s.grp g).st) ∧ (∀ k, k < m → t.tm k = s.tm k) ∧
        (t.tm m).launch = l ∧ (t.tm m).core = c ∧ (t.tm m).stage = 0 ∧ (t.tm m).st = .resident ∧ (t.tm m).stash = [] ∧
        (t.tm m).x + d.gridX * ((t.tm m).y + d.gridY * (t.tm m).z) = x.next ∧
        (t.tm m).groups = (List.range d.groups).map (s.groups.length + ·) ∧
        ∀ k, k < d.groups → let y := t.grp (s.groups.length + k)
          y.team = m ∧ y.gidx = k ∧ y.st = .run ∧ y.arch.pc = d.entries[0]?.getD 0 ∧ y.arch.regs.sv 0 = d.arg ∧ y.arch.regs.sv 1 = x.addr ∧
          (∀ r, 2 ≤ r → y.arch.regs.sv r = 0) ∧ y.arch.ctx = x.ctx ∧ y.arch.frames = [] ∧
          ∀ th, th < 32 → y.live.getLsbD th = (decide (k + 1 ≠ d.groups) || decide (th < d.lastLive))) ∧
    (∀ p l c, let x := s.lch l
      let m := s.teams.length
      s.nextPlacement p = some (.next l, c) → 1 < x.desc.nstage →
      ∃ t, exec (.placeTrain p) s = .next t ∧ t.teams.length = m + x.desc.nstage ∧ (t.lch l).next = x.next + 1 ∧ t.mem = s.mem ∧
        (∀ g, g < s.groups.length → (t.grp g).arch = (s.grp g).arch ∧ (t.grp g).st = (s.grp g).st) ∧
        ∀ i, i < x.desc.nstage → (t.tm (m + i)).launch = l ∧ (t.tm (m + i)).stage = i ∧ (t.tm (m + i)).core = c + i ∧ (t.tm (m + i)).st = .resident) ∧
    (∀ p l cs, s.candidates p = .next l :: cs → (s.lch l).since + 64000 ≤ s.clk → s.candCore p (.next l) [] = none →
      ∃ t, exec (.placementWaitExpiry p) s = .next t ∧ (t.lch l).blocking = true ∧ t.mem = s.mem ∧ ((∀ g, (s.grp g).fences = []) → Still s t)) ∧
    (∀ m, m < s.teams.length → (s.tm m).st = .leavingSwap ∨ (s.tm m).st = .leavingPreempt → s.leavingOver m = true → s.teamDone m = false → (s.tm m).held = [] →
      (∀ g ∈ (s.tm m).groups, waitReady s g = false) →
      ∃ t, exec (.leavingComplete m) s = .next t ∧ (t.tm m).st = (if (s.tm m).st = .leavingSwap then .swapped else .preempted) ∧ Still s t ∧
        (t.tm m).stash = (s.tm m).stash ∧ (t.tm m).accs = (s.tm m).accs ∧
        ∀ g ∈ (s.tm m).groups, g < s.images.length → (t.img g).st = (s.grp g).st ∧ (t.img g).wait = (s.grp g).wait ∧
          ∀ d, d < 5 → d ≤ (s.grp g).arch.frames.length → ∃ b, (t.img g).blocks[d]? = some b ∧ (b.regs, b.pc) = depthRegs (s.grp g).arch d) ∧
    (∀ p m c, s.nextPlacement p = some (.back m, c) → s.resumeRoom m c = false → exec (.returnTeam p) s = .next s) ∧
    (∀ p m c, s.nextPlacement p = some (.back m, c) → s.resumeRoom m c = true → (s.tm m).core / 8 = c / 8 ∨ Uncached s →
      ∃ t, exec (.returnTeam p) s = .next t ∧ (t.tm m).st = .resident ∧ (t.tm m).core = c ∧ (t.tm m).stash = (s.tm m).stash ∧ t.mem = s.mem ∧
        ∀ g, (t.grp g).arch.pc = (s.grp g).arch.pc ∧ (t.grp g).arch.regs.s = (s.grp g).arch.regs.s ∧ (t.grp g).arch.regs.v = (s.grp g).arch.regs.v ∧
          (t.grp g).st = (if State.isXswap (s.grp g) = true ∧ g ∈ (s.tm m).groups then .run else (s.grp g).st)) ∧
    (∀ k l, s.launches[k]? = some l → l.finished = false → l.stopped = false → l.desc.gridX * l.desc.gridY * l.desc.gridZ ≤ l.next →
      (∀ m ∈ l.teams, (s.tm m).st = .finished ∧ ∀ g ∈ (s.tm m).groups, s.poundCount g = 0 ∧ (s.grp g).wbsets = []) →
      (l.desc.signal = false → ∃ t, exec (.launchCompletion k) s = .next t ∧ (t.lch k).finished = true ∧ Still s t) ∧
      (∀ a, l.desc.signal = true → s.ctxKey l.ctx Need.store l.desc.sigAddr = .ok a → Uncached s → (∀ n, s.writeBlocked n = false) → s.mem.wf = true →
        ∃ t, exec (.launchCompletion k) s = .next t ∧ (t.lch k).finished = true ∧ Wrote s t a 8 l.desc.sigVal.toNat ∧ SameRegs s t) ∧
      (∀ c, l.desc.signal = true → s.ctxKey l.ctx Need.store l.desc.sigAddr = .error c →
        ∃ t, exec (.launchCompletion k) s = .next t ∧ (t.lch k).finished = true ∧ Still s t ∧
          t.records = s.records ++ [.completionFault l.addr l.desc.sigAddr c])) ∧
    ∀ k l, s.launches[k]? = some l → l.finished = false → 0 < (s.cx l.ctx).wdlim → (s.cx l.ctx).wdlim * 1000 < l.wd → s.ckptPending l.ctx = false →
      (∃ t, exec (.watchdogExpiry k) s = .next t ∧ (t.lch k).stopped = true ∧
        ((∀ g, (s.grp g).fences = []) → (∀ m ∈ l.teams, (s.tm m).held = []) → Still s t)) ∧
      (l.teams = [] → ∃ t, exec (.watchdogExpiry k) s = .next t ∧ (t.lch k).finished = true ∧ t.records = s.records ++ [.watchdog l.addr l.wd])

namespace Sys2Proof.Claim

/-- A queue's oldest entry: the queue stands at it, and it is of a kind; no berth holds a sector. -/
def Head (s : State) (q : Nat) (e : QEntry) (kind : Nat) : Prop :=
  q < s.queues.length ∧ s.atHead q = .entry e ∧ e.kind = kind ∧ ∀ m ∈ s.teams, m.held = []

/-- Only queues, launches and records of them have changed. -/
def QueueOnly (s t : State) : Prop := t.groups = s.groups ∧ t.teams = s.teams ∧ t.mem = s.mem

end Sys2Proof.Claim

/-- R33, R34, R377 to R379, R387: each kind of queue entry, the polls and the write that end a wait, switches in and out, and a write of QTAIL, with the skip of an entry
that is refused. -/
def Obligations.QueueSteps : Prop :=
  ∀ (s : State) (q : Nat), let x := s.que q
    (∀ e, Head s q e 0 → ∃ t, exec (.queueNoOperation q) s = .next t ∧ (t.que q).head = x.head + 1 ∧ (t.que q).code = x.code ∧ t.launches = s.launches ∧ QueueOnly s t) ∧
    (∀ c, q < s.queues.length → s.atHead q = .bad c → x.resident = true → (∀ m ∈ s.teams, m.held = []) →
      ∃ t, exec (.queueNoOperation q) s = .next t ∧ (t.que q).head = x.head + 1 ∧ (t.que q).code = BitVec.ofNat 8 c ∧ (t.que q).rejidx = x.head ∧ QueueOnly s t) ∧
    (∀ e d, Head s q e 1 → (s.prt x.part).closed = false → s.readDesc x.ctx e.addr = some (.ok d) →
      ∃ t l, exec (.queueLaunch q) s = .next t ∧ t.launches = s.launches ++ [l] ∧ l.desc = d ∧ l.ctx = x.ctx ∧ l.addr = e.addr ∧ l.prio = d.prio ∧ l.src = .queue q ∧
        (t.que q).head = x.head + 1 ∧ QueueOnly s t) ∧
    (∀ e c, Head s q e 1 → (s.prt x.part).closed = false → s.readDesc x.ctx e.addr = some (.error c) →
      ∃ t, exec (.queueLaunch q) s = .next t ∧ t.launches = s.launches ∧ (t.que q).code = c ∧ (t.que q).rejidx = x.head ∧ (t.que q).head = x.head + 1 ∧ QueueOnly s t) ∧
    (∀ e, Head s q e 2 → ∃ t, exec (.queueWait q) s = .next t ∧ (t.que q).waiting = some (e.addr, e.value) ∧ (t.que q).head = x.head ∧ QueueOnly s t) ∧
    (x.resident = false → exec (.queueWaitPoll q) s = .next s ∧ exec (.queueWriteValue q) s = .next s) ∧
    (∀ a v bs, q < s.queues.length → x.waiting = some (a, v) → x.resident = true → s.ctxRead x.ctx a 8 = .ok bs → (∀ m ∈ s.teams, m.held = []) →
      (v.toNat ≤ leNat bs → ∃ t, exec (.queueWaitPoll q) s = .next t ∧ (t.que q).waiting = none ∧ (t.que q).head = x.head + 1 ∧ QueueOnly s t) ∧
      (leNat bs < v.toNat → ∃ t, exec (.queueWaitPoll q) s = .next t ∧ t.queues = s.queues ∧ QueueOnly s t)) ∧
    (∀ e, Head s q e 3 → ∃ t, exec (.queueWrite q) s = .next t ∧ (t.que q).writing = some (e.addr, e.value) ∧ (t.que q).head = x.head ∧ QueueOnly s t) ∧
    (∀ a v k, q < s.queues.length → x.resident = true → x.writing = some (a, v) → (∀ l ∈ s.launches, l.src = .queue q → l.finished = true) → s.ctxKey x.ctx Need.store a = .ok k → Uncached s →
      (∀ n, s.writeBlocked n = false) → s.mem.wf = true →
      ∃ t, exec (.queueWriteValue q) s = .next t ∧ Wrote s t k 8 v.toNat ∧ (t.que q).writing = none ∧ SameRegs s t ∧ t.teams = s.teams) ∧
    (∀ p n, s.nextQueue p = some n → (s.residentQueues p).length < 16 →
      ∃ t, exec (.queueSwitchIn p) s = .next t ∧ (t.que n).resident = true ∧ (t.que n).resetFlag = false ∧ (t.que n).tail = (s.que n).savedTail ∧
        (((s.que n).savedTail - (s.que n).savedHead).toNat ≤ 2 ^ (s.que n).k → (t.que n).head = (s.que n).savedHead) ∧ QueueOnly s t) ∧
    (q < s.queues.length → x.assigned = true → x.resident = true → x.head = x.tail →
      ∃ t, exec (.queueSwitchOut q) s = .next t ∧ (t.que q).resident = false ∧ (t.que q).savedHead = x.head ∧ (t.que q).savedTail = x.tail ∧
        (t.que q).writing = none ∧ (t.que q).waiting = x.waiting ∧ QueueOnly s t) ∧
    ∀ fn v, q < s.queues.length → s.fw = .thavin → x.assigned = true → s.partOfFn fn = some x.part →
      (x.resident = true → let n := (v.setWidth 16 - x.head : BitVec 16).toNat
        ∃ t, exec (.qtailWrite fn q v) s = .next t ∧ (t.que q).tail = v.setWidth 16 ∧ QueueOnly s t ∧
          (n ≤ 2 ^ x.k → (t.que q).head = x.head ∧ (t.que q).code = x.code) ∧
          (2 ^ x.k < n → (t.que q).head = v.setWidth 16 ∧ (t.que q).code = 0x0E ∧ (t.que q).rejidx = x.head ∧ (t.que q).waiting = none ∧ (t.que q).writing = none)) ∧
      (x.resident = false → ∃ t, exec (.qtailWrite fn q v) s = .next t ∧ (t.que q).savedTail = v.setWidth 16 ∧ (t.que q).head = x.head ∧ QueueOnly s t)

namespace Sys2Proof.Claim

/-- A function's command of a sequence number has been answered: its status, its number, its answer, and MSI-X vector 0 (R380). -/
def AnsweredNo (s t : State) (fn : Fn) (n status : Nat) (data : List Byte) : Prop :=
  (∃ r ∈ t.replies, r.fn = fn ∧ r.status = status ∧ r.data = data ∧ r.seq = n) ∧
    (∀ r ∈ t.replies, r.fn ≠ fn → r ∈ s.replies) ∧ t.records.getLast? = some (.msix fn 0)

/-- The function's command, whose sequence number the host has written at 0x0040, has been answered. -/
def Answered (s t : State) (fn : Fn) (status : Nat) (data : List Byte) : Prop := AnsweredNo s t fn (s.cmdNo fn) status data

/-- The command gives an answer, and more. -/
def Does (s : State) (i : Instr) (fn : Fn) (data : List Byte) (P : State → Prop) : Prop := ∃ t, exec i s = .next t ∧ Answered s t fn 0 data ∧ P t

/-- A running device comes to a function's command: none of its earlier ones is under way (R380). -/
def Attends (s : State) (fn : Fn) : Prop := s.fw = .thavin ∧ s.cmdWaits fn = false

/-- A VF of a running device that serves a partition; the PF that owns the device (R371, R372). -/
def Serves (s : State) (fn : Fn) (p : Nat) : Prop := Attends s fn ∧ s.partOfFn fn = some p
def Owns (s : State) (fn : Fn) : Prop := Attends s fn ∧ fn.vf = none ∧ fn.port = s.ownerPort

/-- A context of a partition. -/
def Mine (s : State) (p a : Nat) : Prop := a < 64 ∧ (s.cx a).resident = true ∧ (s.cx a).part = p

end Sys2Proof.Claim

/-- R277, R301, R310, R312, R318, R342, R344, R348, R350 to R352, R368, R372, R376, R377, R380, R384, R386: what a VF's commands do and answer; one of the PF is refused with 0x11
(that code, and the identifier of a new context, are the model's choice, log 37; whose bytes a checkpoint holds in which order, log 43). -/
def Obligations.PartitionCommands : Prop :=
  ∀ (s : State) (fn : Fn) (p : Nat),
    (∀ i, i ∈ [Instr.setQwin fn 0, .partitionReset fn] ∨ (∃ x, i = .createContext fn x) ∨ (∃ a, i = .destroyContext fn a) ∨ (∃ x, i = .loadObject fn x) ∨
        (∃ n x, i = .writeGateEntry fn n x) ∨ (∃ g, i = .pageFaultRefuse fn g) ∨ (∃ x, i = .checkpoint fn x) ∨ (∃ x, i = .restore fn x) ∨ (∃ q, i = .destroyQueue fn q) →
      Attends s fn → fn.vf = none → ∃ t, exec i s = .next t ∧ Answered s t fn 0x11 [] ∧ Still s t) ∧
    (Serves s fn p →
      (∀ x a, s.freeCtx = some a → x.regions.length = 16 → (∀ r ∈ x.regions, regionOk r = true) → 1 ≤ x.dom → x.dom ≤ 63 → x.trapBase.toNat % 256 = 0 → x.wdlim < 2 ^ 32 →
        s.domainCtx p x.dom = none → Does s (.createContext fn x) fn [BitVec.ofNat 8 (a % 256)] fun t => (t.cx a).resident = true ∧ (t.cx a).part = p ∧
          (t.cx a).dom = x.dom ∧ (t.cx a).regions.toList = x.regions ∧ (t.cx a).trapBase = x.trapBase ∧ (t.cx a).wdlim = x.wdlim ∧ (∀ b, b ≠ a → t.cx b = s.cx b) ∧ Still s t) ∧
      (∀ a, Mine s p a → Does s (.destroyContext fn a) fn [] fun t => (t.cx a).resident = false ∧ (∀ b, b ≠ a → (t.cx b).resident = (s.cx b).resident) ∧
          .terminated a ∈ t.records ∧ (∀ l, l < s.launches.length → (s.lch l).ctx = a → (t.lch l).finished = true) ∧ t.mem = s.mem) ∧
      (∀ x o va b k, let a := s.loadCtx fn
        x.object = some o → s.loadFn fn = 2 → s.loadCode p a (s.loadOverride fn) o = none → Mine s p a → s.loadResv fn = false → 1 ≤ s.loadSize fn →
        s.loadSize fn ≤ 2 ^ 32 → o.sections = [(va, [b])] → s.placeOf a va = some k → o.gates = [] → s.writeBlocked (sectorOf k) = false → s.mem.wf = true → Does s (.loadObject fn x) fn [] fun t => t.mem.read k = b ∧
          (t.cx a).kernels = (s.cx a).kernels ++ o.kernels ∧ (t.cx a).sigblocks = (s.cx a).sigblocks ++ o.sigblocks ∧ SameRegs s t) ∧
      (∀ n x, n < 256 → Does s (.writeGateEntry fn n x) fn [] fun t => t.gateEntry p n = x ∧ (∀ k, k ≠ n → t.gateEntry p k = s.gateEntry p k) ∧ Still s t) ∧
      (∀ a va n, Mine s p a → ∃ t i, exec (.invalidate fn a va n) s = .next t ∧ t.invals = s.invals ++ [i] ∧ i.ctx = a ∧ i.va = va ∧ i.size = (if n = 0 then none else some n) ∧
        i.fn = some (fn, s.cmdNo fn) ∧ i.done = false ∧ t.replies = s.replies ∧ Still s t) ∧
      (∀ g r pa v, s.faultOf g = some r → s.partOf g = p → pa % 8 = 0 → (s.partHbm p).1 ≤ pa → pa < (s.partHbm p).2 → pa < 0x6000000000 → s.mem.wf = true →
        Does s (.pageFaultMap fn g [(pa, v)]) fn [] fun t => (t.grp g).st = .run ∧ (t.grp g).replay = none ∧ SameRegs s t ∧
          ∀ i, i < 8 → t.mem.read (pa + i) = v.extractLsb' (8 * i) 8) ∧
      (∀ g r h, let s1 := (s.enterRun g).endService g
        s.faultOf g = some r → s.partOf g = p → State.recordAwaited (s.grp g) = false → (s.grp g).arch.emu = none → (s.grp g).arch.regs.tf.inHandler = false → (s.grp g).stepping = false →
        s1.trapEntry g .pageFault = .handler h →
        Does s (.pageFaultRefuse fn g) fn [] fun t => (t.grp g).st = .run ∧ (t.grp g).arch.pc = h ∧ (t.grp g).arch.regs.tf.inHandler = true ∧
          (t.grp g).arch.regs.tf.pc = (s.grp g).arch.pc ∧ (t.grp g).arch.regs.sv 1 = (s.grp g).arch.pc ∧ (t.grp g).arch.regs.sv 2 = r.va ∧ t.mem = s.mem) ∧
      (∀ x, State.lowest (s.ckptCauses p x) = none → (s.ckptOf p).pending = none → State.unsealed (s.ckptOf p) = none →
        ∃ t, exec (.checkpoint fn x) s = .next t ∧ (t.ckptOf p).pending = some x ∧ (t.ckptOf p).slots = (s.ckptOf p).slots ∧ t.replies = s.replies ∧
          (t.ckptOf p).cmd = some (fn, s.cmdNo fn) ∧ t.mem = s.mem ∧ ((∀ g, (s.grp g).fences = []) → Still s t)) ∧
      (∀ x, State.lowest (s.ckptCauses p x) = none → (s.ckptOf p).pending ≠ none ∨ State.unsealed (s.ckptOf p) ≠ none →
        ∃ t, exec (.checkpoint fn x) s = .next t ∧ (t.ckptOf p).waiting = (s.ckptOf p).waiting ++ [(x, fn, s.cmdNo fn)] ∧
          (t.ckptOf p).pending = (s.ckptOf p).pending ∧ (t.ckptOf p).slots = (s.ckptOf p).slots ∧ t.replies = s.replies ∧ Still s t) ∧
      (∀ x k m tm, State.lowest (s.ckptCauses p x) = none → s.chooseSlot p x = some k → k.head.ndev = x.ndev → k.head.shape = shapeWord s.parts.length p → k.teamIds = [m] →
        k.teams = [tm] → tm.st ≠ .finished → m < s.teams.length → Does s (.restore fn x) fn [] fun t => (t.tm m).st = .preempted ∧ (t.tm m).stash = tm.stash ∧
          (t.tm m).accs = tm.accs ∧ (t.tm m).bars = tm.bars) ∧
      (∀ x k, State.lowest (s.ckptCauses p x) = none → s.chooseSlot p x = some k → k.head.ndev ≠ x.ndev → ∃ t, exec (.restore fn x) s = .next t ∧ Answered s t fn 0x16 [] ∧ Still s t) ∧
      (∀ a q prio k ring, Mine s p a → q < 64 → q < s.queues.length → (s.que q).assigned = false → prio ≤ 7 → 4 ≤ k → k ≤ 16 → ring.toNat % (64 * 2 ^ k) = 0 →
        Does s (.createQueue fn a q prio k ring) fn [] fun t => t.que q = { Queue.absent with assigned := true, ctx := a, part := p, prio := prio, k := k, ring := ring } ∧
          (∀ r, r ≠ q → t.que r = s.que r) ∧ Still s t) ∧
      (∀ q, q < 64 → (s.que q).assigned = true → (s.que q).part = p → Does s (.destroyQueue fn q) fn [] fun t => (t.que q).assigned = false ∧ Still s t) ∧
      (∀ v, Does s (.setQwin fn v) fn [] fun t => (t.prt p).qwin.toNat = max 96 (min 1024 (v.toNat % 2048)) ∧ Still s t) ∧
      (∀ x, x.fresh = true → Does s (.returnEnergySnapshot fn x) fn [] fun t => (t.prt p).closed = false ∧ (t.prt p).energy.total = Energy.zero ∧
          (t.prt p).energy.start = s.clk ∧ Still s t) ∧
      (∀ x, x.fresh = false → snapOk p ((s.power.emitted[p]?).getD none) x = true → Does s (.returnEnergySnapshot fn x) fn [] fun t => (t.prt p).closed = false ∧
          (t.prt p).energy.total = snapEnergy x.bytes ∧ (t.prt p).energy.seq = leNat ((x.bytes.drop 8).take 8) + 1 ∧ Still s t) ∧
      (∀ x, x.fresh = false → snapOk p ((s.power.emitted[p]?).getD none) x = false → ∃ t, exec (.returnEnergySnapshot fn x) s = .next t ∧ Answered s t fn 0x16 [] ∧ t.parts = s.parts ∧ Still s t) ∧
      Does s (.partitionReset fn) fn [] fun t => (t.prt p).closed = true ∧ (∀ a, a < s.ctxs.length → (s.cx a).part = p → (t.cx a).resident = false) ∧
        (∀ q, q < s.queues.length → (s.que q).assigned = true → (s.que q).part = p → (t.que q).resident = false ∧ (t.que q).resetFlag = true ∧
          (t.que q).savedTail = if (s.que q).resident then (s.que q).tail else (s.que q).savedTail) ∧ t.mem = s.mem)

/-- R310, R336, R344, R350, R351, R359, R360, R364, R372, R374, R375, R380, R383, R385: what the device owner's commands and those of any function do and answer; invalidations complete, and
checkpoints are captured and sealed. -/
def Obligations.OwnerCommands : Prop :=
  ∀ (s : State) (fn : Fn),
    (Owns s fn →
      (∀ n, n = 1 ∨ n = 2 ∨ n = 4 ∨ n = 8 → (∀ p, p < s.parts.length → s.partEmpty p = true) → Does s (.partitionDevice fn n) fn [] fun t => t.parts.length = n ∧
        (∀ x ∈ t.parts, x.owner = s.ownerPort ∧ x.qwin = 96 ∧ x.gates = [] ∧ x.closed = false) ∧ (∀ k, k < 2 ^ 52 → t.mem.read k = 0) ∧
        (∀ k, 2 ^ 52 ≤ k → t.mem.read k = s.mem.read k) ∧ SameRegs s t) ∧
      (∀ v, Does s (.writePcap fn v) fn [] fun t => t.power.pcap = s.power.pcap ∧ Still s t ∧ ∃ r, t.power.pcapReq = some r ∧ CapOk r ∧
        r.toNat % 4096 = max 800 (min 2000 (v.toNat % 4096)) ∧ r.getLsbD 24 = v.getLsbD 24) ∧
      (∀ cl r, cl < 48 → cl < s.clusters.length → Does s (.setClusterRatio fn cl (match r with | .half => 0 | .one => 1 | .two => 2)) fn [] fun t =>
        (t.clu cl).ratioReq = some r ∧ (t.clu cl).ratio = (s.clu cl).ratio ∧ Still s t) ∧
      (∀ p, p < s.parts.length → (∀ m, m < s.teams.length → s.resident m = true → (s.lch (s.tm m).launch).part ≠ p) → (∀ l ∈ s.launches, l.part = p → l.finished = true) →
        (∀ q ∈ s.queues, q.assigned = true → q.part = p → State.pendingCount q = 0) →
        Does s (.transferOwnership fn p) fn [] fun t => (t.prt p).owner = 1 - (s.prt p).owner ∧ (∀ k, k ≠ p → t.prt k = s.prt k) ∧ Still s t) ∧
      ∀ n, n ≤ 15 → Does s (.setDomainMembership fn n) fn [] fun t => t.domIndex = some n ∧ Still s t) ∧
    (Attends s fn → fn.vf = none ∨ s.partOfFn fn ≠ none →
      (∀ nonce, nonce.length = 32 → let r := nonce ++ s.imageDigest ++ [BitVec.ofNat 8 (s.parts.length % 256)]
        Does s (.attestationReport fn nonce) fn (r ++ (Config.signature r).toList) (Still s)) ∧
      ∀ code, ∃ t, exec (.malformedCommand fn code) s = .next t ∧ Answered s t fn 0x10 [BitVec.ofNat 8 (code % 256)] ∧ Still s t) ∧
    (Attends s fn → fn.vf = none → fn.port ≠ s.ownerPort → ∀ i, (∃ n, i = .partitionDevice fn n) ∨ (∃ v, i = .writePcap fn v) ∨ (∃ c n, i = .setClusterRatio fn c n) ∨
        (∃ p, i = .transferOwnership fn p) ∨ (∃ n, i = .setDomainMembership fn n) → ∃ t, exec i s = .next t ∧ Answered s t fn 0x11 [] ∧ Still s t) ∧
    (∀ g r pa v, s.fw = .thavin → s.faultOf g = some r → pa % 8 = 0 → pa < 0x6000000000 → s.mem.wf = true →
      ∃ t, exec (.thavinFaultResolution g [(pa, v)]) s = .next t ∧ (t.grp g).st = .run ∧ (t.grp g).replay = none ∧ SameRegs s t ∧
        ∀ i, i < 8 → t.mem.read (pa + i) = v.extractLsb' (8 * i) 8) ∧
    (∀ k i, s.invals[k]? = some i → i.done = false → i.mark = none →
      ∃ t, exec (.invalidationComplete k) s = .next t ∧ (t.invals[k]?.map (·.mark)) = some (some (s.nextSeq, s.nextId)) ∧
        (∀ g j, (s.grp g).arch.ctx = i.ctx → g < s.groups.length → s.resident (s.grp g).team = true → j < 8 → ((t.grp g).arch.regs.x[j]?.map (·.stale)) = some true) ∧
        (∀ c h, c < s.cores.length → h ∈ (t.cor c).held → h.ctx = i.ctx → inInval i h.va 4 = false) ∧
        ∀ c h, c < s.cores.length → h ∈ (t.cor c).tlb → h.ctx = i.ctx → inInval i h.va h.size = false) ∧
    (∀ k i a b f n, s.invals[k]? = some i → i.done = false → i.mark = some (a, b) → i.fn = some (f, n) → i.page = none → i.ctx < s.ctxs.length → (∀ m ∈ s.teams, m.held = []) →
      s.invalOver k i.ctx a b = true →
      ∃ t, exec (.invalidationComplete k) s = .next t ∧ (t.invals[k]?.map (·.done)) = some true ∧ AnsweredNo s t f n 0 [] ∧ t.mem = s.mem ∧
        (t.cx i.ctx).inval = (s.cx i.ctx).inval + 1) ∧
    (∀ p os x, s.mem.wf = true → (s.ckptOf p).pending = some x → s.jobStill x.ctxs = true → State.sharesHere x os = true →
      ∃ t i k, exec (.checkpointSeal { part := p, others := os }) s = .next t ∧ (t.ckptOf p).pending = none ∧ i < 2 ∧ (t.ckptOf p).slots[i]? = some (some k) ∧ k.head.gen = State.lastGen (s.ckptOf p) + 1 ∧
        k.header = none ∧ k.head.ndev = x.ndev ∧ k.index = x.index ∧ k.teamIds = s.jobTeams x.ctxs ∧ k.head.crc = crc64 k.data ∧
        k.units = deviceUnits x.ndev x.index k.data ∧ SameRegs s t ∧
        ∀ a, (∀ r ∈ x.ranges, a < r.1 ∨ r.1 + r.2 ≤ a) → t.mem.read a = s.mem.read a) ∧
    (∀ p os i k f n, (s.ckptOf p).pending = none → State.unsealed (s.ckptOf p) = some (i, k) → (s.ckptOf p).cmd = some (f, n) → (s.ckptOf p).waiting = [] →
      ∃ t x, exec (.checkpointSeal { part := p, others := os }) s = .next t ∧ (t.ckptOf p).slots[i]? = some (some x) ∧ x.header = some (headerBytes x) ∧
        x.data = k.data ∧ x.head = k.head ∧ (t.ckptOf p).cmd = none ∧ AnsweredNo s t f n 0 [] ∧ Still s t) ∧
    ∀ p os i k w ws, (s.ckptOf p).pending = none → State.unsealed (s.ckptOf p) = some (i, k) → (s.ckptOf p).waiting = w :: ws →
      ∃ t x, exec (.checkpointSeal { part := p, others := os }) s = .next t ∧ (t.ckptOf p).slots[i]? = some (some x) ∧ x.header = some (headerBytes x) ∧
        (t.ckptOf p).pending = some w.1 ∧ (t.ckptOf p).cmd = some w.2 ∧ (t.ckptOf p).waiting = ws

namespace Sys2Proof.Claim

/-- No berth holds a sector, and none is on its way back. -/
def Unheld (s : State) : Prop := (∀ m ∈ s.teams, m.held = []) ∧ ∀ x ∈ s.groups, x.wbsets = []

/-- An access from outside reaches its bytes: one of a domain device to this device's HBM, a VF's to its partition's stacks, or the device owner's (R371,
R372, R383). `who` is the number that its answer bears. -/
def Reaches (s : State) (i : Instr) (who addr n : Nat) (x : OutsideAccess) : Prop :=
  s.fw = .thavin ∧ Unheld s ∧ s.mem.wf = true ∧
    ((i = .peerAccessArrival who addr x ∧ s.domIndex ≠ none ∧ addr + n ≤ 0x6000000000) ∨
      ∃ fn, i = .hostDmaAccess fn addr x ∧ who = 16 + fn.port ∧
        ((∃ p, s.partOfFn fn = some p ∧ (s.partHbm p).1 ≤ addr ∧ addr + n ≤ (s.partHbm p).2) ∨
          s.partOfFn fn = none ∧ fn.vf = none ∧ fn.port = s.ownerPort ∧ addr + n ≤ 0x6000000000))

/-- Bytes of memory as one little-endian value (R6). -/
def valueAt (s : State) (a n : Nat) : Nat := leNat ((List.range n).map fun i => s.mem.read (a + i))

/-- An atomic access from outside to bytes that no cluster holds: they take the new value and the answer is the old. -/
def Swapped (s : State) (i : Instr) (who addr n new : Nat) : Prop :=
  Uncached s → ∃ t, exec i s = .next t ∧ Wrote s t addr n new ∧ SameRegs s t ∧
    t.records.getLast? = some (.reply who addr ((List.range n).map fun i => s.mem.read (addr + i)) false)

/-- No poison on bytes at their points of coherence. -/
def Clean (s : State) (a n : Nat) : Prop := ∀ i, i < n → (a + i) / 64 ∉ s.poison

end Sys2Proof.Claim

/-- R23 to R29, R222, R335, R336, R382, R383: a flit arrives, crosses a link, waits for a link's retry, or is dropped at an invalid entry; a link retries 16
times, then its edge has failed; a failed
router and an uncorrectable dirty line; a peer that does not complete; accesses from outside; and a frame sent again. That both ends of a link fail, and the form of an answer to
outside, are the model's choice (log 44, log 45). -/
def Obligations.FabricAndPeerSteps : Prop :=
  ∀ (s : State),
    (∀ f, s.flits = [f] →
      (f.age = 0 → ∃ t, exec .flitAdvance s = .next t ∧ t.flits = [{ f with age := 1 }] ∧ Still s t ∧ t.droppedFlits = s.droppedFlits) ∧
      (∀ d, 0 < f.age → f.dests = [d] →
        (∀ h, s.hopOf f.die f.at_ d = some h → h.local_ f = true → h.link = none →
          ∃ t, exec .flitAdvance s = .next t ∧ t.flits = [] ∧ t.droppedFlits = s.droppedFlits ∧ t.records = s.records ∧ Still s t) ∧
        (∀ h l n, s.hopOf f.die f.at_ d = some h → h.local_ f = false → h.link = some l → h.at_ = .edge n → s.linkBusy l f = false →
          ∃ t, exec .flitAdvance s = .next t ∧ Still s t ∧
            t.flits = [{ f with age := f.age + 1, die := h.die, at_ := .edge n, inp := h.inp, holding := false }]) ∧
        (∀ h l, s.hopOf f.die f.at_ d = some h → h.link = some l → s.linkBusy l f = true →
          ∃ t, exec .flitAdvance s = .next t ∧ Still s t ∧ t.flits = [{ f with age := f.age + 1 }] ∧ t.droppedFlits = s.droppedFlits ∧
            ∀ r ∈ t.linkRetries, r.busy = false) ∧
        (s.hopOf f.die f.at_ d = none →
          ∃ t, exec .flitAdvance s = .next t ∧ t.flits = [] ∧ t.droppedFlits = s.droppedFlits + 1 ∧
            t.records = s.records ++ [.routerFault f.die (nodeOf f.at_)] ∧ Still s t))) ∧
    (∀ l p, (∀ r ∈ s.linkRetries, ¬(r.link = l ∧ r.plane = p)) →
      ∃ t, exec (.linkCrcRetry l p) s = .next t ∧
        t.linkRetries = s.linkRetries ++ [{ link := l, plane := p, tries := 1, busy := true, flit := (s.nextOver l p).map (·.id) }] ∧
        t.routers = s.routers ∧ Still s t) ∧
    (∀ l p r, s.linkRetries = [r] → r.link = l → r.plane = p →
      (∀ f, f.plane = p → r.flit = some f.id → r.busy = false → s.linkBusy l f = false) ∧
      (∀ f i, f.plane = p → r.flit = some i → i ≠ f.id → s.linkBusy l f = true) ∧
      (∀ i, r.tries < 16 → r.flit = some i → ∃ t, exec (.linkCrcRetry l p) s = .next t ∧ t.linkRetries = [{ r with tries := r.tries + 1, busy := true }] ∧
        t.routers = s.routers ∧ Still s t) ∧
      (r.tries = 16 → ∃ t, exec (.linkCrcRetry l p) s = .next t ∧ t.linkRetries = [] ∧ t.mem = s.mem ∧ let (x, y, e) := linkEnds l
        ∀ k r, k = 53 * x + e ∨ k = 53 * y + e → s.routers[k]? = some r → t.routers[k]? = some { r with failed := true })) ∧
    (∀ d n r, s.routers[53 * d + n]? = some r → let p := s.partOfCluster (12 * d + 6 * (n / 24))
      ∃ t, exec (.routerFailure d n) s = .next t ∧ t.routers[53 * d + n]? = some { r with failed := true } ∧ .routerFault d n ∈ t.records ∧ t.mem = s.mem ∧
        (∀ f ∈ t.flits, ¬(f.die = d ∧ nodeOf f.at_ = n)) ∧ (n < 48 → p < s.parts.length → (t.prt p).closed = true)) ∧
    (∀ l w o, s.owned.find? (fun x => x.line == l) = some o →
      ∃ t, exec (.dirtyLineError l w) s = .next t ∧ (t.cx o.owner).resident = false ∧ .terminated o.owner ∈ t.records ∧ (∀ i, i < 4 → 4 * l + i ∈ t.poison) ∧
        (∀ x ∈ t.owned, x.line ≠ l) ∧ l / 256 ∈ t.retiredPages ∧ t.retiredWays = s.retiredWays ++ [(sliceOf (256 * l), w)] ∧ (Uncached s → t.mem = s.mem) ∧
        ∀ a, a < s.ctxs.length → (s.cx a).resident = true → a ≠ o.owner → ∃ i ∈ t.invals, i.ctx = a ∧ i.size = none ∧ i.page = some (l / 256, o.owner) ∧ i.done = false) ∧
    (∀ g l ls, g < s.groups.length → (s.grp g).loads = l :: ls → l.peers ≠ [] →
      ∃ t l1, exec (.peerTimeout (.load g)) s = .next t ∧ (t.grp g).loads = l1 :: ls ∧ l1.peers = [] ∧ l1.spoison = true ∧ l1.dst = l.dst ∧
        l1.vals.map (·.1) = l.vals.map (·.1) ∧ (∀ v ∈ l1.vals, if v.1 ∈ l.peers then v.2.2 = true else v ∈ l.vals) ∧
        t.records = s.records ++ [.other s.clk (some (s.partOf g)) "PEER_LOAD" 0 g] ∧ Still s t) ∧
    (∀ g e sec ws, s.coreOf g < s.cores.length → s.poundOf g = [e] → e.gid = g → e.cleared = true → e.kind = .store sec ws false → 3 * 2 ^ 52 ≤ sec →
      ∃ t, exec (.peerTimeout (.store g)) s = .next t ∧ (t.cor (s.coreOf g)).pound = [] ∧ t.records = s.records ++ [.other s.clk (some (s.partOf g)) "PEER_STORE" 0 g] ∧ Still s t) ∧
    (∀ cl sec x, cl < s.clusters.length → s.csector cl sec = some x → 3 * 2 ^ 52 ≤ sec → (∃ k b, sectorOf k = sec ∧ s.cbyte cl k = some b ∧ b.dirty = true) →
      ∃ t, exec (.peerTimeout (.writeBack cl sec)) s = .next t ∧ t.records = s.records ++ [.other s.clk (some (s.cx x.writer).part) "PEER_STORE" 0 sec] ∧ Still s t ∧
        (∀ k b, sectorOf k = sec → t.cbyte cl k = some b → b.dirty = false ∧ s.cbyte cl k = some b) ∧ ∀ k, sectorOf k ≠ sec → t.cbyte cl k = s.cbyte cl k) ∧
    (∀ g b, g < s.groups.length → GoesOn s (s.grp g).team → (s.grp g).wbsets = [b] → b.cleared = true → b.bytes ≠ [] → (∀ w ∈ b.bytes, 3 * 2 ^ 52 ≤ w.1) →
      ∃ t, exec (.peerTimeout (.set g)) s = .next t ∧ (t.grp g).wbsets = [] ∧ (t.grp g).cst = (s.grp g).cst - 1 ∧
        t.records = s.records ++ [.other s.clk (some (s.partOf g)) "PEER_STORE" 0 g] ∧ Still s t) ∧
    (∀ m h, m < s.teams.length → (s.tm m).held = [h] → h.dirty ≠ 0 → 3 * 2 ^ 52 ≤ h.key →
      ∃ t, exec (.peerTimeout (.held m h.key)) s = .next t ∧ (t.tm m).held = [] ∧
        t.records = s.records ++ [.other s.clk (some (s.lch (s.tm m).launch).part) "PEER_STORE" 0 h.key] ∧ Still s t) ∧
    (∀ a q h, (me s).atom = some a → a.reqs.find? (fun q => isPeerKey q.key) = some q →
      let s1 := s.modG s.cur fun x => { x with atom := none, arch := { x.arch with pc := a.pc, regs := { x.arch.regs with sig := a.sig0 } } }
      State.recordAwaited (me s) = false → Delivers s1 .poison h →
      ∃ t, exec (.peerTimeout (.atom s.cur)) s = .next t ∧ Entered s1 t (.at_ .poison q.va) a.word h ∧ (t.grp s.cur).atom = none ∧ t.mem = s.mem) ∧
    (∀ core k c, core < s.cores.length → s.copyOf core k = some c → c.form = 2 → c.cleared = true → (∃ e ∈ c.elems, 3 * 2 ^ 52 ≤ e.1.key) →
      s.resident (s.grp c.gid).team = true → GoesOn s (s.grp c.gid).team →
      ∃ t, exec (.peerTimeout (.cpyr core k)) s = .next t ∧ (∀ x ∈ (t.cor core).copies, x.id ≠ k) ∧ t.records = s.records ++ [.other s.clk (some (s.partOf c.gid)) "PEER_CPYR" 0 k] ∧
        (t.grp c.gid).ccpy = (s.grp c.gid).ccpy - 1 ∧ t.teams = s.teams ∧ Still s t) ∧
    (∀ i who a,
      (∀ n, Reaches s i who a n (.read n) → ∃ t bad, exec i s = .next t ∧ (bad = false ↔ Clean s a n) ∧ Still s t ∧
        t.records = s.records ++ [.reply who a ((List.range n).map fun i => s.mem.read (a + i)) bad]) ∧
      (∀ d po, Reaches s i who a d.length (.write d po) → ∃ t, exec i s = .next t ∧ (∀ k, k < d.length → some (t.mem.read (a + k)) = d[k]?) ∧
        (∀ k, k < a ∨ a + d.length ≤ k → t.mem.read k = s.mem.read k) ∧ (po = true → ∀ k, k < d.length → (a + k) / 64 ∈ t.poison) ∧ SameRegs s t) ∧
      (∀ v, Clean s a 8 →
        (Reaches s i who a 8 (.fetchAdd true v) → Swapped s i who a 8 ((valueAt s a 8 + v.toNat) % 2 ^ 64)) ∧
        (Reaches s i who a 8 (.swap true v) → Swapped s i who a 8 v.toNat) ∧
        (∀ c, Reaches s i who a 8 (.cas true c v) → Swapped s i who a 8 (if valueAt s a 8 = c.toNat then v.toNat else valueAt s a 8))) ∧
      (∀ v, Clean s a 4 →
        (Reaches s i who a 4 (.fetchAdd false v) → Swapped s i who a 4 ((valueAt s a 4 + v.toNat) % 2 ^ 32)) ∧
        (Reaches s i who a 4 (.swap false v) → Swapped s i who a 4 (v.toNat % 2 ^ 32)) ∧
        (∀ c, Reaches s i who a 4 (.cas false c v) →
          Swapped s i who a 4 (if valueAt s a 4 = c.toNat % 2 ^ 32 then v.toNat % 2 ^ 32 else valueAt s a 4))) ∧
      (∀ f v, i = .peerAccessArrival who a (.atomic f v) → Clean s a (atBytes f) → Reaches s i who a (atBytes f) (.atomic f v) →
        Swapped s i who a (atBytes f) (atApply f (BitVec.ofNat 64 (valueAt s a (atBytes f))) v).1.toNat)) ∧
    ∀ port n, exec (.transportRetransmit port n) s = .next s

/-- R8, R372, R373, R381, R385, R388 to R395: registers written from outside, trace packets, halt, resume and step of a group, surveys, power-up, boot and the loss of
a port's link; a request of a VF on a port that does not own its partition completes with Unsupported Request. Where the image and its
signature stand in the firmware window is the model's choice (log 66). -/
def Obligations.HostAndDebugSteps : Prop :=
  ∀ (s : State),
    (∀ fn p v, s.partOfFn fn = some p →
      (∀ i, i < 8 → ∃ t, exec (.registerWrite fn { bar := 0, off := 0x100 + 8 * i } v) s = .next t ∧ (t.prt p).mailbox[i]? = some v ∧
        (∀ k, k ≠ i → (t.prt p).mailbox[k]? = (s.prt p).mailbox[k]?) ∧ Still s t) ∧
      (∀ j, j < 384 / s.parts.length → let c := p * (384 / s.parts.length) + j
        c < s.cores.length → ∃ t, exec (.registerWrite fn { bar := 0, off := 0x2000 + 16 * j + 8 } v) s = .next t ∧ Still s t ∧ t.parts = s.parts ∧
          (t.cor c).trcptr.toNat = v.toNat / 2 ^ 32 * 2 ^ 32 + (s.cor c).trcptr.toNat % 2 ^ 32) ∧
      (∀ a i, Mine s p a → i ≤ 20 → ∃ t, exec (.registerWrite fn { bar := 0, off := 0x4000 + 256 * a + 8 * i } v) s = .next t ∧ Still s t ∧
        (t.cx a).debug[i]? = some (v &&& if i < 4 then 0x01FFFFFFFFFFFFFD else if i = 20 then 3 else if i % 2 = 1 then 0x3FFFFFFFF
          else if i < 12 then 0x7FFFF else BitVec.allOnes 64) ∧
        (∀ k, k ≠ i → (t.cx a).debug[k]? = (s.cx a).debug[k]?) ∧ ∀ b, b ≠ a → t.cx b = s.cx b)) ∧
    (∀ fn off v, fn.vf = none ∨ s.partOfFn fn ≠ none → let a : BarAddr := { bar := 0, off := off }
      (off < 0x48 → ∃ t, exec (.registerWrite fn a v) s = .next t ∧ (fn, a, v) ∈ t.hostRegs ∧ (∀ y ∈ t.hostRegs, y.1 = fn → y.2.1 = a → y = (fn, a, v)) ∧
        (∀ y ∈ s.hostRegs, ¬(y.1 = fn ∧ y.2.1 = a) → y ∈ t.hostRegs) ∧ Still s t) ∧
      exec (.registerWrite fn { bar := 0, off := 0x48 } v) s = .next s) ∧
    (∀ fn p j v, s.partOfFn fn = some p → j < 384 / s.parts.length → let core := p * (384 / s.parts.length) + j
      let size := min 8 (v.toNat / 2 ^ 12 % 16)
      let base := v.toNat / 2 ^ 16 % 2 ^ 36 * 2 ^ 16
      let h := s.partHbm (s.partOfCluster (core / 8))
      let en := v.getLsbD 0 = true ∧ base % 2 ^ (16 + size) = 0 ∧ h.1 ≤ base ∧ base + 2 ^ (16 + size) ≤ h.2
      core < s.cores.length → ∃ t, exec (.trcctlWrite { fn := fn, n := j } v) s = .next t ∧ Still s t ∧ (t.cor core).trcctl.toNat / 2 = base / 2 + size * 2 ^ 11 ∧
        ((t.cor core).trcctl.getLsbD 0 = true ↔ en) ∧ (t.cor core).trcptr = if v.getLsbD 0 then 0 else (s.cor core).trcptr) ∧
    (∀ core, core < s.cores.length → (s.cor core).trcctl.getLsbD 0 = true → State.ringRoom (s.cor core) = true → s.mem.wf = true → let k := s.cor core
      let a := k.trcctl.toNat / 2 ^ 16 % 2 ^ 36 * 2 ^ 16 + 32 * (k.trcptr.toNat % 2 ^ 32 % (2 ^ (16 + k.trcctl.toNat / 2 ^ 12 % 16) / 32))
      let wrote := fun (t : State) (type : Nat) (v : Nat) => Wrote s t a 32 (type + 0xFF * 2 ^ 8 + v % 2 ^ 64 * 2 ^ 64) ∧ SameRegs s t ∧
        (t.cor core).trcptr.toNat = k.trcptr.toNat / 2 ^ 32 * 2 ^ 32 + (k.trcptr.toNat % 2 ^ 32 + 1) % 2 ^ 32
      (k.tsdWrote = true → s.clk % 4096 = 0 → k.lossDue = false →
        ∃ t, exec (.traceTsd core) s = .next t ∧ wrote t 4 (s.clk - k.tsdBase) ∧ (t.cor core).tsdWrote = false ∧ (t.cor core).tsdBase = s.clk) ∧
      (k.lossDue = true →
        ∃ t, exec (.traceLoss core) s = .next t ∧ wrote t 5 k.dropped ∧ (t.cor core).dropped = 0 ∧ (t.cor core).lossDue = false ∧
          ∀ (n : Nat) (x : SlotTrace), (t.cor core).slots[n]? = some x → x.afterLoss = true)) ∧
    (∀ a v g, s.debugGroup a v 1 = some g → (s.grp g).st ≠ .halt →
      ((s.grp g).reaches = [] → (s.grp g).atom = none → (s.grp g).verdict = none → ∃ t, exec (.debugHalt a v) s = .next t ∧ (t.grp g).st = .halt ∧ (t.grp g).held = some (s.grp g).st ∧ Still s t) ∧
      ((s.grp g).reaches ≠ [] → ∃ t, exec (.debugHalt a v) s = .next t ∧ (t.grp g).st = (s.grp g).st ∧ (t.grp g).haltReq = true ∧ Still s t)) ∧
    (∀ a v g st, (s.grp g).st = .halt → (s.grp g).held = some st →
      (s.debugGroup a v 2 = some g → ∃ t, exec (.debugResume a v) s = .next t ∧ (t.grp g).st = st ∧ (t.grp g).held = none ∧ (t.grp g).stepping = false ∧ Still s t) ∧
      (s.debugGroup a v 3 = some g → ∃ t, exec (.debugStep a v) s = .next t ∧ (t.grp g).st = st ∧ (t.grp g).held = none ∧ (t.grp g).stepping = true ∧ Still s t)) ∧
    (∀ fn x, fn.vf = none →
      (∃ t, exec (.surveyRequest fn x false) s = .next t ∧ Still s t ∧
        t.records = s.records ++ [.survey (s.surveyData x) false ((s.objectPart x).any fun p => (s.prt p).closed)]) ∧
      ∀ g, x = .groupImage g → s.resident (s.grp g).team = true → (s.cor (s.coreOf g)).paused = true →
        ∃ t, exec (.surveyRequest fn x true) s = .next t ∧ Still s t ∧ t.records = s.records ∧ t.surveys = s.surveys ++ [(fn, x, [s.coreOf g], false)]) ∧
    (∀ fn x b, fn.vf ≠ none → s.partOfFn fn ≠ none → s.objectPart x ≠ s.partOfFn fn → x ≠ .identity → (∀ a, x ≠ .reg fn a) → exec (.surveyRequest fn x b) s = .next s) ∧
    (∀ fn p i, Attends s fn → fn.vf = some p → p < s.parts.length → (s.prt p).owner ≠ fn.port →
      (i ∈ [Instr.setQwin fn 0, .partitionReset fn, .writePcap fn 0, .malformedCommand fn 0, .surveyRequest fn .identity false, .registerWrite fn { bar := 0, off := 0 } 0, .qtailWrite fn 0 0,
        .trcctlWrite { fn := fn, n := 0 } 0, .debugHalt { fn := fn, n := 0 } 1, .debugResume { fn := fn, n := 0 } 2, .debugStep { fn := fn, n := 0 } 3,
        .hostDmaAccess fn 0 (.read 4), .attestationReport fn []] → exec i s = .next (s.record (.unsupported fn)))) ∧
    (∀ fn g r0, s.surveys = [(fn, .groupImage g, [s.coreOf g], r0)] →
      ∃ t d r, exec (.surveyFlushTimeout (s.coreOf g)) s = .next t ∧ Still s t ∧ t.surveys = [] ∧
        t.records = s.records ++ [.survey d (s.cor (s.coreOf g)).paused r] ∧ (r0 = true → r = true) ∧
        ((s.cor (s.coreOf g)).paused = true → d = s.surveyData (.groupImage g))) ∧
    (∀ a b, exec (.powerUp a b) s = .next { State.reset with fw := .rom, link0 := a, link1 := b, ownerPort := if a then 0 else 1, agenda := s.agenda }) ∧
    (∀ fn len, let image := s.windowBytes fn 0 len
      let ok := len + 512 ≤ 2 ^ 26 ∧ Config.vendorVerifies image (s.windowBytes fn len 512) = true
      (s.fw = .rom → fn.vf = none → fn.port = s.ownerPort →
        (ok → ∃ t, exec (.firmwareGo fn len) s = .next t ∧ t.fw = .thavin ∧ t.romStatus = 0 ∧
          t.imageDigest = (sha512 image).toList ∧ t.parts.length = 1 ∧ (t.prt 0).owner = s.ownerPort ∧ (t.prt 0).closed = false ∧
          (t.prt 0).qwin = 96 ∧ t.routers.length = 212 ∧ Still s t) ∧
        (¬ok → ∃ t, exec (.firmwareGo fn len) s = .next t ∧ t.fw = .rom ∧ t.romStatus ≠ 0 ∧ t.parts = s.parts ∧ Still s t)) ∧
      (s.fw ≠ .rom ∨ fn.vf ≠ none ∨ fn.port ≠ s.ownerPort → exec (.firmwareGo fn len) s = .next s)) ∧
    ∀ x : LinkLoss, x.port ≤ 1 → let other := 1 - x.port
      let link := fun (t : State) (n : Nat) => if n = 0 then t.link0 else t.link1
      let claimed := (∃ f, x.claim = some f ∧ f.vf = none ∧ f.port = other) ∨ (x.claim = none ∧ s.fw = .rom)
      (link s other = true → claimed → ∃ t, exec (.ownerLinkDown x) s = .next t ∧ t.ownerPort = other ∧ link t x.port = false ∧ link t other = true ∧
        t.parts.length = s.parts.length ∧ (∀ p, p < s.parts.length → (t.prt p).owner = if (s.prt p).owner = x.port then other else (s.prt p).owner) ∧ Still s t) ∧
      (link s other = false ∨ ¬claimed → ∃ t, exec (.ownerLinkDown x) s = .next t ∧ t.ownerPort = s.ownerPort ∧ link t x.port = false ∧ t.parts = s.parts ∧ Still s t)
end

