-- ==== Sys2Proof/Laws/State.lean ====
section
/-! SUPPORT. What each accessor of the tables changes: one lemma per field of the state and update, and what the
tables read as after an update. -/

namespace Sys2Proof.Machine.State

/-! `modG` changes `groups` only. -/

@[simp] theorem modG_clk (s : State) (g : Nat) (f : Group → Group) : (s.modG g f).clk = s.clk := rfl
@[simp] theorem modG_fw (s : State) (g : Nat) (f : Group → Group) : (s.modG g f).fw = s.fw := rfl
@[simp] theorem modG_romStatus (s : State) (g : Nat) (f : Group → Group) : (s.modG g f).romStatus = s.romStatus := rfl
@[simp] theorem modG_imageDigest (s : State) (g : Nat) (f : Group → Group) : (s.modG g f).imageDigest = s.imageDigest := rfl
@[simp] theorem modG_link0 (s : State) (g : Nat) (f : Group → Group) : (s.modG g f).link0 = s.link0 := rfl
@[simp] theorem modG_link1 (s : State) (g : Nat) (f : Group → Group) : (s.modG g f).link1 = s.link1 := rfl
@[simp] theorem modG_ownerPort (s : State) (g : Nat) (f : Group → Group) : (s.modG g f).ownerPort = s.ownerPort := rfl
@[simp] theorem modG_domIndex (s : State) (g : Nat) (f : Group → Group) : (s.modG g f).domIndex = s.domIndex := rfl
@[simp] theorem modG_nextReach (s : State) (g : Nat) (f : Group → Group) : (s.modG g f).nextReach = s.nextReach := rfl
@[simp] theorem modG_nextSeq (s : State) (g : Nat) (f : Group → Group) : (s.modG g f).nextSeq = s.nextSeq := rfl
@[simp] theorem modG_nextId (s : State) (g : Nat) (f : Group → Group) : (s.modG g f).nextId = s.nextId := rfl
@[simp] theorem modG_freeCtr (s : State) (g : Nat) (f : Group → Group) : (s.modG g f).freeCtr = s.freeCtr := rfl
@[simp] theorem modG_agenda (s : State) (g : Nat) (f : Group → Group) : (s.modG g f).agenda = s.agenda := rfl
@[simp] theorem modG_ecc (s : State) (g : Nat) (f : Group → Group) : (s.modG g f).ecc = s.ecc := rfl
@[simp] theorem modG_selected (s : State) (g : Nat) (f : Group → Group) : (s.modG g f).selected = s.selected := rfl
@[simp] theorem modG_cur (s : State) (g : Nat) (f : Group → Group) : (s.modG g f).cur = s.cur := rfl
@[simp] theorem modG_mem (s : State) (g : Nat) (f : Group → Group) : (s.modG g f).mem = s.mem := rfl
@[simp] theorem modG_poison (s : State) (g : Nat) (f : Group → Group) : (s.modG g f).poison = s.poison := rfl
@[simp] theorem modG_teams (s : State) (g : Nat) (f : Group → Group) : (s.modG g f).teams = s.teams := rfl
@[simp] theorem modG_launches (s : State) (g : Nat) (f : Group → Group) : (s.modG g f).launches = s.launches := rfl
@[simp] theorem modG_cores (s : State) (g : Nat) (f : Group → Group) : (s.modG g f).cores = s.cores := rfl
@[simp] theorem modG_clusters (s : State) (g : Nat) (f : Group → Group) : (s.modG g f).clusters = s.clusters := rfl
@[simp] theorem modG_ctxs (s : State) (g : Nat) (f : Group → Group) : (s.modG g f).ctxs = s.ctxs := rfl
@[simp] theorem modG_parts (s : State) (g : Nat) (f : Group → Group) : (s.modG g f).parts = s.parts := rfl
@[simp] theorem modG_queues (s : State) (g : Nat) (f : Group → Group) : (s.modG g f).queues = s.queues := rfl
@[simp] theorem modG_invals (s : State) (g : Nat) (f : Group → Group) : (s.modG g f).invals = s.invals := rfl
@[simp] theorem modG_routers (s : State) (g : Nat) (f : Group → Group) : (s.modG g f).routers = s.routers := rfl
@[simp] theorem modG_flits (s : State) (g : Nat) (f : Group → Group) : (s.modG g f).flits = s.flits := rfl
@[simp] theorem modG_meshTurns (s : State) (g : Nat) (f : Group → Group) : (s.modG g f).meshTurns = s.meshTurns := rfl
@[simp] theorem modG_images (s : State) (g : Nat) (f : Group → Group) : (s.modG g f).images = s.images := rfl
@[simp] theorem modG_lines (s : State) (g : Nat) (f : Group → Group) : (s.modG g f).lines = s.lines := rfl
@[simp] theorem modG_droppedFlits (s : State) (g : Nat) (f : Group → Group) : (s.modG g f).droppedFlits = s.droppedFlits := rfl
@[simp] theorem modG_linkRetries (s : State) (g : Nat) (f : Group → Group) : (s.modG g f).linkRetries = s.linkRetries := rfl
@[simp] theorem modG_owned (s : State) (g : Nat) (f : Group → Group) : (s.modG g f).owned = s.owned := rfl
@[simp] theorem modG_staged (s : State) (g : Nat) (f : Group → Group) : (s.modG g f).staged = s.staged := rfl
@[simp] theorem modG_retiredWays (s : State) (g : Nat) (f : Group → Group) : (s.modG g f).retiredWays = s.retiredWays := rfl
@[simp] theorem modG_retiredPages (s : State) (g : Nat) (f : Group → Group) : (s.modG g f).retiredPages = s.retiredPages := rfl
@[simp] theorem modG_corrected (s : State) (g : Nat) (f : Group → Group) : (s.modG g f).corrected = s.corrected := rfl
@[simp] theorem modG_sensorsOff (s : State) (g : Nat) (f : Group → Group) : (s.modG g f).sensorsOff = s.sensorsOff := rfl
@[simp] theorem modG_records (s : State) (g : Nat) (f : Group → Group) : (s.modG g f).records = s.records := rfl
@[simp] theorem modG_replies (s : State) (g : Nat) (f : Group → Group) : (s.modG g f).replies = s.replies := rfl
@[simp] theorem modG_hostRegs (s : State) (g : Nat) (f : Group → Group) : (s.modG g f).hostRegs = s.hostRegs := rfl
@[simp] theorem modG_power (s : State) (g : Nat) (f : Group → Group) : (s.modG g f).power = s.power := rfl
@[simp] theorem modG_ownerEnergy (s : State) (g : Nat) (f : Group → Group) : (s.modG g f).ownerEnergy = s.ownerEnergy := rfl
@[simp] theorem modG_ckpts (s : State) (g : Nat) (f : Group → Group) : (s.modG g f).ckpts = s.ckpts := rfl
@[simp] theorem modG_sends (s : State) (g : Nat) (f : Group → Group) : (s.modG g f).sends = s.sends := rfl
@[simp] theorem modG_surveys (s : State) (g : Nat) (f : Group → Group) : (s.modG g f).surveys = s.surveys := rfl
@[simp] theorem modG_traffic (s : State) (g : Nat) (f : Group → Group) : (s.modG g f).traffic = s.traffic := rfl
@[simp] theorem modG_hops (s : State) (g : Nat) (f : Group → Group) : (s.modG g f).hops = s.hops := rfl
@[simp] theorem modG_slotNs (s : State) (g : Nat) (f : Group → Group) : (s.modG g f).slotNs = s.slotNs := rfl
@[simp] theorem modG_pubs (s : State) (g : Nat) (f : Group → Group) : (s.modG g f).pubs = s.pubs := rfl

/-! `modT` changes `teams` only. -/

@[simp] theorem modT_clk (s : State) (t : Nat) (f : Team → Team) : (s.modT t f).clk = s.clk := rfl
@[simp] theorem modT_fw (s : State) (t : Nat) (f : Team → Team) : (s.modT t f).fw = s.fw := rfl
@[simp] theorem modT_romStatus (s : State) (t : Nat) (f : Team → Team) : (s.modT t f).romStatus = s.romStatus := rfl
@[simp] theorem modT_imageDigest (s : State) (t : Nat) (f : Team → Team) : (s.modT t f).imageDigest = s.imageDigest := rfl
@[simp] theorem modT_link0 (s : State) (t : Nat) (f : Team → Team) : (s.modT t f).link0 = s.link0 := rfl
@[simp] theorem modT_link1 (s : State) (t : Nat) (f : Team → Team) : (s.modT t f).link1 = s.link1 := rfl
@[simp] theorem modT_ownerPort (s : State) (t : Nat) (f : Team → Team) : (s.modT t f).ownerPort = s.ownerPort := rfl
@[simp] theorem modT_domIndex (s : State) (t : Nat) (f : Team → Team) : (s.modT t f).domIndex = s.domIndex := rfl
@[simp] theorem modT_nextReach (s : State) (t : Nat) (f : Team → Team) : (s.modT t f).nextReach = s.nextReach := rfl
@[simp] theorem modT_nextSeq (s : State) (t : Nat) (f : Team → Team) : (s.modT t f).nextSeq = s.nextSeq := rfl
@[simp] theorem modT_nextId (s : State) (t : Nat) (f : Team → Team) : (s.modT t f).nextId = s.nextId := rfl
@[simp] theorem modT_freeCtr (s : State) (t : Nat) (f : Team → Team) : (s.modT t f).freeCtr = s.freeCtr := rfl
@[simp] theorem modT_agenda (s : State) (t : Nat) (f : Team → Team) : (s.modT t f).agenda = s.agenda := rfl
@[simp] theorem modT_ecc (s : State) (t : Nat) (f : Team → Team) : (s.modT t f).ecc = s.ecc := rfl
@[simp] theorem modT_selected (s : State) (t : Nat) (f : Team → Team) : (s.modT t f).selected = s.selected := rfl
@[simp] theorem modT_cur (s : State) (t : Nat) (f : Team → Team) : (s.modT t f).cur = s.cur := rfl
@[simp] theorem modT_mem (s : State) (t : Nat) (f : Team → Team) : (s.modT t f).mem = s.mem := rfl
@[simp] theorem modT_poison (s : State) (t : Nat) (f : Team → Team) : (s.modT t f).poison = s.poison := rfl
@[simp] theorem modT_groups (s : State) (t : Nat) (f : Team → Team) : (s.modT t f).groups = s.groups := rfl
@[simp] theorem modT_launches (s : State) (t : Nat) (f : Team → Team) : (s.modT t f).launches = s.launches := rfl
@[simp] theorem modT_cores (s : State) (t : Nat) (f : Team → Team) : (s.modT t f).cores = s.cores := rfl
@[simp] theorem modT_clusters (s : State) (t : Nat) (f : Team → Team) : (s.modT t f).clusters = s.clusters := rfl
@[simp] theorem modT_ctxs (s : State) (t : Nat) (f : Team → Team) : (s.modT t f).ctxs = s.ctxs := rfl
@[simp] theorem modT_parts (s : State) (t : Nat) (f : Team → Team) : (s.modT t f).parts = s.parts := rfl
@[simp] theorem modT_queues (s : State) (t : Nat) (f : Team → Team) : (s.modT t f).queues = s.queues := rfl
@[simp] theorem modT_invals (s : State) (t : Nat) (f : Team → Team) : (s.modT t f).invals = s.invals := rfl
@[simp] theorem modT_routers (s : State) (t : Nat) (f : Team → Team) : (s.modT t f).routers = s.routers := rfl
@[simp] theorem modT_flits (s : State) (t : Nat) (f : Team → Team) : (s.modT t f).flits = s.flits := rfl
@[simp] theorem modT_meshTurns (s : State) (t : Nat) (f : Team → Team) : (s.modT t f).meshTurns = s.meshTurns := rfl
@[simp] theorem modT_images (s : State) (t : Nat) (f : Team → Team) : (s.modT t f).images = s.images := rfl
@[simp] theorem modT_lines (s : State) (t : Nat) (f : Team → Team) : (s.modT t f).lines = s.lines := rfl
@[simp] theorem modT_droppedFlits (s : State) (t : Nat) (f : Team → Team) : (s.modT t f).droppedFlits = s.droppedFlits := rfl
@[simp] theorem modT_linkRetries (s : State) (t : Nat) (f : Team → Team) : (s.modT t f).linkRetries = s.linkRetries := rfl
@[simp] theorem modT_owned (s : State) (t : Nat) (f : Team → Team) : (s.modT t f).owned = s.owned := rfl
@[simp] theorem modT_staged (s : State) (t : Nat) (f : Team → Team) : (s.modT t f).staged = s.staged := rfl
@[simp] theorem modT_retiredWays (s : State) (t : Nat) (f : Team → Team) : (s.modT t f).retiredWays = s.retiredWays := rfl
@[simp] theorem modT_retiredPages (s : State) (t : Nat) (f : Team → Team) : (s.modT t f).retiredPages = s.retiredPages := rfl
@[simp] theorem modT_corrected (s : State) (t : Nat) (f : Team → Team) : (s.modT t f).corrected = s.corrected := rfl
@[simp] theorem modT_sensorsOff (s : State) (t : Nat) (f : Team → Team) : (s.modT t f).sensorsOff = s.sensorsOff := rfl
@[simp] theorem modT_records (s : State) (t : Nat) (f : Team → Team) : (s.modT t f).records = s.records := rfl
@[simp] theorem modT_replies (s : State) (t : Nat) (f : Team → Team) : (s.modT t f).replies = s.replies := rfl
@[simp] theorem modT_hostRegs (s : State) (t : Nat) (f : Team → Team) : (s.modT t f).hostRegs = s.hostRegs := rfl
@[simp] theorem modT_power (s : State) (t : Nat) (f : Team → Team) : (s.modT t f).power = s.power := rfl
@[simp] theorem modT_ownerEnergy (s : State) (t : Nat) (f : Team → Team) : (s.modT t f).ownerEnergy = s.ownerEnergy := rfl
@[simp] theorem modT_ckpts (s : State) (t : Nat) (f : Team → Team) : (s.modT t f).ckpts = s.ckpts := rfl
@[simp] theorem modT_sends (s : State) (t : Nat) (f : Team → Team) : (s.modT t f).sends = s.sends := rfl
@[simp] theorem modT_surveys (s : State) (t : Nat) (f : Team → Team) : (s.modT t f).surveys = s.surveys := rfl
@[simp] theorem modT_traffic (s : State) (t : Nat) (f : Team → Team) : (s.modT t f).traffic = s.traffic := rfl
@[simp] theorem modT_hops (s : State) (t : Nat) (f : Team → Team) : (s.modT t f).hops = s.hops := rfl
@[simp] theorem modT_slotNs (s : State) (t : Nat) (f : Team → Team) : (s.modT t f).slotNs = s.slotNs := rfl
@[simp] theorem modT_pubs (s : State) (t : Nat) (f : Team → Team) : (s.modT t f).pubs = s.pubs := rfl

/-! `modL` changes `launches` only. -/

@[simp] theorem modL_clk (s : State) (l : Nat) (f : Launch → Launch) : (s.modL l f).clk = s.clk := rfl
@[simp] theorem modL_fw (s : State) (l : Nat) (f : Launch → Launch) : (s.modL l f).fw = s.fw := rfl
@[simp] theorem modL_romStatus (s : State) (l : Nat) (f : Launch → Launch) : (s.modL l f).romStatus = s.romStatus := rfl
@[simp] theorem modL_imageDigest (s : State) (l : Nat) (f : Launch → Launch) : (s.modL l f).imageDigest = s.imageDigest := rfl
@[simp] theorem modL_link0 (s : State) (l : Nat) (f : Launch → Launch) : (s.modL l f).link0 = s.link0 := rfl
@[simp] theorem modL_link1 (s : State) (l : Nat) (f : Launch → Launch) : (s.modL l f).link1 = s.link1 := rfl
@[simp] theorem modL_ownerPort (s : State) (l : Nat) (f : Launch → Launch) : (s.modL l f).ownerPort = s.ownerPort := rfl
@[simp] theorem modL_domIndex (s : State) (l : Nat) (f : Launch → Launch) : (s.modL l f).domIndex = s.domIndex := rfl
@[simp] theorem modL_nextReach (s : State) (l : Nat) (f : Launch → Launch) : (s.modL l f).nextReach = s.nextReach := rfl
@[simp] theorem modL_nextSeq (s : State) (l : Nat) (f : Launch → Launch) : (s.modL l f).nextSeq = s.nextSeq := rfl
@[simp] theorem modL_nextId (s : State) (l : Nat) (f : Launch → Launch) : (s.modL l f).nextId = s.nextId := rfl
@[simp] theorem modL_freeCtr (s : State) (l : Nat) (f : Launch → Launch) : (s.modL l f).freeCtr = s.freeCtr := rfl
@[simp] theorem modL_agenda (s : State) (l : Nat) (f : Launch → Launch) : (s.modL l f).agenda = s.agenda := rfl
@[simp] theorem modL_ecc (s : State) (l : Nat) (f : Launch → Launch) : (s.modL l f).ecc = s.ecc := rfl
@[simp] theorem modL_selected (s : State) (l : Nat) (f : Launch → Launch) : (s.modL l f).selected = s.selected := rfl
@[simp] theorem modL_cur (s : State) (l : Nat) (f : Launch → Launch) : (s.modL l f).cur = s.cur := rfl
@[simp] theorem modL_mem (s : State) (l : Nat) (f : Launch → Launch) : (s.modL l f).mem = s.mem := rfl
@[simp] theorem modL_poison (s : State) (l : Nat) (f : Launch → Launch) : (s.modL l f).poison = s.poison := rfl
@[simp] theorem modL_groups (s : State) (l : Nat) (f : Launch → Launch) : (s.modL l f).groups = s.groups := rfl
@[simp] theorem modL_teams (s : State) (l : Nat) (f : Launch → Launch) : (s.modL l f).teams = s.teams := rfl
@[simp] theorem modL_cores (s : State) (l : Nat) (f : Launch → Launch) : (s.modL l f).cores = s.cores := rfl
@[simp] theorem modL_clusters (s : State) (l : Nat) (f : Launch → Launch) : (s.modL l f).clusters = s.clusters := rfl
@[simp] theorem modL_ctxs (s : State) (l : Nat) (f : Launch → Launch) : (s.modL l f).ctxs = s.ctxs := rfl
@[simp] theorem modL_parts (s : State) (l : Nat) (f : Launch → Launch) : (s.modL l f).parts = s.parts := rfl
@[simp] theorem modL_queues (s : State) (l : Nat) (f : Launch → Launch) : (s.modL l f).queues = s.queues := rfl
@[simp] theorem modL_invals (s : State) (l : Nat) (f : Launch → Launch) : (s.modL l f).invals = s.invals := rfl
@[simp] theorem modL_routers (s : State) (l : Nat) (f : Launch → Launch) : (s.modL l f).routers = s.routers := rfl
@[simp] theorem modL_flits (s : State) (l : Nat) (f : Launch → Launch) : (s.modL l f).flits = s.flits := rfl
@[simp] theorem modL_meshTurns (s : State) (l : Nat) (f : Launch → Launch) : (s.modL l f).meshTurns = s.meshTurns := rfl
@[simp] theorem modL_images (s : State) (l : Nat) (f : Launch → Launch) : (s.modL l f).images = s.images := rfl
@[simp] theorem modL_lines (s : State) (l : Nat) (f : Launch → Launch) : (s.modL l f).lines = s.lines := rfl
@[simp] theorem modL_droppedFlits (s : State) (l : Nat) (f : Launch → Launch) : (s.modL l f).droppedFlits = s.droppedFlits := rfl
@[simp] theorem modL_linkRetries (s : State) (l : Nat) (f : Launch → Launch) : (s.modL l f).linkRetries = s.linkRetries := rfl
@[simp] theorem modL_owned (s : State) (l : Nat) (f : Launch → Launch) : (s.modL l f).owned = s.owned := rfl
@[simp] theorem modL_staged (s : State) (l : Nat) (f : Launch → Launch) : (s.modL l f).staged = s.staged := rfl
@[simp] theorem modL_retiredWays (s : State) (l : Nat) (f : Launch → Launch) : (s.modL l f).retiredWays = s.retiredWays := rfl
@[simp] theorem modL_retiredPages (s : State) (l : Nat) (f : Launch → Launch) : (s.modL l f).retiredPages = s.retiredPages := rfl
@[simp] theorem modL_corrected (s : State) (l : Nat) (f : Launch → Launch) : (s.modL l f).corrected = s.corrected := rfl
@[simp] theorem modL_sensorsOff (s : State) (l : Nat) (f : Launch → Launch) : (s.modL l f).sensorsOff = s.sensorsOff := rfl
@[simp] theorem modL_records (s : State) (l : Nat) (f : Launch → Launch) : (s.modL l f).records = s.records := rfl
@[simp] theorem modL_replies (s : State) (l : Nat) (f : Launch → Launch) : (s.modL l f).replies = s.replies := rfl
@[simp] theorem modL_hostRegs (s : State) (l : Nat) (f : Launch → Launch) : (s.modL l f).hostRegs = s.hostRegs := rfl
@[simp] theorem modL_power (s : State) (l : Nat) (f : Launch → Launch) : (s.modL l f).power = s.power := rfl
@[simp] theorem modL_ownerEnergy (s : State) (l : Nat) (f : Launch → Launch) : (s.modL l f).ownerEnergy = s.ownerEnergy := rfl
@[simp] theorem modL_ckpts (s : State) (l : Nat) (f : Launch → Launch) : (s.modL l f).ckpts = s.ckpts := rfl
@[simp] theorem modL_sends (s : State) (l : Nat) (f : Launch → Launch) : (s.modL l f).sends = s.sends := rfl
@[simp] theorem modL_surveys (s : State) (l : Nat) (f : Launch → Launch) : (s.modL l f).surveys = s.surveys := rfl
@[simp] theorem modL_traffic (s : State) (l : Nat) (f : Launch → Launch) : (s.modL l f).traffic = s.traffic := rfl
@[simp] theorem modL_hops (s : State) (l : Nat) (f : Launch → Launch) : (s.modL l f).hops = s.hops := rfl
@[simp] theorem modL_slotNs (s : State) (l : Nat) (f : Launch → Launch) : (s.modL l f).slotNs = s.slotNs := rfl
@[simp] theorem modL_pubs (s : State) (l : Nat) (f : Launch → Launch) : (s.modL l f).pubs = s.pubs := rfl

/-! `modC` changes `cores` only. -/

@[simp] theorem modC_clk (s : State) (c : Nat) (f : Core → Core) : (s.modC c f).clk = s.clk := rfl
@[simp] theorem modC_fw (s : State) (c : Nat) (f : Core → Core) : (s.modC c f).fw = s.fw := rfl
@[simp] theorem modC_romStatus (s : State) (c : Nat) (f : Core → Core) : (s.modC c f).romStatus = s.romStatus := rfl
@[simp] theorem modC_imageDigest (s : State) (c : Nat) (f : Core → Core) : (s.modC c f).imageDigest = s.imageDigest := rfl
@[simp] theorem modC_link0 (s : State) (c : Nat) (f : Core → Core) : (s.modC c f).link0 = s.link0 := rfl
@[simp] theorem modC_link1 (s : State) (c : Nat) (f : Core → Core) : (s.modC c f).link1 = s.link1 := rfl
@[simp] theorem modC_ownerPort (s : State) (c : Nat) (f : Core → Core) : (s.modC c f).ownerPort = s.ownerPort := rfl
@[simp] theorem modC_domIndex (s : State) (c : Nat) (f : Core → Core) : (s.modC c f).domIndex = s.domIndex := rfl
@[simp] theorem modC_nextReach (s : State) (c : Nat) (f : Core → Core) : (s.modC c f).nextReach = s.nextReach := rfl
@[simp] theorem modC_nextSeq (s : State) (c : Nat) (f : Core → Core) : (s.modC c f).nextSeq = s.nextSeq := rfl
@[simp] theorem modC_nextId (s : State) (c : Nat) (f : Core → Core) : (s.modC c f).nextId = s.nextId := rfl
@[simp] theorem modC_freeCtr (s : State) (c : Nat) (f : Core → Core) : (s.modC c f).freeCtr = s.freeCtr := rfl
@[simp] theorem modC_agenda (s : State) (c : Nat) (f : Core → Core) : (s.modC c f).agenda = s.agenda := rfl
@[simp] theorem modC_ecc (s : State) (c : Nat) (f : Core → Core) : (s.modC c f).ecc = s.ecc := rfl
@[simp] theorem modC_selected (s : State) (c : Nat) (f : Core → Core) : (s.modC c f).selected = s.selected := rfl
@[simp] theorem modC_cur (s : State) (c : Nat) (f : Core → Core) : (s.modC c f).cur = s.cur := rfl
@[simp] theorem modC_mem (s : State) (c : Nat) (f : Core → Core) : (s.modC c f).mem = s.mem := rfl
@[simp] theorem modC_poison (s : State) (c : Nat) (f : Core → Core) : (s.modC c f).poison = s.poison := rfl
@[simp] theorem modC_groups (s : State) (c : Nat) (f : Core → Core) : (s.modC c f).groups = s.groups := rfl
@[simp] theorem modC_teams (s : State) (c : Nat) (f : Core → Core) : (s.modC c f).teams = s.teams := rfl
@[simp] theorem modC_launches (s : State) (c : Nat) (f : Core → Core) : (s.modC c f).launches = s.launches := rfl
@[simp] theorem modC_clusters (s : State) (c : Nat) (f : Core → Core) : (s.modC c f).clusters = s.clusters := rfl
@[simp] theorem modC_ctxs (s : State) (c : Nat) (f : Core → Core) : (s.modC c f).ctxs = s.ctxs := rfl
@[simp] theorem modC_parts (s : State) (c : Nat) (f : Core → Core) : (s.modC c f).parts = s.parts := rfl
@[simp] theorem modC_queues (s : State) (c : Nat) (f : Core → Core) : (s.modC c f).queues = s.queues := rfl
@[simp] theorem modC_invals (s : State) (c : Nat) (f : Core → Core) : (s.modC c f).invals = s.invals := rfl
@[simp] theorem modC_routers (s : State) (c : Nat) (f : Core → Core) : (s.modC c f).routers = s.routers := rfl
@[simp] theorem modC_flits (s : State) (c : Nat) (f : Core → Core) : (s.modC c f).flits = s.flits := rfl
@[simp] theorem modC_meshTurns (s : State) (c : Nat) (f : Core → Core) : (s.modC c f).meshTurns = s.meshTurns := rfl
@[simp] theorem modC_images (s : State) (c : Nat) (f : Core → Core) : (s.modC c f).images = s.images := rfl
@[simp] theorem modC_lines (s : State) (c : Nat) (f : Core → Core) : (s.modC c f).lines = s.lines := rfl
@[simp] theorem modC_droppedFlits (s : State) (c : Nat) (f : Core → Core) : (s.modC c f).droppedFlits = s.droppedFlits := rfl
@[simp] theorem modC_linkRetries (s : State) (c : Nat) (f : Core → Core) : (s.modC c f).linkRetries = s.linkRetries := rfl
@[simp] theorem modC_owned (s : State) (c : Nat) (f : Core → Core) : (s.modC c f).owned = s.owned := rfl
@[simp] theorem modC_staged (s : State) (c : Nat) (f : Core → Core) : (s.modC c f).staged = s.staged := rfl
@[simp] theorem modC_retiredWays (s : State) (c : Nat) (f : Core → Core) : (s.modC c f).retiredWays = s.retiredWays := rfl
@[simp] theorem modC_retiredPages (s : State) (c : Nat) (f : Core → Core) : (s.modC c f).retiredPages = s.retiredPages := rfl
@[simp] theorem modC_corrected (s : State) (c : Nat) (f : Core → Core) : (s.modC c f).corrected = s.corrected := rfl
@[simp] theorem modC_sensorsOff (s : State) (c : Nat) (f : Core → Core) : (s.modC c f).sensorsOff = s.sensorsOff := rfl
@[simp] theorem modC_records (s : State) (c : Nat) (f : Core → Core) : (s.modC c f).records = s.records := rfl
@[simp] theorem modC_replies (s : State) (c : Nat) (f : Core → Core) : (s.modC c f).replies = s.replies := rfl
@[simp] theorem modC_hostRegs (s : State) (c : Nat) (f : Core → Core) : (s.modC c f).hostRegs = s.hostRegs := rfl
@[simp] theorem modC_power (s : State) (c : Nat) (f : Core → Core) : (s.modC c f).power = s.power := rfl
@[simp] theorem modC_ownerEnergy (s : State) (c : Nat) (f : Core → Core) : (s.modC c f).ownerEnergy = s.ownerEnergy := rfl
@[simp] theorem modC_ckpts (s : State) (c : Nat) (f : Core → Core) : (s.modC c f).ckpts = s.ckpts := rfl
@[simp] theorem modC_sends (s : State) (c : Nat) (f : Core → Core) : (s.modC c f).sends = s.sends := rfl
@[simp] theorem modC_surveys (s : State) (c : Nat) (f : Core → Core) : (s.modC c f).surveys = s.surveys := rfl
@[simp] theorem modC_traffic (s : State) (c : Nat) (f : Core → Core) : (s.modC c f).traffic = s.traffic := rfl
@[simp] theorem modC_hops (s : State) (c : Nat) (f : Core → Core) : (s.modC c f).hops = s.hops := rfl
@[simp] theorem modC_slotNs (s : State) (c : Nat) (f : Core → Core) : (s.modC c f).slotNs = s.slotNs := rfl
@[simp] theorem modC_pubs (s : State) (c : Nat) (f : Core → Core) : (s.modC c f).pubs = s.pubs := rfl

/-! `modCl` changes `clusters` only. -/

@[simp] theorem modCl_clk (s : State) (c : Nat) (f : Cluster → Cluster) : (s.modCl c f).clk = s.clk := rfl
@[simp] theorem modCl_fw (s : State) (c : Nat) (f : Cluster → Cluster) : (s.modCl c f).fw = s.fw := rfl
@[simp] theorem modCl_romStatus (s : State) (c : Nat) (f : Cluster → Cluster) : (s.modCl c f).romStatus = s.romStatus := rfl
@[simp] theorem modCl_imageDigest (s : State) (c : Nat) (f : Cluster → Cluster) : (s.modCl c f).imageDigest = s.imageDigest := rfl
@[simp] theorem modCl_link0 (s : State) (c : Nat) (f : Cluster → Cluster) : (s.modCl c f).link0 = s.link0 := rfl
@[simp] theorem modCl_link1 (s : State) (c : Nat) (f : Cluster → Cluster) : (s.modCl c f).link1 = s.link1 := rfl
@[simp] theorem modCl_ownerPort (s : State) (c : Nat) (f : Cluster → Cluster) : (s.modCl c f).ownerPort = s.ownerPort := rfl
@[simp] theorem modCl_domIndex (s : State) (c : Nat) (f : Cluster → Cluster) : (s.modCl c f).domIndex = s.domIndex := rfl
@[simp] theorem modCl_nextReach (s : State) (c : Nat) (f : Cluster → Cluster) : (s.modCl c f).nextReach = s.nextReach := rfl
@[simp] theorem modCl_nextSeq (s : State) (c : Nat) (f : Cluster → Cluster) : (s.modCl c f).nextSeq = s.nextSeq := rfl
@[simp] theorem modCl_nextId (s : State) (c : Nat) (f : Cluster → Cluster) : (s.modCl c f).nextId = s.nextId := rfl
@[simp] theorem modCl_freeCtr (s : State) (c : Nat) (f : Cluster → Cluster) : (s.modCl c f).freeCtr = s.freeCtr := rfl
@[simp] theorem modCl_agenda (s : State) (c : Nat) (f : Cluster → Cluster) : (s.modCl c f).agenda = s.agenda := rfl
@[simp] theorem modCl_ecc (s : State) (c : Nat) (f : Cluster → Cluster) : (s.modCl c f).ecc = s.ecc := rfl
@[simp] theorem modCl_selected (s : State) (c : Nat) (f : Cluster → Cluster) : (s.modCl c f).selected = s.selected := rfl
@[simp] theorem modCl_cur (s : State) (c : Nat) (f : Cluster → Cluster) : (s.modCl c f).cur = s.cur := rfl
@[simp] theorem modCl_mem (s : State) (c : Nat) (f : Cluster → Cluster) : (s.modCl c f).mem = s.mem := rfl
@[simp] theorem modCl_poison (s : State) (c : Nat) (f : Cluster → Cluster) : (s.modCl c f).poison = s.poison := rfl
@[simp] theorem modCl_groups (s : State) (c : Nat) (f : Cluster → Cluster) : (s.modCl c f).groups = s.groups := rfl
@[simp] theorem modCl_teams (s : State) (c : Nat) (f : Cluster → Cluster) : (s.modCl c f).teams = s.teams := rfl
@[simp] theorem modCl_launches (s : State) (c : Nat) (f : Cluster → Cluster) : (s.modCl c f).launches = s.launches := rfl
@[simp] theorem modCl_cores (s : State) (c : Nat) (f : Cluster → Cluster) : (s.modCl c f).cores = s.cores := rfl
@[simp] theorem modCl_ctxs (s : State) (c : Nat) (f : Cluster → Cluster) : (s.modCl c f).ctxs = s.ctxs := rfl
@[simp] theorem modCl_parts (s : State) (c : Nat) (f : Cluster → Cluster) : (s.modCl c f).parts = s.parts := rfl
@[simp] theorem modCl_queues (s : State) (c : Nat) (f : Cluster → Cluster) : (s.modCl c f).queues = s.queues := rfl
@[simp] theorem modCl_invals (s : State) (c : Nat) (f : Cluster → Cluster) : (s.modCl c f).invals = s.invals := rfl
@[simp] theorem modCl_routers (s : State) (c : Nat) (f : Cluster → Cluster) : (s.modCl c f).routers = s.routers := rfl
@[simp] theorem modCl_flits (s : State) (c : Nat) (f : Cluster → Cluster) : (s.modCl c f).flits = s.flits := rfl
@[simp] theorem modCl_meshTurns (s : State) (c : Nat) (f : Cluster → Cluster) : (s.modCl c f).meshTurns = s.meshTurns := rfl
@[simp] theorem modCl_images (s : State) (c : Nat) (f : Cluster → Cluster) : (s.modCl c f).images = s.images := rfl
@[simp] theorem modCl_lines (s : State) (c : Nat) (f : Cluster → Cluster) : (s.modCl c f).lines = s.lines := rfl
@[simp] theorem modCl_droppedFlits (s : State) (c : Nat) (f : Cluster → Cluster) : (s.modCl c f).droppedFlits = s.droppedFlits := rfl
@[simp] theorem modCl_linkRetries (s : State) (c : Nat) (f : Cluster → Cluster) : (s.modCl c f).linkRetries = s.linkRetries := rfl
@[simp] theorem modCl_owned (s : State) (c : Nat) (f : Cluster → Cluster) : (s.modCl c f).owned = s.owned := rfl
@[simp] theorem modCl_staged (s : State) (c : Nat) (f : Cluster → Cluster) : (s.modCl c f).staged = s.staged := rfl
@[simp] theorem modCl_retiredWays (s : State) (c : Nat) (f : Cluster → Cluster) : (s.modCl c f).retiredWays = s.retiredWays := rfl
@[simp] theorem modCl_retiredPages (s : State) (c : Nat) (f : Cluster → Cluster) : (s.modCl c f).retiredPages = s.retiredPages := rfl
@[simp] theorem modCl_corrected (s : State) (c : Nat) (f : Cluster → Cluster) : (s.modCl c f).corrected = s.corrected := rfl
@[simp] theorem modCl_sensorsOff (s : State) (c : Nat) (f : Cluster → Cluster) : (s.modCl c f).sensorsOff = s.sensorsOff := rfl
@[simp] theorem modCl_records (s : State) (c : Nat) (f : Cluster → Cluster) : (s.modCl c f).records = s.records := rfl
@[simp] theorem modCl_replies (s : State) (c : Nat) (f : Cluster → Cluster) : (s.modCl c f).replies = s.replies := rfl
@[simp] theorem modCl_hostRegs (s : State) (c : Nat) (f : Cluster → Cluster) : (s.modCl c f).hostRegs = s.hostRegs := rfl
@[simp] theorem modCl_power (s : State) (c : Nat) (f : Cluster → Cluster) : (s.modCl c f).power = s.power := rfl
@[simp] theorem modCl_ownerEnergy (s : State) (c : Nat) (f : Cluster → Cluster) : (s.modCl c f).ownerEnergy = s.ownerEnergy := rfl
@[simp] theorem modCl_ckpts (s : State) (c : Nat) (f : Cluster → Cluster) : (s.modCl c f).ckpts = s.ckpts := rfl
@[simp] theorem modCl_sends (s : State) (c : Nat) (f : Cluster → Cluster) : (s.modCl c f).sends = s.sends := rfl
@[simp] theorem modCl_surveys (s : State) (c : Nat) (f : Cluster → Cluster) : (s.modCl c f).surveys = s.surveys := rfl
@[simp] theorem modCl_traffic (s : State) (c : Nat) (f : Cluster → Cluster) : (s.modCl c f).traffic = s.traffic := rfl
@[simp] theorem modCl_hops (s : State) (c : Nat) (f : Cluster → Cluster) : (s.modCl c f).hops = s.hops := rfl
@[simp] theorem modCl_slotNs (s : State) (c : Nat) (f : Cluster → Cluster) : (s.modCl c f).slotNs = s.slotNs := rfl
@[simp] theorem modCl_pubs (s : State) (c : Nat) (f : Cluster → Cluster) : (s.modCl c f).pubs = s.pubs := rfl

/-! `modX` changes `ctxs` only. -/

@[simp] theorem modX_clk (s : State) (c : Nat) (f : Ctx → Ctx) : (s.modX c f).clk = s.clk := rfl
@[simp] theorem modX_fw (s : State) (c : Nat) (f : Ctx → Ctx) : (s.modX c f).fw = s.fw := rfl
@[simp] theorem modX_romStatus (s : State) (c : Nat) (f : Ctx → Ctx) : (s.modX c f).romStatus = s.romStatus := rfl
@[simp] theorem modX_imageDigest (s : State) (c : Nat) (f : Ctx → Ctx) : (s.modX c f).imageDigest = s.imageDigest := rfl
@[simp] theorem modX_link0 (s : State) (c : Nat) (f : Ctx → Ctx) : (s.modX c f).link0 = s.link0 := rfl
@[simp] theorem modX_link1 (s : State) (c : Nat) (f : Ctx → Ctx) : (s.modX c f).link1 = s.link1 := rfl
@[simp] theorem modX_ownerPort (s : State) (c : Nat) (f : Ctx → Ctx) : (s.modX c f).ownerPort = s.ownerPort := rfl
@[simp] theorem modX_domIndex (s : State) (c : Nat) (f : Ctx → Ctx) : (s.modX c f).domIndex = s.domIndex := rfl
@[simp] theorem modX_nextReach (s : State) (c : Nat) (f : Ctx → Ctx) : (s.modX c f).nextReach = s.nextReach := rfl
@[simp] theorem modX_nextSeq (s : State) (c : Nat) (f : Ctx → Ctx) : (s.modX c f).nextSeq = s.nextSeq := rfl
@[simp] theorem modX_nextId (s : State) (c : Nat) (f : Ctx → Ctx) : (s.modX c f).nextId = s.nextId := rfl
@[simp] theorem modX_freeCtr (s : State) (c : Nat) (f : Ctx → Ctx) : (s.modX c f).freeCtr = s.freeCtr := rfl
@[simp] theorem modX_agenda (s : State) (c : Nat) (f : Ctx → Ctx) : (s.modX c f).agenda = s.agenda := rfl
@[simp] theorem modX_ecc (s : State) (c : Nat) (f : Ctx → Ctx) : (s.modX c f).ecc = s.ecc := rfl
@[simp] theorem modX_selected (s : State) (c : Nat) (f : Ctx → Ctx) : (s.modX c f).selected = s.selected := rfl
@[simp] theorem modX_cur (s : State) (c : Nat) (f : Ctx → Ctx) : (s.modX c f).cur = s.cur := rfl
@[simp] theorem modX_mem (s : State) (c : Nat) (f : Ctx → Ctx) : (s.modX c f).mem = s.mem := rfl
@[simp] theorem modX_poison (s : State) (c : Nat) (f : Ctx → Ctx) : (s.modX c f).poison = s.poison := rfl
@[simp] theorem modX_groups (s : State) (c : Nat) (f : Ctx → Ctx) : (s.modX c f).groups = s.groups := rfl
@[simp] theorem modX_teams (s : State) (c : Nat) (f : Ctx → Ctx) : (s.modX c f).teams = s.teams := rfl
@[simp] theorem modX_launches (s : State) (c : Nat) (f : Ctx → Ctx) : (s.modX c f).launches = s.launches := rfl
@[simp] theorem modX_cores (s : State) (c : Nat) (f : Ctx → Ctx) : (s.modX c f).cores = s.cores := rfl
@[simp] theorem modX_clusters (s : State) (c : Nat) (f : Ctx → Ctx) : (s.modX c f).clusters = s.clusters := rfl
@[simp] theorem modX_parts (s : State) (c : Nat) (f : Ctx → Ctx) : (s.modX c f).parts = s.parts := rfl
@[simp] theorem modX_queues (s : State) (c : Nat) (f : Ctx → Ctx) : (s.modX c f).queues = s.queues := rfl
@[simp] theorem modX_invals (s : State) (c : Nat) (f : Ctx → Ctx) : (s.modX c f).invals = s.invals := rfl
@[simp] theorem modX_routers (s : State) (c : Nat) (f : Ctx → Ctx) : (s.modX c f).routers = s.routers := rfl
@[simp] theorem modX_flits (s : State) (c : Nat) (f : Ctx → Ctx) : (s.modX c f).flits = s.flits := rfl
@[simp] theorem modX_meshTurns (s : State) (c : Nat) (f : Ctx → Ctx) : (s.modX c f).meshTurns = s.meshTurns := rfl
@[simp] theorem modX_images (s : State) (c : Nat) (f : Ctx → Ctx) : (s.modX c f).images = s.images := rfl
@[simp] theorem modX_lines (s : State) (c : Nat) (f : Ctx → Ctx) : (s.modX c f).lines = s.lines := rfl
@[simp] theorem modX_droppedFlits (s : State) (c : Nat) (f : Ctx → Ctx) : (s.modX c f).droppedFlits = s.droppedFlits := rfl
@[simp] theorem modX_linkRetries (s : State) (c : Nat) (f : Ctx → Ctx) : (s.modX c f).linkRetries = s.linkRetries := rfl
@[simp] theorem modX_owned (s : State) (c : Nat) (f : Ctx → Ctx) : (s.modX c f).owned = s.owned := rfl
@[simp] theorem modX_staged (s : State) (c : Nat) (f : Ctx → Ctx) : (s.modX c f).staged = s.staged := rfl
@[simp] theorem modX_retiredWays (s : State) (c : Nat) (f : Ctx → Ctx) : (s.modX c f).retiredWays = s.retiredWays := rfl
@[simp] theorem modX_retiredPages (s : State) (c : Nat) (f : Ctx → Ctx) : (s.modX c f).retiredPages = s.retiredPages := rfl
@[simp] theorem modX_corrected (s : State) (c : Nat) (f : Ctx → Ctx) : (s.modX c f).corrected = s.corrected := rfl
@[simp] theorem modX_sensorsOff (s : State) (c : Nat) (f : Ctx → Ctx) : (s.modX c f).sensorsOff = s.sensorsOff := rfl
@[simp] theorem modX_records (s : State) (c : Nat) (f : Ctx → Ctx) : (s.modX c f).records = s.records := rfl
@[simp] theorem modX_replies (s : State) (c : Nat) (f : Ctx → Ctx) : (s.modX c f).replies = s.replies := rfl
@[simp] theorem modX_hostRegs (s : State) (c : Nat) (f : Ctx → Ctx) : (s.modX c f).hostRegs = s.hostRegs := rfl
@[simp] theorem modX_power (s : State) (c : Nat) (f : Ctx → Ctx) : (s.modX c f).power = s.power := rfl
@[simp] theorem modX_ownerEnergy (s : State) (c : Nat) (f : Ctx → Ctx) : (s.modX c f).ownerEnergy = s.ownerEnergy := rfl
@[simp] theorem modX_ckpts (s : State) (c : Nat) (f : Ctx → Ctx) : (s.modX c f).ckpts = s.ckpts := rfl
@[simp] theorem modX_sends (s : State) (c : Nat) (f : Ctx → Ctx) : (s.modX c f).sends = s.sends := rfl
@[simp] theorem modX_surveys (s : State) (c : Nat) (f : Ctx → Ctx) : (s.modX c f).surveys = s.surveys := rfl
@[simp] theorem modX_traffic (s : State) (c : Nat) (f : Ctx → Ctx) : (s.modX c f).traffic = s.traffic := rfl
@[simp] theorem modX_hops (s : State) (c : Nat) (f : Ctx → Ctx) : (s.modX c f).hops = s.hops := rfl
@[simp] theorem modX_slotNs (s : State) (c : Nat) (f : Ctx → Ctx) : (s.modX c f).slotNs = s.slotNs := rfl
@[simp] theorem modX_pubs (s : State) (c : Nat) (f : Ctx → Ctx) : (s.modX c f).pubs = s.pubs := rfl

/-! `modP` changes `parts` only. -/

@[simp] theorem modP_clk (s : State) (p : Nat) (f : Part → Part) : (s.modP p f).clk = s.clk := rfl
@[simp] theorem modP_fw (s : State) (p : Nat) (f : Part → Part) : (s.modP p f).fw = s.fw := rfl
@[simp] theorem modP_romStatus (s : State) (p : Nat) (f : Part → Part) : (s.modP p f).romStatus = s.romStatus := rfl
@[simp] theorem modP_imageDigest (s : State) (p : Nat) (f : Part → Part) : (s.modP p f).imageDigest = s.imageDigest := rfl
@[simp] theorem modP_link0 (s : State) (p : Nat) (f : Part → Part) : (s.modP p f).link0 = s.link0 := rfl
@[simp] theorem modP_link1 (s : State) (p : Nat) (f : Part → Part) : (s.modP p f).link1 = s.link1 := rfl
@[simp] theorem modP_ownerPort (s : State) (p : Nat) (f : Part → Part) : (s.modP p f).ownerPort = s.ownerPort := rfl
@[simp] theorem modP_domIndex (s : State) (p : Nat) (f : Part → Part) : (s.modP p f).domIndex = s.domIndex := rfl
@[simp] theorem modP_nextReach (s : State) (p : Nat) (f : Part → Part) : (s.modP p f).nextReach = s.nextReach := rfl
@[simp] theorem modP_nextSeq (s : State) (p : Nat) (f : Part → Part) : (s.modP p f).nextSeq = s.nextSeq := rfl
@[simp] theorem modP_nextId (s : State) (p : Nat) (f : Part → Part) : (s.modP p f).nextId = s.nextId := rfl
@[simp] theorem modP_freeCtr (s : State) (p : Nat) (f : Part → Part) : (s.modP p f).freeCtr = s.freeCtr := rfl
@[simp] theorem modP_agenda (s : State) (p : Nat) (f : Part → Part) : (s.modP p f).agenda = s.agenda := rfl
@[simp] theorem modP_ecc (s : State) (p : Nat) (f : Part → Part) : (s.modP p f).ecc = s.ecc := rfl
@[simp] theorem modP_selected (s : State) (p : Nat) (f : Part → Part) : (s.modP p f).selected = s.selected := rfl
@[simp] theorem modP_cur (s : State) (p : Nat) (f : Part → Part) : (s.modP p f).cur = s.cur := rfl
@[simp] theorem modP_mem (s : State) (p : Nat) (f : Part → Part) : (s.modP p f).mem = s.mem := rfl
@[simp] theorem modP_poison (s : State) (p : Nat) (f : Part → Part) : (s.modP p f).poison = s.poison := rfl
@[simp] theorem modP_groups (s : State) (p : Nat) (f : Part → Part) : (s.modP p f).groups = s.groups := rfl
@[simp] theorem modP_teams (s : State) (p : Nat) (f : Part → Part) : (s.modP p f).teams = s.teams := rfl
@[simp] theorem modP_launches (s : State) (p : Nat) (f : Part → Part) : (s.modP p f).launches = s.launches := rfl
@[simp] theorem modP_cores (s : State) (p : Nat) (f : Part → Part) : (s.modP p f).cores = s.cores := rfl
@[simp] theorem modP_clusters (s : State) (p : Nat) (f : Part → Part) : (s.modP p f).clusters = s.clusters := rfl
@[simp] theorem modP_ctxs (s : State) (p : Nat) (f : Part → Part) : (s.modP p f).ctxs = s.ctxs := rfl
@[simp] theorem modP_queues (s : State) (p : Nat) (f : Part → Part) : (s.modP p f).queues = s.queues := rfl
@[simp] theorem modP_invals (s : State) (p : Nat) (f : Part → Part) : (s.modP p f).invals = s.invals := rfl
@[simp] theorem modP_routers (s : State) (p : Nat) (f : Part → Part) : (s.modP p f).routers = s.routers := rfl
@[simp] theorem modP_flits (s : State) (p : Nat) (f : Part → Part) : (s.modP p f).flits = s.flits := rfl
@[simp] theorem modP_meshTurns (s : State) (p : Nat) (f : Part → Part) : (s.modP p f).meshTurns = s.meshTurns := rfl
@[simp] theorem modP_images (s : State) (p : Nat) (f : Part → Part) : (s.modP p f).images = s.images := rfl
@[simp] theorem modP_lines (s : State) (p : Nat) (f : Part → Part) : (s.modP p f).lines = s.lines := rfl
@[simp] theorem modP_droppedFlits (s : State) (p : Nat) (f : Part → Part) : (s.modP p f).droppedFlits = s.droppedFlits := rfl
@[simp] theorem modP_linkRetries (s : State) (p : Nat) (f : Part → Part) : (s.modP p f).linkRetries = s.linkRetries := rfl
@[simp] theorem modP_owned (s : State) (p : Nat) (f : Part → Part) : (s.modP p f).owned = s.owned := rfl
@[simp] theorem modP_staged (s : State) (p : Nat) (f : Part → Part) : (s.modP p f).staged = s.staged := rfl
@[simp] theorem modP_retiredWays (s : State) (p : Nat) (f : Part → Part) : (s.modP p f).retiredWays = s.retiredWays := rfl
@[simp] theorem modP_retiredPages (s : State) (p : Nat) (f : Part → Part) : (s.modP p f).retiredPages = s.retiredPages := rfl
@[simp] theorem modP_corrected (s : State) (p : Nat) (f : Part → Part) : (s.modP p f).corrected = s.corrected := rfl
@[simp] theorem modP_sensorsOff (s : State) (p : Nat) (f : Part → Part) : (s.modP p f).sensorsOff = s.sensorsOff := rfl
@[simp] theorem modP_records (s : State) (p : Nat) (f : Part → Part) : (s.modP p f).records = s.records := rfl
@[simp] theorem modP_replies (s : State) (p : Nat) (f : Part → Part) : (s.modP p f).replies = s.replies := rfl
@[simp] theorem modP_hostRegs (s : State) (p : Nat) (f : Part → Part) : (s.modP p f).hostRegs = s.hostRegs := rfl
@[simp] theorem modP_power (s : State) (p : Nat) (f : Part → Part) : (s.modP p f).power = s.power := rfl
@[simp] theorem modP_ownerEnergy (s : State) (p : Nat) (f : Part → Part) : (s.modP p f).ownerEnergy = s.ownerEnergy := rfl
@[simp] theorem modP_ckpts (s : State) (p : Nat) (f : Part → Part) : (s.modP p f).ckpts = s.ckpts := rfl
@[simp] theorem modP_sends (s : State) (p : Nat) (f : Part → Part) : (s.modP p f).sends = s.sends := rfl
@[simp] theorem modP_surveys (s : State) (p : Nat) (f : Part → Part) : (s.modP p f).surveys = s.surveys := rfl
@[simp] theorem modP_traffic (s : State) (p : Nat) (f : Part → Part) : (s.modP p f).traffic = s.traffic := rfl
@[simp] theorem modP_hops (s : State) (p : Nat) (f : Part → Part) : (s.modP p f).hops = s.hops := rfl
@[simp] theorem modP_slotNs (s : State) (p : Nat) (f : Part → Part) : (s.modP p f).slotNs = s.slotNs := rfl
@[simp] theorem modP_pubs (s : State) (p : Nat) (f : Part → Part) : (s.modP p f).pubs = s.pubs := rfl

/-! `modQ` changes `queues` only. -/

@[simp] theorem modQ_clk (s : State) (q : Nat) (f : Queue → Queue) : (s.modQ q f).clk = s.clk := rfl
@[simp] theorem modQ_fw (s : State) (q : Nat) (f : Queue → Queue) : (s.modQ q f).fw = s.fw := rfl
@[simp] theorem modQ_romStatus (s : State) (q : Nat) (f : Queue → Queue) : (s.modQ q f).romStatus = s.romStatus := rfl
@[simp] theorem modQ_imageDigest (s : State) (q : Nat) (f : Queue → Queue) : (s.modQ q f).imageDigest = s.imageDigest := rfl
@[simp] theorem modQ_link0 (s : State) (q : Nat) (f : Queue → Queue) : (s.modQ q f).link0 = s.link0 := rfl
@[simp] theorem modQ_link1 (s : State) (q : Nat) (f : Queue → Queue) : (s.modQ q f).link1 = s.link1 := rfl
@[simp] theorem modQ_ownerPort (s : State) (q : Nat) (f : Queue → Queue) : (s.modQ q f).ownerPort = s.ownerPort := rfl
@[simp] theorem modQ_domIndex (s : State) (q : Nat) (f : Queue → Queue) : (s.modQ q f).domIndex = s.domIndex := rfl
@[simp] theorem modQ_nextReach (s : State) (q : Nat) (f : Queue → Queue) : (s.modQ q f).nextReach = s.nextReach := rfl
@[simp] theorem modQ_nextSeq (s : State) (q : Nat) (f : Queue → Queue) : (s.modQ q f).nextSeq = s.nextSeq := rfl
@[simp] theorem modQ_nextId (s : State) (q : Nat) (f : Queue → Queue) : (s.modQ q f).nextId = s.nextId := rfl
@[simp] theorem modQ_freeCtr (s : State) (q : Nat) (f : Queue → Queue) : (s.modQ q f).freeCtr = s.freeCtr := rfl
@[simp] theorem modQ_agenda (s : State) (q : Nat) (f : Queue → Queue) : (s.modQ q f).agenda = s.agenda := rfl
@[simp] theorem modQ_ecc (s : State) (q : Nat) (f : Queue → Queue) : (s.modQ q f).ecc = s.ecc := rfl
@[simp] theorem modQ_selected (s : State) (q : Nat) (f : Queue → Queue) : (s.modQ q f).selected = s.selected := rfl
@[simp] theorem modQ_cur (s : State) (q : Nat) (f : Queue → Queue) : (s.modQ q f).cur = s.cur := rfl
@[simp] theorem modQ_mem (s : State) (q : Nat) (f : Queue → Queue) : (s.modQ q f).mem = s.mem := rfl
@[simp] theorem modQ_poison (s : State) (q : Nat) (f : Queue → Queue) : (s.modQ q f).poison = s.poison := rfl
@[simp] theorem modQ_groups (s : State) (q : Nat) (f : Queue → Queue) : (s.modQ q f).groups = s.groups := rfl
@[simp] theorem modQ_teams (s : State) (q : Nat) (f : Queue → Queue) : (s.modQ q f).teams = s.teams := rfl
@[simp] theorem modQ_launches (s : State) (q : Nat) (f : Queue → Queue) : (s.modQ q f).launches = s.launches := rfl
@[simp] theorem modQ_cores (s : State) (q : Nat) (f : Queue → Queue) : (s.modQ q f).cores = s.cores := rfl
@[simp] theorem modQ_clusters (s : State) (q : Nat) (f : Queue → Queue) : (s.modQ q f).clusters = s.clusters := rfl
@[simp] theorem modQ_ctxs (s : State) (q : Nat) (f : Queue → Queue) : (s.modQ q f).ctxs = s.ctxs := rfl
@[simp] theorem modQ_parts (s : State) (q : Nat) (f : Queue → Queue) : (s.modQ q f).parts = s.parts := rfl
@[simp] theorem modQ_invals (s : State) (q : Nat) (f : Queue → Queue) : (s.modQ q f).invals = s.invals := rfl
@[simp] theorem modQ_routers (s : State) (q : Nat) (f : Queue → Queue) : (s.modQ q f).routers = s.routers := rfl
@[simp] theorem modQ_flits (s : State) (q : Nat) (f : Queue → Queue) : (s.modQ q f).flits = s.flits := rfl
@[simp] theorem modQ_meshTurns (s : State) (q : Nat) (f : Queue → Queue) : (s.modQ q f).meshTurns = s.meshTurns := rfl
@[simp] theorem modQ_images (s : State) (q : Nat) (f : Queue → Queue) : (s.modQ q f).images = s.images := rfl
@[simp] theorem modQ_lines (s : State) (q : Nat) (f : Queue → Queue) : (s.modQ q f).lines = s.lines := rfl
@[simp] theorem modQ_droppedFlits (s : State) (q : Nat) (f : Queue → Queue) : (s.modQ q f).droppedFlits = s.droppedFlits := rfl
@[simp] theorem modQ_linkRetries (s : State) (q : Nat) (f : Queue → Queue) : (s.modQ q f).linkRetries = s.linkRetries := rfl
@[simp] theorem modQ_owned (s : State) (q : Nat) (f : Queue → Queue) : (s.modQ q f).owned = s.owned := rfl
@[simp] theorem modQ_staged (s : State) (q : Nat) (f : Queue → Queue) : (s.modQ q f).staged = s.staged := rfl
@[simp] theorem modQ_retiredWays (s : State) (q : Nat) (f : Queue → Queue) : (s.modQ q f).retiredWays = s.retiredWays := rfl
@[simp] theorem modQ_retiredPages (s : State) (q : Nat) (f : Queue → Queue) : (s.modQ q f).retiredPages = s.retiredPages := rfl
@[simp] theorem modQ_corrected (s : State) (q : Nat) (f : Queue → Queue) : (s.modQ q f).corrected = s.corrected := rfl
@[simp] theorem modQ_sensorsOff (s : State) (q : Nat) (f : Queue → Queue) : (s.modQ q f).sensorsOff = s.sensorsOff := rfl
@[simp] theorem modQ_records (s : State) (q : Nat) (f : Queue → Queue) : (s.modQ q f).records = s.records := rfl
@[simp] theorem modQ_replies (s : State) (q : Nat) (f : Queue → Queue) : (s.modQ q f).replies = s.replies := rfl
@[simp] theorem modQ_hostRegs (s : State) (q : Nat) (f : Queue → Queue) : (s.modQ q f).hostRegs = s.hostRegs := rfl
@[simp] theorem modQ_power (s : State) (q : Nat) (f : Queue → Queue) : (s.modQ q f).power = s.power := rfl
@[simp] theorem modQ_ownerEnergy (s : State) (q : Nat) (f : Queue → Queue) : (s.modQ q f).ownerEnergy = s.ownerEnergy := rfl
@[simp] theorem modQ_ckpts (s : State) (q : Nat) (f : Queue → Queue) : (s.modQ q f).ckpts = s.ckpts := rfl
@[simp] theorem modQ_sends (s : State) (q : Nat) (f : Queue → Queue) : (s.modQ q f).sends = s.sends := rfl
@[simp] theorem modQ_surveys (s : State) (q : Nat) (f : Queue → Queue) : (s.modQ q f).surveys = s.surveys := rfl
@[simp] theorem modQ_traffic (s : State) (q : Nat) (f : Queue → Queue) : (s.modQ q f).traffic = s.traffic := rfl
@[simp] theorem modQ_hops (s : State) (q : Nat) (f : Queue → Queue) : (s.modQ q f).hops = s.hops := rfl
@[simp] theorem modQ_slotNs (s : State) (q : Nat) (f : Queue → Queue) : (s.modQ q f).slotNs = s.slotNs := rfl
@[simp] theorem modQ_pubs (s : State) (q : Nat) (f : Queue → Queue) : (s.modQ q f).pubs = s.pubs := rfl

/-! `modR` changes `groups` only. -/

@[simp] theorem modR_clk (s : State) (g : Nat) (f : Regs → Regs) : (s.modR g f).clk = s.clk := rfl
@[simp] theorem modR_fw (s : State) (g : Nat) (f : Regs → Regs) : (s.modR g f).fw = s.fw := rfl
@[simp] theorem modR_romStatus (s : State) (g : Nat) (f : Regs → Regs) : (s.modR g f).romStatus = s.romStatus := rfl
@[simp] theorem modR_imageDigest (s : State) (g : Nat) (f : Regs → Regs) : (s.modR g f).imageDigest = s.imageDigest := rfl
@[simp] theorem modR_link0 (s : State) (g : Nat) (f : Regs → Regs) : (s.modR g f).link0 = s.link0 := rfl
@[simp] theorem modR_link1 (s : State) (g : Nat) (f : Regs → Regs) : (s.modR g f).link1 = s.link1 := rfl
@[simp] theorem modR_ownerPort (s : State) (g : Nat) (f : Regs → Regs) : (s.modR g f).ownerPort = s.ownerPort := rfl
@[simp] theorem modR_domIndex (s : State) (g : Nat) (f : Regs → Regs) : (s.modR g f).domIndex = s.domIndex := rfl
@[simp] theorem modR_nextReach (s : State) (g : Nat) (f : Regs → Regs) : (s.modR g f).nextReach = s.nextReach := rfl
@[simp] theorem modR_nextSeq (s : State) (g : Nat) (f : Regs → Regs) : (s.modR g f).nextSeq = s.nextSeq := rfl
@[simp] theorem modR_nextId (s : State) (g : Nat) (f : Regs → Regs) : (s.modR g f).nextId = s.nextId := rfl
@[simp] theorem modR_freeCtr (s : State) (g : Nat) (f : Regs → Regs) : (s.modR g f).freeCtr = s.freeCtr := rfl
@[simp] theorem modR_agenda (s : State) (g : Nat) (f : Regs → Regs) : (s.modR g f).agenda = s.agenda := rfl
@[simp] theorem modR_ecc (s : State) (g : Nat) (f : Regs → Regs) : (s.modR g f).ecc = s.ecc := rfl
@[simp] theorem modR_selected (s : State) (g : Nat) (f : Regs → Regs) : (s.modR g f).selected = s.selected := rfl
@[simp] theorem modR_cur (s : State) (g : Nat) (f : Regs → Regs) : (s.modR g f).cur = s.cur := rfl
@[simp] theorem modR_mem (s : State) (g : Nat) (f : Regs → Regs) : (s.modR g f).mem = s.mem := rfl
@[simp] theorem modR_poison (s : State) (g : Nat) (f : Regs → Regs) : (s.modR g f).poison = s.poison := rfl
@[simp] theorem modR_teams (s : State) (g : Nat) (f : Regs → Regs) : (s.modR g f).teams = s.teams := rfl
@[simp] theorem modR_launches (s : State) (g : Nat) (f : Regs → Regs) : (s.modR g f).launches = s.launches := rfl
@[simp] theorem modR_cores (s : State) (g : Nat) (f : Regs → Regs) : (s.modR g f).cores = s.cores := rfl
@[simp] theorem modR_clusters (s : State) (g : Nat) (f : Regs → Regs) : (s.modR g f).clusters = s.clusters := rfl
@[simp] theorem modR_ctxs (s : State) (g : Nat) (f : Regs → Regs) : (s.modR g f).ctxs = s.ctxs := rfl
@[simp] theorem modR_parts (s : State) (g : Nat) (f : Regs → Regs) : (s.modR g f).parts = s.parts := rfl
@[simp] theorem modR_queues (s : State) (g : Nat) (f : Regs → Regs) : (s.modR g f).queues = s.queues := rfl
@[simp] theorem modR_invals (s : State) (g : Nat) (f : Regs → Regs) : (s.modR g f).invals = s.invals := rfl
@[simp] theorem modR_routers (s : State) (g : Nat) (f : Regs → Regs) : (s.modR g f).routers = s.routers := rfl
@[simp] theorem modR_flits (s : State) (g : Nat) (f : Regs → Regs) : (s.modR g f).flits = s.flits := rfl
@[simp] theorem modR_meshTurns (s : State) (g : Nat) (f : Regs → Regs) : (s.modR g f).meshTurns = s.meshTurns := rfl
@[simp] theorem modR_images (s : State) (g : Nat) (f : Regs → Regs) : (s.modR g f).images = s.images := rfl
@[simp] theorem modR_lines (s : State) (g : Nat) (f : Regs → Regs) : (s.modR g f).lines = s.lines := rfl
@[simp] theorem modR_droppedFlits (s : State) (g : Nat) (f : Regs → Regs) : (s.modR g f).droppedFlits = s.droppedFlits := rfl
@[simp] theorem modR_linkRetries (s : State) (g : Nat) (f : Regs → Regs) : (s.modR g f).linkRetries = s.linkRetries := rfl
@[simp] theorem modR_owned (s : State) (g : Nat) (f : Regs → Regs) : (s.modR g f).owned = s.owned := rfl
@[simp] theorem modR_staged (s : State) (g : Nat) (f : Regs → Regs) : (s.modR g f).staged = s.staged := rfl
@[simp] theorem modR_retiredWays (s : State) (g : Nat) (f : Regs → Regs) : (s.modR g f).retiredWays = s.retiredWays := rfl
@[simp] theorem modR_retiredPages (s : State) (g : Nat) (f : Regs → Regs) : (s.modR g f).retiredPages = s.retiredPages := rfl
@[simp] theorem modR_corrected (s : State) (g : Nat) (f : Regs → Regs) : (s.modR g f).corrected = s.corrected := rfl
@[simp] theorem modR_sensorsOff (s : State) (g : Nat) (f : Regs → Regs) : (s.modR g f).sensorsOff = s.sensorsOff := rfl
@[simp] theorem modR_records (s : State) (g : Nat) (f : Regs → Regs) : (s.modR g f).records = s.records := rfl
@[simp] theorem modR_replies (s : State) (g : Nat) (f : Regs → Regs) : (s.modR g f).replies = s.replies := rfl
@[simp] theorem modR_hostRegs (s : State) (g : Nat) (f : Regs → Regs) : (s.modR g f).hostRegs = s.hostRegs := rfl
@[simp] theorem modR_power (s : State) (g : Nat) (f : Regs → Regs) : (s.modR g f).power = s.power := rfl
@[simp] theorem modR_ownerEnergy (s : State) (g : Nat) (f : Regs → Regs) : (s.modR g f).ownerEnergy = s.ownerEnergy := rfl
@[simp] theorem modR_ckpts (s : State) (g : Nat) (f : Regs → Regs) : (s.modR g f).ckpts = s.ckpts := rfl
@[simp] theorem modR_sends (s : State) (g : Nat) (f : Regs → Regs) : (s.modR g f).sends = s.sends := rfl
@[simp] theorem modR_surveys (s : State) (g : Nat) (f : Regs → Regs) : (s.modR g f).surveys = s.surveys := rfl
@[simp] theorem modR_traffic (s : State) (g : Nat) (f : Regs → Regs) : (s.modR g f).traffic = s.traffic := rfl
@[simp] theorem modR_hops (s : State) (g : Nat) (f : Regs → Regs) : (s.modR g f).hops = s.hops := rfl
@[simp] theorem modR_slotNs (s : State) (g : Nat) (f : Regs → Regs) : (s.modR g f).slotNs = s.slotNs := rfl
@[simp] theorem modR_pubs (s : State) (g : Nat) (f : Regs → Regs) : (s.modR g f).pubs = s.pubs := rfl

/-! `modReach` changes `groups` only. -/

@[simp] theorem modReach_clk (s : State) (g : Nat) (f : Reach → Reach) : (s.modReach g f).clk = s.clk := rfl
@[simp] theorem modReach_fw (s : State) (g : Nat) (f : Reach → Reach) : (s.modReach g f).fw = s.fw := rfl
@[simp] theorem modReach_romStatus (s : State) (g : Nat) (f : Reach → Reach) : (s.modReach g f).romStatus = s.romStatus := rfl
@[simp] theorem modReach_imageDigest (s : State) (g : Nat) (f : Reach → Reach) : (s.modReach g f).imageDigest = s.imageDigest := rfl
@[simp] theorem modReach_link0 (s : State) (g : Nat) (f : Reach → Reach) : (s.modReach g f).link0 = s.link0 := rfl
@[simp] theorem modReach_link1 (s : State) (g : Nat) (f : Reach → Reach) : (s.modReach g f).link1 = s.link1 := rfl
@[simp] theorem modReach_ownerPort (s : State) (g : Nat) (f : Reach → Reach) : (s.modReach g f).ownerPort = s.ownerPort := rfl
@[simp] theorem modReach_domIndex (s : State) (g : Nat) (f : Reach → Reach) : (s.modReach g f).domIndex = s.domIndex := rfl
@[simp] theorem modReach_nextReach (s : State) (g : Nat) (f : Reach → Reach) : (s.modReach g f).nextReach = s.nextReach := rfl
@[simp] theorem modReach_nextSeq (s : State) (g : Nat) (f : Reach → Reach) : (s.modReach g f).nextSeq = s.nextSeq := rfl
@[simp] theorem modReach_nextId (s : State) (g : Nat) (f : Reach → Reach) : (s.modReach g f).nextId = s.nextId := rfl
@[simp] theorem modReach_freeCtr (s : State) (g : Nat) (f : Reach → Reach) : (s.modReach g f).freeCtr = s.freeCtr := rfl
@[simp] theorem modReach_agenda (s : State) (g : Nat) (f : Reach → Reach) : (s.modReach g f).agenda = s.agenda := rfl
@[simp] theorem modReach_ecc (s : State) (g : Nat) (f : Reach → Reach) : (s.modReach g f).ecc = s.ecc := rfl
@[simp] theorem modReach_selected (s : State) (g : Nat) (f : Reach → Reach) : (s.modReach g f).selected = s.selected := rfl
@[simp] theorem modReach_cur (s : State) (g : Nat) (f : Reach → Reach) : (s.modReach g f).cur = s.cur := rfl
@[simp] theorem modReach_mem (s : State) (g : Nat) (f : Reach → Reach) : (s.modReach g f).mem = s.mem := rfl
@[simp] theorem modReach_poison (s : State) (g : Nat) (f : Reach → Reach) : (s.modReach g f).poison = s.poison := rfl
@[simp] theorem modReach_teams (s : State) (g : Nat) (f : Reach → Reach) : (s.modReach g f).teams = s.teams := rfl
@[simp] theorem modReach_launches (s : State) (g : Nat) (f : Reach → Reach) : (s.modReach g f).launches = s.launches := rfl
@[simp] theorem modReach_cores (s : State) (g : Nat) (f : Reach → Reach) : (s.modReach g f).cores = s.cores := rfl
@[simp] theorem modReach_clusters (s : State) (g : Nat) (f : Reach → Reach) : (s.modReach g f).clusters = s.clusters := rfl
@[simp] theorem modReach_ctxs (s : State) (g : Nat) (f : Reach → Reach) : (s.modReach g f).ctxs = s.ctxs := rfl
@[simp] theorem modReach_parts (s : State) (g : Nat) (f : Reach → Reach) : (s.modReach g f).parts = s.parts := rfl
@[simp] theorem modReach_queues (s : State) (g : Nat) (f : Reach → Reach) : (s.modReach g f).queues = s.queues := rfl
@[simp] theorem modReach_invals (s : State) (g : Nat) (f : Reach → Reach) : (s.modReach g f).invals = s.invals := rfl
@[simp] theorem modReach_routers (s : State) (g : Nat) (f : Reach → Reach) : (s.modReach g f).routers = s.routers := rfl
@[simp] theorem modReach_flits (s : State) (g : Nat) (f : Reach → Reach) : (s.modReach g f).flits = s.flits := rfl
@[simp] theorem modReach_meshTurns (s : State) (g : Nat) (f : Reach → Reach) : (s.modReach g f).meshTurns = s.meshTurns := rfl
@[simp] theorem modReach_images (s : State) (g : Nat) (f : Reach → Reach) : (s.modReach g f).images = s.images := rfl
@[simp] theorem modReach_lines (s : State) (g : Nat) (f : Reach → Reach) : (s.modReach g f).lines = s.lines := rfl
@[simp] theorem modReach_droppedFlits (s : State) (g : Nat) (f : Reach → Reach) : (s.modReach g f).droppedFlits = s.droppedFlits := rfl
@[simp] theorem modReach_linkRetries (s : State) (g : Nat) (f : Reach → Reach) : (s.modReach g f).linkRetries = s.linkRetries := rfl
@[simp] theorem modReach_owned (s : State) (g : Nat) (f : Reach → Reach) : (s.modReach g f).owned = s.owned := rfl
@[simp] theorem modReach_staged (s : State) (g : Nat) (f : Reach → Reach) : (s.modReach g f).staged = s.staged := rfl
@[simp] theorem modReach_retiredWays (s : State) (g : Nat) (f : Reach → Reach) : (s.modReach g f).retiredWays = s.retiredWays := rfl
@[simp] theorem modReach_retiredPages (s : State) (g : Nat) (f : Reach → Reach) : (s.modReach g f).retiredPages = s.retiredPages := rfl
@[simp] theorem modReach_corrected (s : State) (g : Nat) (f : Reach → Reach) : (s.modReach g f).corrected = s.corrected := rfl
@[simp] theorem modReach_sensorsOff (s : State) (g : Nat) (f : Reach → Reach) : (s.modReach g f).sensorsOff = s.sensorsOff := rfl
@[simp] theorem modReach_records (s : State) (g : Nat) (f : Reach → Reach) : (s.modReach g f).records = s.records := rfl
@[simp] theorem modReach_replies (s : State) (g : Nat) (f : Reach → Reach) : (s.modReach g f).replies = s.replies := rfl
@[simp] theorem modReach_hostRegs (s : State) (g : Nat) (f : Reach → Reach) : (s.modReach g f).hostRegs = s.hostRegs := rfl
@[simp] theorem modReach_power (s : State) (g : Nat) (f : Reach → Reach) : (s.modReach g f).power = s.power := rfl
@[simp] theorem modReach_ownerEnergy (s : State) (g : Nat) (f : Reach → Reach) : (s.modReach g f).ownerEnergy = s.ownerEnergy := rfl
@[simp] theorem modReach_ckpts (s : State) (g : Nat) (f : Reach → Reach) : (s.modReach g f).ckpts = s.ckpts := rfl
@[simp] theorem modReach_sends (s : State) (g : Nat) (f : Reach → Reach) : (s.modReach g f).sends = s.sends := rfl
@[simp] theorem modReach_surveys (s : State) (g : Nat) (f : Reach → Reach) : (s.modReach g f).surveys = s.surveys := rfl
@[simp] theorem modReach_traffic (s : State) (g : Nat) (f : Reach → Reach) : (s.modReach g f).traffic = s.traffic := rfl
@[simp] theorem modReach_hops (s : State) (g : Nat) (f : Reach → Reach) : (s.modReach g f).hops = s.hops := rfl
@[simp] theorem modReach_slotNs (s : State) (g : Nat) (f : Reach → Reach) : (s.modReach g f).slotNs = s.slotNs := rfl
@[simp] theorem modReach_pubs (s : State) (g : Nat) (f : Reach → Reach) : (s.modReach g f).pubs = s.pubs := rfl

/-! `record` changes `records` only. -/

@[simp] theorem record_clk (s : State) (r : Record) : (s.record r).clk = s.clk := rfl
@[simp] theorem record_fw (s : State) (r : Record) : (s.record r).fw = s.fw := rfl
@[simp] theorem record_romStatus (s : State) (r : Record) : (s.record r).romStatus = s.romStatus := rfl
@[simp] theorem record_imageDigest (s : State) (r : Record) : (s.record r).imageDigest = s.imageDigest := rfl
@[simp] theorem record_link0 (s : State) (r : Record) : (s.record r).link0 = s.link0 := rfl
@[simp] theorem record_link1 (s : State) (r : Record) : (s.record r).link1 = s.link1 := rfl
@[simp] theorem record_ownerPort (s : State) (r : Record) : (s.record r).ownerPort = s.ownerPort := rfl
@[simp] theorem record_domIndex (s : State) (r : Record) : (s.record r).domIndex = s.domIndex := rfl
@[simp] theorem record_nextReach (s : State) (r : Record) : (s.record r).nextReach = s.nextReach := rfl
@[simp] theorem record_nextSeq (s : State) (r : Record) : (s.record r).nextSeq = s.nextSeq := rfl
@[simp] theorem record_nextId (s : State) (r : Record) : (s.record r).nextId = s.nextId := rfl
@[simp] theorem record_freeCtr (s : State) (r : Record) : (s.record r).freeCtr = s.freeCtr := rfl
@[simp] theorem record_agenda (s : State) (r : Record) : (s.record r).agenda = s.agenda := rfl
@[simp] theorem record_ecc (s : State) (r : Record) : (s.record r).ecc = s.ecc := rfl
@[simp] theorem record_selected (s : State) (r : Record) : (s.record r).selected = s.selected := rfl
@[simp] theorem record_cur (s : State) (r : Record) : (s.record r).cur = s.cur := rfl
@[simp] theorem record_mem (s : State) (r : Record) : (s.record r).mem = s.mem := rfl
@[simp] theorem record_poison (s : State) (r : Record) : (s.record r).poison = s.poison := rfl
@[simp] theorem record_groups (s : State) (r : Record) : (s.record r).groups = s.groups := rfl
@[simp] theorem record_teams (s : State) (r : Record) : (s.record r).teams = s.teams := rfl
@[simp] theorem record_launches (s : State) (r : Record) : (s.record r).launches = s.launches := rfl
@[simp] theorem record_cores (s : State) (r : Record) : (s.record r).cores = s.cores := rfl
@[simp] theorem record_clusters (s : State) (r : Record) : (s.record r).clusters = s.clusters := rfl
@[simp] theorem record_ctxs (s : State) (r : Record) : (s.record r).ctxs = s.ctxs := rfl
@[simp] theorem record_parts (s : State) (r : Record) : (s.record r).parts = s.parts := rfl
@[simp] theorem record_queues (s : State) (r : Record) : (s.record r).queues = s.queues := rfl
@[simp] theorem record_invals (s : State) (r : Record) : (s.record r).invals = s.invals := rfl
@[simp] theorem record_routers (s : State) (r : Record) : (s.record r).routers = s.routers := rfl
@[simp] theorem record_flits (s : State) (r : Record) : (s.record r).flits = s.flits := rfl
@[simp] theorem record_meshTurns (s : State) (r : Record) : (s.record r).meshTurns = s.meshTurns := rfl
@[simp] theorem record_images (s : State) (r : Record) : (s.record r).images = s.images := rfl
@[simp] theorem record_lines (s : State) (r : Record) : (s.record r).lines = s.lines := rfl
@[simp] theorem record_droppedFlits (s : State) (r : Record) : (s.record r).droppedFlits = s.droppedFlits := rfl
@[simp] theorem record_linkRetries (s : State) (r : Record) : (s.record r).linkRetries = s.linkRetries := rfl
@[simp] theorem record_owned (s : State) (r : Record) : (s.record r).owned = s.owned := rfl
@[simp] theorem record_staged (s : State) (r : Record) : (s.record r).staged = s.staged := rfl
@[simp] theorem record_retiredWays (s : State) (r : Record) : (s.record r).retiredWays = s.retiredWays := rfl
@[simp] theorem record_retiredPages (s : State) (r : Record) : (s.record r).retiredPages = s.retiredPages := rfl
@[simp] theorem record_corrected (s : State) (r : Record) : (s.record r).corrected = s.corrected := rfl
@[simp] theorem record_sensorsOff (s : State) (r : Record) : (s.record r).sensorsOff = s.sensorsOff := rfl
@[simp] theorem record_replies (s : State) (r : Record) : (s.record r).replies = s.replies := rfl
@[simp] theorem record_hostRegs (s : State) (r : Record) : (s.record r).hostRegs = s.hostRegs := rfl
@[simp] theorem record_power (s : State) (r : Record) : (s.record r).power = s.power := rfl
@[simp] theorem record_ownerEnergy (s : State) (r : Record) : (s.record r).ownerEnergy = s.ownerEnergy := rfl
@[simp] theorem record_ckpts (s : State) (r : Record) : (s.record r).ckpts = s.ckpts := rfl
@[simp] theorem record_sends (s : State) (r : Record) : (s.record r).sends = s.sends := rfl
@[simp] theorem record_surveys (s : State) (r : Record) : (s.record r).surveys = s.surveys := rfl
@[simp] theorem record_traffic (s : State) (r : Record) : (s.record r).traffic = s.traffic := rfl
@[simp] theorem record_hops (s : State) (r : Record) : (s.record r).hops = s.hops := rfl
@[simp] theorem record_slotNs (s : State) (r : Record) : (s.record r).slotNs = s.slotNs := rfl
@[simp] theorem record_pubs (s : State) (r : Record) : (s.record r).pubs = s.pubs := rfl

/-! `modImg` changes `images` only. -/

@[simp] theorem modImg_clk (s : State) (g : Nat) (f : GImage → GImage) : (s.modImg g f).clk = s.clk := rfl
@[simp] theorem modImg_fw (s : State) (g : Nat) (f : GImage → GImage) : (s.modImg g f).fw = s.fw := rfl
@[simp] theorem modImg_romStatus (s : State) (g : Nat) (f : GImage → GImage) : (s.modImg g f).romStatus = s.romStatus := rfl
@[simp] theorem modImg_imageDigest (s : State) (g : Nat) (f : GImage → GImage) : (s.modImg g f).imageDigest = s.imageDigest := rfl
@[simp] theorem modImg_link0 (s : State) (g : Nat) (f : GImage → GImage) : (s.modImg g f).link0 = s.link0 := rfl
@[simp] theorem modImg_link1 (s : State) (g : Nat) (f : GImage → GImage) : (s.modImg g f).link1 = s.link1 := rfl
@[simp] theorem modImg_ownerPort (s : State) (g : Nat) (f : GImage → GImage) : (s.modImg g f).ownerPort = s.ownerPort := rfl
@[simp] theorem modImg_domIndex (s : State) (g : Nat) (f : GImage → GImage) : (s.modImg g f).domIndex = s.domIndex := rfl
@[simp] theorem modImg_nextReach (s : State) (g : Nat) (f : GImage → GImage) : (s.modImg g f).nextReach = s.nextReach := rfl
@[simp] theorem modImg_nextSeq (s : State) (g : Nat) (f : GImage → GImage) : (s.modImg g f).nextSeq = s.nextSeq := rfl
@[simp] theorem modImg_nextId (s : State) (g : Nat) (f : GImage → GImage) : (s.modImg g f).nextId = s.nextId := rfl
@[simp] theorem modImg_freeCtr (s : State) (g : Nat) (f : GImage → GImage) : (s.modImg g f).freeCtr = s.freeCtr := rfl
@[simp] theorem modImg_agenda (s : State) (g : Nat) (f : GImage → GImage) : (s.modImg g f).agenda = s.agenda := rfl
@[simp] theorem modImg_ecc (s : State) (g : Nat) (f : GImage → GImage) : (s.modImg g f).ecc = s.ecc := rfl
@[simp] theorem modImg_selected (s : State) (g : Nat) (f : GImage → GImage) : (s.modImg g f).selected = s.selected := rfl
@[simp] theorem modImg_cur (s : State) (g : Nat) (f : GImage → GImage) : (s.modImg g f).cur = s.cur := rfl
@[simp] theorem modImg_mem (s : State) (g : Nat) (f : GImage → GImage) : (s.modImg g f).mem = s.mem := rfl
@[simp] theorem modImg_poison (s : State) (g : Nat) (f : GImage → GImage) : (s.modImg g f).poison = s.poison := rfl
@[simp] theorem modImg_groups (s : State) (g : Nat) (f : GImage → GImage) : (s.modImg g f).groups = s.groups := rfl
@[simp] theorem modImg_lines (s : State) (g : Nat) (f : GImage → GImage) : (s.modImg g f).lines = s.lines := rfl
@[simp] theorem modImg_teams (s : State) (g : Nat) (f : GImage → GImage) : (s.modImg g f).teams = s.teams := rfl
@[simp] theorem modImg_launches (s : State) (g : Nat) (f : GImage → GImage) : (s.modImg g f).launches = s.launches := rfl
@[simp] theorem modImg_cores (s : State) (g : Nat) (f : GImage → GImage) : (s.modImg g f).cores = s.cores := rfl
@[simp] theorem modImg_clusters (s : State) (g : Nat) (f : GImage → GImage) : (s.modImg g f).clusters = s.clusters := rfl
@[simp] theorem modImg_ctxs (s : State) (g : Nat) (f : GImage → GImage) : (s.modImg g f).ctxs = s.ctxs := rfl
@[simp] theorem modImg_parts (s : State) (g : Nat) (f : GImage → GImage) : (s.modImg g f).parts = s.parts := rfl
@[simp] theorem modImg_queues (s : State) (g : Nat) (f : GImage → GImage) : (s.modImg g f).queues = s.queues := rfl
@[simp] theorem modImg_invals (s : State) (g : Nat) (f : GImage → GImage) : (s.modImg g f).invals = s.invals := rfl
@[simp] theorem modImg_routers (s : State) (g : Nat) (f : GImage → GImage) : (s.modImg g f).routers = s.routers := rfl
@[simp] theorem modImg_flits (s : State) (g : Nat) (f : GImage → GImage) : (s.modImg g f).flits = s.flits := rfl
@[simp] theorem modImg_meshTurns (s : State) (g : Nat) (f : GImage → GImage) : (s.modImg g f).meshTurns = s.meshTurns := rfl
@[simp] theorem modImg_droppedFlits (s : State) (g : Nat) (f : GImage → GImage) : (s.modImg g f).droppedFlits = s.droppedFlits := rfl
@[simp] theorem modImg_linkRetries (s : State) (g : Nat) (f : GImage → GImage) : (s.modImg g f).linkRetries = s.linkRetries := rfl
@[simp] theorem modImg_owned (s : State) (g : Nat) (f : GImage → GImage) : (s.modImg g f).owned = s.owned := rfl
@[simp] theorem modImg_staged (s : State) (g : Nat) (f : GImage → GImage) : (s.modImg g f).staged = s.staged := rfl
@[simp] theorem modImg_retiredWays (s : State) (g : Nat) (f : GImage → GImage) : (s.modImg g f).retiredWays = s.retiredWays := rfl
@[simp] theorem modImg_retiredPages (s : State) (g : Nat) (f : GImage → GImage) : (s.modImg g f).retiredPages = s.retiredPages := rfl
@[simp] theorem modImg_corrected (s : State) (g : Nat) (f : GImage → GImage) : (s.modImg g f).corrected = s.corrected := rfl
@[simp] theorem modImg_sensorsOff (s : State) (g : Nat) (f : GImage → GImage) : (s.modImg g f).sensorsOff = s.sensorsOff := rfl
@[simp] theorem modImg_records (s : State) (g : Nat) (f : GImage → GImage) : (s.modImg g f).records = s.records := rfl
@[simp] theorem modImg_replies (s : State) (g : Nat) (f : GImage → GImage) : (s.modImg g f).replies = s.replies := rfl
@[simp] theorem modImg_hostRegs (s : State) (g : Nat) (f : GImage → GImage) : (s.modImg g f).hostRegs = s.hostRegs := rfl
@[simp] theorem modImg_power (s : State) (g : Nat) (f : GImage → GImage) : (s.modImg g f).power = s.power := rfl
@[simp] theorem modImg_ownerEnergy (s : State) (g : Nat) (f : GImage → GImage) : (s.modImg g f).ownerEnergy = s.ownerEnergy := rfl
@[simp] theorem modImg_ckpts (s : State) (g : Nat) (f : GImage → GImage) : (s.modImg g f).ckpts = s.ckpts := rfl
@[simp] theorem modImg_sends (s : State) (g : Nat) (f : GImage → GImage) : (s.modImg g f).sends = s.sends := rfl
@[simp] theorem modImg_surveys (s : State) (g : Nat) (f : GImage → GImage) : (s.modImg g f).surveys = s.surveys := rfl
@[simp] theorem modImg_traffic (s : State) (g : Nat) (f : GImage → GImage) : (s.modImg g f).traffic = s.traffic := rfl
@[simp] theorem modImg_hops (s : State) (g : Nat) (f : GImage → GImage) : (s.modImg g f).hops = s.hops := rfl
@[simp] theorem modImg_slotNs (s : State) (g : Nat) (f : GImage → GImage) : (s.modImg g f).slotNs = s.slotNs := rfl
@[simp] theorem modImg_pubs (s : State) (g : Nat) (f : GImage → GImage) : (s.modImg g f).pubs = s.pubs := rfl

/-! What a table reads as after an update. -/

theorem getElem?_getD_modify {α : Type} (xs : List α) (i j : Nat) (f : α → α) (d : α) :
    ((xs.modify i f)[j]?).getD d = if i = j ∧ i < xs.length then f (xs[i]?.getD d) else xs[j]?.getD d := by
  rw [List.getElem?_modify]
  by_cases h : i = j
  · subst h
    by_cases hi : i < xs.length <;> simp [hi]
  · simp [h]

theorem grp_modG (s : State) (g h : Nat) (f : Group → Group) :
    (s.modG g f).grp h = if g = h ∧ g < s.groups.length then f (s.grp g) else s.grp h :=
  getElem?_getD_modify _ _ _ _ _
theorem tm_modT (s : State) (t u : Nat) (f : Team → Team) :
    (s.modT t f).tm u = if t = u ∧ t < s.teams.length then f (s.tm t) else s.tm u := getElem?_getD_modify _ _ _ _ _
theorem lch_modL (s : State) (l k : Nat) (f : Launch → Launch) :
    (s.modL l f).lch k = if l = k ∧ l < s.launches.length then f (s.lch l) else s.lch k := getElem?_getD_modify _ _ _ _ _
theorem cor_modC (s : State) (c k : Nat) (f : Core → Core) :
    (s.modC c f).cor k = if c = k ∧ c < s.cores.length then f (s.cor c) else s.cor k := getElem?_getD_modify _ _ _ _ _
theorem clu_modCl (s : State) (c k : Nat) (f : Cluster → Cluster) :
    (s.modCl c f).clu k = if c = k ∧ c < s.clusters.length then f (s.clu c) else s.clu k := getElem?_getD_modify _ _ _ _ _
theorem cx_modX (s : State) (c k : Nat) (f : Ctx → Ctx) :
    (s.modX c f).cx k = if c = k ∧ c < s.ctxs.length then f (s.cx c) else s.cx k := getElem?_getD_modify _ _ _ _ _
theorem prt_modP (s : State) (p k : Nat) (f : Part → Part) :
    (s.modP p f).prt k = if p = k ∧ p < s.parts.length then f (s.prt p) else s.prt k := getElem?_getD_modify _ _ _ _ _
theorem que_modQ (s : State) (q k : Nat) (f : Queue → Queue) :
    (s.modQ q f).que k = if q = k ∧ q < s.queues.length then f (s.que q) else s.que k := getElem?_getD_modify _ _ _ _ _

theorem img_modImg (s : State) (g h : Nat) (f : GImage → GImage) (hg : g < s.images.length) :
    (s.modImg g f).images[h]? = if g = h then some (f s.images[g]) else s.images[h]? := by
  simp only [modImg, List.getElem?_modify]
  split
  · next e => subst e; simp [hg]
  · simp

/-! How many entries the tables hold after an update. -/

@[simp] theorem modG_groups_length (s : State) (g : Nat) (f : Group → Group) :
    (s.modG g f).groups.length = s.groups.length := List.length_modify ..
@[simp] theorem modImg_images_length (s : State) (g : Nat) (f : GImage → GImage) :
    (s.modImg g f).images.length = s.images.length := List.length_modify ..
@[simp] theorem modT_teams_length (s : State) (t : Nat) (f : Team → Team) :
    (s.modT t f).teams.length = s.teams.length := List.length_modify ..
@[simp] theorem modL_launches_length (s : State) (l : Nat) (f : Launch → Launch) :
    (s.modL l f).launches.length = s.launches.length := List.length_modify ..
@[simp] theorem modC_cores_length (s : State) (c : Nat) (f : Core → Core) :
    (s.modC c f).cores.length = s.cores.length := List.length_modify ..
@[simp] theorem modCl_clusters_length (s : State) (c : Nat) (f : Cluster → Cluster) :
    (s.modCl c f).clusters.length = s.clusters.length := List.length_modify ..
@[simp] theorem modX_ctxs_length (s : State) (c : Nat) (f : Ctx → Ctx) :
    (s.modX c f).ctxs.length = s.ctxs.length := List.length_modify ..
@[simp] theorem modP_parts_length (s : State) (p : Nat) (f : Part → Part) :
    (s.modP p f).parts.length = s.parts.length := List.length_modify ..
@[simp] theorem modQ_queues_length (s : State) (q : Nat) (f : Queue → Queue) :
    (s.modQ q f).queues.length = s.queues.length := List.length_modify ..

end Sys2Proof.Machine.State
end

