-- ==== Sys2Proof/Laws/Issue.lean ====
section
/-! SUPPORT. What an issue does, said once: an instruction whose conditions hold and whose effect succeeds answers a
next state that differs from the effect's own by bookkeeping only. -/

namespace Sys2Proof.Safety

open Sys2Proof.Machine

theorem Quiet.refl (g : Nat) (s : State) : Quiet g s s :=
  ⟨rfl, rfl, rfl, rfl, fun _ _ => rfl, fun _ => rfl, fun _ => rfl⟩

theorem keptState_teams {s t : State} (h : keptState t = keptState s) : t.teams = s.teams := by
  have := congrArg State.teams h; exact this

theorem keptGroup_team {x y : Group} (h : keptGroup y = keptGroup x) : y.team = x.team := by
  have := congrArg Group.team h; exact this

theorem keptCore_trcctl {x y : Core} (h : keptCore y = keptCore x) : y.trcctl = x.trcctl := by
  have := congrArg Core.trcctl h; exact this

theorem Quiet.coreOf {g : Nat} {s t : State} (h : Quiet g s t) : t.coreOf g = s.coreOf g := by
  simp only [State.coreOf, State.teamOf, State.tm, keptState_teams h.rest, keptGroup_team h.own]

theorem Quiet.trcctl {g : Nat} {s t : State} (h : Quiet g s t) (c : Nat) : (t.cor c).trcctl = (s.cor c).trcctl :=
  keptCore_trcctl (h.cores c)

theorem Quiet.trans {g : Nat} {s t u : State} (h : Quiet g s t) (k : Quiet g t u) : Quiet g s u where
  rest := k.rest.trans h.rest
  size := k.size.trans h.size
  ncores := k.ncores.trans h.ncores
  own := k.own.trans h.own
  others := fun x hx => (k.others x hx).trans (h.others x hx)
  cores := fun c => (k.cores c).trans (h.cores c)
  mem := fun ht => (k.mem (by rw [h.coreOf, h.trcctl]; exact ht)).trans (h.mem ht)

/-- A change of the group's bookkeeping. -/
theorem Quiet.modG {g : Nat} (s : State) (f : Group → Group) (hf : ∀ x, keptGroup (f x) = keptGroup x) :
    Quiet g s (s.modG g f) where
  rest := rfl
  size := by simp
  ncores := rfl
  own := by rw [State.grp_modG]; split <;> simp [hf]
  others := fun h hh => by rw [State.grp_modG, if_neg (by tauto)]
  cores := fun _ => rfl
  mem := fun _ => rfl

/-- A change of a core's bookkeeping. -/
theorem Quiet.modC {g : Nat} (s : State) (c : Nat) (f : Core → Core) (hf : ∀ x, keptCore (f x) = keptCore x) :
    Quiet g s (s.modC c f) where
  rest := rfl
  size := rfl
  ncores := by simp
  own := rfl
  others := fun _ _ => rfl
  cores := fun k => by rw [State.cor_modC]; split <;> simp_all
  mem := fun _ => rfl

/-- A change of what the trace unit keeps for a slot. -/
theorem Quiet.modTrace {g : Nat} (s : State) (h : Nat) (f : SlotTrace → SlotTrace) : Quiet g s (s.modTrace h f) :=
  Quiet.modC s _ _ fun _ => rfl

theorem Quiet.foldl {g : Nat} {α : Type} (xs : List α) (f : State → α → State) (s : State)
    (hf : ∀ s x, Quiet g s (f s x)) : Quiet g s (xs.foldl f s) := by
  induction xs generalizing s with
  | nil => exact Quiet.refl g s
  | cons x xs ih => exact (hf s x).trans (ih (f s x))

/-- A change of an architected register. -/
theorem Quiet.modR {g : Nat} (s : State) (f : Regs → Regs) : Quiet g s (s.modR g f) := Quiet.modG s _ fun _ => rfl

theorem Quiet.modReach {g : Nat} (s : State) (f : Reach → Reach) : Quiet g s (s.modReach g f) := Quiet.modG s _ fun _ => rfl

theorem Quiet.endReach {g : Nat} (s : State) : Quiet g s (s.endReach g) := by
  unfold State.endReach
  split
  · exact Quiet.refl g s
  · exact Quiet.modReach s _

theorem Quiet.nextReach {g : Nat} (s : State) (n : Nat) : Quiet g s { s with nextReach := n } :=
  ⟨rfl, rfl, rfl, rfl, fun _ _ => rfl, fun _ => rfl, fun _ => rfl⟩

theorem Quiet.openHead {g : Nat} (s : State) : Quiet g s (s.openHead g) := by
  have h : Quiet g (s.endReach g) ((s.endReach g).modG g fun x =>
      { x with reaches := x.reaches ++
          [{ id := s.nextReach, snap := x.arch, ended := none, deps := [], written := [], lastTag := 0, accPre := []
             spec := [], fresh := true, batches := x.batches }] }) := Quiet.modG _ _ fun _ => rfl
  exact (Quiet.endReach s).trans (h.trans (Quiet.nextReach _ (s.nextReach + 1)))

/-- A change of where lines lie, and of what the images hold. -/
theorem Quiet.lines {g : Nat} (s : State) (ls : List Line) (is : List GImage) : Quiet g s { s with lines := ls, images := is } :=
  ⟨rfl, rfl, rfl, rfl, fun _ _ => rfl, fun _ => rfl, fun _ => rfl⟩

/-- Two states that differ in lines and images only. -/
def LinesOnly (s t : State) : Prop := ∃ ls is, t = { s with lines := ls, images := is }

theorem LinesOnly.refl (s : State) : LinesOnly s s := ⟨s.lines, s.images, rfl⟩

theorem LinesOnly.trans {s t u : State} (h : LinesOnly s t) (k : LinesOnly t u) : LinesOnly s u := by
  obtain ⟨a, b, rfl⟩ := h
  obtain ⟨c, d, rfl⟩ := k
  exact ⟨c, d, rfl⟩

theorem LinesOnly.foldl {α : Type} (xs : List α) (f : State → α → State) (s : State) (hf : ∀ s x, LinesOnly s (f s x)) :
    LinesOnly s (xs.foldl f s) := by
  induction xs generalizing s with
  | nil => exact LinesOnly.refl s
  | cons x xs ih => exact (hf s x).trans (ih (f s x))

theorem LinesOnly.quiet {g : Nat} {s t : State} (h : LinesOnly s t) : Quiet g s t := by
  obtain ⟨a, b, rfl⟩ := h
  exact Quiet.lines s a b

theorem LinesOnly.grp {s t : State} (h : LinesOnly s t) (g : Nat) : t.grp g = s.grp g := by
  obtain ⟨a, b, rfl⟩ := h
  rfl

theorem LinesOnly.evictLine (s : State) (l : Line) : LinesOnly s (s.evictLine l) := by
  unfold State.evictLine
  split
  · exact ⟨_, s.images, rfl⟩
  · exact ⟨_, _, rfl⟩

theorem LinesOnly.makeRoom (s : State) (c k : Nat) : LinesOnly s (s.makeRoom c k) := by
  unfold State.makeRoom
  split
  · exact LinesOnly.refl s
  · split
    · exact LinesOnly.refl s
    · exact LinesOnly.evictLine s _

/-- What a group uses moves lines and nothing else (R67, R76). -/
theorem LinesOnly.useLines (s : State) (g : Nat) (rs : List Nat) : LinesOnly s (s.useLines g rs) := by
  refine LinesOnly.foldl rs _ s fun s r => ?_
  dsimp only
  split
  · exact LinesOnly.refl s
  · refine LinesOnly.trans (t := if _ then s else s.makeRoom (s.coreOf g) (s.grp g).lane) ?_ ⟨_, _, rfl⟩
    split
    · exact LinesOnly.refl s
    · exact LinesOnly.makeRoom s _ _

theorem LinesOnly.add (s : State) (old : List Line) (new : Line) (c k : Nat) :
    LinesOnly s { ({ s with lines := old } : State).makeRoom c k with
      lines := (({ s with lines := old } : State).makeRoom c k).lines ++ [new] } := by
  have h : LinesOnly s { s with lines := old } := ⟨old, s.images, rfl⟩
  exact (h.trans (LinesOnly.makeRoom _ c k)).trans ⟨_, _, rfl⟩

/-- What a group writes for the first time in a reach moves lines and nothing else (R67). -/
theorem LinesOnly.takeLines (s : State) (g : Nat) (o : Option Nat) (rs : List Nat) : LinesOnly s (s.takeLines g o rs) :=
  LinesOnly.foldl rs _ s fun s _ => LinesOnly.add s _ _ _ _

theorem Quiet.useLines {g : Nat} (s : State) (rs : List Nat) : Quiet g s (s.useLines g rs) := (LinesOnly.useLines s g rs).quiet

theorem Quiet.payToll {g : Nat} (s : State) (n : Nat) : Quiet g s (s.payToll g n) := by
  refine Quiet.modC s _ _ fun k => ?_
  cases k.resv.find? fun r => r.gid == g <;> rfl

theorem Quiet.headOrEnd {g : Nat} (s : State) : Quiet g s (s.headOrEnd g) := by
  unfold State.headOrEnd
  split
  · exact Quiet.endReach s
  · exact Quiet.openHead s

theorem Quiet.begun {g : Nat} (s : State) (w : IWord) : Quiet g s (s.begun g w) :=
  (Quiet.modR s _).trans (Quiet.modG (s.feedSig g (unitOf w)) (fun x => { x with arch := { x.arch with pc := x.arch.pc + 12 } }) (by intro _; rfl))

theorem Quiet.dropResv {g : Nat} (s : State) : Quiet g s (s.dropResv g) := by
  unfold State.dropResv
  exact (Quiet.modC s _ _ (by intro _; rfl)).trans (Quiet.modG _ _ (by intro _; rfl))

theorem Quiet.haltNow {g : Nat} (s : State) : Quiet g s (s.haltNow g) := by
  unfold State.haltNow
  dsimp only
  split
  · exact (Quiet.dropResv s).trans (Quiet.modG _ _ (by intro x; split <;> rfl))
  · exact Quiet.refl g s

theorem Quiet.requestHalt {g : Nat} (s : State) : Quiet g s (s.requestHalt g) := by
  unfold State.requestHalt
  exact ((Quiet.endReach s).trans (Quiet.modG _ _ (by intro _; rfl))).trans (Quiet.haltNow _)

theorem Quiet.markSlow {g : Nat} (s : State) (i : Instr) (e : Enc) : Quiet g s (s.markSlow g i e) := by
  unfold State.markSlow
  dsimp only
  split
  · exact Quiet.refl g s
  · exact Quiet.modG s _ (by intro _; rfl)

theorem Quiet.yieldHint {g : Nat} (s : State) (e : Enc) : Quiet g s (s.yieldHint g e) := by
  unfold State.yieldHint
  simp only
  split
  · exact Quiet.modG s _ (by intro _; rfl)
  · exact Quiet.refl g s

theorem Quiet.afterCommit {g : Nat} (s : State) (i : Instr) (e : Enc) : Quiet g s (s.afterCommit g i e) := by
  have h1 := (Quiet.markSlow (g := g) s i e).trans (Quiet.yieldHint _ e)
  unfold State.afterCommit
  simp only
  have h2 := h1.trans (Quiet.modG _ (fun x => { x with brkPass := false }) (by intro _; rfl))
  split
  · exact h2.trans (Quiet.requestHalt _)
  · exact h2

/-! ### Trace -/

/-- Anything quiet but for memory, which has changed in a ring of a core that traces. -/
structure Noisy (g : Nat) (s t : State) : Prop where
  rest : keptState t = keptState s
  size : t.groups.length = s.groups.length
  ncores : t.cores.length = s.cores.length
  own : keptGroup (t.grp g) = keptGroup (s.grp g)
  others : ∀ h, h ≠ g → t.grp h = s.grp h
  cores : ∀ c, keptCore (t.cor c) = keptCore (s.cor c)

theorem Quiet.noisy {g : Nat} {s t : State} (h : Quiet g s t) : Noisy g s t :=
  ⟨h.rest, h.size, h.ncores, h.own, h.others, h.cores⟩

theorem Noisy.quiet {g : Nat} {s t : State} (h : Noisy g s t)
    (hm : (s.cor (s.coreOf g)).trcctl.getLsbD 0 = false → t.mem = s.mem) : Quiet g s t :=
  ⟨h.rest, h.size, h.ncores, h.own, h.others, h.cores, hm⟩

theorem Noisy.trans {g : Nat} {s t u : State} (h : Noisy g s t) (k : Noisy g t u) : Noisy g s u where
  rest := k.rest.trans h.rest
  size := k.size.trans h.size
  ncores := k.ncores.trans h.ncores
  own := k.own.trans h.own
  others := fun x hx => (k.others x hx).trans (h.others x hx)
  cores := fun c => (k.cores c).trans (h.cores c)

theorem Noisy.refl (g : Nat) (s : State) : Noisy g s s := (Quiet.refl g s).noisy

theorem Noisy.foldl {g : Nat} {α : Type} (xs : List α) (f : State → α → State) (s : State)
    (hf : ∀ s x, Noisy g s (f s x)) : Noisy g s (xs.foldl f s) := by
  induction xs generalizing s with
  | nil => exact Noisy.refl g s
  | cons x xs ih => exact (hf s x).trans (ih (f s x))

theorem Noisy.mem {g : Nat} (s : State) (m : Memory) : Noisy g s { s with mem := m } :=
  ⟨rfl, rfl, rfl, rfl, fun _ _ => rfl, fun _ => rfl⟩

theorem keptCore_wr (k : Core) (v : W64) (b : Bool) : keptCore { k with trcptr := v, tsdWrote := b } = keptCore k := rfl

theorem ringWrite_eq (s : State) (c : Nat) (p : Packet) :
    s.ringWrite c p = { s.modC c State.stepWr with mem := s.ringMem c p } := rfl

theorem Noisy.ringWrite {g : Nat} (s : State) (c : Nat) (p : Packet) : Noisy g s (s.ringWrite c p) := by
  rw [ringWrite_eq]
  generalize s.ringMem c p = m
  have h : Quiet g s (s.modC c State.stepWr) := Quiet.modC s c _ fun k => keptCore_wr k _ _
  exact h.noisy.trans (Noisy.mem (s.modC c State.stepWr) m)

theorem ringWrite_groups (s : State) (c : Nat) (p : Packet) : (s.ringWrite c p).groups = s.groups := by
  rw [ringWrite_eq]
  rfl

theorem Noisy.writeLoss {g : Nat} (s : State) (n : Nat) : Noisy g s (s.writeLoss n) := by
  unfold State.writeLoss
  generalize State.lossPacket (s.cor n) = p
  exact (Noisy.ringWrite s n p).trans (Quiet.noisy (Quiet.modC _ n _ (by intro _; rfl)))

theorem Quiet.oweSync {g : Nat} (s : State) (n : Nat) : Quiet g s (s.oweSync n) := Quiet.modC s _ _ (by intro _; rfl)

theorem Quiet.dropPacket {g : Nat} (s : State) (n : Nat) : Quiet g s (s.dropPacket n) := Quiet.modC s _ _ (by intro _; rfl)

theorem Noisy.flushLoss {g : Nat} (s : State) (n : Nat) : Noisy g s (s.flushLoss n) := by
  unfold State.flushLoss
  split
  · exact (Noisy.writeLoss s n).trans (Quiet.oweSync _ n).noisy
  · exact Noisy.refl g s

theorem Noisy.corePacket {g : Nat} (s : State) (n : Nat) (p : Packet) : Noisy g s (s.corePacket n p) := by
  unfold State.corePacket
  split
  · exact (Noisy.flushLoss s n).trans (Noisy.ringWrite _ n p)
  · exact (Noisy.flushLoss s n).trans (Quiet.dropPacket _ n).noisy

theorem Noisy.packetCounts {g : Nat} (s : State) (type : Nat) : Noisy g s (s.packetCounts g type) := (Quiet.modTrace s g _).noisy

theorem Noisy.emit {g : Nat} (s : State) (type : Nat) (a b c : W64) : Noisy g s (s.emit g type a b c) := by
  unfold State.emit
  generalize s.groupPacket g type a b c = p
  split
  · exact Noisy.refl g s
  · simp only
    split
    · exact (Noisy.corePacket s _ p).trans (Noisy.packetCounts _ type)
    · exact Noisy.corePacket s _ p

theorem Noisy.emitSync {g : Nat} (s : State) (pc : W64) (r : Nat) : Noisy g s (s.emitSync g pc r) := by
  refine Noisy.trans (Noisy.emit s 1 pc (BitVec.ofNat 64 s.clk) (BitVec.ofNat 64 ((s.grp g).prevMask.toNat + r * 2 ^ 32))) ?_
  refine Noisy.trans (Quiet.noisy (Quiet.modC _ (s.coreOf g)
    (fun k => if k.trcctl.getLsbD 0 && s.packetRoom (s.coreOf g) then { k with tsdBase := s.clk } else k) fun k => ?_))
    (Quiet.modTrace _ g fun y => { y with syncDue := none, afterLoss := false }).noisy
  split <;> rfl

theorem Noisy.tracePackets {g : Nat} (s : State) (pc : W64) (pkts : List (Nat × W64 × W64 × W64)) :
    Noisy g s (s.tracePackets g pc pkts) := by
  unfold State.tracePackets
  generalize hs : (if (!pkts.isEmpty || !(State.syncReasons (s.slotTrace g) 0).isEmpty) = true then s.flushLoss (s.coreOf g) else s) = s1
  have h1 : Noisy g s s1 := by
    rw [← hs]
    split
    · exact Noisy.flushLoss s _
    · exact Noisy.refl g s
  refine h1.trans (Noisy.trans ?_ (Noisy.foldl _ _ _ fun s p => Noisy.emit s _ _ _ _))
  split
  · exact Noisy.refl g s1
  · exact Noisy.emitSync _ _ _

theorem Quiet.traceIssue {g : Nat} (s : State) (pc : W64) (m : Option W32) (own : Option (Nat × W64 × W64 × W64)) :
    Quiet g s (s.traceIssue g pc m own) := by
  unfold State.traceIssue
  split
  · cases m
    · exact Quiet.refl g s
    · exact Quiet.modG s _ (by intro _; rfl)
  next hon =>
    refine Noisy.quiet ?_ fun h => absurd h (by simpa using hon)
    simp only
    have hlast : ∀ t : State, Noisy g t (match m with
        | some m => t.modG g fun x => { x with prevMask := m }
        | none => t) := by
      intro t
      cases m
      · exact Noisy.refl g t
      · exact (Quiet.modG t _ (by intro _; rfl)).noisy
    refine Noisy.trans ?_ (hlast _)
    refine (Quiet.modTrace s g fun x => { x with icount := x.icount + 1 }).noisy.trans ?_
    exact Noisy.tracePackets _ pc _

theorem Quiet.markIssue {g : Nat} (s : State) (pc : W64) (m : Option W32) (own : Option (Nat × W64 × W64 × W64)) :
    Quiet g s (s.markIssue g pc m own) := by
  unfold State.markIssue
  simp only
  refine Quiet.trans ?_ (Quiet.traceIssue _ pc m own)
  refine (Quiet.modG s (fun x => { x with lastIssue := (s.cor (s.coreOf g)).fe, denied := 0, readyFor := 0, promoted := false, skipIbp := false, skipWatch := false, unwatched := x.skipWatch, reaches := x.reaches.map fun r => { r with fresh := false } })
    (by intro _; rfl)).trans ?_
  cases m
  · exact Quiet.refl g _
  · exact Quiet.modC _ _ _ (by intro _; rfl)

/-! ### The registers through the bookkeeping -/

/-- The registers and PC of a group are as they were. -/
def SameArch (g : Nat) (s t : State) : Prop := (t.grp g).arch = (s.grp g).arch

theorem SameArch.modG {g : Nat} (s : State) (f : Group → Group) (hf : ∀ x, (f x).arch = x.arch) :
    SameArch g s (s.modG g f) := by
  unfold SameArch
  rw [State.grp_modG]
  split <;> simp [hf]

theorem SameArch.refl (g : Nat) (s : State) : SameArch g s s := rfl

theorem SameArch.modC {g : Nat} (s : State) (c : Nat) (f : Core → Core) : SameArch g s (s.modC c f) := rfl

theorem SameArch.modTrace {g : Nat} (s : State) (h : Nat) (f : SlotTrace → SlotTrace) : SameArch g s (s.modTrace h f) := rfl

theorem SameArch.trans {g : Nat} {s t u : State} (h : SameArch g s t) (k : SameArch g t u) : SameArch g s u :=
  Eq.trans k h

theorem SameArch.foldl {g : Nat} {α : Type} (xs : List α) (f : State → α → State) (s : State)
    (hf : ∀ s x, SameArch g s (f s x)) : SameArch g s (xs.foldl f s) := by
  induction xs generalizing s with
  | nil => rfl
  | cons x xs ih => exact (hf s x).trans (ih (f s x))

theorem SameArch.endReach {g : Nat} (s : State) : SameArch g s (s.endReach g) := by
  unfold State.endReach
  split
  · rfl
  · exact SameArch.modG s _ (by intro _; rfl)

theorem SameArch.openHead {g : Nat} (s : State) : SameArch g s (s.openHead g) := by
  have h : SameArch g (s.endReach g) ((s.endReach g).modG g fun x =>
      { x with reaches := x.reaches ++
          [{ id := s.nextReach, snap := x.arch, ended := none, deps := [], written := [], lastTag := 0, accPre := []
             spec := [], fresh := true, batches := x.batches }] }) := SameArch.modG _ _ fun _ => rfl
  exact (SameArch.endReach s).trans h

theorem SameArch.headOrEnd {g : Nat} (s : State) : SameArch g s (s.headOrEnd g) := by
  unfold State.headOrEnd
  split
  · exact SameArch.endReach s
  · exact SameArch.openHead s

theorem SameArch.payToll {g : Nat} (s : State) (n : Nat) : SameArch g s (s.payToll g n) := rfl

theorem SameArch.dropResv {g : Nat} (s : State) : SameArch g s (s.dropResv g) := by
  unfold State.dropResv
  exact (SameArch.modC s _ _).trans (SameArch.modG _ _ (by intro _; rfl))

theorem SameArch.haltNow {g : Nat} (s : State) : SameArch g s (s.haltNow g) := by
  unfold State.haltNow
  dsimp only
  split
  · exact (SameArch.dropResv s).trans (SameArch.modG _ _ (by intro x; split <;> rfl))
  · exact SameArch.refl g s

theorem SameArch.requestHalt {g : Nat} (s : State) : SameArch g s (s.requestHalt g) := by
  unfold State.requestHalt
  exact ((SameArch.endReach s).trans (SameArch.modG _ _ (by intro _; rfl))).trans (SameArch.haltNow _)

theorem SameArch.useLines {g : Nat} (s : State) (rs : List Nat) : SameArch g s (s.useLines g rs) := by
  unfold SameArch
  rw [(LinesOnly.useLines s g rs).grp]

theorem SameArch.markSlow {g : Nat} (s : State) (i : Instr) (e : Enc) : SameArch g s (s.markSlow g i e) := by
  unfold State.markSlow
  dsimp only
  split
  · rfl
  · exact SameArch.modG s _ (by intro _; rfl)

theorem SameArch.yieldHint {g : Nat} (s : State) (e : Enc) : SameArch g s (s.yieldHint g e) := by
  unfold State.yieldHint
  simp only
  split
  · exact SameArch.modG s _ (by intro _; rfl)
  · rfl

theorem SameArch.afterCommit {g : Nat} (s : State) (i : Instr) (e : Enc) : SameArch g s (s.afterCommit g i e) := by
  have h1 := (SameArch.markSlow (g := g) s i e).trans (SameArch.yieldHint _ e)
  unfold State.afterCommit
  simp only
  have h2 := h1.trans (SameArch.modG _ (fun x => { x with brkPass := false }) (by intro _; rfl))
  split
  · exact h2.trans (SameArch.requestHalt _)
  · exact h2

theorem SameArch.ringWrite {g : Nat} (s : State) (n : Nat) (p : Packet) : SameArch g s (s.ringWrite n p) := by
  unfold SameArch State.grp
  rw [ringWrite_groups]

theorem SameArch.writeLoss {g : Nat} (s : State) (n : Nat) : SameArch g s (s.writeLoss n) := by
  unfold State.writeLoss
  generalize State.lossPacket (s.cor n) = p
  exact SameArch.trans (SameArch.ringWrite s n p) (SameArch.modC _ n _)

theorem SameArch.oweSync {g : Nat} (s : State) (n : Nat) : SameArch g s (s.oweSync n) := rfl

theorem SameArch.flushLoss {g : Nat} (s : State) (n : Nat) : SameArch g s (s.flushLoss n) := by
  unfold State.flushLoss
  split
  · exact (SameArch.writeLoss s n).trans (SameArch.oweSync _ n)
  · rfl

theorem SameArch.corePacket {g : Nat} (s : State) (n : Nat) (p : Packet) : SameArch g s (s.corePacket n p) := by
  unfold State.corePacket
  split
  · exact (SameArch.flushLoss s n).trans (SameArch.ringWrite _ n p)
  · exact (SameArch.flushLoss s n).trans (SameArch.modC _ n _)

theorem SameArch.packetCounts {g : Nat} (s : State) (type : Nat) : SameArch g s (s.packetCounts g type) :=
  SameArch.modTrace s g _

theorem SameArch.emit {g : Nat} (s : State) (type : Nat) (a b c : W64) : SameArch g s (s.emit g type a b c) := by
  unfold State.emit
  generalize s.groupPacket g type a b c = p
  split
  · exact SameArch.refl g s
  · simp only
    split
    · exact (SameArch.corePacket s _ p).trans (SameArch.packetCounts _ type)
    · exact SameArch.corePacket s _ p

theorem SameArch.emitSync {g : Nat} (s : State) (pc : W64) (r : Nat) : SameArch g s (s.emitSync g pc r) := by
  refine SameArch.trans (SameArch.emit s 1 pc (BitVec.ofNat 64 s.clk) (BitVec.ofNat 64 ((s.grp g).prevMask.toNat + r * 2 ^ 32))) ?_
  exact SameArch.trans (SameArch.modC _ (s.coreOf g) fun k => if k.trcctl.getLsbD 0 && s.packetRoom (s.coreOf g) then { k with tsdBase := s.clk } else k)
    (SameArch.modTrace _ g fun y => { y with syncDue := none, afterLoss := false })

theorem SameArch.tracePackets {g : Nat} (s : State) (pc : W64) (pkts : List (Nat × W64 × W64 × W64)) :
    SameArch g s (s.tracePackets g pc pkts) := by
  unfold State.tracePackets
  generalize hs : (if (!pkts.isEmpty || !(State.syncReasons (s.slotTrace g) 0).isEmpty) = true then s.flushLoss (s.coreOf g) else s) = s1
  have h1 : SameArch g s s1 := by
    rw [← hs]
    split
    · exact SameArch.flushLoss s _
    · exact SameArch.refl g s
  refine h1.trans (SameArch.trans ?_ (SameArch.foldl _ _ _ fun s p => SameArch.emit s _ _ _ _))
  split
  · exact SameArch.refl g s1
  · exact SameArch.emitSync _ _ _

theorem SameArch.traceIssue {g : Nat} (s : State) (pc : W64) (m : Option W32) (own : Option (Nat × W64 × W64 × W64)) :
    SameArch g s (s.traceIssue g pc m own) := by
  have hlast : ∀ t : State, SameArch g t (match m with
      | some m => t.modG g fun x => { x with prevMask := m }
      | none => t) := by
    intro t
    cases m
    · rfl
    · exact SameArch.modG t _ (by intro _; rfl)
  unfold State.traceIssue
  split
  · exact hlast s
  · simp only
    refine SameArch.trans ?_ (hlast _)
    refine (SameArch.modTrace s g fun x => { x with icount := x.icount + 1 }).trans ?_
    exact SameArch.tracePackets _ pc _

theorem SameArch.markIssue {g : Nat} (s : State) (pc : W64) (m : Option W32) (own : Option (Nat × W64 × W64 × W64)) :
    SameArch g s (s.markIssue g pc m own) := by
  unfold State.markIssue
  simp only
  refine SameArch.trans ?_ (SameArch.traceIssue _ pc m own)
  refine (SameArch.modG s (fun x => { x with lastIssue := (s.cor (s.coreOf g)).fe, denied := 0, readyFor := 0, promoted := false, skipIbp := false, skipWatch := false, unwatched := x.skipWatch, reaches := x.reaches.map fun r => { r with fresh := false } })
    (by intro _; rfl)).trans ?_
  cases m
  · rfl
  · exact SameArch.modC _ _ _

/-! ### Commit -/

/-- A change of bookkeeping leaves the pound's use as it was. -/
theorem poundUsed_quiet {g : Nat} {s t : State} (h : Quiet g s t) (c : Nat) : t.poundUsed c = s.poundUsed c := by
  have hteams := keptState_teams h.rest
  have hsends : t.sends = s.sends := by have := congrArg State.sends h.rest; exact this
  have hkept : ∀ x, keptGroup (t.grp x) = keptGroup (s.grp x) := fun x => by
    by_cases hx : x = g
    · subst hx; exact h.own
    · rw [h.others x hx]
  have hteam : ∀ x, (t.grp x).team = (s.grp x).team := fun x => keptGroup_team (hkept x)
  have hatom : ∀ x, (t.grp x).atom = (s.grp x).atom := fun x => by have := congrArg Group.atom (hkept x); exact this
  have hverd : ∀ x, (t.grp x).verdict = (s.grp x).verdict := fun x => by have := congrArg Group.verdict (hkept x); exact this
  have hpound : (t.cor c).pound = (s.cor c).pound := by have := congrArg Core.pound (h.cores c); exact this
  have hon : t.groupsOn c = s.groupsOn c := by
    simp only [State.groupsOn, h.size, State.resident, State.coreOf, State.teamOf, State.tm, hteams, hteam]
  simp only [State.poundUsed, State.owedRecords, hon, hpound, hatom, hverd, hsends]

theorem roomFor_quiet {g : Nat} {s t : State} (h : Quiet g s t) (hr : s.roomFor g = true) : t.roomFor g = true := by
  have h1 : (t.grp g).cld = (s.grp g).cld := by have := congrArg Group.cld h.own; exact this
  have h2 : (t.grp g).cst = (s.grp g).cst := by have := congrArg Group.cst h.own; exact this
  have h3 : (t.grp g).ccpy = (s.grp g).ccpy := by have := congrArg Group.ccpy h.own; exact this
  have h4 : (t.grp g).ctile = (s.grp g).ctile := by have := congrArg Group.ctile h.own; exact this
  simpa only [State.roomFor, poundUsed_quiet h, h.coreOf, h1, h2, h3, h4] using hr

theorem grp_begun (s : State) (g : Nat) (w : IWord) (hg : g < s.groups.length) :
    ((s.begun g w).grp g).arch =
      { (s.grp g).arch with pc := (s.grp g).arch.pc + 12
                            regs := { (s.grp g).arch.regs with sig := sigFeed (s.grp g).arch.regs.sig (unitOf w) } } := by
  have h1 : (s.feedSig g (unitOf w)).grp g =
      { s.grp g with arch := { (s.grp g).arch with
          regs := { (s.grp g).arch.regs with sig := sigFeed (s.grp g).arch.regs.sig (unitOf w) } } } := by
    unfold State.feedSig State.modR
    rw [State.grp_modG, if_pos ⟨rfl, hg⟩]
  unfold State.begun
  rw [State.grp_modG, if_pos ⟨rfl, by simpa [State.feedSig, State.modR] using hg⟩, h1]

/-- Nothing has executed yet in a reach that a head has just opened. -/
theorem freshHead_openHead (s : State) (g : Nat) (hg : g < s.groups.length) : (s.openHead g).freshHead g = true := by
  have hs : g < (s.endReach g).groups.length := by
    rw [(Quiet.endReach (g := g) s).size]; exact hg
  have h : ((s.openHead g).grp g) = { (s.endReach g).grp g with
      reaches := ((s.endReach g).grp g).reaches ++
          [{ id := s.nextReach, snap := ((s.endReach g).grp g).arch, ended := none, deps := [], written := [], lastTag := 0, accPre := []
             spec := [], fresh := true, batches := ((s.endReach g).grp g).batches }] } := by
    have h1 := State.grp_modG (s.endReach g) g g fun x => { x with
      reaches := x.reaches ++
          [{ id := s.nextReach, snap := x.arch, ended := none, deps := [], written := [], lastTag := 0, accPre := []
             spec := [], fresh := true, batches := x.batches }] }
    rw [if_pos ⟨rfl, hs⟩] at h1
    exact h1
  simp [State.freshHead, State.curReach, h]

/-- What an effect is told of an issue. -/
def cxAt (s : State) (i : Instr) (e : Enc) : Cx :=
  { g := s.cur, pc := (s.grp s.cur).arch.pc, e := e, mask := maskAt s i e, sig0 := (s.grp s.cur).arch.regs.sig }

/-- An instruction that is ready and whose effect succeeds, with room for what it leaves, answers a next state, which
differs from the effect's own by bookkeeping. -/
theorem issue_commits (s : State) (i : Instr) (e : Enc) (tr : Tr) (eff : Eff) (hr : Ready s i e) (P : State → Prop)
    (heff : ∀ s1, Quiet s.cur s s1 → (s1.grp s.cur).arch = begunArch s i →
      ∃ s2, eff (cxAt s i e) s1 = .ok s2 ∧ s2.roomFor s.cur = true ∧
        ∀ t, Quiet s.cur s2 t → SameArch s.cur s2 t → P t) :
    ∃ t, issueT i e tr eff s = .next t ∧ P t := by
  have hg := hr.group
  have hatt : ∀ s0 ∈ [s.prepare s.cur i e, (s.prepare s.cur i e).openHead s.cur], Quiet s.cur s s0 → SameArch s.cur s s0 →
      ∃ t, s.attempt s0 i e tr eff s.cur = .committed t ∧ P t := by
    intro s0 hmem hq' hs'
    have hq := ((hq'.trans (Quiet.useLines s0 (vecRegs i e).1)).trans
      (Quiet.payToll _ (tollOf (s.grp s.cur).arch.regs (maskAt s i e) i))).trans
      (Quiet.markIssue _ (s.grp s.cur).arch.pc (if (form i).t then some (maskAt s i e) else none) (tr (cxAt s i e) s))
    have hs := ((hs'.trans (SameArch.useLines s0 (vecRegs i e).1)).trans
      (SameArch.payToll _ (tollOf (s.grp s.cur).arch.regs (maskAt s i e) i))).trans
      (SameArch.markIssue _ (s.grp s.cur).arch.pc (if (form i).t then some (maskAt s i e) else none) (tr (cxAt s i e) s))
    have hb := hq.trans (Quiet.begun _ (wordOf i))
    have ha := grp_begun _ s.cur (wordOf i) (by rw [hq.size]; exact hg)
    unfold SameArch at hs
    rw [hs] at ha
    obtain ⟨s2, h2, hroom, hP⟩ := heff _ hb ha
    refine ⟨_, ?_, hP _ (Quiet.afterCommit s2 i e) (SameArch.afterCommit s2 i e)⟩
    unfold State.attempt
    have h2' := h2
    unfold cxAt maskAt at h2'
    simp only [hr.lines s0 hmem, Bool.not_true, Bool.false_eq_true, if_false]
    rw [h2']
    simp only [hroom, Bool.true_or, if_true]
  unfold issueT
  rw [List.getElem?_eq_getElem hg]
  have hseal := hr.sealed
  have htoll := hr.toll
  unfold maskAt State.regsOf at htoll
  have hhead : s.headNeeded s.cur i e = true → (s.grp s.cur).reaches.length < 2 := by
    intro h
    obtain hf | hl := hr.reaches
    · simp [State.headNeeded, hf] at h
    · exact hl
  have hprep : s.prepared s.cur i e = true := by
    cases h : s.headNeeded s.cur i e
    · simp [State.prepared, hseal, h]
    · simp [State.prepared, hseal, hhead h]
  have htake := hr.take
  simp only [State.canTake, Bool.and_eq_true, Bool.not_eq_true'] at htake
  have hbound : s.atBoundary s.cur = true := htake.1.1.1
  have hbusy := htake.1.2
  have hissue : s.issuable s.cur i e = true := by
    simp only [State.issuable, Bool.and_eq_true]
    exact ⟨hr.take, htoll⟩
  have h0 : Quiet s.cur s (s.prepare s.cur i e) ∧ SameArch s.cur s (s.prepare s.cur i e) := by
    unfold State.prepare
    simp only [hseal, Bool.false_eq_true, if_false]
    split
    · exact ⟨Quiet.headOrEnd s, SameArch.headOrEnd s⟩
    · exact ⟨Quiet.refl _ s, rfl⟩
  obtain ⟨t0, ht0, hP0⟩ := hatt _ (by simp) h0.1 h0.2
  obtain ⟨t1, ht1, hP1⟩ := hatt _ (by simp) (h0.1.trans (Quiet.openHead _)) (h0.2.trans (SameArch.openHead _))
  have hdue : (s.prepare s.cur i e).freshHead s.cur = true ∨ ¬ 2 ≤ ((s.prepare s.cur i e).grp s.cur).reaches.length := by
    unfold State.prepare
    simp only [hseal, Bool.false_eq_true, if_false]
    split
    · next h =>
      left
      unfold State.headOrEnd
      rw [if_neg (by have := hhead h; omega)]
      exact freshHead_openHead s _ hg
    · obtain h | h := hr.reaches
      · exact .inl h
      · right
        omega
  unfold State.issueState
  simp only [hbound, hprep, hbusy, hissue, ht0, ht1, State.afterAttempt, State.Tried.due, Bool.not_true, Bool.false_eq_true, if_false, if_true]
  split
  · rename_i hd
    obtain h | h := hdue
    · simp [h] at hd
    · rw [if_neg h]
      exact ⟨t1, rfl, hP1⟩
  · exact ⟨t0, rfl, hP0⟩

/-- The same where the effect only writes registers: the next state has the registers that the effect gives. -/
theorem issue_registers (s : State) (i : Instr) (e : Enc) (tr : Tr) (eff : Eff) (hr : Ready s i e) (A : Arch)
    (heff : ∀ s1, Quiet s.cur s s1 → (s1.grp s.cur).arch = begunArch s i →
      ∃ s2, eff (cxAt s i e) s1 = .ok s2 ∧ Quiet s.cur s1 s2 ∧ (s2.grp s.cur).arch = A) :
    ∃ t, issueT i e tr eff s = .next t ∧ Quiet s.cur s t ∧ (t.grp s.cur).arch = A := by
  refine issue_commits s i e tr eff hr _ fun s1 h1 ha => ?_
  obtain ⟨s2, h2, hq, hA⟩ := heff s1 h1 ha
  exact ⟨s2, h2, roomFor_quiet (h1.trans hq) hr.room, fun t ht hs => ⟨(h1.trans hq).trans ht, Eq.trans hs hA⟩⟩

end Sys2Proof.Safety
end

