-- ==== Sys2Proof/Laws/Memory.lean ====
section
/-! SUPPORT. Laws of the sparse memory: every operation keeps the canonical form, and a read after a write. -/

namespace Sys2Proof.Machine

/-- Every address of a memory is above a bound. -/
def Memory.above (n : Nat) : Memory → Prop
  | [] => True
  | (a, _) :: _ => n < a

theorem Memory.wf_cons (a : Nat) (b : Byte) (m : Memory) :
    Memory.wf ((a, b) :: m) = true ↔ b ≠ Memory.blank ∧ Memory.above a m ∧ Memory.wf m = true := by
  cases m with
  | nil => simp [Memory.wf, Memory.above]
  | cons c m =>
    obtain ⟨a', b'⟩ := c
    simp [Memory.wf, Memory.above, and_assoc]

theorem Memory.above_write (n a : Nat) (v : Byte) (m : Memory) (hm : Memory.above n m) (hw : Memory.wf m = true)
    (ha : n < a) : Memory.above n (m.write a v) := by
  cases m with
  | nil => by_cases h : v = Memory.blank <;> simp [Memory.write, h, Memory.above, ha]
  | cons c m =>
    obtain ⟨k, b⟩ := c
    have hk : n < k := hm
    obtain ⟨-, hab, -⟩ := (Memory.wf_cons k b m).1 hw
    simp only [Memory.write]
    split
    · split
      · exact hk
      · exact ha
    · split
      · split
        · cases m with
          | nil => trivial
          | cons d m => exact Nat.lt_trans hk hab
        · exact ha
      · exact hk

/-- Writing a byte keeps the canonical form. -/
theorem Memory.wf_write (m : Memory) (a : Nat) (v : Byte) (h : Memory.wf m = true) :
    Memory.wf (m.write a v) = true := by
  induction m with
  | nil => by_cases hv : v = Memory.blank <;> simp [Memory.write, hv, Memory.wf]
  | cons c m ih =>
    obtain ⟨k, b⟩ := c
    obtain ⟨hb, hab, hw⟩ := (Memory.wf_cons k b m).1 h
    simp only [Memory.write]
    split
    next hlt =>
      split
      · exact h
      next hv => exact (Memory.wf_cons a v _).2 ⟨hv, hlt, h⟩
    next hge =>
      split
      next heq =>
        subst heq
        split
        · exact hw
        next hv => exact (Memory.wf_cons a v _).2 ⟨hv, hab, hw⟩
      next hne => exact (Memory.wf_cons k b _).2 ⟨hb, Memory.above_write k a v m hab hw (by omega), ih hw⟩

theorem Memory.wf_writeBytes (bs : List Byte) (m : Memory) (a : Nat) (h : Memory.wf m = true) :
    Memory.wf (m.writeBytes a bs) = true := by
  induction bs generalizing m a with
  | nil => exact h
  | cons b bs ih => exact ih _ _ (Memory.wf_write m a b h)

theorem Memory.wf_writeAll (ws : List (Nat × Byte)) (m : Memory) (h : Memory.wf m = true) :
    Memory.wf (m.writeAll ws) = true := by
  induction ws generalizing m with
  | nil => exact h
  | cons w ws ih => exact ih _ (Memory.wf_write m w.1 w.2 h)

theorem Memory.read_of_above (m : Memory) (a n : Nat) (hw : Memory.wf m = true) (hm : Memory.above n m) (h : a ≤ n) :
    m.read a = Memory.blank := by
  induction m generalizing n with
  | nil => rfl
  | cons c m ih =>
    obtain ⟨k, b⟩ := c
    obtain ⟨-, hab, hw'⟩ := (Memory.wf_cons k b m).1 hw
    have hk : n < k := hm
    have : k ≠ a := by omega
    simp only [Memory.read, this, if_false]
    exact ih k hw' hab (by omega)

/-- A read after a write of one byte. -/
theorem Memory.read_write (m : Memory) (a x : Nat) (v : Byte) (h : Memory.wf m = true) :
    (m.write a v).read x = if x = a then v else m.read x := by
  induction m with
  | nil =>
    by_cases hv : v = Memory.blank <;> by_cases hx : x = a <;> simp [Memory.write, Memory.read, hv, hx]
    · intro h'; exact absurd h'.symm hx
  | cons c m ih =>
    obtain ⟨k, b⟩ := c
    obtain ⟨-, hab, hw⟩ := (Memory.wf_cons k b m).1 h
    have hr : ∀ y, y ≤ k → Memory.read m y = Memory.blank := fun y hy => Memory.read_of_above m y k hw hab hy
    simp only [Memory.write]
    split
    next hlt =>
      split
      next hv =>
        by_cases hx : x = a
        · subst hx
          have : k ≠ x := by omega
          simp [Memory.read, this, hr x (by omega), hv]
        · simp [hx]
      next hv =>
        by_cases hx : x = a
        · simp [Memory.read, hx]
        · simp [Memory.read, hx, Ne.symm hx]
    next hge =>
      split
      next heq =>
        subst heq
        split
        next hv =>
          by_cases hx : x = a
          · subst hx; simp [hr x (Nat.le_refl _), hv]
          · simp [Memory.read, hx, Ne.symm hx]
        next hv =>
          by_cases hx : x = a
          · simp [Memory.read, hx]
          · simp [Memory.read, hx, Ne.symm hx]
      next hne =>
        simp only [Memory.read]
        by_cases hk : k = x
        · subst hk
          simp [Ne.symm hne]
        · simp [hk, ih hw]

/-- A write of consecutive bytes leaves every other byte alone. -/
theorem Memory.read_writeBytes_other (bs : List Byte) (m : Memory) (a x : Nat) (h : Memory.wf m = true)
    (hx : x < a ∨ a + bs.length ≤ x) : (m.writeBytes a bs).read x = m.read x := by
  induction bs generalizing m a with
  | nil => rfl
  | cons b bs ih =>
    simp only [List.length_cons] at hx
    simp only [Memory.writeBytes]
    rw [ih _ _ (Memory.wf_write m a b h) (by omega), Memory.read_write m a x b h, if_neg (by omega)]

/-- What consecutive bytes read as after they are written. -/
theorem Memory.read_writeBytes_mem (bs : List Byte) (m : Memory) (a i : Nat) (h : Memory.wf m = true)
    (hi : i < bs.length) : (m.writeBytes a bs).read (a + i) = bs[i] := by
  induction bs generalizing m a i with
  | nil => simp at hi
  | cons b bs ih =>
    cases i with
    | zero =>
      simp only [Memory.writeBytes]
      rw [Memory.read_writeBytes_other bs _ (a + 1) (a + 0) (Memory.wf_write m a b h) (by omega),
        Memory.read_write m a (a + 0) b h]
      simp
    | succ i =>
      have hi' : i < bs.length := by simpa using hi
      have := ih (m.write a b) (a + 1) i (Memory.wf_write m a b h) hi'
      simp only [Memory.writeBytes]
      rw [show a + (i + 1) = a + 1 + i by omega, this]
      rfl

/-- A write of keyed bytes leaves every key alone that it does not name. -/
theorem Memory.read_writeAll_other (ws : List (Nat × Byte)) (m : Memory) (x : Nat) (h : Memory.wf m = true)
    (hx : ∀ w ∈ ws, w.1 ≠ x) : (m.writeAll ws).read x = m.read x := by
  induction ws generalizing m with
  | nil => rfl
  | cons w ws ih =>
    simp only [Memory.writeAll]
    rw [ih _ (Memory.wf_write m w.1 w.2 h) (fun y hy => hx y (List.mem_cons_of_mem _ hy)),
      Memory.read_write m w.1 x w.2 h, if_neg (Ne.symm (hx w List.mem_cons_self))]

/-- Equal reads of canonical memories make equal memories. -/
theorem Memory.ext_read (m n : Memory) (hm : Memory.wf m = true) (hn : Memory.wf n = true)
    (h : ∀ x, m.read x = n.read x) : m = n := by
  induction m generalizing n with
  | nil =>
    cases n with
    | nil => rfl
    | cons d n =>
      obtain ⟨k, b⟩ := d
      have := h k
      simp [Memory.read] at this
      exact absurd this.symm ((Memory.wf_cons k b n).1 hn).1
  | cons c m ih =>
    obtain ⟨k, b⟩ := c
    obtain ⟨hb, hab, hwm⟩ := (Memory.wf_cons k b m).1 hm
    cases n with
    | nil =>
      have := h k
      simp [Memory.read] at this
      exact absurd this hb
    | cons d n =>
      obtain ⟨k', b'⟩ := d
      obtain ⟨hb', hab', hwn⟩ := (Memory.wf_cons k' b' n).1 hn
      have h1 := h k
      have h2 := h k'
      simp only [Memory.read, if_true] at h1 h2
      have hkk : k = k' := by
        by_cases hlt : k < k'
        · rw [if_neg (by omega), Memory.read_of_above n k k' hwn hab' (by omega)] at h1
          exact absurd h1 hb
        · by_cases hgt : k' < k
          · rw [if_neg (by omega), Memory.read_of_above m k' k hwm hab (by omega)] at h2
            exact absurd h2.symm hb'
          · omega
      subst hkk
      rw [if_pos rfl] at h1
      subst h1
      congr 1
      apply ih n hwm hwn
      intro x
      by_cases hx : x ≤ k
      · rw [Memory.read_of_above m x k hwm hab hx, Memory.read_of_above n x k hwn hab' hx]
      · have := h x
        simp only [Memory.read] at this
        rwa [if_neg (by omega), if_neg (by omega)] at this

end Sys2Proof.Machine
end

