-- ==== Sys2Proof/Laws/PerInstr.lean ====
section
/-! SUPPORT. For each instruction of the word format, the opcode map gives its constructor back (R119): what the round
trip of decoding rests on. The device's other steps have no word. -/

namespace Sys2Proof.Laws.F

set_option maxRecDepth 20000

/-- The opcode of an instruction selects the constructor that it was made with, and that constructor keeps its fields. -/
def Statement (i : Instr) : Prop :=
  ∀ e, enc? i = some e → ∃ mk, ofOpcode (opcode i) = some mk ∧ mk e = i ∧ ∀ x, enc? (mk x) = some x

/-- A stretch of the map selects nothing beyond its codes. -/
theorem past {n opc : Nat} {xs : List (Enc → Instr)} (h : xs.length ≤ 128) (k : n + 128 ≤ opc) :
    (if n ≤ opc then xs[opc - n]? else none) = none := by
  rw [if_pos (by omega)]; exact List.getElem?_eq_none (by omega)

/-- Codes from 0x0 up. -/
theorem in_scalar {opc : Nat} (h : opc < 0x80) : ofOpcode opc = segScalar[opc - 0x0]? := by
  simp only [ofOpcode, segments, List.findSome?_cons, List.findSome?_nil, Nat.zero_le, if_true, if_neg (by omega : ¬ 0x80 ≤ opc), if_neg (by omega : ¬ 0x100 ≤ opc), if_neg (by omega : ¬ 0x180 ≤ opc), if_neg (by omega : ¬ 0x200 ≤ opc), if_neg (by omega : ¬ 0x280 ≤ opc), if_neg (by omega : ¬ 0x300 ≤ opc), if_neg (by omega : ¬ 0x380 ≤ opc)]
  cases segScalar[opc - 0x0]? <;> rfl

/-- Codes from 0x80 up. -/
theorem in_control {opc : Nat} (l : 0x80 ≤ opc) (h : opc < 0x100) : ofOpcode opc = segControl[opc - 0x80]? := by
  simp only [ofOpcode, segments, List.findSome?_cons, List.findSome?_nil, past (n := 0x0) (xs := segScalar) (opc := opc) (by decide) (by omega), l, if_true, if_neg (by omega : ¬ 0x100 ≤ opc), if_neg (by omega : ¬ 0x180 ≤ opc), if_neg (by omega : ¬ 0x200 ≤ opc), if_neg (by omega : ¬ 0x280 ≤ opc), if_neg (by omega : ¬ 0x300 ≤ opc), if_neg (by omega : ¬ 0x380 ≤ opc)]
  cases segControl[opc - 0x80]? <;> rfl

/-- Codes from 0x100 up. -/
theorem in_vector {opc : Nat} (l : 0x100 ≤ opc) (h : opc < 0x180) : ofOpcode opc = segVector[opc - 0x100]? := by
  simp only [ofOpcode, segments, List.findSome?_cons, List.findSome?_nil, past (n := 0x0) (xs := segScalar) (opc := opc) (by decide) (by omega), past (n := 0x80) (xs := segControl) (opc := opc) (by decide) (by omega), l, if_true, if_neg (by omega : ¬ 0x180 ≤ opc), if_neg (by omega : ¬ 0x200 ≤ opc), if_neg (by omega : ¬ 0x280 ≤ opc), if_neg (by omega : ¬ 0x300 ≤ opc), if_neg (by omega : ¬ 0x380 ≤ opc)]
  cases segVector[opc - 0x100]? <;> rfl

/-- Codes from 0x180 up. -/
theorem in_float {opc : Nat} (l : 0x180 ≤ opc) (h : opc < 0x200) : ofOpcode opc = segFloat[opc - 0x180]? := by
  simp only [ofOpcode, segments, List.findSome?_cons, List.findSome?_nil, past (n := 0x0) (xs := segScalar) (opc := opc) (by decide) (by omega), past (n := 0x80) (xs := segControl) (opc := opc) (by decide) (by omega), past (n := 0x100) (xs := segVector) (opc := opc) (by decide) (by omega), l, if_true, if_neg (by omega : ¬ 0x200 ≤ opc), if_neg (by omega : ¬ 0x280 ≤ opc), if_neg (by omega : ¬ 0x300 ≤ opc), if_neg (by omega : ¬ 0x380 ≤ opc)]
  cases segFloat[opc - 0x180]? <;> rfl

/-- Codes from 0x200 up. -/
theorem in_predicate {opc : Nat} (l : 0x200 ≤ opc) (h : opc < 0x280) : ofOpcode opc = segPredicate[opc - 0x200]? := by
  simp only [ofOpcode, segments, List.findSome?_cons, List.findSome?_nil, past (n := 0x0) (xs := segScalar) (opc := opc) (by decide) (by omega), past (n := 0x80) (xs := segControl) (opc := opc) (by decide) (by omega), past (n := 0x100) (xs := segVector) (opc := opc) (by decide) (by omega), past (n := 0x180) (xs := segFloat) (opc := opc) (by decide) (by omega), l, if_true, if_neg (by omega : ¬ 0x280 ≤ opc), if_neg (by omega : ¬ 0x300 ≤ opc), if_neg (by omega : ¬ 0x380 ≤ opc)]
  cases segPredicate[opc - 0x200]? <;> rfl

/-- Codes from 0x280 up. -/
theorem in_memory {opc : Nat} (l : 0x280 ≤ opc) (h : opc < 0x300) : ofOpcode opc = segMemory[opc - 0x280]? := by
  simp only [ofOpcode, segments, List.findSome?_cons, List.findSome?_nil, past (n := 0x0) (xs := segScalar) (opc := opc) (by decide) (by omega), past (n := 0x80) (xs := segControl) (opc := opc) (by decide) (by omega), past (n := 0x100) (xs := segVector) (opc := opc) (by decide) (by omega), past (n := 0x180) (xs := segFloat) (opc := opc) (by decide) (by omega), past (n := 0x200) (xs := segPredicate) (opc := opc) (by decide) (by omega), l, if_true, if_neg (by omega : ¬ 0x300 ≤ opc), if_neg (by omega : ¬ 0x380 ≤ opc)]
  cases segMemory[opc - 0x280]? <;> rfl

/-- Codes from 0x300 up. -/
theorem in_matrix {opc : Nat} (l : 0x300 ≤ opc) (h : opc < 0x380) : ofOpcode opc = segMatrix[opc - 0x300]? := by
  simp only [ofOpcode, segments, List.findSome?_cons, List.findSome?_nil, past (n := 0x0) (xs := segScalar) (opc := opc) (by decide) (by omega), past (n := 0x80) (xs := segControl) (opc := opc) (by decide) (by omega), past (n := 0x100) (xs := segVector) (opc := opc) (by decide) (by omega), past (n := 0x180) (xs := segFloat) (opc := opc) (by decide) (by omega), past (n := 0x200) (xs := segPredicate) (opc := opc) (by decide) (by omega), past (n := 0x280) (xs := segMemory) (opc := opc) (by decide) (by omega), l, if_true, if_neg (by omega : ¬ 0x380 ≤ opc)]
  cases segMatrix[opc - 0x300]? <;> rfl

/-- Codes from 0x380 up. -/
theorem in_system {opc : Nat} (l : 0x380 ≤ opc) (h : opc < 0x400) : ofOpcode opc = segSystem[opc - 0x380]? := by
  simp only [ofOpcode, segments, List.findSome?_cons, List.findSome?_nil, past (n := 0x0) (xs := segScalar) (opc := opc) (by decide) (by omega), past (n := 0x80) (xs := segControl) (opc := opc) (by decide) (by omega), past (n := 0x100) (xs := segVector) (opc := opc) (by decide) (by omega), past (n := 0x180) (xs := segFloat) (opc := opc) (by decide) (by omega), past (n := 0x200) (xs := segPredicate) (opc := opc) (by decide) (by omega), past (n := 0x280) (xs := segMemory) (opc := opc) (by decide) (by omega), past (n := 0x300) (xs := segMatrix) (opc := opc) (by decide) (by omega), l, if_true]
  cases segSystem[opc - 0x380]? <;> rfl

theorem sadd (w : SWidth) (e : Enc) : Statement (.sadd w e) := by
  cases w <;> (rintro _ ⟨⟩; exact ⟨.sadd _, (in_scalar (Nat.le_of_ble_eq_true rfl)).trans rfl, rfl, fun _ => rfl⟩)

theorem ssub (w : SWidth) (e : Enc) : Statement (.ssub w e) := by
  cases w <;> (rintro _ ⟨⟩; exact ⟨.ssub _, (in_scalar (Nat.le_of_ble_eq_true rfl)).trans rfl, rfl, fun _ => rfl⟩)

theorem smul (w : SWidth) (e : Enc) : Statement (.smul w e) := by
  cases w <;> (rintro _ ⟨⟩; exact ⟨.smul _, (in_scalar (Nat.le_of_ble_eq_true rfl)).trans rfl, rfl, fun _ => rfl⟩)

theorem smulh (w : SWidth) (e : Enc) : Statement (.smulh w e) := by
  cases w <;> (rintro _ ⟨⟩; exact ⟨.smulh _, (in_scalar (Nat.le_of_ble_eq_true rfl)).trans rfl, rfl, fun _ => rfl⟩)

theorem smulhu (w : SWidth) (e : Enc) : Statement (.smulhu w e) := by
  cases w <;> (rintro _ ⟨⟩; exact ⟨.smulhu _, (in_scalar (Nat.le_of_ble_eq_true rfl)).trans rfl, rfl, fun _ => rfl⟩)

theorem sdiv (w : SWidth) (e : Enc) : Statement (.sdiv w e) := by
  cases w <;> (rintro _ ⟨⟩; exact ⟨.sdiv _, (in_scalar (Nat.le_of_ble_eq_true rfl)).trans rfl, rfl, fun _ => rfl⟩)

theorem sdivu (w : SWidth) (e : Enc) : Statement (.sdivu w e) := by
  cases w <;> (rintro _ ⟨⟩; exact ⟨.sdivu _, (in_scalar (Nat.le_of_ble_eq_true rfl)).trans rfl, rfl, fun _ => rfl⟩)

theorem srem (w : SWidth) (e : Enc) : Statement (.srem w e) := by
  cases w <;> (rintro _ ⟨⟩; exact ⟨.srem _, (in_scalar (Nat.le_of_ble_eq_true rfl)).trans rfl, rfl, fun _ => rfl⟩)

theorem sremu (w : SWidth) (e : Enc) : Statement (.sremu w e) := by
  cases w <;> (rintro _ ⟨⟩; exact ⟨.sremu _, (in_scalar (Nat.le_of_ble_eq_true rfl)).trans rfl, rfl, fun _ => rfl⟩)

theorem sand (w : SWidth) (e : Enc) : Statement (.sand w e) := by
  cases w <;> (rintro _ ⟨⟩; exact ⟨.sand _, (in_scalar (Nat.le_of_ble_eq_true rfl)).trans rfl, rfl, fun _ => rfl⟩)

theorem sor (w : SWidth) (e : Enc) : Statement (.sor w e) := by
  cases w <;> (rintro _ ⟨⟩; exact ⟨.sor _, (in_scalar (Nat.le_of_ble_eq_true rfl)).trans rfl, rfl, fun _ => rfl⟩)

theorem sxor (w : SWidth) (e : Enc) : Statement (.sxor w e) := by
  cases w <;> (rintro _ ⟨⟩; exact ⟨.sxor _, (in_scalar (Nat.le_of_ble_eq_true rfl)).trans rfl, rfl, fun _ => rfl⟩)

theorem sandn (w : SWidth) (e : Enc) : Statement (.sandn w e) := by
  cases w <;> (rintro _ ⟨⟩; exact ⟨.sandn _, (in_scalar (Nat.le_of_ble_eq_true rfl)).trans rfl, rfl, fun _ => rfl⟩)

theorem sshl (w : SWidth) (e : Enc) : Statement (.sshl w e) := by
  cases w <;> (rintro _ ⟨⟩; exact ⟨.sshl _, (in_scalar (Nat.le_of_ble_eq_true rfl)).trans rfl, rfl, fun _ => rfl⟩)

theorem sshr (w : SWidth) (e : Enc) : Statement (.sshr w e) := by
  cases w <;> (rintro _ ⟨⟩; exact ⟨.sshr _, (in_scalar (Nat.le_of_ble_eq_true rfl)).trans rfl, rfl, fun _ => rfl⟩)

theorem ssra (w : SWidth) (e : Enc) : Statement (.ssra w e) := by
  cases w <;> (rintro _ ⟨⟩; exact ⟨.ssra _, (in_scalar (Nat.le_of_ble_eq_true rfl)).trans rfl, rfl, fun _ => rfl⟩)

theorem srol (w : SWidth) (e : Enc) : Statement (.srol w e) := by
  cases w <;> (rintro _ ⟨⟩; exact ⟨.srol _, (in_scalar (Nat.le_of_ble_eq_true rfl)).trans rfl, rfl, fun _ => rfl⟩)

theorem smin (w : SWidth) (e : Enc) : Statement (.smin w e) := by
  cases w <;> (rintro _ ⟨⟩; exact ⟨.smin _, (in_scalar (Nat.le_of_ble_eq_true rfl)).trans rfl, rfl, fun _ => rfl⟩)

theorem smax (w : SWidth) (e : Enc) : Statement (.smax w e) := by
  cases w <;> (rintro _ ⟨⟩; exact ⟨.smax _, (in_scalar (Nat.le_of_ble_eq_true rfl)).trans rfl, rfl, fun _ => rfl⟩)

theorem sminu (w : SWidth) (e : Enc) : Statement (.sminu w e) := by
  cases w <;> (rintro _ ⟨⟩; exact ⟨.sminu _, (in_scalar (Nat.le_of_ble_eq_true rfl)).trans rfl, rfl, fun _ => rfl⟩)

theorem smaxu (w : SWidth) (e : Enc) : Statement (.smaxu w e) := by
  cases w <;> (rintro _ ⟨⟩; exact ⟨.smaxu _, (in_scalar (Nat.le_of_ble_eq_true rfl)).trans rfl, rfl, fun _ => rfl⟩)

theorem sclz (w : SWidth) (e : Enc) : Statement (.sclz w e) := by
  cases w <;> (rintro _ ⟨⟩; exact ⟨.sclz _, (in_scalar (Nat.le_of_ble_eq_true rfl)).trans rfl, rfl, fun _ => rfl⟩)

theorem sctz (w : SWidth) (e : Enc) : Statement (.sctz w e) := by
  cases w <;> (rintro _ ⟨⟩; exact ⟨.sctz _, (in_scalar (Nat.le_of_ble_eq_true rfl)).trans rfl, rfl, fun _ => rfl⟩)

theorem spopc (w : SWidth) (e : Enc) : Statement (.spopc w e) := by
  cases w <;> (rintro _ ⟨⟩; exact ⟨.spopc _, (in_scalar (Nat.le_of_ble_eq_true rfl)).trans rfl, rfl, fun _ => rfl⟩)

theorem sbrev (w : SWidth) (e : Enc) : Statement (.sbrev w e) := by
  cases w <;> (rintro _ ⟨⟩; exact ⟨.sbrev _, (in_scalar (Nat.le_of_ble_eq_true rfl)).trans rfl, rfl, fun _ => rfl⟩)

theorem sbfx (w : SWidth) (e : Enc) : Statement (.sbfx w e) := by
  cases w <;> (rintro _ ⟨⟩; exact ⟨.sbfx _, (in_scalar (Nat.le_of_ble_eq_true rfl)).trans rfl, rfl, fun _ => rfl⟩)

theorem sbfxu (w : SWidth) (e : Enc) : Statement (.sbfxu w e) := by
  cases w <;> (rintro _ ⟨⟩; exact ⟨.sbfxu _, (in_scalar (Nat.le_of_ble_eq_true rfl)).trans rfl, rfl, fun _ => rfl⟩)

theorem sbfi (w : SWidth) (e : Enc) : Statement (.sbfi w e) := by
  cases w <;> (rintro _ ⟨⟩; exact ⟨.sbfi _, (in_scalar (Nat.le_of_ble_eq_true rfl)).trans rfl, rfl, fun _ => rfl⟩)

theorem ssel (e : Enc) : Statement (.ssel e) := by
  rintro _ ⟨⟩; exact ⟨.ssel, (in_scalar (Nat.le_of_ble_eq_true rfl)).trans rfl, rfl, fun _ => rfl⟩

theorem smov (e : Enc) : Statement (.smov e) := by
  rintro _ ⟨⟩; exact ⟨.smov, (in_scalar (Nat.le_of_ble_eq_true rfl)).trans rfl, rfl, fun _ => rfl⟩

theorem smovi (e : Enc) : Statement (.smovi e) := by
  rintro _ ⟨⟩; exact ⟨.smovi, (in_scalar (Nat.le_of_ble_eq_true rfl)).trans rfl, rfl, fun _ => rfl⟩

theorem smovh (e : Enc) : Statement (.smovh e) := by
  rintro _ ⟨⟩; exact ⟨.smovh, (in_scalar (Nat.le_of_ble_eq_true rfl)).trans rfl, rfl, fun _ => rfl⟩

theorem scmp (c : Cond) (w : SWidth) (e : Enc) : Statement (.scmp c w e) := by
  cases c <;> cases w <;> (rintro _ ⟨⟩; exact ⟨.scmp _ _, (in_scalar (Nat.le_of_ble_eq_true rfl)).trans rfl, rfl, fun _ => rfl⟩)

theorem sgetsr (e : Enc) : Statement (.sgetsr e) := by
  rintro _ ⟨⟩; exact ⟨.sgetsr, (in_scalar (Nat.le_of_ble_eq_true rfl)).trans rfl, rfl, fun _ => rfl⟩

theorem ssetsr (e : Enc) : Statement (.ssetsr e) := by
  rintro _ ⟨⟩; exact ⟨.ssetsr, (in_scalar (Nat.le_of_ble_eq_true rfl)).trans rfl, rfl, fun _ => rfl⟩

theorem sld (w : MWidth) (e : Enc) : Statement (.sld w e) := by
  cases w <;> (rintro _ ⟨⟩; exact ⟨.sld _, (in_scalar (Nat.le_of_ble_eq_true rfl)).trans rfl, rfl, fun _ => rfl⟩)

theorem sldu (w : UWidth) (e : Enc) : Statement (.sldu w e) := by
  cases w <;> (rintro _ ⟨⟩; exact ⟨.sldu _, (in_scalar (Nat.le_of_ble_eq_true rfl)).trans rfl, rfl, fun _ => rfl⟩)

theorem sst (w : MWidth) (e : Enc) : Statement (.sst w e) := by
  cases w <;> (rintro _ ⟨⟩; exact ⟨.sst _, (in_scalar (Nat.le_of_ble_eq_true rfl)).trans rfl, rfl, fun _ => rfl⟩)

theorem anch (e : Enc) : Statement (.anch e) := by
  rintro _ ⟨⟩; exact ⟨.anch, (in_scalar (Nat.le_of_ble_eq_true rfl)).trans rfl, rfl, fun _ => rfl⟩

theorem bra (e : Enc) : Statement (.bra e) := by
  rintro _ ⟨⟩; exact ⟨.bra, (in_control (Nat.le_of_ble_eq_true rfl) (Nat.le_of_ble_eq_true rfl)).trans rfl, rfl, fun _ => rfl⟩

theorem brz (e : Enc) : Statement (.brz e) := by
  rintro _ ⟨⟩; exact ⟨.brz, (in_control (Nat.le_of_ble_eq_true rfl) (Nat.le_of_ble_eq_true rfl)).trans rfl, rfl, fun _ => rfl⟩

theorem brnz (e : Enc) : Statement (.brnz e) := by
  rintro _ ⟨⟩; exact ⟨.brnz, (in_control (Nat.le_of_ble_eq_true rfl) (Nat.le_of_ble_eq_true rfl)).trans rfl, rfl, fun _ => rfl⟩

theorem brany (e : Enc) : Statement (.brany e) := by
  rintro _ ⟨⟩; exact ⟨.brany, (in_control (Nat.le_of_ble_eq_true rfl) (Nat.le_of_ble_eq_true rfl)).trans rfl, rfl, fun _ => rfl⟩

theorem brall (e : Enc) : Statement (.brall e) := by
  rintro _ ⟨⟩; exact ⟨.brall, (in_control (Nat.le_of_ble_eq_true rfl) (Nat.le_of_ble_eq_true rfl)).trans rfl, rfl, fun _ => rfl⟩

theorem brnone (e : Enc) : Statement (.brnone e) := by
  rintro _ ⟨⟩; exact ⟨.brnone, (in_control (Nat.le_of_ble_eq_true rfl) (Nat.le_of_ble_eq_true rfl)).trans rfl, rfl, fun _ => rfl⟩

theorem call (e : Enc) : Statement (.call e) := by
  rintro _ ⟨⟩; exact ⟨.call, (in_control (Nat.le_of_ble_eq_true rfl) (Nat.le_of_ble_eq_true rfl)).trans rfl, rfl, fun _ => rfl⟩

theorem calli (e : Enc) : Statement (.calli e) := by
  rintro _ ⟨⟩; exact ⟨.calli, (in_control (Nat.le_of_ble_eq_true rfl) (Nat.le_of_ble_eq_true rfl)).trans rfl, rfl, fun _ => rfl⟩

theorem ret (e : Enc) : Statement (.ret e) := by
  rintro _ ⟨⟩; exact ⟨.ret, (in_control (Nat.le_of_ble_eq_true rfl) (Nat.le_of_ble_eq_true rfl)).trans rfl, rfl, fun _ => rfl⟩

theorem jmpi (e : Enc) : Statement (.jmpi e) := by
  rintro _ ⟨⟩; exact ⟨.jmpi, (in_control (Nat.le_of_ble_eq_true rfl) (Nat.le_of_ble_eq_true rfl)).trans rfl, rfl, fun _ => rfl⟩

theorem loop (e : Enc) : Statement (.loop e) := by
  rintro _ ⟨⟩; exact ⟨.loop, (in_control (Nat.le_of_ble_eq_true rfl) (Nat.le_of_ble_eq_true rfl)).trans rfl, rfl, fun _ => rfl⟩

theorem nop (e : Enc) : Statement (.nop e) := by
  rintro _ ⟨⟩; exact ⟨.nop, (in_control (Nat.le_of_ble_eq_true rfl) (Nat.le_of_ble_eq_true rfl)).trans rfl, rfl, fun _ => rfl⟩

theorem yield (e : Enc) : Statement (.yield e) := by
  rintro _ ⟨⟩; exact ⟨.yield, (in_control (Nat.le_of_ble_eq_true rfl) (Nat.le_of_ble_eq_true rfl)).trans rfl, rfl, fun _ => rfl⟩

theorem exit (e : Enc) : Statement (.exit e) := by
  rintro _ ⟨⟩; exact ⟨.exit, (in_control (Nat.le_of_ble_eq_true rfl) (Nat.le_of_ble_eq_true rfl)).trans rfl, rfl, fun _ => rfl⟩

theorem vadd (w : VWidth) (e : Enc) : Statement (.vadd w e) := by
  cases w <;> (rintro _ ⟨⟩; exact ⟨.vadd _, (in_vector (Nat.le_of_ble_eq_true rfl) (Nat.le_of_ble_eq_true rfl)).trans rfl, rfl, fun _ => rfl⟩)

theorem vsub (w : VWidth) (e : Enc) : Statement (.vsub w e) := by
  cases w <;> (rintro _ ⟨⟩; exact ⟨.vsub _, (in_vector (Nat.le_of_ble_eq_true rfl) (Nat.le_of_ble_eq_true rfl)).trans rfl, rfl, fun _ => rfl⟩)

theorem vmul (e : Enc) : Statement (.vmul e) := by
  rintro _ ⟨⟩; exact ⟨.vmul, (in_vector (Nat.le_of_ble_eq_true rfl) (Nat.le_of_ble_eq_true rfl)).trans rfl, rfl, fun _ => rfl⟩

theorem vmulh (e : Enc) : Statement (.vmulh e) := by
  rintro _ ⟨⟩; exact ⟨.vmulh, (in_vector (Nat.le_of_ble_eq_true rfl) (Nat.le_of_ble_eq_true rfl)).trans rfl, rfl, fun _ => rfl⟩

theorem vmulhu (e : Enc) : Statement (.vmulhu e) := by
  rintro _ ⟨⟩; exact ⟨.vmulhu, (in_vector (Nat.le_of_ble_eq_true rfl) (Nat.le_of_ble_eq_true rfl)).trans rfl, rfl, fun _ => rfl⟩

theorem vmad (e : Enc) : Statement (.vmad e) := by
  rintro _ ⟨⟩; exact ⟨.vmad, (in_vector (Nat.le_of_ble_eq_true rfl) (Nat.le_of_ble_eq_true rfl)).trans rfl, rfl, fun _ => rfl⟩

theorem vand (e : Enc) : Statement (.vand e) := by
  rintro _ ⟨⟩; exact ⟨.vand, (in_vector (Nat.le_of_ble_eq_true rfl) (Nat.le_of_ble_eq_true rfl)).trans rfl, rfl, fun _ => rfl⟩

theorem vor (e : Enc) : Statement (.vor e) := by
  rintro _ ⟨⟩; exact ⟨.vor, (in_vector (Nat.le_of_ble_eq_true rfl) (Nat.le_of_ble_eq_true rfl)).trans rfl, rfl, fun _ => rfl⟩

theorem vxor (e : Enc) : Statement (.vxor e) := by
  rintro _ ⟨⟩; exact ⟨.vxor, (in_vector (Nat.le_of_ble_eq_true rfl) (Nat.le_of_ble_eq_true rfl)).trans rfl, rfl, fun _ => rfl⟩

theorem vandn (e : Enc) : Statement (.vandn e) := by
  rintro _ ⟨⟩; exact ⟨.vandn, (in_vector (Nat.le_of_ble_eq_true rfl) (Nat.le_of_ble_eq_true rfl)).trans rfl, rfl, fun _ => rfl⟩

theorem vshl (e : Enc) : Statement (.vshl e) := by
  rintro _ ⟨⟩; exact ⟨.vshl, (in_vector (Nat.le_of_ble_eq_true rfl) (Nat.le_of_ble_eq_true rfl)).trans rfl, rfl, fun _ => rfl⟩

theorem vshr (e : Enc) : Statement (.vshr e) := by
  rintro _ ⟨⟩; exact ⟨.vshr, (in_vector (Nat.le_of_ble_eq_true rfl) (Nat.le_of_ble_eq_true rfl)).trans rfl, rfl, fun _ => rfl⟩

theorem vsra (e : Enc) : Statement (.vsra e) := by
  rintro _ ⟨⟩; exact ⟨.vsra, (in_vector (Nat.le_of_ble_eq_true rfl) (Nat.le_of_ble_eq_true rfl)).trans rfl, rfl, fun _ => rfl⟩

theorem vmin (e : Enc) : Statement (.vmin e) := by
  rintro _ ⟨⟩; exact ⟨.vmin, (in_vector (Nat.le_of_ble_eq_true rfl) (Nat.le_of_ble_eq_true rfl)).trans rfl, rfl, fun _ => rfl⟩

theorem vmax (e : Enc) : Statement (.vmax e) := by
  rintro _ ⟨⟩; exact ⟨.vmax, (in_vector (Nat.le_of_ble_eq_true rfl) (Nat.le_of_ble_eq_true rfl)).trans rfl, rfl, fun _ => rfl⟩

theorem vminu (e : Enc) : Statement (.vminu e) := by
  rintro _ ⟨⟩; exact ⟨.vminu, (in_vector (Nat.le_of_ble_eq_true rfl) (Nat.le_of_ble_eq_true rfl)).trans rfl, rfl, fun _ => rfl⟩

theorem vmaxu (e : Enc) : Statement (.vmaxu e) := by
  rintro _ ⟨⟩; exact ⟨.vmaxu, (in_vector (Nat.le_of_ble_eq_true rfl) (Nat.le_of_ble_eq_true rfl)).trans rfl, rfl, fun _ => rfl⟩

theorem vclz (e : Enc) : Statement (.vclz e) := by
  rintro _ ⟨⟩; exact ⟨.vclz, (in_vector (Nat.le_of_ble_eq_true rfl) (Nat.le_of_ble_eq_true rfl)).trans rfl, rfl, fun _ => rfl⟩

theorem vpopc (e : Enc) : Statement (.vpopc e) := by
  rintro _ ⟨⟩; exact ⟨.vpopc, (in_vector (Nat.le_of_ble_eq_true rfl) (Nat.le_of_ble_eq_true rfl)).trans rfl, rfl, fun _ => rfl⟩

theorem vbfx (e : Enc) : Statement (.vbfx e) := by
  rintro _ ⟨⟩; exact ⟨.vbfx, (in_vector (Nat.le_of_ble_eq_true rfl) (Nat.le_of_ble_eq_true rfl)).trans rfl, rfl, fun _ => rfl⟩

theorem vbfxu (e : Enc) : Statement (.vbfxu e) := by
  rintro _ ⟨⟩; exact ⟨.vbfxu, (in_vector (Nat.le_of_ble_eq_true rfl) (Nat.le_of_ble_eq_true rfl)).trans rfl, rfl, fun _ => rfl⟩

theorem vbfi (e : Enc) : Statement (.vbfi e) := by
  rintro _ ⟨⟩; exact ⟨.vbfi, (in_vector (Nat.le_of_ble_eq_true rfl) (Nat.le_of_ble_eq_true rfl)).trans rfl, rfl, fun _ => rfl⟩

theorem vsel (e : Enc) : Statement (.vsel e) := by
  rintro _ ⟨⟩; exact ⟨.vsel, (in_vector (Nat.le_of_ble_eq_true rfl) (Nat.le_of_ble_eq_true rfl)).trans rfl, rfl, fun _ => rfl⟩

theorem vmov (w : VWidth) (e : Enc) : Statement (.vmov w e) := by
  cases w <;> (rintro _ ⟨⟩; exact ⟨.vmov _, (in_vector (Nat.le_of_ble_eq_true rfl) (Nat.le_of_ble_eq_true rfl)).trans rfl, rfl, fun _ => rfl⟩)

theorem vidx (e : Enc) : Statement (.vidx e) := by
  rintro _ ⟨⟩; exact ⟨.vidx, (in_vector (Nat.le_of_ble_eq_true rfl) (Nat.le_of_ble_eq_true rfl)).trans rfl, rfl, fun _ => rfl⟩

theorem vfadd (t : FType) (e : Enc) : Statement (.vfadd t e) := by
  cases t <;> (rintro _ ⟨⟩; exact ⟨.vfadd _, (in_float (Nat.le_of_ble_eq_true rfl) (Nat.le_of_ble_eq_true rfl)).trans rfl, rfl, fun _ => rfl⟩)

theorem vfsub (t : FType) (e : Enc) : Statement (.vfsub t e) := by
  cases t <;> (rintro _ ⟨⟩; exact ⟨.vfsub _, (in_float (Nat.le_of_ble_eq_true rfl) (Nat.le_of_ble_eq_true rfl)).trans rfl, rfl, fun _ => rfl⟩)

theorem vfmul (t : FType) (e : Enc) : Statement (.vfmul t e) := by
  cases t <;> (rintro _ ⟨⟩; exact ⟨.vfmul _, (in_float (Nat.le_of_ble_eq_true rfl) (Nat.le_of_ble_eq_true rfl)).trans rfl, rfl, fun _ => rfl⟩)

theorem vfma (t : FType) (e : Enc) : Statement (.vfma t e) := by
  cases t <;> (rintro _ ⟨⟩; exact ⟨.vfma _, (in_float (Nat.le_of_ble_eq_true rfl) (Nat.le_of_ble_eq_true rfl)).trans rfl, rfl, fun _ => rfl⟩)

theorem vfmin (t : FType) (e : Enc) : Statement (.vfmin t e) := by
  cases t <;> (rintro _ ⟨⟩; exact ⟨.vfmin _, (in_float (Nat.le_of_ble_eq_true rfl) (Nat.le_of_ble_eq_true rfl)).trans rfl, rfl, fun _ => rfl⟩)

theorem vfmax (t : FType) (e : Enc) : Statement (.vfmax t e) := by
  cases t <;> (rintro _ ⟨⟩; exact ⟨.vfmax _, (in_float (Nat.le_of_ble_eq_true rfl) (Nat.le_of_ble_eq_true rfl)).trans rfl, rfl, fun _ => rfl⟩)

theorem vfdiv (t : FType) (e : Enc) : Statement (.vfdiv t e) := by
  cases t <;> (rintro _ ⟨⟩; exact ⟨.vfdiv _, (in_float (Nat.le_of_ble_eq_true rfl) (Nat.le_of_ble_eq_true rfl)).trans rfl, rfl, fun _ => rfl⟩)

theorem vfsqrt (t : FType) (e : Enc) : Statement (.vfsqrt t e) := by
  cases t <;> (rintro _ ⟨⟩; exact ⟨.vfsqrt _, (in_float (Nat.le_of_ble_eq_true rfl) (Nat.le_of_ble_eq_true rfl)).trans rfl, rfl, fun _ => rfl⟩)

theorem vfrcp (t : FType) (e : Enc) : Statement (.vfrcp t e) := by
  cases t <;> (rintro _ ⟨⟩; exact ⟨.vfrcp _, (in_float (Nat.le_of_ble_eq_true rfl) (Nat.le_of_ble_eq_true rfl)).trans rfl, rfl, fun _ => rfl⟩)

theorem vfrsq (t : FType) (e : Enc) : Statement (.vfrsq t e) := by
  cases t <;> (rintro _ ⟨⟩; exact ⟨.vfrsq _, (in_float (Nat.le_of_ble_eq_true rfl) (Nat.le_of_ble_eq_true rfl)).trans rfl, rfl, fun _ => rfl⟩)

theorem vfex2 (t : FType) (e : Enc) : Statement (.vfex2 t e) := by
  cases t <;> (rintro _ ⟨⟩; exact ⟨.vfex2 _, (in_float (Nat.le_of_ble_eq_true rfl) (Nat.le_of_ble_eq_true rfl)).trans rfl, rfl, fun _ => rfl⟩)

theorem vflg2 (t : FType) (e : Enc) : Statement (.vflg2 t e) := by
  cases t <;> (rintro _ ⟨⟩; exact ⟨.vflg2 _, (in_float (Nat.le_of_ble_eq_true rfl) (Nat.le_of_ble_eq_true rfl)).trans rfl, rfl, fun _ => rfl⟩)

theorem vfclass (t : FType) (e : Enc) : Statement (.vfclass t e) := by
  cases t <;> (rintro _ ⟨⟩; exact ⟨.vfclass _, (in_float (Nat.le_of_ble_eq_true rfl) (Nat.le_of_ble_eq_true rfl)).trans rfl, rfl, fun _ => rfl⟩)

theorem vcvt (k : CvtKind) (e : Enc) : Statement (.vcvt k e) := by
  cases k <;> (rintro _ ⟨⟩; exact ⟨.vcvt _, (in_float (Nat.le_of_ble_eq_true rfl) (Nat.le_of_ble_eq_true rfl)).trans rfl, rfl, fun _ => rfl⟩)

theorem vcvt8 (k : Cvt8Kind) (e : Enc) : Statement (.vcvt8 k e) := by
  cases k <;> (rintro _ ⟨⟩; exact ⟨.vcvt8 _, (in_float (Nat.le_of_ble_eq_true rfl) (Nat.le_of_ble_eq_true rfl)).trans rfl, rfl, fun _ => rfl⟩)

theorem vpk4 (e : Enc) : Statement (.vpk4 e) := by
  rintro _ ⟨⟩; exact ⟨.vpk4, (in_float (Nat.le_of_ble_eq_true rfl) (Nat.le_of_ble_eq_true rfl)).trans rfl, rfl, fun _ => rfl⟩

theorem vupk4 (e : Enc) : Statement (.vupk4 e) := by
  rintro _ ⟨⟩; exact ⟨.vupk4, (in_float (Nat.le_of_ble_eq_true rfl) (Nat.le_of_ble_eq_true rfl)).trans rfl, rfl, fun _ => rfl⟩

theorem vcmp (c : Cond) (e : Enc) : Statement (.vcmp c e) := by
  cases c <;> (rintro _ ⟨⟩; exact ⟨.vcmp _, (in_predicate (Nat.le_of_ble_eq_true rfl) (Nat.le_of_ble_eq_true rfl)).trans rfl, rfl, fun _ => rfl⟩)

theorem vfcmp (c : FCond) (t : HType) (e : Enc) : Statement (.vfcmp c t e) := by
  cases c <;> cases t <;> (rintro _ ⟨⟩; exact ⟨.vfcmp _ _, (in_predicate (Nat.le_of_ble_eq_true rfl) (Nat.le_of_ble_eq_true rfl)).trans rfl, rfl, fun _ => rfl⟩)

theorem pand (e : Enc) : Statement (.pand e) := by
  rintro _ ⟨⟩; exact ⟨.pand, (in_predicate (Nat.le_of_ble_eq_true rfl) (Nat.le_of_ble_eq_true rfl)).trans rfl, rfl, fun _ => rfl⟩

theorem por (e : Enc) : Statement (.por e) := by
  rintro _ ⟨⟩; exact ⟨.por, (in_predicate (Nat.le_of_ble_eq_true rfl) (Nat.le_of_ble_eq_true rfl)).trans rfl, rfl, fun _ => rfl⟩

theorem pxor (e : Enc) : Statement (.pxor e) := by
  rintro _ ⟨⟩; exact ⟨.pxor, (in_predicate (Nat.le_of_ble_eq_true rfl) (Nat.le_of_ble_eq_true rfl)).trans rfl, rfl, fun _ => rfl⟩

theorem pnot (e : Enc) : Statement (.pnot e) := by
  rintro _ ⟨⟩; exact ⟨.pnot, (in_predicate (Nat.le_of_ble_eq_true rfl) (Nat.le_of_ble_eq_true rfl)).trans rfl, rfl, fun _ => rfl⟩

theorem pmovs (e : Enc) : Statement (.pmovs e) := by
  rintro _ ⟨⟩; exact ⟨.pmovs, (in_predicate (Nat.le_of_ble_eq_true rfl) (Nat.le_of_ble_eq_true rfl)).trans rfl, rfl, fun _ => rfl⟩

theorem psets (e : Enc) : Statement (.psets e) := by
  rintro _ ⟨⟩; exact ⟨.psets, (in_predicate (Nat.le_of_ble_eq_true rfl) (Nat.le_of_ble_eq_true rfl)).trans rfl, rfl, fun _ => rfl⟩

theorem pcnt (e : Enc) : Statement (.pcnt e) := by
  rintro _ ⟨⟩; exact ⟨.pcnt, (in_predicate (Nat.le_of_ble_eq_true rfl) (Nat.le_of_ble_eq_true rfl)).trans rfl, rfl, fun _ => rfl⟩

theorem vshfl (e : Enc) : Statement (.vshfl e) := by
  rintro _ ⟨⟩; exact ⟨.vshfl, (in_predicate (Nat.le_of_ble_eq_true rfl) (Nat.le_of_ble_eq_true rfl)).trans rfl, rfl, fun _ => rfl⟩

theorem xswap (e : Enc) : Statement (.xswap e) := by
  rintro _ ⟨⟩; exact ⟨.xswap, (in_predicate (Nat.le_of_ble_eq_true rfl) (Nat.le_of_ble_eq_true rfl)).trans rfl, rfl, fun _ => rfl⟩

theorem sred (op : RedOp) (e : Enc) : Statement (.sred op e) := by
  cases op <;> (rintro _ ⟨⟩; exact ⟨.sred _, (in_predicate (Nat.le_of_ble_eq_true rfl) (Nat.le_of_ble_eq_true rfl)).trans rfl, rfl, fun _ => rfl⟩)

theorem vscan (op : RedOp) (e : Enc) : Statement (.vscan op e) := by
  cases op <;> (rintro _ ⟨⟩; exact ⟨.vscan _, (in_predicate (Nat.le_of_ble_eq_true rfl) (Nat.le_of_ble_eq_true rfl)).trans rfl, rfl, fun _ => rfl⟩)

theorem ldv (w : LdWidth) (e : Enc) : Statement (.ldv w e) := by
  cases w <;> (rintro _ ⟨⟩; exact ⟨.ldv _, (in_memory (Nat.le_of_ble_eq_true rfl) (Nat.le_of_ble_eq_true rfl)).trans rfl, rfl, fun _ => rfl⟩)

theorem stv (w : StWidth) (e : Enc) : Statement (.stv w e) := by
  cases w <;> (rintro _ ⟨⟩; exact ⟨.stv _, (in_memory (Nat.le_of_ble_eq_true rfl) (Nat.le_of_ble_eq_true rfl)).trans rfl, rfl, fun _ => rfl⟩)

theorem ldsh (w : LdWidth) (e : Enc) : Statement (.ldsh w e) := by
  cases w <;> (rintro _ ⟨⟩; exact ⟨.ldsh _, (in_memory (Nat.le_of_ble_eq_true rfl) (Nat.le_of_ble_eq_true rfl)).trans rfl, rfl, fun _ => rfl⟩)

theorem stsh (w : StWidth) (e : Enc) : Statement (.stsh w e) := by
  cases w <;> (rintro _ ⟨⟩; exact ⟨.stsh _, (in_memory (Nat.le_of_ble_eq_true rfl) (Nat.le_of_ble_eq_true rfl)).trans rfl, rfl, fun _ => rfl⟩)

theorem atom (f : AtForm) (e : Enc) : Statement (.atom f e) := by
  cases f with | f32 o => cases o <;> (rintro _ ⟨⟩; exact ⟨.atom _, (in_memory (Nat.le_of_ble_eq_true rfl) (Nat.le_of_ble_eq_true rfl)).trans rfl, rfl, fun _ => rfl⟩) | f64 o => cases o <;> (rintro _ ⟨⟩; exact ⟨.atom _, (in_memory (Nat.le_of_ble_eq_true rfl) (Nat.le_of_ble_eq_true rfl)).trans rfl, rfl, fun _ => rfl⟩)

theorem acas (w : VWidth) (e : Enc) : Statement (.acas w e) := by
  cases w <;> (rintro _ ⟨⟩; exact ⟨.acas _, (in_memory (Nat.le_of_ble_eq_true rfl) (Nat.le_of_ble_eq_true rfl)).trans rfl, rfl, fun _ => rfl⟩)

theorem atomr (f : AtForm) (e : Enc) : Statement (.atomr f e) := by
  cases f with | f32 o => cases o <;> (rintro _ ⟨⟩; exact ⟨.atomr _, (in_memory (Nat.le_of_ble_eq_true rfl) (Nat.le_of_ble_eq_true rfl)).trans rfl, rfl, fun _ => rfl⟩) | f64 o => cases o <;> (rintro _ ⟨⟩; exact ⟨.atomr _, (in_memory (Nat.le_of_ble_eq_true rfl) (Nat.le_of_ble_eq_true rfl)).trans rfl, rfl, fun _ => rfl⟩)

theorem atomsh (f : ShForm) (e : Enc) : Statement (.atomsh f e) := by
  cases f with | op o => cases o <;> (rintro _ ⟨⟩; exact ⟨.atomsh _, (in_memory (Nat.le_of_ble_eq_true rfl) (Nat.le_of_ble_eq_true rfl)).trans rfl, rfl, fun _ => rfl⟩) | cas => rintro _ ⟨⟩; exact ⟨.atomsh _, (in_memory (Nat.le_of_ble_eq_true rfl) (Nat.le_of_ble_eq_true rfl)).trans rfl, rfl, fun _ => rfl⟩

theorem bbind (e : Enc) : Statement (.bbind e) := by
  rintro _ ⟨⟩; exact ⟨.bbind, (in_memory (Nat.le_of_ble_eq_true rfl) (Nat.le_of_ble_eq_true rfl)).trans rfl, rfl, fun _ => rfl⟩

theorem bunbind (e : Enc) : Statement (.bunbind e) := by
  rintro _ ⟨⟩; exact ⟨.bunbind, (in_memory (Nat.le_of_ble_eq_true rfl) (Nat.le_of_ble_eq_true rfl)).trans rfl, rfl, fun _ => rfl⟩

theorem bflush (e : Enc) : Statement (.bflush e) := by
  rintro _ ⟨⟩; exact ⟨.bflush, (in_memory (Nat.le_of_ble_eq_true rfl) (Nat.le_of_ble_eq_true rfl)).trans rfl, rfl, fun _ => rfl⟩

theorem fence (sc : Scope) (k : FenceKind) (e : Enc) : Statement (.fence sc k e) := by
  cases sc <;> cases k <;> (rintro _ ⟨⟩; exact ⟨.fence _ _, (in_memory (Nat.le_of_ble_eq_true rfl) (Nat.le_of_ble_eq_true rfl)).trans rfl, rfl, fun _ => rfl⟩)

theorem ifence (e : Enc) : Statement (.ifence e) := by
  rintro _ ⟨⟩; exact ⟨.ifence, (in_memory (Nat.le_of_ble_eq_true rfl) (Nat.le_of_ble_eq_true rfl)).trans rfl, rfl, fun _ => rfl⟩

theorem cflush (sc : CScope) (e : Enc) : Statement (.cflush sc e) := by
  cases sc <;> (rintro _ ⟨⟩; exact ⟨.cflush _, (in_memory (Nat.le_of_ble_eq_true rfl) (Nat.le_of_ble_eq_true rfl)).trans rfl, rfl, fun _ => rfl⟩)

theorem cinv (sc : CScope) (e : Enc) : Statement (.cinv sc e) := by
  cases sc <;> (rintro _ ⟨⟩; exact ⟨.cinv _, (in_memory (Nat.le_of_ble_eq_true rfl) (Nat.le_of_ble_eq_true rfl)).trans rfl, rfl, fun _ => rfl⟩)

theorem pref (e : Enc) : Statement (.pref e) := by
  rintro _ ⟨⟩; exact ⟨.pref, (in_memory (Nat.le_of_ble_eq_true rfl) (Nat.le_of_ble_eq_true rfl)).trans rfl, rfl, fun _ => rfl⟩

theorem bar (e : Enc) : Statement (.bar e) := by
  rintro _ ⟨⟩; exact ⟨.bar, (in_memory (Nat.le_of_ble_eq_true rfl) (Nat.le_of_ble_eq_true rfl)).trans rfl, rfl, fun _ => rfl⟩

theorem bara (e : Enc) : Statement (.bara e) := by
  rintro _ ⟨⟩; exact ⟨.bara, (in_memory (Nat.le_of_ble_eq_true rfl) (Nat.le_of_ble_eq_true rfl)).trans rfl, rfl, fun _ => rfl⟩

theorem barw (e : Enc) : Statement (.barw e) := by
  rintro _ ⟨⟩; exact ⟨.barw, (in_memory (Nat.le_of_ble_eq_true rfl) (Nat.le_of_ble_eq_true rfl)).trans rfl, rfl, fun _ => rfl⟩

theorem waita (e : Enc) : Statement (.waita e) := by
  rintro _ ⟨⟩; exact ⟨.waita, (in_memory (Nat.le_of_ble_eq_true rfl) (Nat.le_of_ble_eq_true rfl)).trans rfl, rfl, fun _ => rfl⟩

theorem waitc (e : Enc) : Statement (.waitc e) := by
  rintro _ ⟨⟩; exact ⟨.waitc, (in_memory (Nat.le_of_ble_eq_true rfl) (Nat.le_of_ble_eq_true rfl)).trans rfl, rfl, fun _ => rfl⟩

theorem barx (e : Enc) : Statement (.barx e) := by
  rintro _ ⟨⟩; exact ⟨.barx, (in_memory (Nat.le_of_ble_eq_true rfl) (Nat.le_of_ble_eq_true rfl)).trans rfl, rfl, fun _ => rfl⟩

theorem cpy (e : Enc) : Statement (.cpy e) := by
  rintro _ ⟨⟩; exact ⟨.cpy, (in_matrix (Nat.le_of_ble_eq_true rfl) (Nat.le_of_ble_eq_true rfl)).trans rfl, rfl, fun _ => rfl⟩

theorem cpy2 (e : Enc) : Statement (.cpy2 e) := by
  rintro _ ⟨⟩; exact ⟨.cpy2, (in_matrix (Nat.le_of_ble_eq_true rfl) (Nat.le_of_ble_eq_true rfl)).trans rfl, rfl, fun _ => rfl⟩

theorem cpyr (e : Enc) : Statement (.cpyr e) := by
  rintro _ ⟨⟩; exact ⟨.cpyr, (in_matrix (Nat.le_of_ble_eq_true rfl) (Nat.le_of_ble_eq_true rfl)).trans rfl, rfl, fun _ => rfl⟩

theorem mldw (f : Fmt) (t : Bool) (e : Enc) : Statement (.mldw f t e) := by
  cases f <;> cases t <;> (rintro _ ⟨⟩; exact ⟨.mldw _ _, (in_matrix (Nat.le_of_ble_eq_true rfl) (Nat.le_of_ble_eq_true rfl)).trans rfl, rfl, fun _ => rfl⟩)

theorem mloop (e : Enc) : Statement (.mloop e) := by
  rintro _ ⟨⟩; exact ⟨.mloop, (in_matrix (Nat.le_of_ble_eq_true rfl) (Nat.le_of_ble_eq_true rfl)).trans rfl, rfl, fun _ => rfl⟩

theorem mrdy (e : Enc) : Statement (.mrdy e) := by
  rintro _ ⟨⟩; exact ⟨.mrdy, (in_matrix (Nat.le_of_ble_eq_true rfl) (Nat.le_of_ble_eq_true rfl)).trans rfl, rfl, fun _ => rfl⟩

theorem mbatch (e : Enc) : Statement (.mbatch e) := by
  rintro _ ⟨⟩; exact ⟨.mbatch, (in_matrix (Nat.le_of_ble_eq_true rfl) (Nat.le_of_ble_eq_true rfl)).trans rfl, rfl, fun _ => rfl⟩

theorem mwait (e : Enc) : Statement (.mwait e) := by
  rintro _ ⟨⟩; exact ⟨.mwait, (in_matrix (Nat.le_of_ble_eq_true rfl) (Nat.le_of_ble_eq_true rfl)).trans rfl, rfl, fun _ => rfl⟩

theorem mzero (e : Enc) : Statement (.mzero e) := by
  rintro _ ⟨⟩; exact ⟨.mzero, (in_matrix (Nat.le_of_ble_eq_true rfl) (Nat.le_of_ble_eq_true rfl)).trans rfl, rfl, fun _ => rfl⟩

theorem msta (f : MstaFmt) (e : Enc) : Statement (.msta f e) := by
  cases f <;> (rintro _ ⟨⟩; exact ⟨.msta _, (in_matrix (Nat.le_of_ble_eq_true rfl) (Nat.le_of_ble_eq_true rfl)).trans rfl, rfl, fun _ => rfl⟩)

theorem mlda (e : Enc) : Statement (.mlda e) := by
  rintro _ ⟨⟩; exact ⟨.mlda, (in_matrix (Nat.le_of_ble_eq_true rfl) (Nat.le_of_ble_eq_true rfl)).trans rfl, rfl, fun _ => rfl⟩

theorem mrda (e : Enc) : Statement (.mrda e) := by
  rintro _ ⟨⟩; exact ⟨.mrda, (in_matrix (Nat.le_of_ble_eq_true rfl) (Nat.le_of_ble_eq_true rfl)).trans rfl, rfl, fun _ => rfl⟩

theorem mwra (e : Enc) : Statement (.mwra e) := by
  rintro _ ⟨⟩; exact ⟨.mwra, (in_matrix (Nat.le_of_ble_eq_true rfl) (Nat.le_of_ble_eq_true rfl)).trans rfl, rfl, fun _ => rfl⟩

theorem qnt (e : Enc) : Statement (.qnt e) := by
  rintro _ ⟨⟩; exact ⟨.qnt, (in_matrix (Nat.le_of_ble_eq_true rfl) (Nat.le_of_ble_eq_true rfl)).trans rfl, rfl, fun _ => rfl⟩

theorem mfmt (e : Enc) : Statement (.mfmt e) := by
  rintro _ ⟨⟩; exact ⟨.mfmt, (in_matrix (Nat.le_of_ble_eq_true rfl) (Nat.le_of_ble_eq_true rfl)).trans rfl, rfl, fun _ => rfl⟩

theorem gcall (e : Enc) : Statement (.gcall e) := by
  rintro _ ⟨⟩; exact ⟨.gcall, (in_system (Nat.le_of_ble_eq_true rfl) (Nat.le_of_ble_eq_true rfl)).trans rfl, rfl, fun _ => rfl⟩

theorem gret (e : Enc) : Statement (.gret e) := by
  rintro _ ⟨⟩; exact ⟨.gret, (in_system (Nat.le_of_ble_eq_true rfl) (Nat.le_of_ble_eq_true rfl)).trans rfl, rfl, fun _ => rfl⟩

theorem trap (e : Enc) : Statement (.trap e) := by
  rintro _ ⟨⟩; exact ⟨.trap, (in_system (Nat.le_of_ble_eq_true rfl) (Nat.le_of_ble_eq_true rfl)).trans rfl, rfl, fun _ => rfl⟩

theorem tret (e : Enc) : Statement (.tret e) := by
  rintro _ ⟨⟩; exact ⟨.tret, (in_system (Nat.le_of_ble_eq_true rfl) (Nat.le_of_ble_eq_true rfl)).trans rfl, rfl, fun _ => rfl⟩

theorem sigchk (e : Enc) : Statement (.sigchk e) := by
  rintro _ ⟨⟩; exact ⟨.sigchk, (in_system (Nat.le_of_ble_eq_true rfl) (Nat.le_of_ble_eq_true rfl)).trans rfl, rfl, fun _ => rfl⟩

theorem reach (e : Enc) : Statement (.reach e) := by
  rintro _ ⟨⟩; exact ⟨.reach, (in_system (Nat.le_of_ble_eq_true rfl) (Nat.le_of_ble_eq_true rfl)).trans rfl, rfl, fun _ => rfl⟩

theorem lnch (e : Enc) : Statement (.lnch e) := by
  rintro _ ⟨⟩; exact ⟨.lnch, (in_system (Nat.le_of_ble_eq_true rfl) (Nat.le_of_ble_eq_true rfl)).trans rfl, rfl, fun _ => rfl⟩

theorem brk (e : Enc) : Statement (.brk e) := by
  rintro _ ⟨⟩; exact ⟨.brk, (in_system (Nat.le_of_ble_eq_true rfl) (Nat.le_of_ble_eq_true rfl)).trans rfl, rfl, fun _ => rfl⟩

theorem dbgm (e : Enc) : Statement (.dbgm e) := by
  rintro _ ⟨⟩; exact ⟨.dbgm, (in_system (Nat.le_of_ble_eq_true rfl) (Nat.le_of_ble_eq_true rfl)).trans rfl, rfl, fun _ => rfl⟩

theorem trc (e : Enc) : Statement (.trc e) := by
  rintro _ ⟨⟩; exact ⟨.trc, (in_system (Nat.le_of_ble_eq_true rfl) (Nat.le_of_ble_eq_true rfl)).trans rfl, rfl, fun _ => rfl⟩

theorem sleep (e : Enc) : Statement (.sleep e) := by
  rintro _ ⟨⟩; exact ⟨.sleep, (in_system (Nat.le_of_ble_eq_true rfl) (Nat.le_of_ble_eq_true rfl)).trans rfl, rfl, fun _ => rfl⟩

theorem emur (e : Enc) : Statement (.emur e) := by
  rintro _ ⟨⟩; exact ⟨.emur, (in_system (Nat.le_of_ble_eq_true rfl) (Nat.le_of_ble_eq_true rfl)).trans rfl, rfl, fun _ => rfl⟩

theorem vdot4 (w : IWord) : Statement (.vdot4 w) := by rintro _ ⟨⟩

theorem vswz (w : IWord) : Statement (.vswz w) := by rintro _ ⟨⟩

theorem sbar (w : IWord) : Statement (.sbar w) := by rintro _ ⟨⟩

theorem cpyl (w : IWord) : Statement (.cpyl w) := by rintro _ ⟨⟩

theorem mma16 (w : IWord) : Statement (.mma16 w) := by rintro _ ⟨⟩

theorem mmac16 (w : IWord) : Statement (.mmac16 w) := by rintro _ ⟨⟩

theorem illegalOpcode (w : IWord) : Statement (.illegalOpcode w) := by rintro _ ⟨⟩

theorem fetchFault  : Statement .fetchFault := by rintro _ ⟨⟩

theorem synthesisedGret (g : Nat) : Statement (.synthesisedGret g) := by rintro _ ⟨⟩

theorem trapPermitAcquire (g : Nat) : Statement (.trapPermitAcquire g) := by rintro _ ⟨⟩

theorem permitBackoffExpiry (g : Nat) : Statement (.permitBackoffExpiry g) := by rintro _ ⟨⟩

theorem yieldExpiry (g : Nat) : Statement (.yieldExpiry g) := by rintro _ ⟨⟩

theorem sleepExpiry (g : Nat) : Statement (.sleepExpiry g) := by rintro _ ⟨⟩

theorem waitConditionMet (g : Nat) : Statement (.waitConditionMet g) := by rintro _ ⟨⟩

theorem waitRecheck (core : Nat) : Statement (.waitRecheck core) := by rintro _ ⟨⟩

theorem xswapReceive (g h : Nat) : Statement (.xswapReceive g h) := by rintro _ ⟨⟩

theorem issueSelect (core : Nat) : Statement (.issueSelect core) := by rintro _ ⟨⟩

theorem tokenReservation (g : Nat) : Statement (.tokenReservation g) := by rintro _ ⟨⟩

theorem issuePromotion (g : Nat) : Statement (.issuePromotion g) := by rintro _ ⟨⟩

theorem towpathDelivery (core : Nat) : Statement (.towpathDelivery core) := by rintro _ ⟨⟩

theorem tokenClaim (core : Nat) : Statement (.tokenClaim core) := by rintro _ ⟨⟩

theorem powerInterval (r : PowerReadings) : Statement (.powerInterval r) := by rintro _ ⟨⟩

theorem ratioChange (cluster : Nat) : Statement (.ratioChange cluster) := by rintro _ ⟨⟩

theorem energySnapshot (part : Nat) : Statement (.energySnapshot part) := by rintro _ ⟨⟩

theorem placeTeam (part : Nat) : Statement (.placeTeam part) := by rintro _ ⟨⟩

theorem placeTrain (part : Nat) : Statement (.placeTrain part) := by rintro _ ⟨⟩

theorem placementWaitExpiry (part : Nat) : Statement (.placementWaitExpiry part) := by rintro _ ⟨⟩

theorem longWaitCheck (g : Nat) : Statement (.longWaitCheck g) := by rintro _ ⟨⟩

theorem leavingComplete (team : Nat) : Statement (.leavingComplete team) := by rintro _ ⟨⟩

theorem returnTeam (part : Nat) : Statement (.returnTeam part) := by rintro _ ⟨⟩

theorem launchCompletion (launch : Nat) : Statement (.launchCompletion launch) := by rintro _ ⟨⟩

theorem watchdogExpiry (launch : Nat) : Statement (.watchdogExpiry launch) := by rintro _ ⟨⟩

theorem reachClear (g : Nat) : Statement (.reachClear g) := by rintro _ ⟨⟩

theorem poundDrain (g : Nat) : Statement (.poundDrain g) := by rintro _ ⟨⟩

theorem poundStage (g : Nat) : Statement (.poundStage g) := by rintro _ ⟨⟩

theorem poundEccError (core idx : Nat) : Statement (.poundEccError core idx) := by rintro _ ⟨⟩

theorem sensorEvent (cls cluster core sensor : Nat) : Statement (.sensorEvent cls cluster core sensor) := by rintro _ ⟨⟩

theorem sensorSelfTest (cls cluster core sensor : Nat) (pass : Bool) : Statement (.sensorSelfTest cls cluster core sensor pass) := by rintro _ ⟨⟩

theorem fenceComplete (g : Nat) : Statement (.fenceComplete g) := by rintro _ ⟨⟩

theorem fenceRollback (g : Nat) : Statement (.fenceRollback g) := by rintro _ ⟨⟩

theorem loadReturn (g : Nat) : Statement (.loadReturn g) := by rintro _ ⟨⟩

theorem atomReturn (g : Nat) : Statement (.atomReturn g) := by rintro _ ⟨⟩

theorem berthFill (team berth sector : Nat) : Statement (.berthFill team berth sector) := by rintro _ ⟨⟩

theorem berthWriteback (team berth : Nat) : Statement (.berthWriteback team berth) := by rintro _ ⟨⟩

theorem heldSectorSnoop (addr : Nat) (reader : Option Reader) : Statement (.heldSectorSnoop addr reader) := by rintro _ ⟨⟩

theorem copySignal (core copy : Nat) : Statement (.copySignal core copy) := by rintro _ ⟨⟩

theorem copyDone (core copy : Nat) : Statement (.copyDone core copy) := by rintro _ ⟨⟩

theorem cpyrElement (core copy : Nat) : Statement (.cpyrElement core copy) := by rintro _ ⟨⟩

theorem barrierComplete (team n : Nat) : Statement (.barrierComplete team n) := by rintro _ ⟨⟩

theorem peerTimeout (t : PeerTarget) : Statement (.peerTimeout t) := by rintro _ ⟨⟩

theorem callStackSpill (g : Nat) : Statement (.callStackSpill g) := by rintro _ ⟨⟩

theorem lineEviction (g line : Nat) : Statement (.lineEviction g line) := by rintro _ ⟨⟩

theorem mooringReclaim (g line : Nat) : Statement (.mooringReclaim g line) := by rintro _ ⟨⟩

theorem sequencerTransferStart (core : Nat) : Statement (.sequencerTransferStart core) := by rintro _ ⟨⟩

theorem sequencerTransferComplete (core : Nat) : Statement (.sequencerTransferComplete core) := by rintro _ ⟨⟩

theorem mloopStepStart (core op : Nat) : Statement (.mloopStepStart core op) := by rintro _ ⟨⟩

theorem rowInject (core macroNo : Nat) : Statement (.rowInject core macroNo) := by rintro _ ⟨⟩

theorem stepEntry (core macroNo : Nat) : Statement (.stepEntry core macroNo) := by rintro _ ⟨⟩

theorem flitAdvance  : Statement .flitAdvance := by rintro _ ⟨⟩

theorem linkCrcRetry (link plane : Nat) : Statement (.linkCrcRetry link plane) := by rintro _ ⟨⟩

theorem routerFailure (die router : Nat) : Statement (.routerFailure die router) := by rintro _ ⟨⟩

theorem dirtyLineError (line way : Nat) : Statement (.dirtyLineError line way) := by rintro _ ⟨⟩

theorem invalidationComplete (id : Nat) : Statement (.invalidationComplete id) := by rintro _ ⟨⟩

theorem checkpointSeal (part : SealArgs) : Statement (.checkpointSeal part) := by rintro _ ⟨⟩

theorem createContext (fn : Fn) (x : CtxArgs) : Statement (.createContext fn x) := by rintro _ ⟨⟩

theorem destroyContext (fn : Fn) (ctx : Nat) : Statement (.destroyContext fn ctx) := by rintro _ ⟨⟩

theorem loadObject (fn : Fn) (x : LoadCmd) : Statement (.loadObject fn x) := by rintro _ ⟨⟩

theorem writeGateEntry (fn : Fn) (idx : Nat) (x : GateEntry) : Statement (.writeGateEntry fn idx x) := by rintro _ ⟨⟩

theorem invalidate (fn : Fn) (ctx : Nat) (va : W64) (size : Nat) : Statement (.invalidate fn ctx va size) := by rintro _ ⟨⟩

theorem pageFaultMap (fn : Fn) (g : Nat) (x : TableWrites) : Statement (.pageFaultMap fn g x) := by rintro _ ⟨⟩

theorem pageFaultRefuse (fn : Fn) (g : Nat) : Statement (.pageFaultRefuse fn g) := by rintro _ ⟨⟩

theorem checkpoint (fn : Fn) (x : CkptArgs) : Statement (.checkpoint fn x) := by rintro _ ⟨⟩

theorem restore (fn : Fn) (x : CkptArgs) : Statement (.restore fn x) := by rintro _ ⟨⟩

theorem createQueue (fn : Fn) (ctx q prio k : Nat) (ring : W64) : Statement (.createQueue fn ctx q prio k ring) := by rintro _ ⟨⟩

theorem destroyQueue (fn : Fn) (q : Nat) : Statement (.destroyQueue fn q) := by rintro _ ⟨⟩

theorem setQwin (fn : Fn) (v : W32) : Statement (.setQwin fn v) := by rintro _ ⟨⟩

theorem returnEnergySnapshot (fn : Fn) (x : SnapArgs) : Statement (.returnEnergySnapshot fn x) := by rintro _ ⟨⟩

theorem partitionReset (fn : Fn) : Statement (.partitionReset fn) := by rintro _ ⟨⟩

theorem partitionDevice (fn : Fn) (n : Nat) : Statement (.partitionDevice fn n) := by rintro _ ⟨⟩

theorem writePcap (fn : Fn) (v : W32) : Statement (.writePcap fn v) := by rintro _ ⟨⟩

theorem setClusterRatio (fn : Fn) (cluster : Nat) (code : Nat) : Statement (.setClusterRatio fn cluster code) := by rintro _ ⟨⟩

theorem transferOwnership (fn : Fn) (part : Nat) : Statement (.transferOwnership fn part) := by rintro _ ⟨⟩

theorem attestationReport (fn : Fn) (nonce : List Byte) : Statement (.attestationReport fn nonce) := by rintro _ ⟨⟩

theorem setDomainMembership (fn : Fn) (index : Nat) : Statement (.setDomainMembership fn index) := by rintro _ ⟨⟩

theorem malformedCommand (fn : Fn) (code : Nat) : Statement (.malformedCommand fn code) := by rintro _ ⟨⟩

theorem queueNoOperation (q : Nat) : Statement (.queueNoOperation q) := by rintro _ ⟨⟩

theorem queueLaunch (q : Nat) : Statement (.queueLaunch q) := by rintro _ ⟨⟩

theorem queueWait (q : Nat) : Statement (.queueWait q) := by rintro _ ⟨⟩

theorem queueWaitPoll (q : Nat) : Statement (.queueWaitPoll q) := by rintro _ ⟨⟩

theorem queueWrite (q : Nat) : Statement (.queueWrite q) := by rintro _ ⟨⟩

theorem queueWriteValue (q : Nat) : Statement (.queueWriteValue q) := by rintro _ ⟨⟩

theorem queueSwitchIn (part : Nat) : Statement (.queueSwitchIn part) := by rintro _ ⟨⟩

theorem queueSwitchOut (q : Nat) : Statement (.queueSwitchOut q) := by rintro _ ⟨⟩

theorem qtailWrite (fn : Fn) (q : Nat) (v : W32) : Statement (.qtailWrite fn q v) := by rintro _ ⟨⟩

theorem trcctlWrite (core : RegAt) (v : W64) : Statement (.trcctlWrite core v) := by rintro _ ⟨⟩

theorem debugHalt (ctx : RegAt) (v : W64) : Statement (.debugHalt ctx v) := by rintro _ ⟨⟩

theorem debugResume (ctx : RegAt) (v : W64) : Statement (.debugResume ctx v) := by rintro _ ⟨⟩

theorem debugStep (ctx : RegAt) (v : W64) : Statement (.debugStep ctx v) := by rintro _ ⟨⟩

theorem registerWrite (fn : Fn) (addr : BarAddr) (v : W64) : Statement (.registerWrite fn addr v) := by rintro _ ⟨⟩

theorem traceTsd (core : Nat) : Statement (.traceTsd core) := by rintro _ ⟨⟩

theorem traceLoss (core : Nat) : Statement (.traceLoss core) := by rintro _ ⟨⟩

theorem surveyRequest (fn : Fn) (x : SurveyObj) (flush : Bool) : Statement (.surveyRequest fn x flush) := by rintro _ ⟨⟩

theorem surveyFlushTimeout (core : Nat) : Statement (.surveyFlushTimeout core) := by rintro _ ⟨⟩

theorem powerUp (link0 link1 : Bool) : Statement (.powerUp link0 link1) := by rintro _ ⟨⟩

theorem firmwareGo (fn : Fn) (len : Nat) : Statement (.firmwareGo fn len) := by rintro _ ⟨⟩

theorem ownerLinkDown (x : LinkLoss) : Statement (.ownerLinkDown x) := by rintro _ ⟨⟩

theorem thavinFaultResolution (g : Nat) (x : TableWrites) : Statement (.thavinFaultResolution g x) := by rintro _ ⟨⟩

theorem launchVerdict (g : Nat) : Statement (.launchVerdict g) := by rintro _ ⟨⟩

theorem peerAccessArrival (dev addr : Nat) (x : OutsideAccess) : Statement (.peerAccessArrival dev addr x) := by rintro _ ⟨⟩

theorem hostDmaAccess (fn : Fn) (addr : Nat) (x : OutsideAccess) : Statement (.hostDmaAccess fn addr x) := by rintro _ ⟨⟩

theorem writebackSetComplete (g : Nat) : Statement (.writebackSetComplete g) := by rintro _ ⟨⟩

theorem transportRetransmit (port seq : Nat) : Statement (.transportRetransmit port seq) := by rintro _ ⟨⟩

end Sys2Proof.Laws.F
end

