-- ==== Sys2Proof/Laws/Scalar.lean ====
section
/-! SUPPORT. Scalar instructions: operands read the same before and after an issue has begun, and an effect that writes
one scalar register gives the next state that the statements name. -/

namespace Sys2Proof.Safety

open Sys2Proof.Machine

/-- An operand does not depend on SIG. -/
theorem readOp_sig (r : Regs) (x : W32) (ty : PTy) (o : Operand) (t : Nat) :
    readOp { r with sig := x } ty o t = readOp r ty o t := by
  cases o <;> rfl

/-- Operands of the chosen group read the same once its issue has begun. -/
theorem readOp_begun {s s1 : State} {i : Instr} (h : (s1.grp s.cur).arch = begunArch s i) (ty : PTy) (o : Operand) (t : Nat) :
    readOp (s1.regsOf s.cur) ty o t = readOp (s.regsOf s.cur) ty o t := by
  simp only [State.regsOf, h, begunArch, readOp_sig]

theorem sArg_begun {s s1 : State} {i : Instr} {e : Enc} (h : (s1.grp s.cur).arch = begunArch s i) (o : Operand) :
    sArg s1 (cxAt s i e) o = readOp (s.regsOf s.cur) .i64 o 0 := readOp_begun h .i64 o 0

/-- A change of the group's registers. -/
theorem arch_modR (s : State) (g : Nat) (f : Regs → Regs) (hg : g < s.groups.length) :
    ((s.modR g f).grp g).arch = { (s.grp g).arch with regs := f (s.grp g).arch.regs } := by
  simp only [State.modR]
  rw [State.grp_modG, if_pos ⟨rfl, hg⟩]

/-- An effect that changes the group's registers by a function of them. -/
theorem issue_modR (s : State) (i : Instr) (e : Enc) (tr : Tr) (eff : Eff) (hr : Ready s i e) (f : Regs → Regs)
    (heff : ∀ s1, Quiet s.cur s s1 → (s1.grp s.cur).arch = begunArch s i → eff (cxAt s i e) s1 = .ok (s1.modR s.cur f)) :
    ∃ t, issueT i e tr eff s = .next t ∧ Quiet s.cur s t ∧
      (t.grp s.cur).arch = { begunArch s i with regs := f (begunArch s i).regs } := by
  refine issue_registers s i e tr eff hr _ fun s1 h1 ha => ⟨_, heff s1 h1 ha, Quiet.modR s1 f, ?_⟩
  rw [arch_modR _ _ _ (by rw [h1.size]; exact hr.group), ha]

end Sys2Proof.Safety
end

