-- ==== Sys2Proof/Laws/Vector.lean ====
section
/-! SUPPORT. Vector writes: what a write of a vector register leaves in each thread of each register, and the next
state of an instruction that writes one register or a pair and raises flags. -/

namespace Sys2Proof.Safety

open Sys2Proof.Machine

/-! ### Masks -/

theorem bitsNat_lt (n : Nat) (p : Nat → Bool) : bitsNat n p < 2 ^ n := by
  induction n with
  | zero => simp [bitsNat]
  | succ n ih => unfold bitsNat; split <;> omega

theorem bitsNat_testBit (n : Nat) (p : Nat → Bool) (i : Nat) : (bitsNat n p).testBit i = (decide (i < n) && p i) := by
  induction n with
  | zero => simp [bitsNat]
  | succ n ih =>
    have hlt := bitsNat_lt n p
    unfold bitsNat
    by_cases hp : p n = true
    · rw [if_pos hp]
      rcases Nat.lt_trichotomy i n with h | h | h
      · rw [Nat.add_comm, Nat.testBit_two_pow_add_gt h, ih]; simp [h, Nat.lt_succ_of_lt h]
      · subst h; rw [Nat.add_comm, Nat.testBit_two_pow_add_eq, Nat.testBit_lt_two_pow hlt]; simp [hp]
      · rw [Nat.testBit_lt_two_pow]
        · simp; omega
        · calc bitsNat n p + 2 ^ n < 2 ^ n + 2 ^ n := by omega
            _ = 2 ^ (n + 1) := by omega
            _ ≤ 2 ^ i := Nat.pow_le_pow_right (by omega) h
    · rw [if_neg hp, Nat.add_zero, ih]
      rcases Nat.lt_trichotomy i n with h | h | h
      · simp [h, Nat.lt_succ_of_lt h]
      · subst h; simp at hp; simp [hp]
      · have h1 : ¬ i < n := by omega
        have h2 : ¬ i < n + 1 := by omega
        simp [h1, h2]

/-- A bit of a word over the threads. -/
theorem getLsbD_maskOf (p : Nat → Bool) (t : Nat) : (maskOf p).getLsbD t = (decide (t < 32) && p t) := by
  rw [maskOf, BitVec.getLsbD_ofNat, bitsNat_testBit]
  by_cases h : t < 32 <;> simp [h]

/-! ### A vector register under a mask -/

theorem vt_setV (r : Regs) (d n t : Nat) (m : W32) (f : Nat → W32 × Bool) (hd : d < 256) (ht : t < 32) :
    (r.setV d m f).vt n t = if n = d ∧ m.getLsbD t = true then (f t).1 else r.vt n t := by
  by_cases h : n = d
  · subst h
    simp only [Regs.setV, Regs.vt]
    rw [Vector.getElem?_setIfInBounds_self_of_lt hd]
    simp [ht]
  · have hne : d ≠ n := fun x => h x.symm
    simp [Regs.setV, Regs.vt, hne, h]

theorem vt_setV_high (r : Regs) (d n t : Nat) (m : W32) (f : Nat → W32 × Bool) (h : n ≠ d) :
    (r.setV d m f).vt n t = r.vt n t := by
  have hne : d ≠ n := fun x => h x.symm
  simp [Regs.setV, Regs.vt, hne]

theorem vpt_setV (r : Regs) (d n t : Nat) (m : W32) (f : Nat → W32 × Bool) (hd : d < 256) (ht : t < 32) :
    (r.setV d m f).vpt n t = if n = d ∧ m.getLsbD t = true then (f t).2 else r.vpt n t := by
  by_cases h : n = d
  · subst h
    simp only [Regs.setV, Regs.vpt]
    rw [Vector.getElem?_setIfInBounds_self_of_lt hd]
    simp only [Option.getD_some, getLsbD_maskOf, ht, decide_true, Bool.true_and]
    by_cases hm : m.getLsbD t = true <;> simp [hm]
  · have hne : d ≠ n := fun x => h x.symm
    simp [Regs.setV, Regs.vpt, hne, h]

theorem vpt_setV_high (r : Regs) (d n t : Nat) (m : W32) (f : Nat → W32 × Bool) (h : n ≠ d) :
    (r.setV d m f).vpt n t = r.vpt n t := by
  have hne : d ≠ n := fun x => h x.symm
  simp [Regs.setV, Regs.vpt, hne]

/-- The rest of the registers. -/
theorem rest_setV (r : Regs) (d : Nat) (m : W32) (f : Nat → W32 × Bool) (v : Vector VReg 256) (vp : Vector W32 256) :
    ({ r.setV d m f with v := v, vp := vp } : Regs) = { r with v := v, vp := vp } := rfl

/-! ### The state after a vector write -/

theorem Quiet.noteV {g : Nat} (s : State) (rs : List Nat) : Quiet g s (s.noteV g rs) :=
  (Quiet.modReach s _).trans (LinesOnly.takeLines _ _ _ _).quiet

theorem Quiet.putV {g : Nat} (s : State) (reg : Nat) (m : W32) (f : Nat → W32 × Bool) : Quiet g s (s.putV g reg m f) := by
  unfold State.putV
  split
  · exact Quiet.refl g s
  · exact (Quiet.modR s _).trans (Quiet.noteV _ _)

theorem SameArch.noteV {g : Nat} (s : State) (rs : List Nat) : SameArch g s (s.noteV g rs) :=
  (SameArch.modG s (fun x => { x with reaches := _ }) (by intro _; rfl)).trans (congrArg Group.arch ((LinesOnly.takeLines _ g _ _).grp g))

theorem setV_zero (r : Regs) (d : Nat) (f : Nat → W32 × Bool) (hd : d < 256) : r.setV d 0 f = r := by
  have h1 : ∀ hd : d < 256, Vector.ofFn (fun t : Fin 32 => r.vt d t.val) = r.v[d] := by
    intro hd
    ext t ht
    simp [Regs.vt, hd]
  have h2 : ∀ hd : d < 256, maskOf (fun t => r.vpt d t) = r.vp[d] := by
    intro hd
    apply BitVec.eq_of_getLsbD_eq
    intro i hi
    rw [getLsbD_maskOf]
    simp [Regs.vpt, hi, hd]
  have e1 : (r.setV d 0 f).v = r.v := by
    have : (Vector.ofFn fun t : Fin 32 => if (0 : W32).getLsbD t.val then (f t.val).1 else r.vt d t.val) = r.v[d] := by simpa using h1 hd
    simp only [Regs.setV, this]
    ext i hi
    by_cases h : d = i <;> simp [h]
  have e2 : (r.setV d 0 f).vp = r.vp := by
    have : (maskOf fun t => if (0 : W32).getLsbD t then (f t).2 else r.vpt d t) = r.vp[d] := by simpa using h2 hd
    simp only [Regs.setV, this]
    ext i hi
    by_cases h : d = i <;> simp [h]
  calc r.setV d 0 f = { r with v := (r.setV d 0 f).v, vp := (r.setV d 0 f).vp } := rfl
    _ = r := by rw [e1, e2]

/-- Registers after a vector write, under an all-zero mask too (R107). -/
theorem arch_putV (s : State) (g reg : Nat) (m : W32) (f : Nat → W32 × Bool) (hg : g < s.groups.length) (hr : reg < 256) :
    ((s.putV g reg m f).grp g).arch = { (s.grp g).arch with regs := (s.grp g).arch.regs.setV reg m f } := by
  unfold State.putV
  split
  · next h => rw [h, setV_zero _ _ _ hr]
  · have h := SameArch.noteV (g := g) (s.modR g fun r => r.setV reg m f) [reg]
    unfold SameArch at h
    rw [h, arch_modR _ _ _ hg]

end Sys2Proof.Safety
end

