-- ==== Sys2Proof/Tests/Slice0.lean ====
section
/-! SUPPORT. Tests: words written out from the encoding tables, ill-formed terms, results that the spec works out, and for every
statement a state that meets its hypotheses. -/

set_option Elab.async false

namespace Sys2Proof.Tests

open Sys2Proof.Machine Sys2Proof.Safety Sys2Proof.Claim

/-! ### Small states -/

def sc (n : Nat) : Operand := .scal (BitVec.ofNat 7 n)
def vr (n : Nat) : Operand := .vec (BitVec.ofNat 8 n) .none false false
def im (v : Int) : Operand := .imm (BitVec.ofInt 20 v)
def ob (c n : Nat) : Operand := .obj (BitVec.ofNat 4 c) (BitVec.ofNat 16 n)
def en (d a b : Operand) : Enc := { gn := false, gp := 15, rnd := 0, hint := 0, d := d, a := a, b := b }

/-- One core of one cluster with one team of one group, at the code of `withFetchWord`. -/
def tiny : State :=
  State.withFetchWord { State.reset with cores := [Core.reset], clusters := [Cluster.reset], ctxs := [Ctx.absent, Ctx.absent], queues := [Queue.absent, Queue.absent] } 96 0

/-- The executing group's registers changed. -/
def regs (f : Regs → Regs) : State := { tiny.modR 0 f with selected := [] }

/-- Some scalars and vector registers hold values. -/
def filled (s v : List Nat) : State :=
  regs fun r => { r with s := s.zipIdx.foldl (fun x y => x.setIfInBounds y.2 (BitVec.ofNat 64 y.1)) r.s
                         v := v.zipIdx.foldl (fun x y => x.setIfInBounds y.2 (Vector.ofFn fun t => BitVec.ofNat 32 (y.1 + t.val))) r.v }

def readyB (s : State) (i : Instr) (e : Enc) : Bool :=
  decide (s.cur < s.groups.length) && s.canTake s.cur i e && s.payable s.cur (tollOf (s.regsOf s.cur) (maskAt s i e) i) &&
    !s.sealWaits s.cur i && (s.freshHead s.cur || decide ((s.grp s.cur).reaches.length < 2)) && s.roomFor s.cur &&
    [s.prepare s.cur i e, (s.prepare s.cur i e).openHead s.cur].all fun s0 => s0.laneHolds s.cur (s0.linesNeeded s.cur i e)

theorem ready_of {s : State} {i : Instr} {e : Enc} (h : readyB s i e = true) : Ready s i e := by
  simp only [readyB, Bool.and_eq_true, Bool.or_eq_true, Bool.not_eq_true', decide_eq_true_eq] at h
  obtain ⟨⟨⟨⟨⟨⟨h1, h2⟩, h3⟩, h4⟩, h5⟩, h6⟩, h7⟩ := h
  exact ⟨h1, h2, h3, h4, h5, h6, List.all_eq_true.mp h7⟩

end Sys2Proof.Tests

namespace Sys2Proof.Tests

open Sys2Proof.Machine Sys2Proof.Safety Sys2Proof.Claim

/-- A check of the state that follows. -/
def next (o : Out) (P : State → Bool) : Bool :=
  match o with
  | .next t => P t
  | _ => false

/-- Scalar 0 after an instruction from state `s`. -/
def s0After (s : State) (i : Instr) (v : Nat) : Bool := next (exec i s) fun t => ((t.grp 0).arch.regs.sv 0).toNat == v
/-- Thread 1 of vector register 0 after it. -/
def v0After (s : State) (i : Instr) (v : Nat) : Bool := next (exec i s) fun t => ((t.grp 0).arch.regs.vt 0 1).toNat == v

def allReady (s : State) (e : Enc) (is : List (Enc → Instr)) : Bool := is.all fun c => readyB s (c e) e

/-- Registers s0, s1, s2 and v0, v1, v2. -/
def e3 : Enc := en (sc 0) (sc 1) (sc 2)
def v3 : Enc := en (vr 0) (vr 1) (vr 2)
def S : State := filled [7, 8, 2] [1, 5, 3]

/-! ### Decoding (R105, R119) -/

/-- `LOOP s6, loop` with the label 12 bytes back, `!p2? VFADD.f32.rtz v10, -|v2|, s7`, `XSWAP v12, v12, s20` and `ATOM.add.32 v6, x1, v7`,
field by field. -/
theorem test_decode_words :
    decode (0x229E0001#32 ++ 0x0C000BFF#32 ++ 0xFF400000#32) = .ok (.loop (en (sc 6) (im (-3)) .zero)) ∧
    decode (0x60248000#32 ++ 0x0A000008#32 ++ 0x0310E000#32) =
      .ok (.vfadd .f32 { gn := true, gp := 2, rnd := 2, hint := 0, d := vr 10, a := .vec 2 .none true true, b := sc 7 }) ∧
    decode (0x8A9E0000#32 ++ 0x0C000030#32 ++ 0x00128000#32) = .ok (.xswap (en (vr 12) (vr 12) (sc 20))) ∧
    decode (0xA61E0000#32 ++ 0x06000C40#32 ++ 0x00407000#32) = .ok (.atom (.f32 .add) (en (vr 6) (ob 1 1) (vr 7))) := by decide +kernel

/-- `BRK 1` and `DBGM 7, s6` of the debug notes; SIGCHK; an unassigned opcode; the table's numbering of a word's bits. -/
theorem test_decode_system_words :
    decode (0xE1DE0002#32 ++ 0x00001000#32 ++ 0#32) = .ok (.brk (en (im 1) .zero .zero)) ∧
    decode (0xE21E0002#32 ++ 0x00007430#32 ++ 0#32) = .ok (.dbgm (en (im 7) (sc 6) .zero)) ∧
    (decode (0xE11E0000#32 ++ 0x00000800#32 ++ 0x48E45678#32)).toOption.map opcode = some 0x384 ∧
    decode 0xFFC000000000000000000000 = .error .illegalOpcode ∧
    decodeTableWord 96 0x601E00000600001000005000 = some (.vfadd .f32 (en (vr 6) (vr 4) (vr 5))) := by decide +kernel

/-! ### Terms that no word stands for (R108 to R116) -/

/-- One term for each check: an operand kind that a position refuses, a register beyond the allocation, an immediate out of range, a rounding
field where none is, an object of another class, an unused field that is not zero, an odd register pair. -/
theorem test_ill_formed :
    (wellFormedIn Alloc.full (.sadd .w64 (en (vr 0) (sc 1) (sc 2))) = false ∧ wellFormedIn Alloc.full (.sadd .w64 e3) = true) ∧
    wellFormedIn { Alloc.full with sregs := 16 } (.sadd .w64 (en (sc 16) (sc 1) (sc 2))) = false ∧
    wellFormedIn Alloc.full (.yield (en (im 4096) .zero .zero)) = false ∧
    wellFormedIn Alloc.full (.sadd .w64 { e3 with rnd := 1 }) = false ∧
    wellFormedIn Alloc.full (.sld .b8 (en (sc 0) (ob 2 1) (sc 2))) = false ∧
    wellFormedIn Alloc.full (.nop (en (sc 1) .zero .zero)) = false ∧
    wellFormedIn Alloc.full (.vadd .w64 (en (vr 1) (vr 2) (vr 4))) = false := by decide +kernel

/-! ### Scalars (R171 to R186) -/

/-- The table of example results of the scalar chapter. -/
theorem test_scalar_results :
    s0After (filled [0, 2 ^ 63] []) (.sdiv .w64 (en (sc 0) (sc 1) (im (-1)))) (2 ^ 63) ∧
    s0After (filled [0, 2 ^ 64 - 7] []) (.srem .w64 (en (sc 0) (sc 1) (im 2))) (2 ^ 64 - 1) ∧
    s0After (filled [0, 7] []) (.sdiv .w32 (en (sc 0) (sc 1) (im 0))) 0xFFFFFFFFFFFFFFFF ∧
    s0After (filled [0, 7] []) (.srem .w32 (en (sc 0) (sc 1) (im 0))) 7 ∧
    s0After (filled [0, 0x7FFFFFFF] []) (.sadd .w32 (en (sc 0) (sc 1) (im 1))) 0xFFFFFFFF80000000 ∧
    s0After (filled [0, 1] []) (.sshl .w64 (en (sc 0) (sc 1) (im 65))) 2 ∧
    s0After (filled [5, 0] []) (.sclz .w32 (en (sc 0) (sc 1) .zero)) 32 ∧
    s0After (filled [0, 0xF0F0] []) (.sbfx .w64 (en (sc 0) (sc 1) (im 0x808))) 0xFFFFFFFFFFFFFFF0 ∧
    s0After (filled [0, 0xF0F0] []) (.sbfxu .w64 (en (sc 0) (sc 1) (im 0x808))) 0xF0 ∧
    s0After (filled [0, 0xA000000000000000] []) (.sbfxu .w64 (en (sc 0) (sc 1) (im 0x83C))) 0xA := by decide +kernel

/-- A select on a condition of 0, a 40-bit immediate, its high part, a signed compare, and LOOP with 1 and with 0 (R174, R175, R184). -/
theorem test_scalar_moves :
    s0After (filled [0, 8, 2] []) (.ssel e3) 2 ∧ s0After S (.ssel e3) 8 ∧
    s0After S (.scmp .lt .w32 (en (sc 0) (sc 1) (im (-1)))) 0 ∧ s0After S (.scmp .ltu .w32 (en (sc 0) (sc 1) (im (-1)))) 1 ∧
    next (exec (.loop (en (sc 0) (im (-3)) .zero)) (filled [1] [])) (fun t => (t.grp 0).arch.pc == codeVa + 12) ∧
    next (exec (.loop (en (sc 0) (im (-3)) .zero)) (filled [0] [])) (fun t => (t.grp 0).arch.pc == codeVa - 12 &&
      (t.grp 0).arch.regs.sv 0 == BitVec.allOnes 64) := by decide +kernel

theorem witness_ScalarArithmeticAndLogic : allReady S e3 ([Instr.sadd, .ssub, .smul, .smin, .smax, .sminu, .smaxu, .sand, .sor, .sxor, .sandn,
    .sshl, .sshr, .ssra, .srol].flatMap fun c => [c .w64, c .w32]) = true := by decide +kernel

/-- Division by zero, of the most negative number by −1, and otherwise. -/
theorem witness_ScalarDivision : [S, filled [0, 7, 0] [], filled [0, 2 ^ 63, 2 ^ 64 - 1] []].all (fun s =>
    allReady s e3 ([Instr.smulh, .smulhu, .sdiv, .sdivu, .srem, .sremu].flatMap fun c => [c .w64, c .w32])) = true := by decide +kernel

/-- An operand of 0 and of all ones; a field at bit 63 and an empty one. -/
theorem witness_ScalarCountsAndFields : [S, filled [1, 0, 0x13F] [], filled [1, 2 ^ 64 - 1, 0] []].all (fun s =>
    allReady s e3 ([Instr.sclz, .sctz, .spopc, .sbrev, .sbfx, .sbfxu, .sbfi].flatMap fun c => [c .w64, c .w32])) = true := by decide +kernel

/-- Joined immediate fields of SMOVI and SMOVH. -/
def ej : Enc := en (sc 0) (im 0xFFFF) (im 3)

theorem witness_ScalarMovesAndCompares : allReady S e3 [.ssel, .smov, .scmp .eq .w64, .scmp .geu .w32] = true ∧ allReady S ej [.smovi] = true ∧
    readyB S (.smovh (en (sc 0) (im 0) (im 5))) (en (sc 0) (im 0) (im 5)) = true ∧ joinedValue (en (sc 0) (im 0) (im 5)) < 2 ^ 24 := by decide +kernel

theorem witness_SpecialRegisterReadsAndWrites : (List.range 14).all (fun n => readyB S (.sgetsr (en (sc 0) (ob 5 n) .zero)) (en (sc 0) (ob 5 n) .zero) &&
    (special S n).isSome) = true ∧
    [0, 11, 12].all (fun n => readyB S (.ssetsr (en (ob 5 n) (im 1) .zero)) (en (ob 5 n) (im 1) .zero)) = true ∧
    (src S (im 1)).2 = false ∧ (lo (src S (im 1)).1).extractLsb' 0 3 ≠ 0 ∧ (lo (src S (im 1)).1).extractLsb' 0 3 ≠ 7 := by decide +kernel

theorem witness_Branches : readyB S (.bra (en (im 4) .zero .zero)) (en (im 4) .zero .zero) = true ∧
    allReady S (en (sc 0) (im 4) .zero) [.brz, .brnz, .loop] = true ∧ (src S (sc 0)).2 = false ∧
    allReady S (en (ob 0 2) (im 4) .zero) [.brany, .brall, .brnone] = true := by decide +kernel

/-- The stack holds n entries, up to one below its limit. -/
def called (n : Nat) : State := regs fun r => { r with calls := (List.range n).map fun k => BitVec.ofNat 64 (12 * k), s := r.s.set 0 0x40 }

theorem witness_CallsAndReturns : let s := called 15
    readyB s (.call (en (im 4) .zero .zero)) (en (im 4) .zero .zero) = true ∧ allReady s (en (sc 0) .zero .zero) [.calli, .jmpi] = true ∧
    readyB s (.ret (en .zero .zero .zero)) (en .zero .zero .zero) = true ∧ (rg s).calls.length - (rg s).spilled < 16 ∧ (rg s).calls ≠ [] ∧
    (src s (sc 0)).2 = false ∧ (src s (sc 0)).1.extractLsb' 0 2 = 0 := by decide +kernel

theorem witness_PlainControl : allReady S (en .zero .zero .zero) [.nop, .reach, .exit] = true ∧
    allReady S (en (im 5) .zero .zero) [.yield] = true ∧ (me S).arch.frames = [] ∧ S.freshHead 0 = false ∧ (exec (.reach (en .zero .zero .zero)) S |> fun o => next o fun t => t.freshHead 0 == false) = true := by
  decide +kernel

/-- Two open reaches; an instruction with RH, and a seal, are stopped at their head (R167, R320, R328). -/
def twoReaches : State :=
  let r : Reach := { id := 0, snap := (S.grp 0).arch, ended := some (0, 96), deps := [], written := [], lastTag := 0, accPre := [], spec := [], fresh := false, batches := Vector.replicate 16 [] }
  S.modG 0 fun x => { x with reaches := [r, { r with id := 1, ended := none }] }

theorem witness_PlainControl_heads : S.cur < twoReaches.groups.length ∧ twoReaches.atBoundary 0 = true ∧ twoReaches.freshHead 0 = false ∧
    ((twoReaches.grp 0).reaches.map (·.ended.isSome)) = [true, false] ∧ hintRh { en .zero .zero .zero with hint := 0x800 } = true := by decide +kernel

theorem test_third_head : next (exec (.nop { en .zero .zero .zero with hint := 0x800 }) twoReaches)
    (fun t => (t.grp 0).reaches.map (·.ended.isSome) == [true, true] && (t.grp 0).arch.pc == (twoReaches.grp 0).arch.pc) := by decide +kernel

/-- YIELD without a count, and EXIT, after which the group is DONE (R185, R186). -/
theorem test_plain_control :
    next (exec (.yield (en .zero .zero .zero)) S) (fun t => (t.grp 0).yieldUntil == (S.cor 0).fe + 9) ∧
    next (exec (.exit (en .zero .zero .zero)) S) (fun t => (t.grp 0).st == .done) := by decide +kernel

end Sys2Proof.Tests

namespace Sys2Proof.Tests

open Sys2Proof.Machine Sys2Proof.Safety Sys2Proof.Claim

/-! ### Vectors and predicates (R188 to R211) -/

/-- Conversion corner cases of the vector notes: 3.0e9 and −0.5 to integers, a tie to even, 70,000 with and without saturation, −0.2 to FP4, the
E4M3 NaN. -/
theorem test_conversion_corners :
    v0After (filled [0, 0x4F32D05E] []) (.vcvt .s32f32 (en (vr 0) (sc 1) .zero)) 0xB2D05E00 ∧
    v0After (filled [0, 0x7FC00000] []) (.vcvt .s32f32 (en (vr 0) (sc 1) .zero)) 0 ∧
    v0After (filled [0, 0xBF000000] []) (.vcvt .z32f32 (en (vr 0) (sc 1) .zero)) 0 ∧
    v0After (filled [0, 0xBF000000] []) (.vcvt .z32f32 { en (vr 0) (sc 1) .zero with rnd := 4 }) 0xFFFFFFFF ∧
    v0After (filled [0, 0x3F808000] []) (.vcvt .bf16f32 (en (vr 0) (sc 1) (im 0))) 0x3F80 ∧
    v0After (filled [0, 0x4788B800] []) (.vcvt8 .e5m2f32 (en (vr 0) (sc 1) (im 0))) 0x7C ∧
    v0After (filled [0, 0x4788B800] []) (.vcvt8 .e5m2f32sat (en (vr 0) (sc 1) (im 0))) 0x7B ∧
    v0After (filled [0, 0xBE4CCCCD] []) (.vpk4 (en (vr 0) (sc 1) (im 0))) 0x8 ∧
    v0After (filled [0, 0xFF] []) (.vcvt8 .f32e4m3 (en (vr 0) (sc 1) (im 0))) 0x7FC00000 := by decide +kernel

/-- 1.0 + 2.0, the sum of the threads' indexes, and a scan (R193, R209, R210). -/
theorem test_vector_results :
    v0After (filled [0, 0x3F800000, 0x40000000] []) (.vfadd .f32 (en (vr 0) (sc 1) (sc 2))) 0x40400000 ∧
    s0After (filled [] [0, 0]) (.sred .add (en (sc 0) (vr 1) .zero)) 496 ∧
    v0After (filled [] [0, 5]) (.vscan .add (en (vr 0) (vr 1) .zero)) 11 ∧
    v0After (filled [] [9, 0, 3]) (.vmad (en (vr 0) (vr 1) (vr 2))) 14 := by decide +kernel

theorem witness_VectorInteger : allReady S v3 [.vadd .w32, .vsub .w32, .vadd .w64, .vsub .w64, .vmul, .vmulh, .vmulhu, .vmad, .vand, .vor, .vxor, .vandn,
    .vshl, .vshr, .vsra, .vmin, .vmax, .vminu, .vmaxu] = true ∧ opReg v3.d + 1 < 256 := by decide +kernel

theorem witness_VectorFieldsAndMoves : allReady S v3 [.vclz, .vpopc, .vbfx, .vbfxu, .vbfi, .vsel, .vmov .w32, .vmov .w64, .vidx] = true := by decide +kernel

theorem witness_VectorFloat : [FType.f32, .f16x2, .bf16x2].all (fun t => allReady S v3 [.vfadd t, .vfsub t, .vfmul t, .vfma t, .vfmin t, .vfmax t, .vfdiv t,
    .vfsqrt t, .vfrcp t, .vfrsq t, .vfex2 t, .vflg2 t, .vfclass t]) = true := by decide +kernel

theorem witness_VectorConversions : allReady S (en (vr 0) (vr 1) (im 0)) (cvtKinds.map (fun k => Instr.vcvt k) ++ cvt8Kinds.map (fun k => Instr.vcvt8 k)) = true ∧
    allReady S v3 [.vpk4, .vupk4] = true := by decide +kernel

theorem witness_VectorCompares : allReady S (en (ob 0 1) (vr 0) (vr 1)) (conds.map (fun c => Instr.vcmp c) ++ [.vfcmp .lt .f32, .vfcmp .unord .f16, .vfcmp .ord .bf16]) = true ∧
    ∀ t, t < 32 → (el S .i32 (vr 0) t).2 = false ∧ (el S .p16 (vr 1) t).2 = false ∧ (el S .f32 (vr 1) t).2 = false ∧ (el S .i32 (vr 1) t).2 = false ∧
      (el S .p16 (vr 0) t).2 = false ∧ (el S .f32 (vr 0) t).2 = false := by decide +kernel

/-- An empty mask, with p0 all zero, and a full one. -/
theorem witness_Predicates : allReady S (en (ob 0 1) (ob 0 2) (ob 0 3)) [.pand, .por, .pxor, .pnot] = true ∧
    allReady S (en (ob 0 1) (sc 1) .zero) [.psets] = true ∧ (el S .i32 (sc 1) 0).2 = false ∧
    allReady S (en (sc 0) (ob 0 1) .zero) [.pmovs, .pcnt] = true ∧
    allReady S { en (sc 0) (ob 0 1) .zero with gp := 0 } [.pmovs, .pcnt] = true ∧ maskAt S (.pcnt { en (sc 0) (ob 0 1) .zero with gp := 0 }) { en (sc 0) (ob 0 1) .zero with gp := 0 } = 0 := by
  decide +kernel

/-- A subnormal element that a scan's first thread only passes on is flushed under FTZI (R91, R210). -/
theorem test_scan_flush : next (exec (.vscan .fadd (en (vr 0) (vr 1) .zero)) ((filled [] [0, 5]).modR 0 fun r => { r with mode := 16 }))
    (fun t => ((t.grp 0).arch.regs.vt 0 0) == 0) ∧
    next (exec (.vscan .fadd (en (vr 0) (vr 1) .zero)) (filled [] [0, 5])) (fun t => ((t.grp 0).arch.regs.vt 0 0) == 5) := by decide +kernel

theorem witness_ShuffleAndReduce : allReady S v3 [.vshfl] = true ∧ allReady S (en (sc 0) (vr 1) .zero) (redOps.map fun o => Instr.sred o) = true := by
  decide +kernel

theorem witness_ScanAndQuantise : allReady S (en (vr 0) (vr 1) .zero) (redOps.map fun o => Instr.vscan o) = true ∧
    readyB S (.qnt (en (vr 0) (vr 2) (sc 0))) (en (vr 0) (vr 2) (sc 0)) = true ∧ opReg (vr 0) + 1 < 256 := by decide +kernel

/-- A second group in the team. -/
def duo (s : State) : State :=
  let x := s.grp 0
  { s with
    groups := [x, { x with gidx := 1, slot := 16, lane := 4 }]
    teams := s.teams.map fun t => { t with groups := [0, 1] }
    launches := s.launches.map fun l => { l with desc := { l.desc with groups := 2 } } }

/-- Partner word of group 1 in s2. -/
def swapper : State := duo (filled [0, 0, 2 ^ 32] [3, 4])

/-- With the record of a pair that has completed. -/
def received : State :=
  swapper.modC 0 fun k => { k with pound := [{ kind := .received codeVa 0xFFFF (Vector.replicate 32 9) 0, gid := 0, reach := 0, ctx := 1, seq := 0, cleared := false, ops := [], bad := none, gone := [], rel := [] }] }

theorem witness_ExchangeIssues : readyB swapper (.xswap (en (vr 0) (vr 1) (sc 2))) (en (vr 0) (vr 1) (sc 2)) = true ∧ swapper.depthOf 0 = 0 ∧ (src swapper (sc 2)).2 = false ∧
    partnerBad swapper 0 (2 ^ 32) = false ∧ receiveRecord swapper 0 codeVa = none ∧ swapper.poundUsed 0 < 512 ∧
    readyB received (.xswap (en (vr 0) (vr 1) (sc 2))) (en (vr 0) (vr 1) (sc 2)) = true ∧ partnerBad received 0 (2 ^ 32) = false ∧
    receiveRecord received 0 codeVa = some (0xFFFF, Vector.replicate 32 9, 0) := by decide +kernel

/-- The group waits; from the record only the threads of the pair's mask take the value. -/
theorem test_xswap : next (exec (.xswap (en (vr 0) (vr 1) (sc 2))) swapper) (fun t => (t.grp 0).st == .wait && t.sends.length == 1) ∧
    next (exec (.xswap (en (vr 0) (vr 1) (sc 2))) received) (fun t => (t.grp 0).arch.regs.vt 0 15 == 9 && (t.grp 0).arch.regs.vt 0 16 == 19 &&
      (t.grp 0).arch.pc == codeVa + 12) := by decide +kernel

/-! ### Memory accesses -/

theorem unblocked {s : State} (h : ((s.teams.all fun t => t.held.isEmpty) && s.groups.all fun x => x.wbsets.isEmpty) = true) :
    (∀ m r n, s.readBlocked m r n = false) ∧ ∀ n, s.writeBlocked n = false := by
  simp only [Bool.and_eq_true, List.all_eq_true, List.isEmpty_iff] at h
  constructor
  · intro m r n
    simp only [State.readBlocked, Bool.or_eq_false_iff, List.any_eq_false]
    refine ⟨fun t ht => ?_, fun x hx => by simp [h.2 x hx]⟩
    obtain ⟨y, hy, rfl⟩ : ∃ y ∈ s.teams, t.1 = y := ⟨t.1, (List.mem_zipIdx_iff_getElem?.mp ht) |> List.mem_of_getElem?, rfl⟩
    simp [h.1 t.1 hy]
  · intro n
    simp only [State.writeBlocked, Bool.or_eq_false_iff, List.any_eq_false]
    exact ⟨fun t ht => by simp [h.1 t ht], fun x hx => by simp [h.2 x hx]⟩

/-- A group that has no entry in the pound, no incomplete fence, and whose team holds no sector. -/
theorem reads_of {s : State} (h : ((s.specFences s.cur).isEmpty && (s.poundOf s.cur).isEmpty && (s.teams.all fun t => t.held.isEmpty) &&
    s.groups.all fun x => x.wbsets.isEmpty) = true) (ks : List Nat) : ReadsFreely s ks := by
  simp only [Bool.and_eq_true, List.isEmpty_iff] at h
  obtain ⟨⟨⟨h1, h2⟩, h3⟩, h4⟩ := h
  refine ⟨h1, fun k _ => ⟨(unblocked (by simp only [Bool.and_eq_true]; exact ⟨h3, h4⟩)).2 _, ?_⟩⟩
  rw [State.goingEntries, h2]; rfl

def cleanB (s : State) (k n : Nat) : Bool :=
  (List.range n).all fun i => !(s.viewByte s.cur (k + i)).2 && !s.pocPoison (k + i) && (s.csector (s.clusterOf s.cur) (sectorOf (k + i))).isNone

theorem clean_of {s : State} {k n : Nat} (h : cleanB s k n = true) : cleanBytes s k n := by
  intro i hi
  have := List.all_eq_true.mp h i (List.mem_range.mpr hi)
  simp only [Bool.and_eq_true, Bool.not_eq_true', Option.isNone_iff_eq_none] at this
  exact ⟨this.1.1, this.1.2, fun x hx => by rw [this.2] at hx; cases hx⟩

def inFrameB (x : XReg) (need : Need) (n : Nat) (o : W64) : Bool :=
  !x.stale && (match x.perm with | some p => p.grant need | none => false) && decide (0 ≤ o.toInt) && decide (o.toNat + n ≤ x.limit.toNat)

theorem inFrame_of {x : XReg} {need : Need} {n : Nat} {o : W64} (h : inFrameB x need n o = true) : InFrame x need n o := by
  simp only [inFrameB, Bool.and_eq_true, Bool.not_eq_true', decide_eq_true_eq] at h
  obtain ⟨⟨⟨h1, h2⟩, h3⟩, h4⟩ := h
  refine ⟨h1, ?_, h3, h4⟩
  split at h2
  · exact ⟨_, ‹_›, h2⟩
  · cases h2

def frameB (s : State) (i : Instr) (e : Enc) (x o : Operand) (need : Need) (n : Nat) : Bool :=
  decide ((s.cx (me s).arch.ctx).debug = Vector.replicate 21 0) &&
    (active s i e).all fun t => !(off s o t).2 && inFrameB (xr s x) need n (off s o t).1

theorem frameAccess_of {s : State} {i : Instr} {e : Enc} {x o : Operand} {need : Need} {n : Nat} (h : frameB s i e x o need n = true) :
    FrameAccess s i e x o need n := by
  simp only [frameB, Bool.and_eq_true, List.all_eq_true, decide_eq_true_eq, Bool.not_eq_true'] at h
  exact ⟨h.1, fun t ht => ⟨(h.2 t ht).1, inFrame_of (h.2 t ht).2⟩⟩

theorem fresh_of {s : State} (ks : List Nat) (h : s.poundOf s.cur = []) : FreshSectors s ks := by
  intro e he; rw [h] at he; cases he

/-- x1 grants 4 KiB of HBM by its frame; v1 holds 16 × the thread's index, s1 an offset, v2 and s2 data. -/
def framed : State :=
  regs fun r => { r with
    x := r.x.set 1 { frame := 0x34001000, limit := 4096, base := 0x7F0002001000, stale := false, psz := 0, space := .hbm, perm := some { r := true, w := true, x := false } }
    s := (r.s.set 1 8).set 2 0x1122334455667788
    v := (r.v.set 1 (Vector.ofFn fun t => BitVec.ofNat 32 (16 * t.val))).set 2 (Vector.ofFn fun t => BitVec.ofNat 32 (256 + t.val)) }

def eLoad : Enc := en (sc 0) (ob 1 1) (sc 1)
def eStore : Enc := en (ob 1 1) (sc 1) (sc 2)
def vLoad : Enc := en (vr 4) (ob 1 1) (vr 1)
def vStore : Enc := en (ob 1 1) (vr 1) (vr 2)

theorem witness_ScalarLoads : ((allReady framed eLoad [.sld .b8, .sld .b64, .sldu .b32] = true ∧ NoDebug framed ∧ Spacious framed 0 ∧
    (off framed (sc 1) 0).2 = false)) ∧ (∀ ks, ReadsFreely framed ks) ∧ InFrame (xr framed (ob 1 1)) .load 8 (off framed (sc 1) 0).1 ∧ Roomy framed ∧
    cleanBytes framed (keyAt (xr framed (ob 1 1)) (off framed (sc 1) 0).1) 8 :=
  ⟨by unfold NoDebug Spacious; decide +kernel, reads_of (by decide +kernel), inFrame_of (by decide +kernel), by unfold Roomy; decide +kernel,
    clean_of (by decide +kernel)⟩

theorem witness_ScalarStores : (allReady framed eStore [.sst .b8, .sst .b64] = true ∧ NoDebug framed ∧ Spacious framed 2 ∧ Untraced framed ∧ (off framed (sc 1) 0).2 = false ∧
    (src framed (sc 2)).2 = false) ∧ InFrame (xr framed (ob 1 1)) .store 8 (off framed (sc 1) 0).1 ∧ ∀ ks, FreshSectors framed ks :=
  ⟨by unfold NoDebug Spacious Untraced; decide +kernel, inFrame_of (by decide +kernel), fun ks => fresh_of ks (by decide +kernel)⟩

/-- The group sees what it stored, at the frame plus the offset; memory does not. -/
theorem test_scalar_store : next (exec (.sst .b16 eStore) framed) (fun t => (t.viewByte 0 0x34001008).1 == 0x88 && (t.viewByte 0 0x34001009).1 == 0x77 &&
    (t.viewByte 0 0x3400100A).1 == 0 && t.mem.read 0x34001008 == 0 && (t.grp 0).cst == 1) := by decide +kernel

/-- An address that a walk finds, one that it does not, and one that is not canonical. -/
def anchored (a : Nat) : State := filled [0, a, 4096] []
def eAnch : Enc := en (ob 1 1) (sc 1) (sc 2)

theorem witness_AnchorWrites : [0x7F0002000000, 0x1000, 0x0300000000000000].all (fun a => readyB (anchored a) (.anch eAnch) eAnch &&
      !(src (anchored a) (sc 1)).2 && !(src (anchored a) (sc 2)).2) = true ∧ Untraced tiny ∧
    canonical 0x0300000000000000 = false ∧ canonical 0x7F0002000000 = true ∧ ((anchored 0).walkPage 0 1 0x7F0002000000 true).1.isSome = true := by
  unfold Untraced; decide +kernel

/-- The leaf of the walk that R312 works by hand: frame 0x3400_0000. -/
theorem test_anch : next (exec (.anch eAnch) (anchored 0x7F0002000000)) (fun t =>
    ((t.grp 0).arch.regs.x[1]?.map fun x => (x.frame, x.limit, x.stale)) == some (0x34000000, 4096, false)) := by decide +kernel

theorem witness_VectorLoads : (allReady framed vLoad [.ldv .s8, .ldv .b32, .ldv .b128] = true ∧ Spacious framed 0 ∧ Roomy framed) ∧ (∀ ks, ReadsFreely framed ks) ∧
    (∀ w ∈ [LdWidth.s8, .b32, .b128], FrameAccess framed (.ldv w vLoad) vLoad (ob 1 1) (vr 1) .load w.bytes) :=
  ⟨by unfold Spacious Roomy; decide +kernel, reads_of (by decide +kernel), by
    intro w hw
    simp only [List.mem_cons, List.not_mem_nil, or_false] at hw
    rcases hw with rfl | rfl | rfl <;> exact frameAccess_of (by decide +kernel)⟩

theorem witness_VectorStores : (readyB framed (.stv .b32 vStore) vStore = true ∧ Spacious framed 64 ∧ Untraced framed ∧
      ∀ t ∈ active framed (.stv .b32 vStore) vStore, (readData (rg framed) (vr 2) 4 t).2 = false) ∧
    FrameAccess framed (.stv .b32 vStore) vStore (ob 1 1) (vr 1) .store 4 ∧ ∀ ks, FreshSectors framed ks :=
  ⟨by unfold Spacious Untraced; decide +kernel, frameAccess_of (by decide +kernel), fun ks => fresh_of ks (by decide +kernel)⟩

/-- Thread 3 loads what thread 3 stored. -/
theorem test_vector_store : next (exec (.stv .b32 vStore) framed) (fun t => (t.viewByte 0 (0x34001000 + 48)).1 == 3 && (t.viewByte 0 (0x34001000 + 49)).1 == 1 &&
    next (exec (.ldv .b32 vLoad) (t.modC 0 fun k => { k with fe := 100 })) fun u =>
      ((u.grp 0).loads.map fun l => (l.vals[3]?.map (·.2.1))) == [some [259]]) := by decide +kernel

end Sys2Proof.Tests

namespace Sys2Proof.Tests

open Sys2Proof.Machine Sys2Proof.Safety Sys2Proof.Claim

/-! ### Atomics, the stash, berths and fences -/

/-- A pound entry of group 0. -/
def entry (k : PKind) (n : Nat) : PEntry := { kind := k, gid := 0, reach := 0, ctx := 1, seq := n, cleared := false, ops := [n], bad := none, gone := [], rel := [] }

def withPound (s : State) (es : List PEntry) : State := s.modC 0 fun k => { k with pound := es }

/-- The record of an atomic that has returned 5 to thread 3. -/
def returned : State := withPound framed [entry (.retAtom codeVa [(3, 5)] 0) 0]

def vAtom : Enc := en (vr 4) (ob 1 1) (vr 1)

theorem witness_ReturningAtomics :
    (Untraced framed ∧ (me framed).atom = none ∧ (me framed).fences = [] ∧ allReady framed vAtom [.atom (.f32 .add), .atom (.f64 .exch), .acas .w32, .acas .w64] = true ∧
      returnRecord framed 0 codeVa = none ∧ framed.poundUsed 0 < 512 ∧ (∀ t ∈ active framed (.acas .w64 vAtom) vAtom, ∀ k, k < 4 → (rg framed).vpt (4 + k) t = false) ∧
      (∀ t ∈ active framed (.atom (.f64 .exch) vAtom) vAtom, ((xr framed (ob 1 1)).base + (off framed (vr 1) t).1).toNat % 8 = 0 ∧
        ∀ j, j < 8 → isHostKey (keyAt (xr framed (ob 1 1)) (off framed (vr 1) t).1 + j) = false)) ∧
    FrameAccess framed (.atom (.f64 .exch) vAtom) vAtom (ob 1 1) (vr 1) .store 8 ∧
    FrameAccess framed (.acas .w32 vAtom) vAtom (ob 1 1) (vr 1) .store 4 ∧
    (Untraced returned ∧ readyB returned (.atom (.f32 .add) vAtom) vAtom = true ∧ returnRecord returned 0 codeVa = some ([(3, 5)], 0)) :=
  ⟨by unfold Untraced; decide +kernel, frameAccess_of (by decide +kernel), frameAccess_of (by decide +kernel), by unfold Untraced; decide +kernel⟩

/-- One access for each thread; from the record, thread 3 alone is written. -/
theorem test_atom : next (exec (.atom (.f32 .add) vAtom) framed) (fun t => ((t.grp 0).atom.map fun a => a.reqs.length) == some 32) ∧
    next (exec (.atom (.f32 .add) vAtom) returned) (fun t => (t.grp 0).arch.regs.vt 4 3 == 5 && (t.grp 0).arch.regs.vt 4 2 == 0) := by decide +kernel

theorem witness_RemoteAtomicsAndPrefetch :
    (Untraced framed ∧ allReady framed vStore [.atomr (.f32 .add), .atomr (.f64 .max), .pref] = true ∧ Spacious framed 32 ∧
      (∀ t ∈ active framed (.atomr (.f64 .max) vStore) vStore, (readData (rg framed) (vr 2) 8 t).2 = false ∧ ((xr framed (ob 1 1)).base + (off framed (vr 1) t).1).toNat % 8 = 0) ∧
      framed.clusterOf 0 < framed.clusters.length ∧ (xr framed (ob 1 1)).stale = false ∧ (xr framed (ob 1 1)).perm.isSome = true ∧
      (∀ t ∈ active framed (.pref vStore) vStore, (off framed (vr 1) t).2 = false ∧ isHostKey (sectorOf (keyAt (xr framed (ob 1 1)) (off framed (vr 1) t).1)) = false)) ∧
    FrameAccess framed (.atomr (.f64 .max) vStore) vStore (ob 1 1) (vr 1) .store 8 ∧ (∀ n, framed.readBlocked (some 0) (.group 0) n = false) ∧
    Roomy framed ∧ ∀ t ∈ active framed (.pref vStore) vStore, InFrame (xr framed (ob 1 1)) .load 1 (off framed (vr 1) t).1 :=
  ⟨by unfold Untraced Spacious; decide +kernel, frameAccess_of (by decide +kernel), (unblocked (s := framed) (by decide +kernel)).1 _ _, by unfold Roomy; decide +kernel, by
    have h : frameB framed (.pref vStore) vStore (ob 1 1) (vr 1) .load 1 = true := by decide +kernel
    exact fun t ht => ((frameAccess_of h).2 t ht).2⟩

/-- Berth 2 of the team: 1 KiB of stash from 128, which holds the number of its word in each word. -/
def stashed : State :=
  framed.modT 0 fun t => { t with
    berths := t.berths.set 2 { base := 128, size := 1024, bound := false, gva := 0 }
    stash := (List.range 32).foldl (fun m k => m.writeBytes (128 + 16 * k) (bytesLE 4 (1000 + k))) [] }

def eLdsh : Enc := en (vr 4) (ob 2 2) (vr 1)
def eStsh : Enc := en (ob 2 2) (vr 1) (vr 2)

theorem witness_StashAccesses : allReady stashed eLdsh [.ldsh .b32, .ldsh .b128] = true ∧ allReady stashed eStsh [.stsh .b32, .stsh .b128] = true ∧ Untraced stashed ∧
    Spacious stashed 64 ∧ WindowAccess stashed (.ldsh .b128 eLdsh) eLdsh (ob 2 2) (vr 1) 16 ∧ WindowAccess stashed (.stsh .b32 eStsh) eStsh (ob 2 2) (vr 1) 4 ∧
    (me stashed).team < stashed.teams.length ∧ (stashed.teamOf 0).stash.wf = true ∧ (∀ t ∈ active stashed (.stsh .b32 eStsh) eStsh, (readData (rg stashed) (vr 2) 4 t).2 = false) ∧ stashed.openDest 0 = [] ∧
    (∀ t ∈ active stashed (.ldsh .b128 eLdsh) eLdsh, ∀ k, k < 16 → stashed.heldKeyAt 0 (shAt stashed (ob 2 2) (off stashed (vr 1) t).1 + k) = none) := by
  unfold Untraced Spacious WindowAccess NoDebug; decide +kernel

/-- Thread 5 loads word 1005 and stores 261 there. -/
theorem test_stash : next (exec (.ldsh .b32 eLdsh) stashed) (fun t => (t.grp 0).arch.regs.vt 4 5 == 1005) ∧
    next (exec (.stsh .b32 eStsh) stashed) (fun t => (t.tm 0).stash.readBytes (128 + 80) 4 == [5, 1, 0, 0]) := by decide +kernel

/-- Every thread adds 2 to the word at offset 0. -/
def counting : State := stashed.modR 0 fun r => { r with v := (r.v.set 1 (Vector.replicate 32 0)).set 4 (Vector.replicate 32 2) }

theorem witness_StashAtomics : readyB counting (.atomsh (.op .add) eLdsh) eLdsh = true ∧ readyB counting (.atomsh .cas eLdsh) eLdsh = true ∧ Untraced counting ∧ Spacious counting 32 ∧
    WindowAccess counting (.atomsh .cas eLdsh) eLdsh (ob 2 2) (vr 1) 4 ∧ WindowAccess counting (.atomsh (.op .add) eLdsh) eLdsh (ob 2 2) (vr 1) 4 ∧
    (counting.teamOf 0).stash.wf = true ∧ counting.openDest 0 = [] ∧
    ∀ t ∈ active counting (.atomsh .cas eLdsh) eLdsh, (shAt counting (ob 2 2) (off counting (vr 1) t).1) % 4 = 0 ∧ (off counting (vr 1) t).1.toNat % 4 = 0 ∧
      (∀ j, j < 2 → (rg counting).vpt (4 + j) t = false) ∧
      ∀ j, j < 4 → counting.heldKeyAt 0 (shAt counting (ob 2 2) (off counting (vr 1) t).1 + j) = none := by
  unfold Untraced Spacious WindowAccess NoDebug; decide +kernel

/-- Thread t finds what t additions have left, and the word ends at 1000 + 64 (R152). -/
theorem test_atomsh : next (exec (.atomsh (.op .add) eLdsh) counting) (fun t => (t.grp 0).arch.regs.vt 4 0 == 1000 && (t.grp 0).arch.regs.vt 4 31 == 1062 &&
    (t.tm 0).stash.readBytes 128 4 == bytesLE 4 1064) := by decide +kernel

/-- The window word of 4,096 bytes from stash address 2,048, and a global address. -/
def binding : State := stashed.modR 0 fun r => { r with s := (r.s.set 1 0x100000000800).set 2 0x7F0002001000 }

/-- Berth 2 bound, with a sector of it that is held dirty. -/
def bound : State :=
  stashed.modT 0 fun t => { t with
    berths := t.berths.set 2 { base := 128, size := 1024, bound := true, gva := 0x7F0002001000 }
    held := [{ berth := 2, frame := none, off := 128, va := 0x7F0002001000, key := 0x34001000, dirty := 1, snoops := [], served := [], by_ := none }] }

theorem witness_BerthBinding :
    (Untraced binding ∧ Spacious binding 1 ∧ (me binding).arch.frames = [] ∧ readyB binding (.bbind (en (ob 2 3) (sc 1) (sc 2))) (en (ob 2 3) (sc 1) (sc 2)) = true ∧
      readyB binding (.bbind (en (ob 2 3) (sc 1) .zero)) (en (ob 2 3) (sc 1) .zero) = true ∧ (src binding (sc 1)).2 = false ∧ (src binding (sc 2)).2 = false ∧
      windowBad binding 0 3 (src binding (sc 1)).1 (src binding (sc 2)).1 = false ∧ windowBad binding 0 3 (src binding (sc 1)).1 0 = false ∧ (binding.berthOf 0 3).bound = false) ∧
    (allReady bound (en (ob 2 2) .zero .zero) [.bunbind, .bflush] = true ∧ Spacious bound 2 ∧ (bound.berthOf 0 2).bound = true ∧ (me bound).team < bound.teams.length ∧
      (bound.heldBy 0 2).any (fun h => h.dirty != 0) = true ∧ Untraced bound ∧ (bound.tm 0).undone = []) ∧
    allReady stashed (en (ob 2 2) .zero .zero) [.bunbind, .bflush] = true ∧ (stashed.berthOf 0 2).bound = false := by unfold Untraced Spacious; decide +kernel

/-- The berth's fields, and the write-back set of its one dirty byte (R225, R226). -/
theorem test_bbind : next (exec (.bbind (en (ob 2 3) (sc 1) (sc 2))) binding) (fun t => (t.tm 0).berths[3] == { base := 2048, size := 4096, bound := true, gva := 0x7F0002001000 }) ∧
    next (exec (.bunbind (en (ob 2 2) .zero .zero)) bound) (fun t => ((t.grp 0).wbsets.map fun b => b.bytes.map fun w => (w.1, w.2.1)) == [[(0x34001000, 0xE8)]] &&
      (t.tm 0).berths[2].bound == false && (t.grp 0).cst == 1) := by decide +kernel

/-- The cluster cache holds one dirty and one clean byte of the context. -/
def cached : State :=
  { framed with clusters := [{ Cluster.reset with cache := [{ key := 0x34001000, bytes := ((Vector.replicate 128 none).set 0 (some { val := 1, dirty := true })).set 1 (some { val := 2, dirty := false })
                                                              poison := 0, tag := 1, shared := false, writer := 1 }] }] }

theorem witness_FencesAndCacheControl : Untraced cached ∧ Spacious cached 0 ∧ (me cached).arch.emu = none ∧
    allReady cached (en .zero .zero .zero) (Instr.ifence :: (pairs scopes fenceKinds).map fun x => .fence x.1 x.2) = true ∧ cached.drained 0 cached.nextSeq = true ∧
    allReady cached (en (ob 1 1) (sc 3) .zero) ((cscopes.map fun c => Instr.cinv c) ++ cscopes.map fun c => .cflush c) = true ∧ src cached (sc 3) = (0, false) := by
  unfold Untraced Spacious; decide +kernel

/-- CINV keeps the dirty byte and drops the clean one (R145, R228). -/
theorem test_cinv : next (exec (.cinv .dev (en (ob 1 1) (sc 3) .zero)) cached) (fun t => (t.cbyte 0 0x34001000).isSome && (t.cbyte 0 0x34001001).isNone) := by decide +kernel

/-! ### Barriers, waits and copies -/

/-- Barrier 7, with group 0 neither arrived nor pending, arrived and pending, and pending only. -/
def barriers (a p : BitVec 16) : State := (duo framed).modT 0 fun t => { t with bars := t.bars.set 7 { Barrier.zero with arrived := a, pend := p } }

theorem witness_Barriers : [(0, 0), (1, 1), (0, 1)].all (fun x => let s := barriers x.1 x.2
      allReady s (en (im 7) .zero .zero) [.bar, .bara, .barw] && readyB s (.barx (en (im 7) (sc 1) .zero)) (en (im 7) (sc 1) .zero) && !(src s (sc 1)).2) = true ∧
    barrierDone (barriers 0 0) 0 7 = false ∧ barrierDone (barriers 3 0) 0 7 = true ∧ readyB (barriers 3 0) (.barx (en (im 7) (sc 1) .zero)) (en (im 7) (sc 1) .zero) = true ∧
    Untraced (barriers 1 1) ∧ Spacious (barriers 1 1) 2 ∧ (me (barriers 1 1)).team < (barriers 1 1).teams.length ∧ (me (barriers 1 1)).arch.frames = [] ∧
    (barOf (barriers 1 1) 7).pend &&& mine (barriers 1 1) ≠ 0 ∧ (barOf (barriers 1 1) 7).arrived &&& mine (barriers 1 1) ≠ 0 ∧
    (barOf (barriers 0 1) 7).pend &&& mine (barriers 0 1) ≠ 0 ∧ ¬ (barOf (barriers 0 1) 7).arrived &&& mine (barriers 0 1) ≠ 0 ∧
    ¬ (barOf (barriers 0 0) 7).pend &&& mine (barriers 0 0) ≠ 0 := by unfold Untraced Spacious; decide +kernel

/-- BAR arrives and waits; BARX adds 8 (R231, R233). -/
theorem test_bar : next (exec (.bar (en (im 7) .zero .zero)) (barriers 0 0)) (fun t => (t.bar 0 7).arrived == 1 && (t.grp 0).st == .wait) ∧
    next (exec (.barx (en (im 7) (sc 1) .zero)) (barriers 0 0)) (fun t => (t.bar 0 7).expected == 8) := by decide +kernel

def eWaita : Enc := en (ob 2 2) (im 16) (im 1001)

theorem witness_Waits : [1001, 1002].all (fun v => readyB stashed (.waita (en (ob 2 2) (im 16) (im v))) (en (ob 2 2) (im 16) (im v))) = true ∧
    NoDebug stashed ∧ (me stashed).arch.frames = [] ∧ stashed.openDest 0 = [] ∧ (src stashed (im 16)).2 = false ∧ 2 < stashed.berthLimit 0 ∧ (stashed.berthOf 0 2).bound = false ∧
    (src stashed (im 16)).1.toNat % 8 = 0 ∧ 0 ≤ (src stashed (im 16)).1.toInt ∧ (src stashed (im 16)).1.toNat + 8 ≤ (stashed.berthOf 0 2).size ∧ (stashed.tm 0).held = [] ∧
    [0, 1, 2, 3].all (fun c => readyB stashed (.waitc (en (ob 7 c) (im 0) .zero)) (en (ob 7 c) (im 0) .zero)) = true ∧
    allReady stashed (en (sc 1) .zero .zero) [.sleep] = true ∧ (src stashed (sc 1)).2 = false := by unfold NoDebug; decide +kernel

/-- A word at its threshold and below it; a sleep of 8 ns (R235, R295). -/
theorem test_waits : next (exec (.waita (en (ob 2 2) (im 16) (im 1001))) stashed) (fun t => (t.grp 0).st == .run) ∧
    next (exec (.waita (en (ob 2 2) (im 16) (im 1002))) stashed) (fun t => (t.grp 0).st == .wait) ∧
    next (exec (.sleep (en (sc 1) .zero .zero)) stashed) (fun t => (t.grp 0).wait.map (·.what) == some (.sleep 8)) := by decide +kernel

end Sys2Proof.Tests

namespace Sys2Proof.Tests

open Sys2Proof.Machine Sys2Proof.Safety Sys2Proof.Claim

/-! ### Words of each family, field by field (R105, R108, R112, R119) -/

/-- Opcode, guard always, no rounding field, no hint, operands D, A and B. -/
def fields (opc : BitVec 10) (d a b : BitVec 22) : IWord := opc ++ 0b01111#5 ++ 0#3 ++ 0#12 ++ d ++ a ++ b
def kV (r : BitVec 8) : BitVec 22 := 0b00#2 ++ r ++ 0#12
def kS (r : BitVec 7) : BitVec 22 := 0b01#2 ++ r ++ 0#13
def kI (v : BitVec 20) : BitVec 22 := 0b10#2 ++ v
def kO (c : BitVec 4) (n : BitVec 16) : BitVec 22 := 0b11#2 ++ c ++ n

/-- The hand-assembled words of the encoding chapter. -/
theorem test_decode_by_hand :
    decode (0x62464800#32 ++ 0x08000010#32 ++ 0x00005210#32) =
      .ok (.vfma .f32 { gn := false, gp := 3, rnd := 1, hint := 0x200, d := vr 8, a := vr 4, b := .vec 5 (.bf 1) false false }) := by decide +kernel

theorem test_decode_joined : decode (0x0E9E0001#32 ++ 0x0C000848#32 ++ 0xD166789A#32) = .ok (.smovi (en (sc 6) (im 0x12345) (im 0x6789A))) ∧
    joinedValue (en (sc 6) (im 0x12345) (im 0x6789A)) = 0x123456789A := by decide +kernel

/-- Scalars, loads and stores, control. -/
theorem test_decode_scalar : decode (fields 0x003 (kS 4) (kS 5) (kI 9)) = .ok (.ssub .w32 (en (sc 4) (sc 5) (im 9))) ∧
    decode (fields 0x045 (kS 1) (kS 2) (kS 3)) = .ok (.scmp .gt .w32 (en (sc 1) (sc 2) (sc 3))) ∧
    decode (fields 0x057 (kS 1) (kO 1 7) (kS 3)) = .ok (.sldu .b16 (en (sc 1) (ob 1 7) (sc 3))) ∧
    decode (fields 0x05C (kO 1 7) (kI 8) (kS 3)) = .ok (.sst .b64 (en (ob 1 7) (im 8) (sc 3))) ∧
    decode (fields 0x082 (kS 1) (kI 0xFFFFD) 0) = .ok (.brnz (en (sc 1) (im (-3)) .zero)) := by decide +kernel

/-- Vectors, conversions, predicates, exchange. -/
theorem test_decode_vector : decode (fields 0x102 (kV 1) (kV 2) (kV 3)) = .ok (.vsub .w32 (en (vr 1) (vr 2) (vr 3))) ∧
    decode (fields 0x19B (kV 1) (kV 2) 0) = .ok (.vfrsq .f32 (en (vr 1) (vr 2) .zero)) ∧
    decode (fields 0x1AB (kV 2) (kV 4) 0) = .ok (.vcvt .f32s64 (en (vr 2) (vr 4) .zero)) ∧
    decode (fields 0x206 (kO 0 3) (kV 4) (kS 5)) = .ok (.vcmp .ltu (en (ob 0 3) (vr 4) (sc 5))) ∧
    decode (fields 0x228 (kS 1) (kO 0 3) 0) = .ok (.pcnt (en (sc 1) (ob 0 3) .zero)) ∧
    decode (fields 0x22F (kS 1) (kV 3) 0) = .ok (.sred .minu (en (sc 1) (vr 3) .zero)) ∧
    decode (fields 0x31A (kV 2) (kV 3) (kS 1)) = .ok (.qnt (en (vr 2) (vr 3) (sc 1))) := by decide +kernel

/-- Memory, stash, berths, fences, barriers, copies. -/
theorem test_decode_memory : decode (fields 0x283 (kV 1) (kO 1 2) (kV 3)) = .ok (.ldv .z16 (en (vr 1) (ob 1 2) (vr 3))) ∧
    decode (fields 0x295 (kO 2 2) (kV 3) (kV 4)) = .ok (.stsh .b32 (en (ob 2 2) (vr 3) (vr 4))) ∧
    decode (fields 0x2B3 (kO 1 2) (kV 4) (kV 6)) = .ok (.atomr (.f64 .add) (en (ob 1 2) (vr 4) (vr 6))) ∧
    decode (fields 0x2C3 (kV 6) (kO 2 2) (kV 4)) = .ok (.atomsh .cas (en (vr 6) (ob 2 2) (vr 4))) ∧
    decode (fields 0x2C4 (kO 2 2) (kS 1) 0) = .ok (.bbind (en (ob 2 2) (sc 1) .zero)) ∧
    decode (fields 0x2D1 0 0 0) = .ok (.fence .dev .rel (en .zero .zero .zero)) ∧
    decode (fields 0x2E7 (kO 7 2) (kI 3) 0) = .ok (.waitc (en (ob 7 2) (im 3) .zero)) ∧
    decode (fields 0x301 (kS 8) 0 0) = .ok (.cpy2 (en (sc 8) .zero .zero)) := by decide +kernel

/-- The matrix engine, gates, traps and the system. -/
theorem test_decode_engine : decode (fields 0x30C (kO 3 5) (kO 2 2) (kI 128)) = .ok (.mldw .bf16 true (en (ob 3 5) (ob 2 2) (im 128))) ∧
    decode (fields 0x318 (kV 1) (kO 4 5) (kI 7)) = .ok (.mrda (en (vr 1) (ob 4 5) (im 7))) ∧
    decode (fields 0x381 0 0 0) = .ok (.gret (en .zero .zero .zero)) ∧
    decode (fields 0x386 (kS 1) (kS 2) 0) = .ok (.lnch (en (sc 1) (sc 2) .zero)) ∧
    decode (fields 0x38B (kI 0) 0 0) = .ok (.emur (en (im 0) .zero .zero)) ∧
    decode (fields 0x2F0 (kS 1) (kI 5) 0) = .ok (.sbar (fields 0x2F0 (kS 1) (kI 5) 0)) := by decide +kernel

/-- Hint bits that R114 reserves, a guard on a uniform form, RND 7, a butterfly of 5, a reserved permutation, a modifier on an integer, a joined immediate with
high bits for SMOVH, a packed immediate with high bits, a write of a special register that only reads, a berth, slot and accumulator beyond the
allocation (R107 to R113, R115). -/
theorem test_ill_formed_fields :
    wellFormedIn Alloc.full (.sadd .w64 { e3 with hint := 1 }) = false ∧
    wellFormedIn Alloc.full (.sadd .w64 { e3 with gp := 3 }) = false ∧
    wellFormedIn Alloc.full (.vfadd .f32 { v3 with rnd := 7 }) = false ∧
    wellFormedIn Alloc.full (.vfadd .f32 (en (vr 1) (.vec 2 (.bf 5) false false) (vr 3))) = false ∧
    wellFormedIn Alloc.full (.vadd .w32 (en (vr 1) (.vec 2 .none true false) (vr 3))) = false ∧
    wellFormedIn Alloc.full (.vadd .w32 (en (.vec 1 (.bf 1) false false) (vr 2) (vr 3))) = false ∧
    wellFormedIn Alloc.full (.smovh (en (sc 0) (im 0x10) (im 0))) = false ∧
    wellFormedIn Alloc.full (.vfadd .f16x2 (en (vr 1) (vr 2) (im 0x10000))) = false ∧
    wellFormedIn Alloc.full (.ssetsr (en (ob 5 8) (sc 0) .zero)) = false ∧
    wellFormedIn { Alloc.full with berths := 2 } (.bunbind (en (ob 2 2) .zero .zero)) = false ∧
    wellFormedIn { Alloc.full with accs := 2 } (.mzero (en (ob 4 2) .zero .zero)) = false ∧
    wellFormedIn { Alloc.full with tiles := 2 } (.mfmt (en (sc 0) (ob 3 2) .zero)) = false := by decide +kernel

end Sys2Proof.Tests

namespace Sys2Proof.Tests

open Sys2Proof.Machine Sys2Proof.Safety Sys2Proof.Claim

/-- Scalars from s`n` on hold some values. -/
def withS (s : State) (n : Nat) (vs : List Nat) : State :=
  s.modR 0 fun r => { r with s := vs.zipIdx.foldl (fun x y => x.setIfInBounds (n + y.2) (BitVec.ofNat 64 y.1)) r.s }

/-- A command block from s8: stash to stash in berth 2, 128 bytes, with a signal of 77 at offset 0; two rows for CPY2. -/
def copying : State :=
  withS stashed 8 [0x0002000000000100, 0x0002000000000000, 128 + 2 ^ 32 + 2 ^ 33 + 2 ^ 34 + 2 ^ 36 + 2 * 2 ^ 40, 77, 2, 128, 128, 0]

/-- One that adds 32 words of berth 2 to the code's page, here writable (CPYR). -/
def reducing : State :=
  withS { stashed with mem := stashed.mem.writeBytes 0x121000 (bytesLE 8 0x34000007) } 8 [0x7F0002001000, 0x0002000000000000, 128 + 2 ^ 33 + 2 ^ 36]

/-- The same, with a completion signal of 77 at 0x40 of that page. -/
def reducingSignal : State := withS reducing 10 [128 + 2 ^ 33 + 2 ^ 34 + 2 ^ 36, 77, 0x7F0002001040]

def eCopy : Enc := en (sc 8) .zero .zero

theorem witness_CopiesIssue :
    (readyB copying (.cpy eCopy) eCopy = true ∧ readyB copying (.cpy2 eCopy) eCopy = true ∧ Untraced copying ∧ Spacious copying 1 ∧
      (me copying).ccpy < 65535 ∧ copying.coreOf 0 < copying.cores.length ∧ (copying.cor 0).copies.length < 16 ∧ (me copying).arch.frames = []) ∧
    (let k := (copyCmd (rg copying) 8 0).1
     (copyCmd (rg copying) 8 0).2 = false ∧ copying.copyBad 0 k = false ∧ copying.copyTeams 0 k = [0] ∧ (copying.stashRows 0 0 k.dst k.dstride k).toOption = some [384] ∧
      (copying.stashRows 0 0 k.src k.sstride k).toOption = some [128] ∧ k.comp = 1 ∧ (copying.copyWindow 0 0 k.sberth (k.soff * 8) 8).isSome = true) ∧
    (let k := (copyCmd (rg copying) 8 1).1
     (copyCmd (rg copying) 8 1).2 = false ∧ copying.copyBad 0 k = false ∧ (copying.stashRows 0 0 k.dst k.dstride k).toOption = some [384, 512] ∧
      (copying.stashRows 0 0 k.src k.sstride k).toOption = some [128, 256]) ∧
    (let k := (copyCmd (rg reducing) 8 2).1
     readyB reducing (.cpyr eCopy) eCopy = true ∧ (copyCmd (rg reducing) 8 2).2 = false ∧ reducing.copyBad 0 k = false ∧ k.dstash = false ∧ k.comp = 0 ∧
      (reducing.stashRows 0 0 k.src k.sstride k).toOption = some [128] ∧ (reducing.globalSide 0 .store k k.dstRow).1.toOption = some [(0x34001000, 128)] ∧ isHostKey 0x34001000 = false) ∧
    (let k := (copyCmd (rg reducingSignal) 8 2).1
     readyB reducingSignal (.cpyr eCopy) eCopy = true ∧ (copyCmd (rg reducingSignal) 8 2).2 = false ∧ reducingSignal.copyBad 0 k = false ∧ k.comp = 1 ∧
      ((reducingSignal.globalSide 0 .store k k.dstRow).2.globalRuns 0 .store 2 k.s4 8).1.toOption.isSome = true) := by
  unfold Untraced Spacious; decide +kernel

/-- One command of one token, of 128 bytes; of two rows. -/
theorem test_copies : next (exec (.cpy eCopy) copying) (fun t => ((t.cor 0).copies.map fun c => (c.len, c.tokens, c.comp)) == [(128, 1, 1)] && (t.grp 0).ccpy == 1) ∧
    next (exec (.cpy2 eCopy) copying) (fun t => ((t.cor 0).copies.map fun c => (c.len, c.dsts)) == [(256, [(some 0, [(384, 128), (512, 128)])])]) ∧
    next (exec (.cpyr eCopy) reducing) (fun t => ((t.cor 0).copies.map fun c => (c.form, c.dsts)) == [(2, [(none, [(0x34001000, 128)])])]) := by decide +kernel

end Sys2Proof.Tests

namespace Sys2Proof.Tests

open Sys2Proof.Machine Sys2Proof.Safety Sys2Proof.Claim

/-! ### The matrix engine -/

/-- Berth 2 is the whole stash; slots 0 and 1 hold FP4 panels; s1 is the control word of two steps, its slots 1 apart, its panels 21 × 128 bytes. -/
def tensor : State :=
  withS (tiny.modT 0 fun t => { t with
    berths := t.berths.set 2 { base := 0, size := 65536, bound := false, gva := 0 }
    slots := (t.slots.set 0 { WSlot.empty with fmt := some .fp4 }).set 1 { WSlot.empty with fmt := some .fp4 } }) 1 [2 * 2 ^ 56 + 2 ^ 50 + 2 * 2 ^ 32 + 21 * 2 ^ 16]

def eMldw : Enc := en (ob 3 7) (ob 2 2) (im 128)
def eMloop : Enc := en (ob 4 1) (ob 3 0) (sc 1)
def eMsta : Enc := en (ob 2 2) (im 256) (ob 4 1)
def eMlda : Enc := en (ob 4 1) (ob 2 2) (im 256)

theorem witness_SequencerAccepts :
    (Untraced tensor ∧ SequencerRoom tensor) ∧
    [Fmt.fp4, .int8, .e4m3, .e5m2, .bf16, .fp16].all (fun f => readyB tensor (.mldw f true eMldw) eMldw) = true ∧
    Panel tensor (ob 2 2) (im 128) (weightBytes .bf16) 128 ∧ Panel tensor (ob 2 2) (im 128) (weightBytes .fp4) 128 ∧
    (let c := (src tensor (sc 1)).1
     readyB tensor (.mloop eMloop) eMloop = true ∧ (src tensor (sc 1)).2 = false ∧ ctlFmt c = some .fp4 ∧ c.toNat / 2 ^ 60 = 0 ∧ c.toNat / 2 ^ 48 % 4 = 0 ∧
      c.toNat / 2 ^ 32 % 2 ^ 16 = 2 ∧ (tensor.berthOf 0 (c.toNat / 2 ^ 56 % 16)).bound = false ∧
      ∀ k, k < 2 → ctlSlot c 0 k < (tensor.descOf 0).tiles ∧ (tensor.slot 0 (ctlSlot c 0 k)).fmt.isSome = true ∧
        (tensor.window 0 2 (BitVec.ofInt 64 (ctlPanel c k)) (actBytes .fp4)).isSome = true) ∧
    [MstaFmt.f32, .bf16, .f16].all (fun f => readyB tensor (.msta f eMsta) eMsta) = true ∧ Panel tensor (ob 2 2) (im 256) 16384 256 ∧
    Panel tensor (ob 2 2) (im 256) 8192 256 ∧ readyB tensor (.mlda eMlda) eMlda = true := by
  unfold Untraced SequencerRoom Panel; decide +kernel

/-- The slot's state while it loads, as MFMT reads it: valid, loading, transposed, BF16 (R263). -/
theorem test_mldw : next (exec (.mldw .bf16 true eMldw) tensor) (fun t => (t.slot 0 7).loading && (t.grp 0).ctile == 1 &&
      s0After (t.modC 0 fun k => { k with fe := 100 }) (.mfmt (en (sc 0) (ob 3 7) .zero)) (128 + 64 + 32 + 4)) ∧
    next (exec (.mloop eMloop) tensor) (fun t => (t.cor 0).ops.map (·.complete) == [false]) := by decide +kernel

/-- An operation of group 0. -/
def opOf (n : Nat) (k : SeqKind) : SeqOp :=
  { id := n, gid := 0, team := 0, pc := codeVa, kind := k, instrReach := 0, tag := none, next := 0, entered := 0, steps := [], enteredBy := [], moving := false
    complete := false, berth := some 2, undef := false }

/-- Batch 3 has an operation that is not complete. -/
def batching : State :=
  { ((tensor.modC 0 fun k => { k with ops := [opOf 5 (.mlda 1 256)] }).modG 0 fun x => { x with batches := x.batches.set 3 [5] }) with nextId := 9 }

theorem witness_BatchesAndFormats : Untraced batching ∧ (me batching).arch.frames = [] ∧ (me batching).team < batching.teams.length ∧
    readyB batching (.mrdy (en .zero .zero .zero)) (en .zero .zero .zero) = true ∧ allReady batching (en (sc 0) .zero .zero) [.mbatch, .mwait] = true ∧
    batching.batchDone 0 (rg batching).next.toNat = true ∧ allReady batching (en (im 3) .zero .zero) [.mwait] = true ∧ (src batching (im 3)).2 = false ∧
    (batching.teamOf 0).undone = [] ∧ batching.batchDone 0 3 = false ∧ batching.batchDone 0 2 = true ∧
    readyB batching (.mfmt (en (sc 0) (ob 3 7) .zero)) (en (sc 0) (ob 3 7) .zero) = true := by unfold Untraced; decide +kernel

/-- Batch 2 is complete, batch 3 not (R256). -/
theorem test_mwait : next (exec (.mwait (en (im 2) .zero .zero)) batching) (fun t => (t.grp 0).st == .run) ∧
    next (exec (.mwait (en (im 3) .zero .zero)) batching) (fun t => (t.grp 0).wait.map (·.what) == some (.batch 3)) := by decide +kernel

/-- Accumulator 1 has an element in row 5, column 34, which is thread 2's of segment 21. -/
def summed : State :=
  (withS tensor 1 [21]).modT 0 fun t => { t with accs := t.accs.set 1 [(5 * 128 + 34, 0x3F800000)] }

/-- The same with an MLDA of it unfinished. -/
def raced : State := summed.modT 0 fun t => { t with undone := [{ id := 0, gid := 0, kind := .mlda 1 256, dirty := [], whole := false, berth := none, mwra := false, past := false }] }

theorem witness_AccumulatorAccess :
    (Untraced summed ∧ SequencerRoom summed ∧ (summed.cor 0).ops = [] ∧ 0 < (summed.cor 0).accFree ∧ (summed.teamOf 0).undone = [] ∧ (me summed).arch.frames = [] ∧
      readyB summed (.mzero (en (ob 4 1) .zero .zero)) (en (ob 4 1) .zero .zero) = true ∧ 0 ∈ (summed.teamOf 0).groups ∧ ReachIds summed) ∧
    (readyB summed (.mrda (en (vr 0) (ob 4 1) (sc 1))) (en (vr 0) (ob 4 1) (sc 1)) = true ∧ (src summed (sc 1)).2 = false ∧
      (summed.unfinished 0 fun o => kindWrites o 1) = false ∧ readyB raced (.mrda (en (vr 0) (ob 4 1) (sc 1))) (en (vr 0) (ob 4 1) (sc 1)) = true ∧
      (raced.unfinished 0 fun o => kindWrites o 1) = true) ∧
    (let e := en (ob 4 2) (vr 1) (sc 1)
     readyB summed (.mwra e) e = true ∧ (summed.unfinished 0 fun o => kindTouches o 2) = false ∧ ∀ t, t < 32 → (el summed .i32 (vr 1) t).2 = false) := by
  unfold Untraced SequencerRoom ReachIds; decide +kernel

/-- MRDA gives thread 2 the element; MZERO clears it; MWRA writes its segment (R267). -/
theorem test_accumulators :
    next (exec (.mrda (en (vr 0) (ob 4 1) (sc 1))) summed) (fun t => (t.grp 0).arch.regs.vt 0 2 == 0x3F800000 && (t.grp 0).arch.regs.vt 0 3 == 0) ∧
    next (exec (.mzero (en (ob 4 1) .zero .zero)) summed) (fun t => t.acc 0 1 == []) ∧
    next (exec (.mwra (en (ob 4 2) (sc 1) (sc 1))) summed) (fun t => Acc.get (t.acc 0 2) (5 * 128 + 33) == 21 && Acc.get (t.acc 0 2) (5 * 128 + 31) == 0) := by
  decide +kernel

end Sys2Proof.Tests

namespace Sys2Proof.Tests

open Sys2Proof.Machine Sys2Proof.Safety Sys2Proof.Claim

/-! ### Gates, traps and system instructions -/

/-- Gate 7 leads domain 1 to domain 2, with two scalars and one vector register, one scalar result, and 4 KiB of stash. -/
def gate : GateEntry :=
  { GateEntry.zero with entry := codeVa + 0x1000, callers := 2, tdom := 0x82, nspass := 2, nvpass := 1, nsres := 1, nvres := 0, nberth := 1, allow := 4096, scrub := 0 }

def gated : State :=
  { filled [7, 8, 2] [1, 5, 3] with ctxs := [{ codeCtx with dom := 2 }, codeCtx], parts := [{ Part.fresh 0 with gates := [(7, gate)] }] }

def eGcall : Enc := en (ob 6 7) .zero .zero

theorem witness_GateCallOpens : readyB gated (.gcall eGcall) eGcall = true ∧ Untraced gated ∧ (me gated).loads = [] ∧ gateOf gated (ob 6 7) = gate ∧ gated.gateReason 0 gate = none ∧
    (me gated).team < gated.teams.length ∧ (∀ k, k < 2 → (rg gated).spo k = false) ∧ (∀ k, k < 1 → (rg gated).vp[k]?.getD 0 &&& (me gated).live = 0) ∧
    RegionRoom gated ((gated.frameRegion 0 gate).getD 0) 4096 ∧ (gated.teamOf 0).stash.wf = true := by unfold Untraced RegionRoom; decide +kernel

/-- Inside the gate's frame, with the caller's registers saved. -/
def inside : State :=
  gated.modG 0 fun x => { x with arch := { x.arch with
    dom := 2, ctx := 0, regs := { Regs.entry with s := (Regs.entry.s.set 0 99).set 1 55 }
    frames := [{ saved := x.arch.regs, retPc := codeVa + 12, gate := 7, dom := 1, ctx := 1, entry := gate, inval := 0, copyMark := 0 }] } }

def e0 : Enc := en .zero .zero .zero

theorem witness_GateReturnRestores : readyB inside (.gret e0) e0 = true ∧ Untraced inside ∧ ((me inside).arch.frames.map (·.entry)) = [gate] ∧ frameDrained inside 0 = true ∧
    ([inside.prepare 0 (.gret e0) e0, (inside.prepare 0 (.gret e0) e0).openHead 0].all fun s0 => s0.regsRoom 0 (backRegs s0 0)) = true ∧
    RegionRoom inside (inside.regionBase 0) 4096 ∧ (inside.teamOf 0).stash.wf = true ∧ (me inside).team < inside.teams.length := by unfold Untraced RegionRoom; decide +kernel

/-- The call hides s2 and passes s1; the return gives s0 back as the result, clears s1 and restores s2 (R279, R284). -/
theorem test_gates : next (exec (.gcall eGcall) gated) (fun t => (t.grp 0).arch.regs.sv 1 == 8 && (t.grp 0).arch.regs.sv 2 == 0 && (t.grp 0).arch.pc == codeVa + 0x1000) ∧
    next (exec (.gret e0) inside) (fun t => (t.grp 0).arch.regs.sv 0 == 99 && (t.grp 0).arch.regs.sv 1 == 0 && (t.grp 0).arch.regs.sv 2 == 2 && (t.grp 0).arch.dom == 1) := by
  decide +kernel

/-- A trap table in the code's page, whose entries all name a handler in it. -/
def withTable (s : State) : State :=
  { s with
    ctxs := s.ctxs.map fun c => { c with trapBase := 0x7F0002000800 }
    mem := (List.range 16).foldl (fun m k => m.writeBytes (0x34000800 + 8 * k) (bytesLE 8 0x7F0002000400)) s.mem }

def handled : State := withTable S

def deliversB (s : State) (c : TrapClass) (h : W64) : Bool :=
  decide (s.cur < s.groups.length) && decide ((s.cx (me s).arch.ctx).debug = Vector.replicate 21 0) && !(me s).stepping && (me s).arch.emu.isNone && !(rg s).tf.inHandler &&
    !State.recordAwaited (me s) && (match s.trapEntry s.cur c with | .handler x => x == h | _ => false)

theorem delivers_of {s : State} {c : TrapClass} {h : W64} (p : deliversB s c h = true) : Delivers s c h := by
  simp only [deliversB, Bool.and_eq_true, Bool.not_eq_true', decide_eq_true_eq, Option.isNone_iff_eq_none] at p
  obtain ⟨⟨⟨⟨⟨⟨h1, h2⟩, h3⟩, h4⟩, h5⟩, h6⟩, h7⟩ := p
  refine ⟨h1, h2, h3, h4, h5, h6, ?_⟩
  split at h7
  · rw [‹State.trapEntry _ _ _ = _›, eq_of_beq h7]
  · cases h7

def eTrap : Enc := en (im 5) .zero .zero

theorem witness_TrapDelivery : (readyB handled (.trap eTrap) eTrap = true ∧ readyB handled (.brk eTrap) eTrap = true ∧ Untraced handled ∧ (me handled).brkPass = false ∧
      (decodeIn (handled.allocOf 0) 0xFFC000000000000000000000).toOption = none) ∧
    Delivers handled .trap 0x7F0002000400 ∧ Delivers handled .breakpoint 0x7F0002000400 ∧ Delivers handled .illegalOpcode 0x7F0002000400 :=
  ⟨by unfold Untraced; decide +kernel, delivers_of (by decide +kernel), delivers_of (by decide +kernel), delivers_of (by decide +kernel)⟩

/-- TRAP 5: its class and immediate in s0, its PC in s1 (R286). -/
theorem test_trap : next (exec (.trap eTrap) handled) (fun t => (t.grp 0).arch.regs.sv 0 == 0x500000000 + BitVec.ofNat 64 (State.classCode .trap) && (t.grp 0).arch.regs.sv 1 == codeVa &&
    (t.grp 0).arch.pc == 0x7F0002000400) := by decide +kernel

/-- s0 poisoned; a full call stack; a handler that returns. -/
def poisoned : State := handled.modR 0 fun r => { r with sp := 1 }
def full : State := handled.modR 0 fun r => { r with calls := List.replicate 64 0, spilled := 50 }
def deep : State := withTable inside
def handling : State :=
  handled.modR 0 fun r => { r with tf := { TrapFrame.empty with inHandler := true, pc := codeVa + 24, s := Vector.replicate 5 6, sp := 2, sig := 3, p14 := 4, unit := 5 } }
/-- A handler inside a gate frame. -/
def handlingDeep : State := deep.modR 0 fun r => { r with tf := { TrapFrame.empty with inHandler := true, pc := codeVa + 24, cls := 0x105 } }

theorem witness_OperandAndPrivilegeTraps :
    (allReady poisoned (en (sc 0) (im 4) .zero) [.brz, .brnz, .loop] && allReady poisoned (en (sc 0) .zero .zero) [.calli, .jmpi] && (src poisoned (sc 0)).2 &&
      !State.recordAwaited (me poisoned) && readyB poisoned (.ssetsr (en (ob 5 11) (sc 0) .zero)) (en (ob 5 11) (sc 0) .zero) &&
      readyB poisoned (.barx (en (im 7) (sc 0) .zero)) (en (im 7) (sc 0) .zero) && readyB poisoned (.anch (en (ob 1 1) (sc 0) (sc 2))) (en (ob 1 1) (sc 0) (sc 2))) = true ∧
    (allReady handled (en (sc 0) .zero .zero) [.calli, .jmpi] = true ∧ (src handled (sc 0)).1.extractLsb' 0 2 ≠ 0) ∧
    [0, 7].all (fun v => readyB handled (.ssetsr (en (ob 5 0) (im v) .zero)) (en (ob 5 0) (im v) .zero) && decide ((src handled (im v)).1.extractLsb' 0 3 = 0 ∨ (src handled (im v)).1.extractLsb' 0 3 = 7)) = true ∧
    (readyB full (.call (en (im 4) .zero .zero)) (en (im 4) .zero .zero) = true ∧ (rg full).calls.length = 64) ∧
    (allReady handled e0 [.ret, .gret, .tret, .emur] = true ∧ (rg handled).calls = [] ∧ handled.depthOf 0 = 0 ∧ (me handled).arch.emu = none) ∧
    (deep.depthOf 0 = 1 ∧ !State.recordAwaited (me deep) ∧ allReady deep (en (im 7) (sc 1) .zero) [.bar, .bara, .barw, .barx] = true ∧ allReady deep (en (sc 0) (sc 1) (sc 2)) [.waita, .lnch, .mloop, .mwait, .mbatch, .mrdy,
        .mzero, .mfmt, .mlda, .mldw .fp4 false, .msta .f32] = true ∧ allReady deep (en (vr 0) (vr 1) (sc 2)) [.xswap, .mrda, .mwra] = true ∧ maskAt deep (.xswap v3) v3 ≠ 0) := by decide +kernel

theorem witness_OperandAndPrivilegeTraps_delivered : Delivers poisoned .poison 0x7F0002000400 ∧ Delivers handled .illegalOperand 0x7F0002000400 ∧ Delivers full .callStack 0x7F0002000400 ∧
    Delivers handled .callStack 0x7F0002000400 ∧ Delivers deep .permission 0x7F0002000400 ∧ Delivers handled .gateDenied 0x7F0002000400 ∧ Delivers handled .permission 0x7F0002000400 ∧
    Untraced poisoned ∧ Untraced handled ∧ Untraced full ∧ Untraced deep :=
  ⟨delivers_of (by decide +kernel), delivers_of (by decide +kernel), delivers_of (by decide +kernel), delivers_of (by decide +kernel), delivers_of (by decide +kernel),
    delivers_of (by decide +kernel), delivers_of (by decide +kernel), by unfold Untraced; decide +kernel⟩

theorem witness_HandlerReturns : readyB handling (.tret e0) e0 = true ∧ readyB handling (.tret (en (im 1) .zero .zero)) (en (im 1) .zero .zero) = true ∧ (rg handling).tf.inHandler = true ∧
    State.recordAwaited (me handling) = false ∧ (me handling).arch.frames = [] ∧ [handling, handlingDeep].all (fun s => readyB s (.tret (en (im 2) .zero .zero)) (en (im 2) .zero .zero)) = true ∧
    (rg handlingDeep).tf.inHandler = true ∧ State.recordAwaited (me handlingDeep) = false ∧ (me handlingDeep).arch.frames ≠ [] := by decide +kernel

/-- TRET 0 and TRET 1 (R289). -/
theorem test_tret : next (exec (.tret e0) handling) (fun t => (t.grp 0).arch.pc == codeVa + 24 && (t.grp 0).arch.regs.sv 4 == 6 && (t.grp 0).arch.regs.spo 1) ∧
    next (exec (.tret (en (im 1) .zero .zero)) handling) (fun t => (t.grp 0).arch.pc == codeVa + 36) ∧
    next (exec (.tret (en (im 2) .zero .zero)) handlingDeep) (fun t => ((t.grp 0).synth.map fun y => (y.cause, y.cls)) == some (3, 0x105)) := by decide +kernel

/-- A fatal escalation that waits for a permit, of a group in a state. -/
def escalated (s : State) : State :=
  s.modG 0 fun x => { x with st := .replay, replay := some { cls := .trap, va := 0, permit := false, fetch := false, fatal := true, info := [1, 2, 3, 4, 5], word := 0, entry := none, backoff := none } }

theorem witness_UnhandledTraps : ([escalated S, escalated inside].all (fun s => decide ((s.grp 0).st = .replay) && ((s.grp 0).replay.map fun r => (r.fatal, r.permit, r.backoff)) == some (true, false, none) &&
      (s.grp 0).reaches.isEmpty && s.resident 0 && decide ((s.cor 0).permits.length + (s.seekersBefore 0).length < 4)) = true ∧ ((escalated S).grp 0).arch.frames = [] ∧ ((escalated inside).grp 0).arch.frames ≠ []) ∧
    (readyB S (.trap eTrap) eTrap = true ∧ Untraced S ∧ NoDebug S ∧ (me S).stepping = false ∧ (me S).arch.emu = none ∧ State.recordAwaited (me S) = false ∧
      (rg S).tf.inHandler = false ∧ (match S.trapEntry 0 .trap with | .none => true | _ => false) = true) ∧
    (readyB handling (.trap eTrap) eTrap = true ∧ Untraced handling ∧ NoDebug handling ∧ (me handling).stepping = false ∧ State.recordAwaited (me handling) = false ∧ (rg handling).tf.inHandler = true ∧
      (me handling).arch.frames = [] ∧ (handling.tm 0).st ≠ .finished ∧ (me handling).team < handling.teams.length ∧ handling.launchOf 0 < handling.launches.length ∧ (handling.lch (handling.launchOf 0)).finished = false ∧
      (handling.cx (handling.homeCtx 0)).resident = true ∧ handling.homeCtx 0 < handling.ctxs.length ∧ 0 ∈ (handling.teamOf 0).groups) := by
  unfold Untraced NoDebug; decide +kernel

/-- A group whose signature is SIGCHK's immediate; one with the record of a launch; one resumed at a BRK. -/
def signed : State := regs fun r => { r with sig := BitVec.ofNat 32 (joinedValue (en (im 0x48) (im 0x4E4) .zero)) }
/-- Another signature, with an older reach open, and again at the PC of a check that failed. -/
def missigned (f : Option W64) : State := signed.modG 0 fun x => { x with arch := { x.arch with regs := { x.arch.regs with sig := 9 } }, sigFail := f, reaches := [{ id := 0, snap := x.arch, ended := none, deps := [], written := [], lastTag := 0, accPre := [], spec := [], fresh := false, batches := Vector.replicate 16 [] }] }
def missignedDeep : State := inside.modG 0 fun x => { x with arch := { x.arch with regs := { x.arch.regs with sig := 9 } }, sigFail := some x.arch.pc }
def eSig : Enc := en (im 0x48) (im 0x4E4) .zero
def launched : State := withPound S [entry (.retLnch codeVa 0x05) 0]
def resumed : State := S.modG 0 fun x => { x with brkPass := true }

theorem witness_SystemInstructions : ([missigned none, missigned (some codeVa), missignedDeep].all fun s => readyB s (.sigchk eSig) eSig && decide ((rg s).sig ≠ BitVec.ofNat 32 (joinedValue eSig)) &&
      (s.prepare 0 (.sigchk eSig) eSig).clearSet.isEmpty) = true ∧ (me missignedDeep).arch.frames ≠ [] ∧ (me (missigned none)).arch.frames = [] ∧ (me (missigned none)).arch.pc = codeVa ∧
    (me missignedDeep).sigFail = some (me missignedDeep).arch.pc ∧ S.poundUsed 0 < 512 ∧ readyB signed (.sigchk (en (im 0x48) (im 0x4E4) .zero)) (en (im 0x48) (im 0x4E4) .zero) = true ∧
    (let e := en (sc 0) (sc 1) .zero
     readyB S (.lnch e) e = true ∧ (me S).arch.frames = [] ∧ (src S (sc 1)).2 = false ∧ launchRecord S 0 codeVa = none ∧ S.drained 0 S.nextSeq = true ∧ S.releaseDone 0 = true ∧
      readyB launched (.lnch e) e = true ∧ launchRecord launched 0 codeVa = some 5) ∧
    (let e := en (im 7) (sc 1) .zero
     readyB S (.dbgm e) e = true ∧ Spacious S 1 ∧ (src S (sc 1)).2 = false ∧ S.poundOf 0 = []) ∧
    readyB S (.trc (en (im 1) (sc 1) .zero)) (en (im 1) (sc 1) .zero) = true ∧ readyB resumed (.brk eTrap) eTrap = true ∧ (me resumed).brkPass = true := by
  unfold Spacious; decide +kernel

/-- LNCH writes the code of its record; DBGM's entry names word 7. -/
theorem test_system : next (exec (.sigchk eSig) (missigned none)) (fun t => (t.grp 0).reaches == [] && (t.grp 0).arch.regs.eflag == 2 && (t.grp 0).sigFail == some codeVa) ∧
    next (exec (.sigchk eSig) (missigned (some codeVa))) (fun t => !(t.cx 1).resident) ∧ s0After launched (.lnch (en (sc 0) (sc 1) .zero)) 5 ∧
    next (exec (.dbgm (en (im 7) (sc 1) .zero)) S) (fun t => (t.poundOf 0).map (·.kind) == [.mailbox 0 [(7, 8)]]) := by decide +kernel

/-- VDOT4 v6, v2, v3 of R356, with its registers. -/
def dotWord : IWord := 0x5C1E00000600000800003000
def dotted : State := regs fun r => { r with v := ((r.v.set 6 (Vector.replicate 32 100)).set 2 (Vector.replicate 32 0x01FF0203)).set 3 (Vector.replicate 32 0x04020105) }
/-- A group in emulation of that word. -/
def emulating : State := { dotted with mem := [] }.modG 0 fun x => { x with arch := { x.arch with emu := some { saved := x.arch.regs, dom := 1, pc := codeVa + 48, word := dotWord, mask := 0, inval := 0, stepping := false } } }
/-- VSWZ, and SBAR under a guard; a group that seeks a permit for one. -/
def swizzle : IWord := fields 0x270 (kV 6) (kV 2) (kV 3)
def guarded : IWord := fields 0x2F0 (kI 0) (kI 0) (kI 0) ||| 1#96 <<< 85
def seeking (w : IWord) : State :=
  dotted.modG 0 fun x => { x with st := .replay, replay := some { cls := .retired, va := codeVa, permit := false, fetch := false, fatal := false, info := [], word := w, entry := none, backoff := none } }

/-- An emulation whose frame names the first register of vd. -/
def recorded : State := { emulating with mem := Memory.writeBytes [] (emuKey emulating 0 + 0x800) [1] }
/-- A byte that no pound, berth, write-back set or cache covers is memory's. -/
theorem view_plain {s : State} {g : Nat} (h : ((s.poundOf g).isEmpty && (s.tm (s.grp g).team).held.isEmpty && ((s.tm (s.grp g).team).groups.all fun x => (s.grp x).wbsets.isEmpty) &&
    (s.clu (s.clusterOf g)).cache.isEmpty) = true) (k : Nat) : (s.viewByte g k).1 = s.mem.read k := by
  simp only [Bool.and_eq_true, List.isEmpty_iff, List.all_eq_true] at h
  obtain ⟨⟨⟨h1, h2⟩, h3⟩, h4⟩ := h
  have h5 : ((s.tm (s.grp g).team).groups.flatMap fun g => (s.grp g).wbsets.filterMap fun b => (b.bytes.find? fun w => w.1 == k).map fun w => (b.seq, w.2)) = [] :=
    List.flatMap_eq_nil_iff.mpr fun x hx => by simp [h3 x hx]
  simp [State.viewByte, h1, State.overlay, State.teamByte, State.ownHeld, h2, State.ownSet, h5, State.clusterByte, State.cbyte, State.csector, h4]

theorem recorded_mask : emuField recorded 0 0x800 8 = 1 := by
  have h : ∀ i, i < 8 → (recorded.viewByte 0 (emuKey recorded 0 + 0x800 + i)).1 = if i = 0 then 1 else 0 := by
    intro i hi
    rw [view_plain (by decide +kernel), show recorded.mem = Memory.write [] (emuKey recorded 0 + 0x800) 1 from rfl, Memory.read_write _ _ _ _ (by decide)]
    by_cases h0 : i = 0
    · simp [h0]
    · simp [h0]; rfl
  rw [emuField, show (List.range 8) = [0, 1, 2, 3, 4, 5, 6, 7] from rfl]
  simp only [List.map_cons, List.map_nil, h _ (by decide : 0 < 8), h _ (by decide : 1 < 8), h _ (by decide : 2 < 8), h _ (by decide : 3 < 8), h _ (by decide : 4 < 8), h _ (by decide : 5 < 8),
    h _ (by decide : 6 < 8), h _ (by decide : 7 < 8)]
  decide

/-- One whose group has stored a class in its frame, illegal-encoding, with a trap table in another place of a page. -/
def trapping : State :=
  let s : State := { emulating with
    ctxs := emulating.ctxs.map fun c => { c with trapBase := 0x7F0002000900 }
    mem := dotted.mem.writeBytes 0x34000918 (bytesLE 8 0x7F0002000400) }
  withPound s [entry (.store 0 [(emuKey emulating 0 + 0x818, 3, false), (emuKey emulating 0 + 0x819, 0, false)] false) 0]

/-- What the emulation keeps in it. -/
def hidden : Emulation := { saved := (dotted.grp 0).arch.regs, dom := 1, pc := codeVa + 48, word := dotWord, mask := 0, inval := 0, stepping := false }

/-- A byte over which one store of the group stands. -/
theorem view_stored {s : State} {g sec : Nat} {e : PEntry} {ws : List ByteWrite} {b : Bool} (h : (s.poundOf g).filter (fun x => x.gid == g) = [e]) (hk : e.kind = .store sec ws b) (hg : e.gone = [])
    (h' : ((s.tm (s.grp g).team).held.isEmpty && ((s.tm (s.grp g).team).groups.all fun x => (s.grp x).wbsets.isEmpty) && (s.clu (s.clusterOf g)).cache.isEmpty) = true) (k : Nat) :
    (s.viewByte g k).1 = ((ws.find? fun w => w.1 == k).map (·.2.1)).getD (s.mem.read k) := by
  simp only [Bool.and_eq_true, List.isEmpty_iff, List.all_eq_true] at h'
  obtain ⟨⟨h2, h3⟩, h4⟩ := h'
  have h5 : ((s.tm (s.grp g).team).groups.flatMap fun g => (s.grp g).wbsets.filterMap fun b => (b.bytes.find? fun w => w.1 == k).map fun w => (b.seq, w.2)) = [] :=
    List.flatMap_eq_nil_iff.mpr fun x hx => by simp [h3 x hx]
  simp only [State.viewByte, h, State.overlay, List.foldl_cons, List.foldl_nil, hk, State.PEntry.stands, hg]
  simp [State.teamByte, State.ownHeld, h2, State.ownSet, h5, State.clusterByte, State.cbyte, State.csector, h4]
  cases ws.find? fun w => w.1 == k <;> simp

theorem trapping_class : State.classOfCode (emuField trapping 0 0x818 2) = .illegalEncoding := by
  have h : ∀ i, i < 2 → (trapping.viewByte 0 (emuKey trapping 0 + 0x818 + i)).1 = if i = 0 then 3 else 0 := by
    intro i hi
    rw [view_stored (s := trapping) (e := entry (.store 0 [(emuKey emulating 0 + 0x818, 3, false), (emuKey emulating 0 + 0x819, 0, false)] false) 0) rfl rfl rfl (by decide +kernel),
      show emuKey trapping 0 = emuKey emulating 0 from rfl]
    have : i = 0 ∨ i = 1 := by omega
    rcases this with rfl | rfl <;> simp
  rw [emuField, show List.range 2 = [0, 1] from rfl]
  simp only [List.map_cons, List.map_nil, h _ (by decide : 0 < 2), h _ (by decide : 1 < 2)]
  decide

theorem trapping_entry : (trapping.leaveEmulation 0 hidden).trapEntry 0 .illegalEncoding = .handler 0x7F0002000400 := by
  have hk : emuKey emulating 0 % 4096 = 0 := by
    simp only [emuKey, Space.key, Space.code]; omega
  have hm : ∀ i, i < 8 → ((trapping.leaveEmulation 0 hidden).viewByte 0 (0x34000918 + i)).1 = (trapping.leaveEmulation 0 hidden).mem.read (0x34000918 + i) := by
    intro i hi
    rw [view_stored (s := trapping.leaveEmulation 0 hidden) (e := entry (.store 0 [(emuKey emulating 0 + 0x818, 3, false), (emuKey emulating 0 + 0x819, 0, false)] false) 0) rfl rfl rfl (by decide +kernel)]
    have h1 : emuKey emulating 0 + 0x818 ≠ 0x34000918 + i := by omega
    have h2 : emuKey emulating 0 + 0x819 ≠ 0x34000918 + i := by omega
    simp [h1, h2]
  obtain ⟨pg, ht⟩ : ∃ pg, ((trapping.leaveEmulation 0 hidden).translate 0 ((trapping.leaveEmulation 0 hidden).asid 0 0x7F0002000918) Need.load 0x7F0002000918).1 = .ok 0x34000918 pg := ⟨_, rfl⟩
  have hw : w64Of ((List.range 8).map fun i => ((trapping.leaveEmulation 0 hidden).viewByte 0 (0x34000918 + i)).1) = 0x7F0002000400 := by
    rw [List.map_congr_left fun i hi => hm i (List.mem_range.mp hi)]
    decide +kernel
  have hf : (match ((trapping.leaveEmulation 0 hidden).fetchKeys 0 0 0x7F0002000400).1 with | .ok _ => true | .error _ => false) = true := by decide +kernel
  unfold State.trapEntry
  dsimp only
  rw [if_neg (by decide +kernel)]
  simp only [show ((trapping.leaveEmulation 0 hidden).cx ((trapping.leaveEmulation 0 hidden).grp 0).arch.ctx).trapBase + BitVec.ofNat 64 (8 * State.classCode .illegalEncoding) = 0x7F0002000918 by decide +kernel,
    show (trapping.leaveEmulation 0 hidden).coreOf 0 = 0 from rfl, ht, hw]
  rw [if_neg (by decide)]
  split at hf
  · rw [‹Prod.fst _ = _›]
  · cases hf

theorem witness_RetiredWords : [Instr.vdot4 dotWord, .vswz dotWord, .sbar dotWord, .cpyl dotWord, .mma16 dotWord, .mmac16 dotWord].all (fun i => dotted.canTake 0 i (encOf dotWord)) = true ∧
    emulating.canTake 0 (.vdot4 dotWord) (encOf dotWord) = true ∧ (me dotted).arch.emu = none ∧ readyB emulating (.emur e0) e0 = true ∧ (me emulating).arch.emu.isSome = true ∧ (me emulating).loads = [] ∧ emuField emulating 0 0x800 8 = 0 ∧
    ([seeking swizzle, seeking guarded].all fun s => decide ((s.grp 0).st = .replay) && ((s.grp 0).replay.map fun r => (r.cls, r.fatal, r.permit, r.backoff)) == some (.retired, false, false, none) && (s.grp 0).reaches.isEmpty &&
      s.resident 0 && ((s.grp 0).replay.map fun r => s.emuReady 0 r) == some true && decide ((s.cor 0).permits.length + (s.seekersBefore 0).length < 4) && s.mem.wf && decide (s.coreOf 0 < s.cores.length)) = true ∧
    opcOf swizzle = 0x270 ∧ uniformGuarded swizzle = false ∧ opcOf guarded = 0x2F0 ∧ uniformGuarded guarded = true ∧
    (readyB recorded (.emur e0) e0 = true ∧ (me recorded).arch.emu.isSome = true ∧ (me recorded).loads = [] ∧ emuBad (recorded.descOf 0) (operandOf (opdOf dotWord)) 1 = false ∧
      (match (recorded.grp 0).arch.emu with
       | some em => [recorded.prepare 0 (.emur e0) e0, (recorded.prepare 0 (.emur e0) e0).openHead 0].all fun s0 => (s0.leaveEmulation 0 em).regsRoom 0 (emuRegs (operandOf (opdOf dotWord)) 1)
       | none => false) = true) ∧
    (readyB trapping (.emur (en (im 1) .zero .zero)) (en (im 1) .zero .zero) = true ∧ opImm (im 1) ≠ 0 ∧ NoDebug trapping ∧ (me trapping).loads = [] ∧ (trapping.grp 0).arch.emu = some hidden ∧ hidden.saved.tf.inHandler = false) := by unfold NoDebug; decide +kernel

/-- The group's service, in a device whose clusters are all there. -/
def serving : State :=
  { dotted with
    clusters := List.replicate 48 Cluster.reset
    groups := dotted.groups.map fun x => { x with st := .replay, replay := some { cls := .retired, va := codeVa, permit := false, fetch := false, fatal := false, info := [], word := dotWord, entry := none, backoff := none } } }

theorem witness_RetiredDotProduct : ((serving.grp 0).st = .replay ∧ ((serving.grp 0).replay.map fun r => (r.cls, r.fatal, r.permit, r.backoff, r.word)) = some (.retired, false, false, none, dotWord) ∧
      (serving.grp 0).reaches = [] ∧ (serving.cor 0).permits = [] ∧ opcOf dotWord = 0x170 ∧ vdotBad (serving.descOf 0) dotWord = none ∧ serving.poundOf 0 = [] ∧ serving.mem.wf = true ∧ serving.resident 0 = true ∧ ((serving.grp 0).replay.map fun r => serving.emuReady 0 r) = some true ∧ (serving.grp 0).stepping = false ∧
      (∀ h ∈ (serving.tm 0).groups, (serving.grp h).wbsets = []) ∧
      serving.clusters.length = 48 ∧ serving.coreOf 0 < 384) ∧ ∀ n, serving.writeBlocked n = false :=
  ⟨by decide +kernel, (unblocked (by decide +kernel)).2⟩

/-- 100 + 3·5 + 2·1 + (−1)·2 + 1·4 = 119 (R356). -/
theorem test_retired_dot_product : vdotThread (rg dotted) dotWord 0xFFFFFFFF 9 = (119, false) ∧ vdotThread (rg dotted) dotWord 0 9 = (100, false) := by decide +kernel

end Sys2Proof.Tests

namespace Sys2Proof.Tests

open Sys2Proof.Machine Sys2Proof.Safety Sys2Proof.Claim

/-! ### Decoding, the step and the invariant -/

theorem witness_DecodeEncodeInverse : (enc? (.vfma .f32 { v3 with gp := 3, gn := true, rnd := 2, hint := 0x200 })).isSome = true ∧
    wellFormedIn Alloc.full (.vfma .f32 { v3 with gp := 3, gn := true, rnd := 2, hint := 0x200 }) = true ∧ (decodeIn Alloc.full (fields 0x003 (kS 4) (kS 5) (kI 9))).toOption.isSome = true := by
  decide +kernel

/-- `SADD.64 s0, s1, s2` at the PC, and a word that no opcode stands for. -/
def fetching (w : IWord) : State := (tiny).withFetchWord 96 w.toNat |> fun s => { s with
  groups := [s.grp 0], teams := [s.tm 0], launches := [s.lch 0], selected := [[0]], cur := 0 }

theorem witness_StepRunsDecoded : [fields 0x000 (kS 0) (kS 1) (kS 2), 0xFFC000000000000000000000].all (fun w => let s := fetching w
      let s0 : State := { s with selected := [] }
      s0.canRun 0 && s0.fetchReady 0 && !s0.ibpHit 0 codeVa && (match (s0.translate 0 (s0.asid 0 codeVa) Need.fetch codeVa).1 with | .ok k pg => k == codePa && decide (codeVa.toNat + 12 ≤ pg.va + pg.size) | _ => false) &&
        ((s0.translate 0 (s0.asid 0 codeVa) Need.fetch codeVa).2.cor 0).held.isEmpty) = true ∧
    struckNow (fetching 0) 0 = false ∧ struckNow { fetching 0 with agenda := [{ dt := 0, ev := .sensorEvent 2 0 0 0 }] } 0 = true ∧
    decodeIn ((fetching 0).allocOf 0) (fields 0x000 (kS 0) (kS 1) (kS 2)) = .ok (.sadd .w64 (en (sc 0) (sc 1) (sc 2))) ∧
    (decodeIn ((fetching 0).allocOf 0) 0xFFC000000000000000000000).toOption = none ∧
    (({ tiny with selected := [], agenda := [{ dt := 3, ev := .fetchFault }] } : State).agenda ≠ [] ∧ S.selected = [] ∧ S.agenda = []) := by decide +kernel

/-- The step fetches and runs it; without candidates a nanosecond passes. -/
theorem test_step : next (step (fetching (fields 0x000 (kS 0) (kI 4) (kI 5)))) (fun t => (t.grp 0).arch.regs.sv 0 == 9 && (t.grp 0).arch.pc == codeVa + 12) ∧
    next (step S) (fun t => t.clk == 1) := by decide +kernel

theorem sound_S : Sound S where
  mem := by decide +kernel
  stash := by decide +kernel
  saved := by rw [show S.ckpts = [] by decide +kernel]; simp
  cap := ⟨1800, 0, by decide +kernel⟩
  asked := by rw [show S.power.pcapReq = none by decide +kernel]; simp
  windows := by decide +kernel

theorem witness_StepKeepsSound : Sound S ∧ next (step S) (fun _ => true) = true := ⟨sound_S, by decide +kernel⟩

/-- A group of eight threads. -/
def octet : State := { tiny.modG 0 fun x => { x with live := 0xFF } with selected := [] }

/-- Registers that hold nothing. -/
theorem dead_of {r : Regs} {live : W32} (h : r.v = Vector.replicate 256 (Vector.replicate 32 0)) (h' : r.vp = Vector.replicate 256 0) : DeadRegs live r := by
  intro n th ht hl
  constructor
  · simp only [Regs.vt, h]
    by_cases hn : n < 256 <;> simp [hn, ht]
  · simp only [Regs.vpt, h']
    by_cases hn : n < 256 <;> simp [hn]

theorem deadThreads_octet : DeadThreads octet where
  groups := by
    intro x hx
    have hg : octet.groups = [octet.grp 0] := by decide +kernel
    rw [hg, List.mem_singleton] at hx
    subst hx
    exact { arch := ⟨dead_of (by decide +kernel) (by decide +kernel), by rw [show (octet.grp 0).arch.frames = [] by decide +kernel]; simp, by rw [show (octet.grp 0).arch.emu = none by decide +kernel]; simp⟩
            heads := by rw [show (octet.grp 0).reaches = [] by decide +kernel]; simp
            loads := by rw [show (octet.grp 0).loads = [] by decide +kernel]; simp
            atom := by rw [show (octet.grp 0).atom = none by decide +kernel]; simp }
  returned := by
    intro k hk e he
    rw [(by decide +kernel : ∀ k ∈ octet.cores, k.pound = []) k hk] at he
    cases he
  sends := by rw [show octet.sends = [] by decide +kernel]; simp
  members := by decide +kernel
  saved := by rw [show octet.ckpts = [] by decide +kernel]; simp

theorem witness_StepKeepsDeadThreads : DeadThreads octet ∧ (octet.grp 0).live = 0xFF ∧ next (step octet) (fun _ => true) = true := ⟨deadThreads_octet, by decide +kernel⟩

/-- The digest that FIPS 180-4 gives for the three bytes of "abc". -/
theorem test_sha512 : (sha512 [0x61, 0x62, 0x63]).toList.foldl (fun n b => 256 * n + b.toNat) 0 =
    0xddaf35a193617abacc417349ae20413112e6fa4e89a97ea20a9eeee64b55d39a2192992a274fc1a836ba3c23a3feebbd454d4423643ce80e2a9ac94fa54ca49f := by decide +kernel

/-! ### Issue and power -/

/-- A copy of 128 bytes inside team 0's stash, of group 0. -/
def aCopy : Copy :=
  { id := 4, gid := 0, reach := 0, pc := codeVa, depth := 0, ctx := 1, cleared := true, hb := [], seq := 0, form := 0, scope := 1, comp := 0, src := (some 0, [(128, 128)]), dsts := [(some 0, [(384, 128)])]
    windows := [], payload := [], rop := .f32 .add, elems := [], len := 128, notify := [], sigKey := none, sigVal := 77, bar := 3, landed := true, applied := true, signalled := true, tokens := 3, undef := false,
    sigWindows := [], sigUndef := false }

def withCopy (c : Copy) : State := stashed.modC 0 fun k => { k with copies := [c] }
def starving : State := S.modG 0 fun x => { x with denied := 512, readyFor := 2048, yieldUntil := 8 }
/-- The ring has fed the lane cycle. -/
def fed (s : State) : State := s.modC 0 fun k => { k with fed := 1 }
def changing : State := { S with clk := 1000000000, clusters := [{ Cluster.reset with ratioReq := some .two, target := some .one }] }

theorem witness_IssueAndPowerSteps : 0 < S.cores.length ∧
    ((starving.modG 0 fun x => { x with yieldUntil := 0 }).wants 0).isSome = true ∧ (starving.cor 0).resv = [] ∧ starving.coreOf 0 < starving.cores.length ∧
    (starving.grp 0).st = .run ∧ 2048 ≤ (starving.grp 0).readyFor ∧ S.groupsOn 0 ≠ [] ∧ (S.cor 0).free + heldTokens (S.cor 0) ≤ 256 ∧ (S.cor 0).fed ≤ (S.cor 0).lc ∧
    ((fed S).cor 0).lc < ((fed S).cor 0).fed ∧ ((fed S).cor 0).ops = [] ∧ ((fed S).cor 0).copies = [] ∧ ((fed (withCopy aCopy)).cor 0).lc < ((fed (withCopy aCopy)).cor 0).fed ∧ ((fed (withCopy aCopy)).cor 0).ops = [] ∧
    ((fed (withCopy aCopy)).cor 0).copies = [aCopy] ∧ 0 < aCopy.tokens ∧ 0 < ((fed (withCopy aCopy)).cor 0).free ∧ ((fed (withCopy aCopy)).clu 0).changing = false ∧
    (changing.power.interval + 1) * 10000 ≤ changing.clk ∧ (changing.clu 0).ratioReq = some .two ∧ (changing.clu 0).target = some .one ∧ 0 < changing.clusters.length ∧
    (∀ c, c < changing.cores.length → c / 8 = 0 → ∀ f ∈ (changing.cor c).laneFree.toList, f ≤ (changing.cor c).fe) ∧
    0 < changing.parts.length ∧ (changing.prt 0).closed = false ∧ (changing.prt 0).energy.start % 1000000000 = 0 ∧ (changing.prt 0).energy.start / 1000000000 < changing.clk / 1000000000 ∧
    (let s := starving.modC 0 fun k => { k with fe := 8 }
     (s.grp 0).yieldUntil ≤ (s.cor (s.coreOf 0)).fe) ∧
    S.groupsOn 0 = [0] ∧ (let s := State.reset.withFetchWord 96 (((encode (.nop { en .zero .zero .zero with hint := 0x800 })).getD 0).toNat)
      s.groupsOn 0 = [0] ∧ s.atBoundary 0 = true ∧ s.fetchReady 0 = true ∧ (match nextInstr s 0 with | (.nop e, s1) => hintRh e && !s1.ibpHit 0 (s.grp 0).arch.pc | _ => false) = true ∧
        (s.grp 0).reaches = []) := by decide +kernel

end Sys2Proof.Tests

namespace Sys2Proof.Tests

open Sys2Proof.Machine Sys2Proof.Safety Sys2Proof.Claim

/-! ### Waits and services -/

def waiting (w : WaitFor) (m : Bool) : State := { S.modG 0 fun x => { x with st := .wait, wait := some { what := w, since := 0, monitor := m } } with clk := 17000 }

/-- Both groups of the team have sent. -/
def pairing : State :=
  let x : Send := { gid := 0, partner := 2 ^ 32, mask := 0xFFFF, v := Vector.replicate 32 9, poison := 0, reg := 4, unit := 0 }
  let y : Send := { x with gid := 1, partner := 0, mask := 0xFFFFFFF0, v := Vector.replicate 32 7 }
  { swapper with
    sends := [x, y]
    groups := swapper.groups.zipIdx.map fun g => { g.1 with st := .wait, wait := some { what := .xswap (1 - g.2), since := 0, monitor := true } } }

/-- A launch descriptor of the code's page at offset 0x100: one stage, a 2 × 1 × 1 grid of one group. -/
def descBytes : List Byte :=
  bytesLE 2 4 ++ bytesLE 1 1 ++ bytesLE 1 3 ++ bytesLE 1 1 ++ bytesLE 1 32 ++ bytesLE 1 0 ++ bytesLE 1 0 ++ bytesLE 4 2 ++ bytesLE 4 1 ++ bytesLE 4 1 ++ bytesLE 2 16 ++ bytesLE 2 16 ++
    bytesLE 4 4096 ++ bytesLE 1 1 ++ bytesLE 1 1 ++ bytesLE 1 1 ++ bytesLE 1 0 ++ bytesLE 4 0 ++ bytesLE 4 0 ++ bytesLE 8 77 ++ bytesLE 8 0 ++ bytesLE 8 0 ++ bytesLE 8 0x7F0002000000

def described (s : State) : State := { s with mem := s.mem.writeBytes 0x34000100 descBytes }
def awaiting (a : W64) : State := (described S).modG 0 fun x => { x with verdict := some (a, codeVa, 3) }

/-- At a PC that no region maps; at one in a page that cannot be executed, beside a handler that can. -/
def lost : State := S.modG 0 fun x => { x with arch := { x.arch with pc := 0x1000 } }
def barred : State :=
  let s := withTable S
  ({ s with mem := s.mem.writeBytes 0x121008 (bytesLE 8 0x35000003) } : State).modG 0 fun x => { x with arch := { x.arch with pc := 0x7F0002010000 } }

def synthesising : State := inside.modG 0 fun x => { x with synth := some { cause := 3, cls := 0x101 } }

def aReplay : Replay := { cls := .pageFault, va := 0x5000, permit := false, fetch := true, fatal := false, info := [], word := 0, entry := none, backoff := none }
def replaying (r : Replay) (ps : List Nat) : State := (S.modG 0 fun x => { x with st := .replay, replay := some r }).modC 0 fun k => { k with permits := ps }

/-- Its wait is long and another team is queued for its place. -/
def longWait : State := { waiting (.counter 1 0) true with teams := S.teams ++ [{ (S.tm 0) with st := .swapped, groups := [], returnable := true }] }

theorem witness_WaitAndServiceSteps :
    (let s := waiting (.sleep 5) true
     ((s.grp 0).st = .wait ∧ 5 ≤ s.clk ∧ (s.grp 0).stepping = false)) ∧ waitMet (waiting (.counter 1 0) true) 0 (.counter 1 0) = true ∧
    waitMet (waiting (.barrier 1 0) true) 0 (.barrier 1 0) = false ∧ (0 ∈ (waiting (.counter 1 0) false).groupsOn 0 ∧ ((waiting (.counter 1 0) false).grp 0).cst ≤ 0 ∧ (waiting (.counter 1 0) false).recheckDue 0 = true) ∧
    ((waiting (.counter 1 0) false).modC 0 fun k => { k with recheckAt := 256 }).recheckDue 0 = false ∧
    (pairing.groups.length = 2 ∧ (pairing.sends.find? fun x => x.gid == 1).map (·.partner) = some (partnerWord pairing 0) ∧ (pairing.sends.find? fun x => x.gid == 0).map (·.partner) = some (partnerWord pairing 1) ∧
      pairing.launchOf 0 = pairing.launchOf 1 ∧ (pairing.grp 1).wait.map (·.what) = some (.xswap 0) ∧ pairing.resident (pairing.grp 0).team = true ∧ pairing.resident (pairing.grp 1).team = true ∧
      (pairing.grp 0).stepping = false ∧ (pairing.grp 1).stepping = false ∧ pairing.regsRoom 0 [4] = true ∧
      (match pairing.sends with | [a, b] => (pairing.receive a b).regsRoom 1 [4] | _ => false) = true) ∧
    barrierDone (barriers 3 0) 0 7 = true ∧
    ((match (awaiting 0x7F0002000100).readDesc 1 0x7F0002000100 with | some (.ok d) => d.gridX == 2 | _ => false) = true ∧ (match S.readDesc 1 0x7F0002000101 with | some (.error c) => c == 1 | _ => false) = true ∧
      ((awaiting 1).grp 0).arch.ctx = 1 ∧ ((awaiting 1).grp 0).verdict = some (1, codeVa, 3)) ∧
    (match (lost.fetch 0).1 with | .error x => x == (true, 0x1000) | _ => false) = true ∧ (match (barred.fetch 0).1 with | .error x => x == (false, 0x7F0002010000) | _ => false) = true ∧
    deliversB (barred.fetch 0).2 .permission 0x7F0002000400 = true ∧
    ((synthesising.grp 0).synth.isSome = true ∧ (synthesising.grp 0).arch.frames.length = 1 ∧ (synthesising.grp 0).reaches = [] ∧ (synthesising.grp 0).st ≠ .halt ∧ frameDrained synthesising 0 = true ∧ synthesising.regsRoom 0 (backRegs synthesising 0) = true) ∧
    (((replaying aReplay []).cor 0).permits.length + ((replaying aReplay []).seekersBefore 0).length < 4 ∧ 4 ≤ ((replaying aReplay [1, 2, 3, 4]).cor 0).permits.length + ((replaying aReplay [1, 2, 3, 4]).seekersBefore 0).length ∧ ((replaying aReplay []).grp 0).reaches = [] ∧ (replaying aReplay []).resident 0 = true ∧ (replaying aReplay []).emuReady 0 aReplay = true ∧
      (replaying aReplay [1, 2, 3, 4]).emuReady 0 aReplay = true) ∧
    (((replaying { aReplay with backoff := some 0 } []).grp 0).replay.map (·.backoff)) = some (some 0) ∧
    ((longWait.teamOf 0).st = .resident ∧ 16000 < longWait.clk ∧ (∀ h ∈ (longWait.teamOf 0).groups, (longWait.grp h).st = .wait ∧ ((longWait.grp h).wait.map (·.monitor)) = some true) ∧
      longWait.wouldFit (longWait.partOf 0) 0 = true) := by decide +kernel

/-- A pair exchanges what both masks hold; a synthesised GRET's status (R206, R285). -/
theorem test_services : next (exec (.xswapReceive 0 1) pairing) (fun t => (t.grp 0).arch.regs.vt 4 4 == 7 && (t.grp 0).arch.regs.vt 4 3 == 0 && (t.grp 1).arch.regs.vt 4 15 == 9 &&
      (t.grp 1).arch.regs.vt 4 16 == 0 && (t.grp 1).st == .run) ∧
    next (exec (.synthesisedGret 0) synthesising) (fun t => (t.grp 0).arch.regs.sv 0 == 0x0701010103) ∧
    next (exec (.launchVerdict 0) (awaiting 0x7F0002000100)) (fun t => t.launches.length == 2 && (t.grp 0).arch.regs.sv 3 == 0) := by decide +kernel

end Sys2Proof.Tests

namespace Sys2Proof.Tests

open Sys2Proof.Machine Sys2Proof.Safety Sys2Proof.Claim

/-! ### Memory's steps -/

def scalarLoad : PendLoad := { reach := 0, dst := .inl 3, vals := [], sval := 0xAB, spoison := true, peers := [], cws := [(0, [5])] }
def vectorLoad : PendLoad := { scalarLoad with dst := .inr (4, 2), vals := [(7, [5, 6], false)], cws := [(7, [5])] }
def loading (l : PendLoad) : State := framed.modG 0 fun x => { x with loads := [l], cld := 1 }

/-- A returning atomic of thread 2 that adds 3 to a word that holds 9. -/
def adding : State :=
  { framed.modG 0 fun x => { x with atom := some { pc := codeVa, sig0 := 0, word := 0, reg := 4, wide := false
                                                   reqs := [{ thread := 2, key := 0x34001000, va := 0x7F0002001000, form := .f32 .add, v := 3, cmp := none }] } } with
    mem := framed.mem.writeBytes 0x34001000 [9] }

def aReach : Reach := { id := 0, snap := (framed.grp 0).arch, ended := some (0, 0), deps := [], written := [], lastTag := 0, accPre := [], spec := [], fresh := false, batches := Vector.replicate 16 [] }
def storeKind (st : Bool) : PKind := .store 0x34001000 [(0x34001000, 5, false), (0x34001009, 6, false)] st
def reached (r : Reach) (c : Bool) : State :=
  (framed.modG 0 fun x => { x with reaches := [r] }).modC 0 fun k => { k with pound := [{ entry (storeKind false) 3 with cleared := c }] }
def drainable : State := (reached aReach true).modG 0 fun x => { x with reaches := [] }

def aFence : FenceRec := { id := 2, scope := .dev, kind := .ar, reach := 0, pc := codeVa, seq := 0, watch := [], fired := [] }
def fenced (f : FenceRec) (rs : List Reach) : State := framed.modG 0 fun x => { x with fences := [f], reaches := rs }

def aWb : WbSet := { scope := .dev, ctx := 1, reach := 0, cleared := true, seq := 0, bytes := [(0x34001000, 7, false)], range := none, held := [] }
def heldAt : Held := { berth := 2, frame := none, off := 128, va := 0x7F0002001000, key := 0x34001000, dirty := 1, snoops := [], served := [], by_ := none }
def writingBack (b : WbSet) : State := framed.modG 0 fun x => { x with wbsets := [b], cst := 1 }

/-- A fill of berth 2's sector from the code's page is on its way. -/
def filling : State :=
  bound.modT 0 fun t => { t with
    berths := t.berths.set 2 { base := 128, size := 1024, bound := true, gva := codeVa }
    held := [], fills := [{ gid := 0, berth := 2, frame := none, off := 128, va := codeVa, key := codePa, invals := [4] }] }

/-- A reach still open has written the held sector (R143). -/
def heldOpen : State := bound.modT 0 fun t => { t with logged := [(128, 7)] }

theorem witness_MemorySteps_returns : (GoesOn (loading scalarLoad) 0 ∧ GoesOn (loading vectorLoad) 0 ∧ GoesOn (writingBack aWb) 0) ∧ ((loading scalarLoad).grp 0).loads = [scalarLoad] ∧ ((loading vectorLoad).grp 0).loads = [vectorLoad] ∧ 4 + 2 ≤ 256 ∧
    ((adding.grp 0).atom.map fun a => (a.reqs.length, a.reg)) = some (1, 4) ∧ adding.mem.wf = true ∧ (∀ c ∈ adding.clusters, c.cache = []) ∧
    (∀ i, i < 4 → adding.pocPoison (0x34001000 + i) = false) ∧ ((adding.grp 0).atom.map fun a => adding.ownBefore 0 a) = some false ∧
    (scalarLoad.readsWord 5 = true ∧ vectorLoad.readsWord 5 = true ∧ (loading scalarLoad).ecc = .none ∧ (loading vectorLoad).ecc = .none ∧
      ({ loading scalarLoad with ecc := { words := [(5, 1)], threads := 0 } } : State).ecc.words = [(5, 1)] ∧ ({ loading scalarLoad with ecc := { words := [(5, 2)], threads := 0 } } : State).ecc.words = [(5, 2)] ∧
      (let s : State := { stashed with ecc := { words := [], threads := 0, stash := [(0, 3)], sectors := [7] } }
       0 < s.teams.length ∧ 4 * 3 + 4 ≤ (s.lch (s.tm 0).launch).desc.stash ∧ ((s.meet .fetchFault).tm 0).stashPoison = [12] ∧ (s.meet .fetchFault).poison = [14, 15]) ∧ (∃ x ∈ scalarLoad.cws, x.1 = 0 ∧ 5 ∈ x.2)) ∧
    adding.regsRoom 0 [4] = true ∧ (∀ n, adding.writeBlocked n = false) := by
  refine ⟨by unfold GoesOn; decide +kernel, by decide +kernel, by decide +kernel, by decide, by decide +kernel, by decide +kernel, by decide +kernel, by decide +kernel, by decide +kernel,
    by decide +kernel, by decide +kernel, (unblocked (by decide +kernel)).2⟩

/-- Two groups whose reaches depend on each other (R159). -/
def dependent (e : Option (Nat × Nat)) : State :=
  { framed with groups := [0, 1].map fun i => { framed.grp 0 with reaches := [{ aReach with id := i, deps := [1 - i], ended := if i = 0 then some (0, 0) else e }] } }

theorem test_mutual_clear : next (exec (.reachClear 0) (dependent (some (0, 0)))) (fun t => t.groups.all fun x => x.reaches.isEmpty) ∧
    next (exec (.reachClear 0) (dependent none)) (fun t => t.groups.all fun x => x.reaches.length == 1) := by decide +kernel

theorem witness_MemorySteps_pound : (reached aReach false).clearable 0 = true ∧ (dependent none).clearable 0 = false ∧ (reached aReach false).reachReady 0 aReach = true ∧ aReach.deps = [] ∧
    (reached aReach false).groups.length = 1 ∧ ((reached aReach false).grp 0).reaches = [aReach] ∧ (((reached aReach false).cor 0).pound.map fun e => (e.gid, e.reach)) = [(0, 0)] ∧
    ((reached aReach false).cor 0).copies = [] ∧
    ((drainable.poundOf 0).find? fun x => x.gid == 0 && drainable.drains 0 x).map (fun e => (e.cleared, e.kind)) = some (true, storeKind false) ∧ (drainable.grp 0).fences = [] ∧ (drainable.clu 0).cache.length < Config.cacheSectors ∧
    0 / 8 < drainable.clusters.length ∧ ((reached aReach false).poundOf 0).map (·.cleared) = [false] ∧ ((reached aReach false).staged) = [] ∧ (reached { aReach with ended := none } false).clearSet = [] ∧ (((reached { aReach with ended := none } false).cor 0).pound.map fun e => (e.cleared, e.seq)) = [(false, 3)] ∧ drainable.clearSet = [] ∧ (drainable.writeBlocked 0x34001000 = false) ∧ drainable.partOfCluster 0 < drainable.parts.length := by
  decide +kernel

theorem witness_MemorySteps_fences : fenceMet (fenced aFence []) 0 aFence = true ∧ (fenced aFence []).releaseDone 0 = true ∧ ((fenced aFence []).grp 0).fences = [aFence] ∧
    (let s := fenced { aFence with fired := [0] } [{ aReach with spec := [2] }]
     ((s.grp 0).fences.map (·.fired) = [[0]] ∧ (s.grp 0).haltReq = false ∧ (s.grp 0).reaches.map (·.spec) = [[2]] ∧ (s.grp 0).st = .run ∧ (s.grp 0).stepping = false ∧ s.groups.length = 1 ∧ ∀ k ∈ s.cores, k.pound = [])) ∧
    (((writingBack aWb).grp 0).wbsets = [aWb] ∧ (writingBack aWb).poundOf 0 = [] ∧ (writingBack aWb).anyDirty 0 (rangeSel aWb.ctx aWb.range) (rangeByte aWb.range) = false) := by
  decide +kernel

theorem witness_MemorySteps_berths : ((filling.tm 0).fills.find? fun x => x.berth == 2 && x.off == 128).isSome = true ∧ (filling.berthOf 0 2).bound = true ∧ filling.frameTag 0 = none ∧
    (filling.writeBlocked codePa = false ∧ filling.specFences 0 = [] ∧ (filling.clu 0).changing = false ∧ (filling.tm 0).undone = [] ∧ (filling.tm 0).stash.wf = true) ∧
    (bound.clu 0).changing = false ∧ (({ bound with clusters := bound.clusters.map fun c => { c with target := some .two } } : State).clu 0).changing = true ∧
    ((heldOpen.tm 0).held = [heldAt] ∧ heldAt.snoops = [] ∧ (heldAt.off, 7) ∈ (heldOpen.tm 0).logged ∧ heldOpen.teams.length = 1) ∧ (∃ h ∈ [heldAt], h.berth = 2) ∧
    ((writingBack aWb).grp 0).st ≠ .done ∧ ((writingBack aWb).tm 0).groups = [0] ∧
    (((bound.grp 0).wbsets = []) ∧ (bound.tm 0).groups = [0] ∧ (bound.tm 0).held = [heldAt] ∧ heldAt.dirty ≠ 0 ∧ bound.heldBusy 0 heldAt (bound.heldWriters 0 heldAt) = false ∧ bound.mem.wf = true ∧ heldAt.key = sectorOf 0x34001005 ∧
      (∀ i, i < 128 → bound.clearedByte 0 (128 + i) = none) ∧ (bound.tm 0).logged = [] ∧ bound.teams.length = 1) ∧
    (((writingBack { aWb with held := [heldAt] }).grp 0).wbsets.map fun b => (b.cleared, b.held)) = [(true, [heldAt])] := by decide +kernel

/-- A register line of group 0, and a state whose first lane file has no line free. -/
def aLine (r : Nat) (p : LineAt) : Line := { gid := 0, depth := r / 256, reg := r % 256, at_ := p, pre := none, used := 0, dirty := true }
def lined (s : State) : State := { s with lines := (List.range 384).map fun r => aLine r .cache }
/-- Its group's lines can leave for a mooring (R57). -/
def mooring : State := (lined S).modG 0 fun x => { x with evictable := true }

/-- The pre-image of a register of an open reach lies in a mooring (R67, R77). -/
def preimaged : State := { reached aReach false with lines := [{ aLine 3 (.mooring 1 0) with pre := some 0 }] }

theorem witness_MemorySteps_lines : 0 < (lined S).images.length ∧ lineAt (lined S) 0 0 3 = some (aLine 3 .cache) ∧ (lined S).laneFree 0 (S.grp 0).lane = 0 ∧
    (lined S).lineCleared (aLine 3 .cache) = true ∧ (lined S).lineAwaited (aLine 3 .cache) = false ∧ ((lined S).grp 0).evictable = false ∧
    (lineAt mooring 0 0 3 = some (aLine 3 .cache) ∧ mooring.laneFree 0 (mooring.grp 0).lane = 0 ∧ mooring.lineCleared (aLine 3 .cache) = true ∧
      mooring.lineAwaited (aLine 3 .cache) = false ∧ (mooring.grp 0).evictable = true ∧ mooring.mooringFor 0 = some 1) ∧
    lineAt { S with lines := [aLine 3 (.mooring 1 0)] } 0 0 3 = some (aLine 3 (.mooring 1 0)) ∧ (S.grp 0).arch.frames = [] ∧ (S.grp 0).arch.emu = none ∧
    ((((called 15).grp 0).arch.regs.spilled < ((called 15).grp 0).arch.regs.calls.length) ∧ ((called 15).grp 0).reaches = [] ∧ 0 < (called 15).images.length ∧
      ((called 15).grp 0).depth = 0) ∧
    (((preimaged.grp 0).reaches.map (·.id)) = [0] ∧ preimaged.lines.find? (fun x => x.gid == 0 && x.depth == 0 && x.reg == 3 && x.pre == some 0) = some { aLine 3 (.mooring 1 0) with pre := some 0 } ∧ 0 < preimaged.images.length) ∧
    ({ S with ecc := { words := [], threads := 1 } } : State).ecc.threads ≠ 0 ∧ S.lines = [] ∧
    [1, 2, 3].all (fun c => sensorOk S c 0 0 0) = true ∧ (lined S).ecc = .none ∧ mooring.ecc = .none ∧ S.partOfCluster 0 < S.parts.length := by decide +kernel

/-- The word takes the sum and thread 2 the old value; a cleared store drains into the cluster's cache; a snoop writes the berth's byte back. -/
theorem test_memory_steps : next (exec (.atomReturn 0) adding) (fun t => t.mem.read 0x34001000 == 12 && (t.grp 0).arch.regs.vt 4 2 == 9) ∧
    next (exec (.loadReturn 0) (loading vectorLoad)) (fun t => (t.grp 0).arch.regs.vt 5 7 == 6 && (t.grp 0).arch.regs.vt 5 6 == 0 && (t.grp 0).cld == 0) ∧
    next (exec (.poundDrain 0) drainable) (fun t => (t.cbyte 0 0x34001009) == some { val := 6, dirty := true } && t.poundOf 0 == []) ∧
    next (exec (.heldSectorSnoop 0x34001005 (some .outside)) bound) (fun t => t.mem.read 0x34001000 == 0xE8 && ((t.tm 0).held.map (·.dirty)) == [0]) ∧
    next (exec (.fenceRollback 0) (fenced { aFence with fired := [0] } [{ aReach with spec := [2] }])) (fun t => (t.grp 0).reaches == [] && (t.grp 0).rollbacks == (1, codeVa)) := by
  decide +kernel

/-! ### The engines -/

def oneCopyB (s : State) (core : Nat) (c : Copy) : Bool :=
  decide (core < s.cores.length) && decide ((s.cor core).copies = [c]) && decide (c.gid < s.groups.length) && c.landed && decide (c.scope < 3) && s.drained c.gid c.seq

theorem oneCopy_of {s : State} {core : Nat} {c : Copy} (h : oneCopyB s core c = true) : OneCopy s core c := by
  simp only [oneCopyB, Bool.and_eq_true, decide_eq_true_eq] at h
  obtain ⟨⟨⟨⟨⟨h1, h2⟩, h3⟩, h4⟩, h5⟩, h6⟩ := h
  exact ⟨h1, h2, h3, h4, h5, h6⟩

def oneOpB (s : State) (core : Nat) (o : SeqOp) : Bool :=
  decide (core < s.cores.length) && decide ((s.cor core).ops = [o]) && !o.complete && decide (o.gid < s.groups.length) && decide ((s.grp o.gid).team = o.team) &&
    decide (o.team < s.teams.length) && ((s.tm o.team).groups.any fun h => (s.grp h).st != .done) && !o.undef && (s.tm o.team).undone.all fun r => r.id != o.id

theorem oneOp_of {s : State} {core : Nat} {o : SeqOp} (h : oneOpB s core o = true) : OneOp s core o := by
  simp only [oneOpB, Bool.and_eq_true, decide_eq_true_eq, Bool.not_eq_true', List.all_eq_true, List.any_eq_true, bne_iff_ne] at h
  obtain ⟨⟨⟨⟨⟨⟨⟨⟨h1, h2⟩, h3⟩, h4⟩, h5⟩, h6⟩, h7⟩, h8⟩, h9⟩ := h
  exact ⟨h1, h2, h3, h4, h5, h6, h7, h8, fun r hr he => absurd he (h9 r hr)⟩

def signalling (comp a : Nat) : Copy := { aCopy with comp := comp, notify := [(0, a)], signalled := false }
def elementCopy : Copy := { aCopy with form := 2, elems := [({ key := 0x34001000, form := .f32 .add, v := 3 }, false)], applied := false }

theorem witness_CopyEngineSteps : OneCopy (withCopy (signalling 1 128)) 0 (signalling 1 128) ∧ OneCopy (withCopy (signalling 2 0)) 0 (signalling 2 0) ∧ OneCopy (withCopy aCopy) 0 aCopy ∧
    OneCopy (withCopy elementCopy) 0 elementCopy ∧
    State.applyDue (signalling 1 128) = false ∧ ((withCopy aCopy).clu 0).changing = false ∧ (withCopy (signalling 1 128)).poundUsed 0 + 1 ≤ 512 ∧ (withCopy (signalling 2 0)).poundUsed 0 + 1 ≤ 512 ∧ GoesOn (withCopy aCopy) 0 ∧ barrierDone (withCopy (signalling 2 0)) 0 3 = false ∧
      (withCopy aCopy).resident ((withCopy aCopy).grp 0).team = true ∧ ((withCopy elementCopy).teams.all fun t => t.held.isEmpty) = true ∧
    ((withCopy elementCopy).tm 0).stash.wf = true ∧ ((withCopy elementCopy).grp 0).fences = [] ∧ (∀ k ∈ (withCopy elementCopy).clusters, k.cache = []) ∧
      (∀ i, i < 4 → (withCopy elementCopy).pocPoison (0x34001000 + i) = false) ∧ (withCopy elementCopy).mem.wf = true :=
  ⟨oneCopy_of (by decide +kernel), oneCopy_of (by decide +kernel), oneCopy_of (by decide +kernel), oneCopy_of (by decide +kernel), by unfold GoesOn; decide +kernel⟩

def withOp (o : SeqOp) : State := summed.modC 0 fun k => { k with ops := [o], moved := 400, lc := 1000 }
def moving (k : SeqKind) : SeqOp := { opOf 5 k with moving := true, tag := some 0 }
/-- An MLOOP of one step, and the step: no row of it injected, and all. -/
def looping (n : Nat) : SeqOp :=
  { opOf 5 (.mloop 1 (2 * 2 ^ 56 + 2 ^ 32) 0 0) with
    next := 1, steps := [{ k := 0, macroNo := 0, slot := 0, reach := 0, rows := n, lastAt := 0, paid := true, told := false, vals := List.replicate n (List.replicate 128 0x3F800000) }] }

def loopOp : SeqOp := opOf 5 (.mloop 1 (2 * 2 ^ 56 + 2 ^ 32) 0 0)

theorem witness_SequencerSteps_operations :
    ([moving (.msta 1 .bf16 1 256), moving (.msta 1 .f16 1 256), moving (.mlda 1 256), moving (.msta 1 .f32 1 256), moving (.mldw 7 .fp4 false 128 false), loopOp, looping 0, looping 32].all fun o => oneOpB (withOp o) 0 o) = true := by decide +kernel

theorem witness_SequencerSteps : OneOp (withOp (looping 32)) 0 (looping 32) ∧
    (nextMove (withOp (opOf 5 (.mlda 1 256))) ((withOp (opOf 5 (.mlda 1 256))).cor 0).ops = some (opOf 5 (.mlda 1 256)) ∧ moveReady (withOp (opOf 5 (.mlda 1 256))) 0 (opOf 5 (.mlda 1 256)) = true) ∧
    moveCycles (.mldw 7 .fp4 false 128 false) ≤ ((withOp loopOp).cor 0).moved ∧ (withOp loopOp).loadsFirst loopOp 0 = false ∧ ((withOp loopOp).tm 0).st ≠ .leavingPreempt ∧
    0 < ((withOp loopOp).cor 0).accFree ∧ ctlSteps (2 * 2 ^ 56 + 2 ^ 32) = 1 ∧ ctlFmt (2 * 2 ^ 56 + 2 ^ 32) = some .fp4 ∧ ((withOp (looping 0)).clu 0).changing = false ∧
    max (0 + max ((withOp (looping 32)).cor 0).cad.toNat (fmtW .fp4)) ((withOp (looping 32)).cor 0).entryFree + 8 ≤ ((withOp (looping 32)).cor 0).lc ∧
    (withOp (moving (.msta 1 .f32 1 256))).poundUsed 0 + 130 ≤ 512 ∧ ((withOp (moving (.mldw 7 .fp4 false 128 false))).slot 0 7).redo = [] ∧ ((withOp (looping 0)).cor 0).cad.toNat ≤ 1000 ∧ (looping 32).entered = 0 :=
  ⟨oneOp_of (by decide +kernel), by decide +kernel⟩

/-- One side of a step: every element, every block scale, and the band. -/
def side (x : Fp.FVal) (sc : Nat) (b : Fp.FVal) : Side :=
  { fmt := .fp4, elems := List.replicate 16 (List.replicate 8 x), scales := List.replicate 16 sc, band := b }

def fvOne : Fp.FVal := .fin false 1 0
def fvNull : Fp.FVal := .fin false 0 0
def ones : Side := side fvOne scaleOne fvOne
/-- Infinities of both signs. -/
def bothInf : Side := { side (.inf false) scaleOne fvOne with elems := List.replicate 16 (.inf true :: List.replicate 7 (.inf false)) }

theorem sized_side (x : Fp.FVal) (sc : Nat) (b : Fp.FVal) : Sized (side x sc b) := by
  refine ⟨by simp [side], fun l hl => ?_, by simp [side]⟩
  simp only [side, List.mem_replicate] at hl
  simp [hl.2]

/-- What meets in a step of two such sides. -/
theorem meets_side {x y u v : Fp.FVal} {sc t : Nat} {b c : Fp.FVal} (h : Meets (side x sc b) (side y t c) u v) : u = x ∧ v = y := by
  obtain ⟨j, i, ⟨hj, -, -⟩, hi, hu, hv⟩ := h
  simp only [blockOf, side, List.getElem?_replicate, hj, if_true, Option.getD_some, hi] at hu hv
  exact ⟨(Option.some.inj hu).symm, (Option.some.inj hv).symm⟩

theorem meets_all (x y : Fp.FVal) (b c : Fp.FVal) : Meets (side x scaleOne b) (side y scaleOne c) x y :=
  ⟨0, 0, ⟨by decide, by simp [scaleOf, side, scaleOne], by simp [scaleOf, side, scaleOne]⟩, by decide, by simp [blockOf, side], by simp [blockOf, side]⟩

theorem scaleOf_side (x b : Fp.FVal) (sc : Nat) {j : Nat} (hj : j < 16) : scaleOf (side x sc b) j = sc := by
  simp only [scaleOf, side, List.getElem?_replicate, hj, if_true, Option.getD_some]

theorem takes_side (x y b c : Fp.FVal) {j : Nat} (hj : j < 16) : TakesPart (side x scaleOne b) (side y scaleOne c) j := by
  refine ⟨hj, ?_, ?_⟩ <;> rw [scaleOf_side _ _ _ hj] <;> decide

theorem noNan_side {x y b c : Fp.FVal} (h : (!b.isNan && !c.isNan && !x.isNan && !y.isNan && !(fvInf x && fvZero y) && !(fvInf y && fvZero x)) = true) :
    NoNan (side x scaleOne b) (side y scaleOne c) := by
  simp only [Bool.and_eq_true, Bool.not_eq_true'] at h
  obtain ⟨⟨⟨⟨⟨h1, h2⟩, h3⟩, h4⟩, h5⟩, h6⟩ := h
  refine ⟨h1, h2, fun j hj => ?_, fun u v hm => ?_⟩
  · rw [scaleOf_side _ _ _ hj.1, scaleOf_side _ _ _ hj.1]; decide
  · obtain ⟨rfl, rfl⟩ := meets_side hm
    exact ⟨h3, h4, fun h => by simp [h.1, h.2] at h5, fun h => by simp [h.1, h.2] at h6⟩

/-- Ordinary elements; no block that takes part; a NaN scale; infinities, under a zero band, of one sign, and of both; an infinite band; and the blocks and rows of the other clauses. -/
theorem witness_SequencerSteps_arithmetic :
    (NoNan ones ones ∧ Finite ones.band ∧ (∀ x y, Meets ones ones x y → Finite x ∧ Finite y) ∧ Sized ones) ∧ (∀ j, ¬TakesPart (side fvOne 0 fvOne) ones j) ∧
    (TakesPart (side fvOne 0xFF fvOne) ones 0 ∧ ¬NoNan (side fvOne 0xFF fvOne) ones) ∧
    (let a := side (.inf false) scaleOne fvNull
     NoNan a ones ∧ Meets a ones (.inf false) fvOne ∧ InfProduct (.inf false) fvOne false ∧ ¬(Finite a.band ∧ fvZero a.band = false)) ∧
    (let a := side (.inf false) scaleOne fvOne
     NoNan a ones ∧ (∀ x y m, Meets a ones x y → InfProduct x y m → m = false) ∧ Finite a.band ∧ fvZero a.band = false) ∧
    (Meets bothInf ones (.inf true) fvOne ∧ InfProduct (.inf true) fvOne true ∧ Meets bothInf ones (.inf false) fvOne) ∧
    (let a := side fvOne scaleOne (.inf true)
     NoNan a ones ∧ fvInf a.band = true ∧ (∀ x y, Meets a ones x y → Finite x ∧ Finite y) ∧ TakesPart a ones 3) ∧
    (∃ x ∈ [fvNull, fvOne], fvVal x ≠ 0) ∧ (List.replicate 32 (List.replicate 128 (0 : W32))).length = 32 := by
  refine ⟨⟨noNan_side (by decide), ⟨_, _, _, rfl⟩, fun x y h => ?_, sized_side _ _ _⟩, fun j h => ?_, ⟨⟨by decide, ?_, ?_⟩, fun h => ?_⟩, ⟨noNan_side (by decide), meets_all _ _ _ _, ?_, ?_⟩,
    ⟨noNan_side (by decide), fun x y m h p => ?_, ⟨_, _, _, rfl⟩, by decide⟩, ⟨?_, ?_, ?_⟩, ⟨noNan_side (by decide), by decide, fun x y h => ?_, takes_side _ _ _ _ (by decide)⟩, ⟨fvOne, by simp, ?_⟩, by simp⟩
  · obtain ⟨rfl, rfl⟩ := meets_side h; exact ⟨⟨_, _, _, rfl⟩, ⟨_, _, _, rfl⟩⟩
  · exact h.2.1 (scaleOf_side _ _ _ h.1)
  · simp [scaleOf, side]
  · simp [scaleOf, ones, side, scaleOne]
  · exact (h.2.2.1 0 ⟨by decide, by simp [scaleOf, side], by simp [scaleOf, ones, side, scaleOne]⟩).1 (by simp [scaleOf, side])
  · simp [InfProduct, fvInf, fvZero, fvNeg, fvOne, Fp.FVal.isNan]
  · simp [side, fvZero, fvNull]
  · obtain ⟨rfl, rfl⟩ := meets_side h; simpa [fvNeg, fvOne] using p.2.2.2.2.2
  · exact ⟨0, 0, ⟨by decide, by simp [scaleOf, bothInf, side, scaleOne], by simp [scaleOf, ones, side, scaleOne]⟩, by decide, by simp [blockOf, bothInf], by simp [blockOf, ones, side]⟩
  · simp [InfProduct, fvInf, fvZero, fvNeg, fvOne, Fp.FVal.isNan]
  · exact ⟨0, 1, ⟨by decide, by simp [scaleOf, bothInf, side, scaleOne], by simp [scaleOf, ones, side, scaleOne]⟩, by decide, by simp [blockOf, bothInf], by simp [blockOf, ones, side]⟩
  · obtain ⟨rfl, rfl⟩ := meets_side h; exact ⟨⟨_, _, _, rfl⟩, ⟨_, _, _, rfl⟩⟩
  · simp [fvVal, dyVal, fvOne, Dy.of]

/-- 128 products of 1 by 1 with scales and bands of 1: 128.0 (R100). -/
theorem test_step_value : stepValue ones ones = 0x43000000 ∧ stepValue (side fvOne 0 fvOne) ones = 0 ∧ stepValue (side fvOne 0xFF fvOne) ones = 0x7FC00000 := by decide +kernel

/-- A step runs while its slot loads for an MLDW accepted after its MLOOP, and waits for one accepted before (R252, R257). -/
theorem test_step_and_load : let s := fun n => (withOp loopOp).modSlot 0 0 fun w => { w with loading := true, loadId := n }
    next (exec (.mloopStepStart 0 5) (s 6)) (fun t => (t.cor 0).ops.map (·.next) == [1]) ∧
    next (exec (.mloopStepStart 0 5) (s 4)) (fun t => (t.cor 0).ops.map (·.next) == [0]) := by decide +kernel

/-- The signal is written; the last step's entry completes the operation (R243, R261). -/
theorem test_engine_steps :
    next (exec (.copySignal 0 4) (withCopy (signalling 1 128))) (fun t => (t.tm 0).stash.readBytes 128 8 == bytesLE 8 77) ∧
    next (exec (.stepEntry 0 0) (withOp (looping 32))) (fun t => (t.cor 0).ops.map (·.complete) == [true]) := by
  decide +kernel

end Sys2Proof.Tests

namespace Sys2Proof.Tests

open Sys2Proof.Machine Sys2Proof.Safety Sys2Proof.Claim

/-! ### Launches and queues -/

/-- The launch of `tiny` with another descriptor and n teams placed, in the first of eight partitions. -/
def launching (d : Desc) (n : Nat) (fin : Bool) : State :=
  { S with cores := List.replicate 48 Core.reset, parts := List.replicate 8 (Part.fresh 0), launches := [{ Launch.fresh 1 0 d 0 (.queue 0) 2 0 with next := n, teams := [0], finished := fin }] }

def small : Desc := { codeDesc with vregs := 16, sregs := 16, stash := 4096, gridX := 2 }
def train : Desc := { small with nstage := 2, entries := [codeVa, codeVa] }
/-- No core has room for another of these: each of the partition's 48 is out of service. -/
def crowded : State := { launching small 1 false with clk := 64000, cores := List.replicate 48 { Core.reset with outOfService := true } }
def leaving : State := S.modT 0 fun t => { t with st := .leavingPreempt }
def away : State := { (launching small 2 false).modT 0 fun t => { t with st := .preempted } with clk := 0 }
/-- Its team has more resume records than the sequencer of any core takes. -/
def awayLong : State := away.modT 0 fun t => { t with resume := List.replicate 9 { id := 1, gid := 0, base := 0, berth := none, ctl := 0, gidx := 0, acc := 0, slot := 0, batch := none, next := 0, pc := 0 } }
/-- Every team of the launch is FINISHED; with a completion word in the code's page, here writable, and with one that no region maps. -/
def completing (sig : Bool) (a : W64) : State :=
  { (launching { small with signal := sig, sigAddr := a, sigVal := 5 } 2 false).modT 0 fun t => { t with st := .finished } with mem := S.mem.writeBytes 0x121000 (bytesLE 8 0x34000007) }
def watched (ts : List Nat) : State :=
  { S with ctxs := [Ctx.absent, { codeCtx with wdlim := 2 }], launches := [{ Launch.fresh 1 0 small 0 (.queue 0) 2 0 with next := 2, teams := ts, wd := 2001 }] }

theorem witness_LaunchSteps :
    (match (launching small 1 false).nextPlacement 0 with | some (.next l, c) => l == 0 && decide (c < 48) | _ => false) = true ∧ small.nstage = 1 ∧ (launching small 1 false).cores.length = 48 ∧
    (match (launching train 1 false).nextPlacement 0 with | some (.next l, _) => l == 0 | _ => false) = true ∧ 1 < train.nstage ∧
    (match crowded.candidates 0 with | .next l :: _ => l == 0 && (crowded.candCore 0 (.next 0) []).isNone | _ => false) = true ∧ (crowded.lch 0).since + 64000 ≤ crowded.clk ∧
    ((leaving.tm 0).st = .leavingPreempt ∧ leaving.leavingOver 0 = true ∧ leaving.teamDone 0 = false ∧ (leaving.tm 0).held = [] ∧ (∀ g ∈ (leaving.tm 0).groups, waitReady leaving g = false ∧ g < leaving.images.length)) ∧
    (match away.nextPlacement 0 with | some (.back t, c) => t == 0 && away.resumeRoom 0 c && (away.clusters.all fun k => k.cache.isEmpty) | _ => false) = true ∧
    (match awayLong.nextPlacement 0 with | some (.back t, c) => t == 0 && !awayLong.resumeRoom 0 c | _ => false) = true ∧
    ((completing true codeVa).launches.map (fun l => (l.finished, l.stopped, l.desc.gridX * l.desc.gridY * l.desc.gridZ, l.next)) = [(false, false, 2, 2)] ∧ ((completing true codeVa).tm 0).st = .finished ∧
      (∀ g ∈ ((completing true codeVa).tm 0).groups, (completing true codeVa).poundCount g = 0 ∧ ((completing true codeVa).grp g).wbsets = []) ∧
      ((completing true codeVa).ctxKey 1 Need.store codeVa).toOption = some codePa ∧ (∀ c ∈ (completing true codeVa).clusters, c.cache = []) ∧ (completing true codeVa).mem.wf = true ∧ (∀ m ∈ (completing true codeVa).teams, m.held = []) ∧ (∀ x ∈ (completing true codeVa).groups, x.wbsets = []) ∧
      ((completing true 0x1000).ctxKey 1 Need.store 0x1000).toOption = none) ∧
    ((watched []).launches.map (fun l => (l.finished, l.teams, l.wd)) = [(false, [], 2001)] ∧ ((watched []).cx 1).wdlim = 2 ∧ (watched []).ckptPending 1 = false) := by decide +kernel

/-- The second team goes to a core with s0 = ARG in its registers; the completion word is written. -/
theorem test_launch_steps : next (exec (.placeTeam 0) (launching { small with arg := 99 } 1 false)) (fun t => t.teams.length == 2 && (t.tm 1).x == 1 && (t.grp 1).arch.regs.sv 0 == 99 && (t.grp 1).arch.pc == codeVa) ∧
    next (exec (.launchCompletion 0) (completing true codeVa)) (fun t => t.mem.read codePa == 5 && (t.lch 0).finished) ∧
    next (exec (.watchdogExpiry 0) (watched [])) (fun t => t.records == [.watchdog 0 2001]) := by decide +kernel

/-- Queue 1 of context 1, its ring at offset 0x1000 of the code's page, here writable, with one pending entry. -/
def queued (kind : Nat) (addr v : W64) (res : Bool) (f : Queue → Queue) : State :=
  { described S with
    ctxs := [Ctx.absent, codeCtx]
    queues := [Queue.absent, f { Queue.absent with assigned := true, ctx := 1, part := 0, prio := 3, k := 4, ring := 0x7F0002001000, resident := res, tail := 1, savedTail := 1 }]
    mem := (((described S).mem.writeBytes 0x121000 (bytesLE 8 0x34000007)).writeBytes 0x34001000 (bytesLE 1 kind)).writeBytes 0x34001008 (bytesLE 8 addr.toNat ++ bytesLE 8 v.toNat) }

def headIs (s : State) (kind : Nat) : Bool := decide (1 < s.queues.length) && (s.teams.all fun m => m.held.isEmpty) && match s.atHead 1 with | .entry e => e.kind == kind | _ => false

theorem witness_QueueSteps : [0, 1, 2, 3].all (fun k => headIs (queued k 0x7F0002000100 0 true id) k) = true ∧
    (match (queued 9 0 0 true id).atHead 1 with | .bad c => c == 0x0C | _ => false) = true ∧ ((queued 1 0x7F0002000100 0 true id).prt 0).closed = false ∧ ((queued 9 0 0 true id).que 1).resident = true ∧ ((queued 9 0 0 false id).que 1).resident = false ∧ (∀ m ∈ (queued 9 0 0 true id).teams, m.held = []) ∧ (∀ x ∈ (queued 3 0 0 true id).groups, x.wbsets = []) ∧ ((queued 3 0 0 true id).que 1).resident = true ∧
    (match (queued 1 0x7F0002000100 0 true id).readDesc 1 0x7F0002000100 with | some (.ok _) => true | _ => false) = true ∧
    (match (queued 1 0x7F0002000101 0 true id).readDesc 1 0x7F0002000101 with | some (.error _) => true | _ => false) = true ∧
    (match (queued 2 0 0 true id).ctxRead 1 0x7F0002001000 8 with | .ok bs => leNat bs == 2 | _ => false) = true ∧
    ((queued 3 0 0 true id).ctxKey 1 Need.store 0x7F0002003000).toOption = some 0x34003000 ∧ (∀ c ∈ (queued 3 0 0 true id).clusters, c.cache = []) ∧ (queued 3 0 0 true id).mem.wf = true ∧
    (∀ l ∈ (queued 3 0 0 true id).launches, l.src = .queue 1 → l.finished = true) ∧
    (queued 0 0 0 false id).nextQueue 0 = some 1 ∧ ((queued 0 0 0 false id).residentQueues 0).length < 16 ∧
    (let x := (queued 0 0 0 true fun q => { q with tail := 0 }).que 1
     x.assigned = true ∧ x.resident = true ∧ x.head = x.tail) ∧
    (queued 0 0 0 true id).fw = .thavin ∧ (queued 0 0 0 true id).partOfFn { port := 0, vf := some 0 } = some 0 := by decide +kernel

/-- A launch from a queue, a wait that is met, a write, and a QTAIL of more entries than the ring holds. -/
theorem test_queue_steps : next (exec (.queueLaunch 1) (queued 1 0x7F0002000100 0 true id)) (fun t => t.launches.length == 2 && (t.que 1).head == 1) ∧
    next (exec (.queueWaitPoll 1) (queued 2 0 0 true fun q => { q with waiting := some (0x7F0002001000, 2) })) (fun t => (t.que 1).head == 1) ∧
    next (exec (.queueWaitPoll 1) (queued 2 0 0 true fun q => { q with waiting := some (0x7F0002001000, 3) })) (fun t => (t.que 1).head == 0) ∧
    next (exec (.queueWriteValue 1) (queued 3 0 0 true fun q => { q with writing := some (0x7F0002003000, 0x99) })) (fun t => t.mem.read 0x34003000 == 0x99) ∧
    next (exec (.qtailWrite { port := 0, vf := some 0 } 1 17) (queued 0 0 0 true id)) (fun t => (t.que 1).code == 0x0E && (t.que 1).head == 17) := by decide +kernel

/-! ### Commands -/

def vf : Fn := { port := 0, vf := some 0 }
def pf : Fn := { port := 0, vf := none }

/-- A context free, one resident, and a page fault in service. -/
def served : State := { withTable (replaying { aReplay with permit := true } [0]) with ctxs := [Ctx.absent, { codeCtx with trapBase := 0x7F0002000800 }] }

def ctxArgs : CtxArgs := { dom := 3, regions := List.replicate 16 0, trapBase := 0x100, wdlim := 7 }
def object : PrecoObject := 
  { note := ((Vector.replicate 16 0).set 0 0x34).set 1 0x5A |>.set 2 4, sections := [(0x7F0002003000, [0x42])], kernels := [[1]], gates := [], sigblocks := [] }
def loadCmd : LoadCmd := { object := some object }
/-- The command area of the VF holds the load command of R386: code 2, context 1, 100 bytes. -/
def asking : State := { served with hostRegs := [(vf, { bar := 0, off := 0 }, 2), (vf, { bar := 0, off := 8 }, 1), (vf, { bar := 0, off := 24 }, 100), (vf, { bar := 0, off := 0x40 }, 9)] }
def ckptArgs : CkptArgs := { ctxs := [1], ndev := 1, index := 0, ranges := [], replaced := none }
/-- A sealed generation of partition 0 with team 0. -/
def sealedSlot : CkptSlot :=
  let k : CkptSlot := { head := { gen := 1, ndev := 1, shape := shapeWord 1 0, teams := 1, ranges := 0, bytes := 0, crc := crc64 [] }, index := 0, teams := [S.tm 0], groups := [], launches := [], teamIds := [0]
                        groupIds := [], invals := [], ranges := [], data := [], units := [], header := none }
  { k with header := some (headerBytes k) }
def stored (x : CkptSlot) : State := { served with ckpts := [{ part := 0, slots := (Vector.replicate 2 none).set 0 (some x), pending := none, cmd := some (vf, 9), waiting := [] }] }

theorem witness_PartitionCommands : Serves served vf 0 ∧ served.freeCtx = some 0 ∧ ctxArgs.regions.all regionOk = true ∧ served.domainCtx 0 3 = none ∧ Mine served 0 1 ∧
    (Serves asking vf 0 ∧ Mine asking 0 1 ∧ asking.loadFn vf = 2 ∧ asking.loadCtx vf = 1 ∧ asking.loadSize vf = 100 ∧ asking.loadResv vf = false ∧ asking.cmdNo vf = 9 ∧ asking.loadCode 0 1 (asking.loadOverride vf) object = none ∧
      asking.placeOf 1 0x7F0002003000 = some 0x34003000 ∧ asking.mem.wf = true ∧ asking.writeBlocked 0x34003000 = false) ∧
    ((served.faultOf 0).isSome = true ∧ served.partOf 0 = 0 ∧ (served.partHbm 0).1 ≤ 0x121008 ∧ 0x121008 < (served.partHbm 0).2) ∧
    (let s1 := (served.enterRun 0).endService 0
     (match s1.trapEntry 0 .pageFault with | .handler h => h == 0x7F0002000400 | _ => false) = true ∧ (served.grp 0).arch.emu = none ∧ (served.grp 0).arch.regs.tf.inHandler = false ∧ (served.grp 0).stepping = false ∧ State.recordAwaited (served.grp 0) = false) ∧
    (State.lowest (served.ckptCauses 0 ckptArgs) = none ∧ (served.ckptOf 0).pending = none ∧ (State.unsealed (served.ckptOf 0)).isNone = true) ∧
    (sealedSlot.head.shape = shapeWord (stored sealedSlot).parts.length 0 ∧ sealedSlot.head.ndev = 1 ∧ (S.tm 0).st ≠ .finished ∧ 0 < (stored sealedSlot).teams.length) ∧
    (State.lowest (State.ckptCauses { served with ckpts := [{ part := 0, slots := Vector.replicate 2 none, pending := some ckptArgs, cmd := some (vf, 8), waiting := [] }] } 0 ckptArgs) = none) ∧
    ((served.que 1).assigned = false ∧ 1 < served.queues.length ∧ (0x8000 : W64).toNat % (64 * 2 ^ 4) = 0) ∧ ((queued 0 0 0 true id).que 1).assigned = true ∧ ((queued 0 0 0 true id).que 1).part = 0 ∧ Attends served pf := by
  unfold Serves Mine Attends; decide +kernel

/-- The same job of two devices, whose other share peers give. -/
def twoDevices : CkptArgs := { ckptArgs with ndev := 2, peers := [(1, [{ head := sealedSlot.head, verifies := true, units := some [] }])] }

theorem witness_PartitionCommands_restore : (let s := stored sealedSlot
     State.lowest (s.ckptCauses 0 ckptArgs) = none ∧ s.chooseSlot 0 ckptArgs = some sealedSlot) ∧
    (let s : State := { stored sealedSlot with domIndex := some 2 }
     State.lowest (s.ckptCauses 0 twoDevices) = none ∧ s.chooseSlot 0 twoDevices = some sealedSlot ∧ sealedSlot.head.ndev ≠ twoDevices.ndev) := by decide +kernel

theorem witness_PartitionCommands_snapshot (a : Option Nat) : snapOk 0 a { bytes := [], signature := [], fresh := false } = false := by simp [snapOk]

/-- A context is created as 0; what the loader writes; a page fault's group runs again; a set that the PF may not. -/
theorem test_commands : next (exec (.createContext vf ctxArgs) served) (fun t => (t.cx 0).dom == 3 && (t.replies.map fun r => (r.status, r.data)) == [(0, [0])]) ∧
    next (exec (.loadObject vf loadCmd) asking) (fun t => t.mem.read 0x34003000 == 0x42 && (t.replies.map fun r => (r.seq, r.status)) == [(9, 0)]) ∧
    next (exec (.pageFaultMap vf 0 [(0x121008, 0x35000003)]) served) (fun t => (t.grp 0).st == .run && t.mem.read 0x12100B == 0x35) ∧
    next (exec (.setQwin vf 5000) served) (fun t => (t.prt 0).qwin == 904) ∧ next (exec (.setQwin pf 100) served) (fun t => (t.replies.map (·.status)) == [0x11]) := by decide +kernel

/-- A device whose partition holds nothing. -/
def empty : State := { tiny with ctxs := [Ctx.absent, Ctx.absent], launches := [], teams := [], groups := [], selected := [] }
def anInval : Inval := { ctx := 1, va := 0, size := none, fn := some (vf, 4), mark := none, page := none, done := false }
def invalidating (m : Option (Nat × Nat)) : State := { S with invals := [{ anInval with mark := m }] }
def checkpointing : State := { empty with ctxs := [Ctx.absent, codeCtx], ckpts := [{ part := 0, slots := Vector.replicate 2 none, pending := some ckptArgs, cmd := some (vf, 8), waiting := [] }] }
/-- A generation that waits for its seal, another request behind it. -/
def unsealed (w : List (CkptArgs × Fn × Nat)) : State :=
  { served with ckpts := [{ part := 0, slots := (Vector.replicate 2 none).set 0 (some { sealedSlot with header := none }), pending := none, cmd := some (vf, 8), waiting := w }] }

theorem witness_OwnerCommands : Owns empty pf ∧ (∀ p, p < empty.parts.length → empty.partEmpty p = true) ∧ 0 < empty.parts.length ∧ empty.teams = [] ∧ empty.launches = [] ∧
    (∀ q ∈ empty.queues, q.assigned = true → q.part = 0 → State.pendingCount q = 0) ∧ 0 < empty.clusters.length ∧ ({ port := 1, vf := none } : Fn).port ≠ empty.ownerPort ∧
    (served.faultOf 0).isSome = true ∧ (invalidating none).invals.map (fun i => (i.done, i.mark)) = [(false, none)] ∧
    ((∀ m ∈ (invalidating (some (0, 0))).teams, m.held = []) ∧ (invalidating (some (0, 0))).invalOver 0 1 0 0 = true) := by unfold Owns Attends; decide +kernel

theorem witness_OwnerCommands_steps : (invalidating (some (0, 0))).invals.map (fun i => (i.done, i.mark)) = [(false, some (0, 0))] ∧ (invalidating (some (0, 0))).invals.map (·.fn) = [some (vf, 4)] ∧ (invalidating (some (0, 0))).invals.map (·.page) = [none] ∧ 1 < (invalidating (some (0, 0))).ctxs.length ∧
    ((checkpointing.ckptOf 0).pending = some ckptArgs ∧ checkpointing.jobStill ckptArgs.ctxs = true ∧ State.sharesHere ckptArgs [] = true ∧ checkpointing.mem.wf = true) ∧
    ([unsealed [], unsealed [(ckptArgs, vf, 9)]].all fun s => (s.ckptOf 0).pending.isNone && (State.unsealed (s.ckptOf 0)).isSome && (s.ckptOf 0).cmd == some (vf, 8)) = true ∧
    Attends empty { port := 1, vf := none } := by unfold Attends; decide +kernel

/-- PCAP is clamped to its range when asked for; the wrong port is refused (R359, R372). -/
theorem test_owner_commands : next (exec (.writePcap pf 0x1000FFF) empty) (fun t => t.power.pcapReq == some 0x10007D0) ∧
    next (exec (.writePcap { port := 1, vf := none } 900) empty) (fun t => (t.replies.map (·.status)) == [0x11]) ∧
    next (exec (.partitionDevice pf 4) empty) (fun t => t.parts.length == 4) ∧ next (exec (.checkpointSeal { part := 0 }) checkpointing) (fun t => ((t.ckptOf 0).slots.toList.filterMap fun k => k.map (·.head.gen)) == [1]) ∧
    next (exec (.checkpointSeal { part := 0 }) (unsealed [(ckptArgs, vf, 9)])) (fun t => (t.ckptOf 0).cmd == some (vf, 9) && (t.replies.map fun r => (r.seq, r.status)) == [(8, 0)]) := by decide +kernel

end Sys2Proof.Tests

namespace Sys2Proof.Tests

open Sys2Proof.Machine Sys2Proof.Safety Sys2Proof.Claim

/-! ### Fabric, peers, host and debug -/

def routerAt (die n : Nat) : Router :=
  { die := die, at_ := if n < 48 then .grid (n / 12) (n % 12) else .edge (n - 48), table := Vector.replicate 64 (if n = 1 then 15 else 5), failed := false }

/-- Each router of dies 0 and 1 is the last of every packet, but router 1 has no valid entry. -/
def meshed : State := { S with routers := (List.range 53).map (routerAt 0) ++ (List.range 53).map (routerAt 1) }
def place (die : Nat) : Dest := { die := die, row := 0, col := 0, port := 1, edge := none }
def aFlit : Flit := { id := 0, ctx := 1, tag := none, die := 0, at_ := .grid 0 0, plane := 0, inp := 0, dests := [place 0], age := 1, holding := false }
def crossing : Flit := { aFlit with at_ := .edge 0, dests := [place 1] }

/-- A link's retry of a flit. -/
def retrying (n : Nat) (b : Bool) (f : Option Nat) : State := { meshed with linkRetries := [{ link := 0, plane := 0, tries := n, busy := b, flit := f }] }

theorem witness_FabricAndPeerSteps_mesh : ((meshed.hopOf 0 (.grid 0 0) (place 0)).map fun h => (h.local_ aFlit, h.link, h.out)) = some (true, none, 9) ∧
    ((meshed.hopOf 0 (.edge 0) (place 1)).map fun h => (h.local_ crossing, h.link, h.at_)) = some (false, some 0, .edge 0) ∧ meshed.linkBusy 0 crossing = false ∧
    (retrying 1 true (some 0)).linkBusy 0 crossing = true ∧ (retrying 1 false (some 0)).linkBusy 0 crossing = false ∧ (retrying 1 false (some 5)).linkBusy 0 crossing = true ∧ (retrying 16 true (some 0)).linkRetries.length = 1 ∧ meshed.linkRetries = [] ∧ (meshed.hopOf 0 (.grid 0 1) (place 0)).isNone = true ∧ (meshed.routers[53 * 0 + 5]?).isSome = true ∧ meshed.partOfCluster 0 < meshed.parts.length := by decide +kernel

/-- A flit crosses die link 0 to die 1; one at an invalid entry is dropped (R25, R27, R29). -/
theorem test_mesh : next (exec .flitAdvance { meshed with flits := [crossing] }) (fun t => (t.flits.map fun f => (f.die, f.at_, f.age)) == [(1, .edge 0, 2)]) ∧
    next (exec .flitAdvance { meshed with flits := [{ aFlit with at_ := .grid 0 1 }] }) (fun t => t.flits == [] && t.droppedFlits == 1) ∧
    next (exec (.linkCrcRetry 0 0) (retrying 16 true none)) (fun t => t.linkRetries == [] && ((t.routers[48]?).map (·.failed)) == some true) := by decide +kernel

/-- Context 1 owns a dirty line of the shared cache. -/
def owning : State := { S with owned := [{ line := 0x340010, owner := 1, dirty := 1 }] }
def peerLoad : PendLoad := { vectorLoad with vals := [(7, [5, 6], false), (8, [1, 2], false)], peers := [7] }
def peerKey : Nat := 3 * 2 ^ 52
def peerAtom : State :=
  handled.modG 0 fun x => { x with atom := some { pc := codeVa, sig0 := 0, word := 0, reg := 4, wide := false
                                                  reqs := [{ thread := 2, key := peerKey, va := 0x7F0002001000, form := .f32 .add, v := 3, cmp := none }] } }
/-- A dirty byte of a peer in the cluster's cache; on its way from a berth; in a berth. -/
def peerCached : State :=
  { S with clusters := [{ Cluster.reset with cache := [{ key := peerKey, bytes := (Vector.replicate 128 none).set 0 (some { val := 1, dirty := true }), poison := 0, tag := 1, shared := false, writer := 1 }] }] }
def peerSet : WbSet := { aWb with bytes := [(peerKey, 7, false)] }
def peerHeld : State := bound.modT 0 fun t => { t with held := [{ heldAt with key := peerKey }] }
def peerElement : Copy := { aCopy with form := 2, elems := [({ key := peerKey, form := .f32 .add, v := 3 }, false)], applied := false }

theorem witness_FabricAndPeerSteps_peers : (owning.owned.find? fun x => x.line == 0x340010).isSome = true ∧ ((loading peerLoad).grp 0).loads = [peerLoad] ∧ peerLoad.peers ≠ [] ∧
    (((withPound S [{ entry (.store peerKey [(peerKey, 1, false)] false) 3 with cleared := true }]).poundOf 0).map fun e => (e.gid, e.cleared)) = [(0, true)] ∧
    ((peerCached.csector 0 peerKey).isSome = true ∧ (peerCached.cbyte 0 peerKey).map (·.dirty) = some true ∧ sectorOf peerKey = peerKey ∧ 0 < peerCached.clusters.length) ∧
    (GoesOn (writingBack peerSet) 0 ∧ ((writingBack peerSet).grp 0).wbsets = [peerSet] ∧ peerSet.cleared = true ∧ ∀ w ∈ peerSet.bytes, 3 * 2 ^ 52 ≤ w.1) ∧
    ((peerHeld.tm 0).held.map fun h => (h.dirty != 0, h.key)) = [(true, peerKey)] ∧
    ((peerAtom.grp 0).atom.bind fun a => (a.reqs.find? fun q => isPeerKey q.key).map (·.va)) = some 0x7F0002001000 ∧ State.recordAwaited (me peerAtom) = false ∧
    deliversB (peerAtom.modG 0 fun x => { x with atom := none }) .poison 0x7F0002000400 = true ∧
    ((withCopy peerElement).copyOf 0 4).map (fun c => (c.form, c.cleared)) = some (2, true) ∧ (withCopy peerElement).resident ((withCopy peerElement).grp 0).team = true ∧ (∃ e ∈ peerElement.elems, 3 * 2 ^ 52 ≤ e.1.key) ∧ GoesOn (withCopy peerElement) 0 := by unfold GoesOn; decide +kernel

/-- A device in a load-store domain, whose memory holds 9 at 0x34001000. -/
def joined : State := { S with domIndex := some 2, mem := S.mem.writeBytes 0x34001000 [9] }

theorem witness_FabricAndPeerSteps_accesses : joined.fw = .thavin ∧ (∀ m ∈ joined.teams, m.held = []) ∧ (∀ x ∈ joined.groups, x.wbsets = []) ∧ joined.mem.wf = true ∧ joined.domIndex ≠ none ∧
    0x34001000 + 8 ≤ 0x6000000000 ∧ joined.partOfFn vf = some 0 ∧ (joined.partHbm 0).1 ≤ 0x34001000 ∧ 0x34001000 + 8 ≤ (joined.partHbm 0).2 ∧ joined.partOfFn pf = none ∧ pf.port = joined.ownerPort ∧ joined.poison = [] ∧ (∀ c ∈ joined.clusters, c.cache = []) := by
  decide +kernel

/-- An addition from a peer and a read by the host; the reply of a read bears 16 + the port. -/
theorem test_accesses : next (exec (.peerAccessArrival 5 0x34001000 (.fetchAdd false 4)) joined) (fun t => t.mem.read 0x34001000 == 13 && t.records.getLast? == some (.reply 5 0x34001000 [9, 0, 0, 0] false)) ∧
    next (exec (.hostDmaAccess vf 0x34001000 (.read 2)) joined) (fun t => t.records.getLast? == some (.reply 16 0x34001000 [9, 0] false)) ∧
    next (exec (.dirtyLineError 0x340010 3) owning) (fun t => !(t.cx 1).resident && t.retiredWays.map (·.2) == [3]) ∧
    next (exec (.peerTimeout (.load 0)) (loading peerLoad)) (fun t => ((t.grp 0).loads.map fun l => l.vals.map (·.2.2)) == [[true, false]]) := by decide +kernel

/-- Trace on, to a ring of 64 KiB at 0x34100000; with a packet lost. -/
def traced (lost : Bool) : State :=
  { S.modC 0 fun k => { k with trcctl := 0x34100001, tsdWrote := true, lossDue := lost, dropped := 3 } with clk := 4096 }

/-- The debug command for slot 0 of core 0. -/
def dbg (op : Nat) : W64 := BitVec.ofNat 64 op
def ctx1 : RegAt := { fn := vf, n := 1 }
def halted : State := S.modG 0 fun x => { x with st := .halt, held := some .run }
def flushing : State := { S with surveys := [(pf, .groupImage 0, [0], false)], cores := S.cores.map fun k => { k with paused := true } }

/-- Core 0's ring has room again after 1,314 drops, as the ring of spec/34_debug_notes.md before group 0's last compare. -/
def lossy : State :=
  (S.modC 0 fun k => { k with trcctl := 0x30010001, dropped := 1314, lossDue := true, trcptr := 0, slots := k.slots.set 0 { icount := 9, sincePkt := 9, syncDue := none, afterLoss := false } }).modG 0 fun x =>
    { x with prevMask := 0x88888888 }

/-- The packets that the notes decode: LOSS, SYNC of reason 6 with ICOUNT 10, MASK with ICOUNT 0; without a packet there is no SYNC (R390, R391, R398). -/
theorem test_trace_after_loss : (let t := lossy.traceIssue 0 0x48 (some 0xFFFFFFFF) none
    (t.mem.readBytes 0x30010000 32 == bytesLE 8 0xFF05 ++ bytesLE 8 1314 ++ bytesLE 16 0 &&
      t.mem.readBytes 0x30010020 32 == bytesLE 8 0x000A0001 ++ bytesLE 8 0x48 ++ bytesLE 8 0 ++ bytesLE 8 0x688888888 &&
      t.mem.readBytes 0x30010040 32 == bytesLE 8 0x00000003 ++ bytesLE 8 0x77777777 ++ bytesLE 16 0)) = true ∧
    ((lossy.traceIssue 0 0x48 (some 0x88888888) none).cor 0).trcptr = 0 := by decide +kernel

theorem witness_HostAndDebugSteps : served.partOfFn vf = some 0 ∧ Mine served 0 1 ∧ 0 < 384 / served.parts.length ∧ 0 < served.cores.length ∧ pf.vf = none ∧
    (((traced false).cor 0).trcctl.getLsbD 0 = true ∧ State.ringRoom ((traced false).cor 0) = true ∧ (traced false).mem.wf = true ∧ ((traced false).cor 0).tsdWrote = true ∧ (traced false).clk % 4096 = 0 ∧
      ((traced false).cor 0).lossDue = false ∧ ((traced true).cor 0).lossDue = true) ∧
    (S.debugGroup ctx1 (dbg 1) 1 = some 0 ∧ (S.grp 0).st ≠ .halt ∧ (S.grp 0).reaches = [] ∧ (S.grp 0).atom = none ∧ (S.grp 0).verdict = none ∧ ((reached aReach false).debugGroup ctx1 (dbg 1) 1) = some 0 ∧ ((reached aReach false).grp 0).reaches ≠ []) ∧
    ((halted.grp 0).st = .halt ∧ (halted.grp 0).held = some .run ∧ halted.debugGroup ctx1 (dbg 2) 2 = some 0 ∧ halted.debugGroup ctx1 (dbg 3) 3 = some 0) ∧
    (flushing.resident (flushing.grp 0).team = true ∧ (flushing.cor (flushing.coreOf 0)).paused = true ∧ flushing.surveys = [(pf, .groupImage 0, [flushing.coreOf 0], false)]) ∧
    S.fw ≠ .rom := by unfold Mine; decide +kernel

theorem witness_HostAndDebugSteps_functions : (vf.vf ≠ none ∧ S.partOfFn vf ≠ none ∧ S.objectPart (.energy 1) ≠ S.partOfFn vf ∧ SurveyObj.energy 1 ≠ .identity) ∧ (Attends S { port := 1, vf := some 0 } ∧ (S.prt 0).owner ≠ 1 ∧ 0 < S.parts.length) ∧ (({ S with link1 := true } : State).link1 = true ∧ S.link1 = false) ∧ (({ State.reset with fw := .rom } : State).fw = .rom ∧ pf.port = State.reset.ownerPort ∧ S.fw ≠ .rom) := by unfold Attends; decide +kernel

/-- Mailbox word 3; TRCCTL's enable with a misaligned ring; the time packet; halt, resume and step; power-up with port 0 down. -/
theorem test_host_and_debug : next (exec (.registerWrite vf { bar := 0, off := 0x118 } 77) served) (fun t => (t.prt 0).mailbox[3] == 77) ∧
    next (exec (.trcctlWrite { fn := vf, n := 0 } 0x34111001) S) (fun t => (t.cor 0).trcctl.getLsbD 0 == false) ∧
    next (exec (.trcctlWrite { fn := vf, n := 0 } 0x34100001) S) (fun t => (t.cor 0).trcctl.getLsbD 0) ∧
    next (exec (.traceTsd 0) (traced false)) (fun t => t.mem.read 0x34100000 == 4 && t.mem.readBytes 0x34100008 2 == [0, 0x10] && ((t.cor 0).trcptr == 1)) ∧
    next (exec (.debugHalt ctx1 (dbg 1)) S) (fun t => (t.grp 0).st == .halt) ∧ next (exec (.debugStep ctx1 (dbg 3)) halted) (fun t => (t.grp 0).st == .run && (t.grp 0).stepping) ∧
    next (exec (.powerUp false true) S) (fun t => t.fw == .rom && t.ownerPort == 1) ∧ next (exec (.ownerLinkDown { port := 0, claim := some { port := 1, vf := none } }) { S with link1 := true }) (fun t => t.ownerPort == 1) ∧
    next (exec (.ownerLinkDown { port := 0, claim := none }) { S with link1 := true }) (fun t => t.ownerPort == 0) := by decide +kernel

end Sys2Proof.Tests
end

/-! SUPPORT. Element-wise vector instructions: the registers that their frame leaves, and the form in which the statements
name them. -/

namespace Sys2Proof.Safety

open Sys2Proof.Machine Sys2Proof.Claim

/-- Low words of operands of the chosen group read the same once its issue has begun. -/
theorem read32_begun {s s1 : State} {i : Instr} (h : (s1.grp s.cur).arch = begunArch s i) (ty : PTy) (o : Operand) (t : Nat) :
    read32 (s1.regsOf s.cur) ty o t = el s ty o t := by
  unfold el read32
  rw [readOp_begun h]
  rfl

/-- Flags join a group's MODE and nothing else. -/
theorem arch_raiseFlags (s : State) (g : Nat) (f : Fp.Flags) (hg : g < s.groups.length) :
    ((s.raiseFlags g f).grp g).arch =
      { (s.grp g).arch with regs := { (s.grp g).arch.regs with mode := modeOr (s.grp g).arch.regs.mode f } } :=
  arch_modR s g _ hg

/-- Registers after a scalar is written and flags are raised. -/
theorem arch_putS_raiseFlags (s : State) (g n : Nat) (v : W64) (p : Bool) (f : Fp.Flags) (hg : g < s.groups.length) :
    (((s.putS g n v p).raiseFlags g f).grp g).arch =
      { (s.grp g).arch with regs := { (s.grp g).arch.regs.setS n v p with mode := modeOr (s.grp g).arch.regs.mode f } } := by
  rw [arch_raiseFlags _ _ _ ((State.modG_groups_length ..).symm ▸ hg), State.putS, arch_modR _ _ _ hg]
  rfl

theorem Quiet.raiseFlags {g : Nat} (s : State) (f : Fp.Flags) : Quiet g s (s.raiseFlags g f) := Quiet.modR s _

/-- The chosen group's registers and PC after an instruction that writes `x` under its mask and raises flags (R189). -/
def vecArch (s : State) (i : Instr) (e : Enc) (x : Nat → W32 × Bool) (fl : Fp.Flags) : Arch :=
  { begunArch s i with
    regs := { (begunArch s i).regs.setV (opReg e.d) (maskAt s i e) x with mode := modeOr (rg s).mode fl } }

/-- An effect that is the element-wise frame of R189 gives the registers of `vecArch`. -/
theorem issue_vApply (s : State) (i : Instr) (e : Enc) (tr : Tr) (eff : Eff) (f : Nat → VRes) (hr : Ready s i e)
    (hd : opReg e.d < 256)
    (heff : ∀ s1, (s1.grp s.cur).arch = begunArch s i → eff (cxAt s i e) s1 = .ok (vApply (cxAt s i e) s1 f)) :
    ∃ t, issueT i e tr eff s = .next t ∧ Quiet s.cur s t ∧
      (t.grp s.cur).arch = vecArch s i e (fun t => ((f t).v, (f t).p)) (raised (maskAt s i e) fun t => (f t).f) := by
  refine issue_registers s i e tr eff hr _ fun s1 h1 ha => ⟨_, heff s1 ha, ?_, ?_⟩
  · exact (Quiet.putV s1 _ _ _).trans (Quiet.raiseFlags _ _)
  · have hg1 : s.cur < s1.groups.length := h1.size ▸ hr.group
    have hg2 := (Quiet.putV (g := s.cur) s1 (opReg e.d) (maskAt s i e) fun t => ((f t).v, (f t).p)).size ▸ hg1
    refine (arch_raiseFlags _ s.cur _ hg2).trans ?_
    rw [arch_putV _ _ _ _ _ hg1 hd, ha]
    rfl

/-- An instruction that leaves `vecArch` completes as the statements say of one destination register. -/
theorem vecGives_one {s : State} {i : Instr} {e : Enc} {x : Nat → W32 × Bool} {fl : Fp.Flags} (hd : opReg e.d < 256)
    (h : Gives s i (vecArch s i e x fl)) : VecGives s i e 1 (fun _ t => x t) fl := by
  obtain ⟨t, hstep, hquiet, harch⟩ := h
  have hregs : rg { t with cur := s.cur } = (vecArch s i e x fl).regs := congrArg Arch.regs harch
  refine ⟨t, hstep, hquiet, fun j th hj hth => ?_, fun r th hr => ?_, by rw [harch]; rfl⟩
  · obtain rfl : j = 0 := by omega
    rw [hregs]
    have hv := vt_setV (rg s) (opReg e.d) (opReg e.d) th (maskAt s i e) x hd hth
    have hp := vpt_setV (rg s) (opReg e.d) (opReg e.d) th (maskAt s i e) x hd hth
    simp only [true_and] at hv hp
    exact ⟨hv, hp⟩
  · have hne : r ≠ opReg e.d := by omega
    rw [hregs]
    exact ⟨vt_setV_high (rg s) (opReg e.d) r th (maskAt s i e) x hne, vpt_setV_high (rg s) (opReg e.d) r th (maskAt s i e) x hne⟩

/-- An instruction whose effect is the element-wise frame of R189 over `f`, which may read the registers from before the issue. -/
theorem vec32_of_vApply (i : Enc → Instr) (eff : Eff) (f : State → Enc → Nat → Res32)
    (hexec : ∀ s e, exec (i e) s = issue (i e) e eff s)
    (heff : ∀ s s1 e, (s1.grp s.cur).arch = begunArch s (i e) → eff (cxAt s (i e) e) s1 =
      .ok (vApply (cxAt s (i e) e) s1 fun t => { v := (f s e t).1, p := (f s e t).2.1, f := (f s e t).2.2 })) :
    Vec32 i f := by
  intro s e hr hd
  obtain ⟨t, hstep, hquiet, harch⟩ := issue_vApply s (i e) e Tr.none eff _ hr hd fun s1 => heff s s1 e
  exact vecGives_one hd ⟨t, (hexec s e).trans hstep, hquiet, harch⟩

end Sys2Proof.Safety

/-! SUPPORT. Reductions (R96, R209): the model's levels over a list of 32 values are the pairwise tree of the statements. -/

namespace Sys2Proof.Safety

open Sys2Proof.Machine Sys2Proof.Claim

/-! ### Integer minima and maxima -/

theorem minS_eq {n : Nat} (a b : BitVec n) : minS a b = BitVec.ofInt n (min a.toInt b.toInt) := by
  simp only [minS, BitVec.slt_iff_toInt_lt]
  split
  next h => rw [min_eq_right h.le, BitVec.ofInt_toInt]
  next h => rw [min_eq_left (not_lt.1 h), BitVec.ofInt_toInt]

theorem maxS_eq {n : Nat} (a b : BitVec n) : maxS a b = BitVec.ofInt n (max a.toInt b.toInt) := by
  simp only [maxS, BitVec.slt_iff_toInt_lt]
  split
  next h => rw [max_eq_right h.le, BitVec.ofInt_toInt]
  next h => rw [max_eq_left (not_lt.1 h), BitVec.ofInt_toInt]

theorem minU_eq {n : Nat} (a b : BitVec n) : minU a b = BitVec.ofNat n (min a.toNat b.toNat) := by
  simp only [minU, BitVec.ult_iff_lt, BitVec.lt_def]
  split
  next h => rw [min_eq_right h.le, BitVec.ofNat_toNat, BitVec.setWidth_eq]
  next h => rw [min_eq_left (not_lt.1 h), BitVec.ofNat_toNat, BitVec.setWidth_eq]

theorem maxU_eq {n : Nat} (a b : BitVec n) : maxU a b = BitVec.ofNat n (max a.toNat b.toNat) := by
  simp only [maxU, BitVec.ult_iff_lt, BitVec.lt_def]
  split
  next h => rw [max_eq_right h.le, BitVec.ofNat_toNat, BitVec.setWidth_eq]
  next h => rw [max_eq_left (not_lt.1 h), BitVec.ofNat_toNat, BitVec.setWidth_eq]

/-! ### Operations of a reduction -/

/-- The model combines two values as the statements say, MODE's flushing included. -/
theorem redCombine_eq (s : State) (op : RedOp) (rm : Fp.RM) : redCombine op (rg s).mode rm = combine s op rm := by
  funext a b
  cases op with
  | fadd | fmin | fmax => rfl
  | add => simp [redCombine, combine, BitVec.ofNat_add]
  | min => exact congrArg (·, 0) (minS_eq a b)
  | max => exact congrArg (·, 0) (maxS_eq a b)
  | minu => exact congrArg (·, 0) (minU_eq a b)
  | maxu => exact congrArg (·, 0) (maxU_eq a b)
  | and => simp [redCombine, combine, BitVec.ofNat_and]
  | or => simp [redCombine, combine, BitVec.ofNat_or]
  | xor => simp [redCombine, combine, BitVec.ofNat_xor]

theorem redIdentity_eq (op : RedOp) : redIdentity op = identity op := by cases op <;> rfl

theorem redExtend_eq (op : RedOp) (v : W32) :
    redExtend op v = if signedRed op then v.signExtend 64 else BitVec.ofNat 64 v.toNat := by
  rw [BitVec.ofNat_toNat]
  cases op <;> rfl

/-! ### The pairwise tree -/

/-- Flags of the nodes from i on, n of them. -/
def flagsFrom (h : Nat → Fp.Flags) (i n : Nat) : Fp.Flags := (List.range' i n).foldr (fun j x => h j ||| x) 0

theorem flagsFrom_succ (h : Nat → Fp.Flags) (i n : Nat) : flagsFrom h i (n + 1) = h i ||| flagsFrom h (i + 1) n := rfl

theorem flagsFrom_zero (i n : Nat) : flagsFrom (fun _ => 0) i n = 0 := by
  induction n generalizing i with
  | zero => rfl
  | succ n ih => rw [flagsFrom_succ, ih]; rfl

/-- Flags of two neighbours of a level and of the node above them, gathered over the level above. -/
theorem flagsFrom_pairs (p q : Nat → Fp.Flags) (i n : Nat) :
    flagsFrom p (2 * i) (2 * n) ||| flagsFrom q i n = flagsFrom (fun j => p (2 * j) ||| p (2 * j + 1) ||| q j) i n := by
  induction n generalizing i with
  | zero => simp [flagsFrom]
  | succ n ih =>
    simp only [Nat.mul_succ, flagsFrom_succ]
    rw [← ih (i + 1), show 2 * (i + 1) = 2 * i + 1 + 1 from rfl]
    ac_rfl

/-- One level over a run of values with an even start combines the values 2j and 2j + 1 into node j. -/
theorem treeLevel_range' (f : W32 → W32 → W32 × Fp.Flags) (x : Nat → W32) (i n : Nat) :
    treeLevel f ((List.range' (2 * i) (2 * n)).map x) =
      ((List.range' i n).map fun j => (f (x (2 * j)) (x (2 * j + 1))).1, flagsFrom (fun j => (f (x (2 * j)) (x (2 * j + 1))).2) i n) := by
  induction n generalizing i with
  | zero => rfl
  | succ n ih =>
    simp only [Nat.mul_succ, List.range'_succ, List.map_cons, treeLevel, flagsFrom_succ]
    rw [show 2 * i + 1 + 1 = 2 * (i + 1) from rfl, ih (i + 1)]

/-- The remaining n levels, from the nodes of level k and the flags of what lies below them. -/
theorem reduceTree_eq_tree (f : W32 → W32 → W32 × Fp.Flags) (leaf : Nat → W32) (n k : Nat) :
    reduceTree f n ((List.range' 0 (2 ^ n)).map fun j => (tree f leaf k j).1) (flagsFrom (fun j => (tree f leaf k j).2) 0 (2 ^ n)) =
      tree f leaf (k + n) 0 := by
  induction n generalizing k with
  | zero => simp [reduceTree, flagsFrom]
  | succ n ih =>
    have hlevel := treeLevel_range' f (fun j => (tree f leaf k j).1) 0 (2 ^ n)
    have hflags := flagsFrom_pairs (fun j => (tree f leaf k j).2)
      (fun j => (f (tree f leaf k (2 * j)).1 (tree f leaf k (2 * j + 1)).1).2) 0 (2 ^ n)
    rw [Nat.mul_zero] at hlevel hflags
    rw [Nat.pow_succ', reduceTree, hlevel, hflags, show k + (n + 1) = k + 1 + n by omega, ← ih (k + 1)]
    rfl

/-- Five levels over the 32 threads (R96). -/
theorem reduceTree_threads (f : W32 → W32 → W32 × Fp.Flags) (leaf : Nat → W32) :
    reduceTree f 5 ((List.range 32).map leaf) 0 = tree f leaf 5 0 := by
  rw [List.range_eq_range', ← flagsFrom_zero 0 32]
  exact reduceTree_eq_tree f leaf 5 0

/-! ### SRED -/

theorem any_threadsOf (m : W32) (p : Nat → Bool) :
    (threadsOf m).any p = (List.range 32).any fun t => m.getLsbD t && p t := by
  rw [threadsOf, List.any_filter]

/-- The tree that a reduction delivers. -/
def redTree (s : State) (op : RedOp) (e : Enc) (m : W32) : W32 × Fp.Flags := tree (combine s op .rne) (leafOf s op e m) 5 0

/-- Under an empty mask a reduction has no effect (R107). -/
theorem sredEff_empty (op : RedOp) (c : Cx) (s : State) (h : c.mask = 0) : sredEff op c s = .ok s := if_pos h

/-- Under any other it writes the tree's value as the operation extends it, and raises the tree's flags. -/
theorem sredEff_active (op : RedOp) (c : Cx) (s s1 : State) (hm : c.mask ≠ 0)
    (hread : ∀ t, read32 (s1.regsOf c.g) .f32 c.e.a t = el s .f32 c.e.a t) (hmode : (s1.regsOf c.g).mode = (rg s).mode) :
    sredEff op c s1 = .ok ((s1.putS c.g (opReg c.e.d)
      (if signedRed op then (redTree s op c.e c.mask).1.signExtend 64 else BitVec.ofNat 64 (redTree s op c.e c.mask).1.toNat)
      ((List.range 32).any fun t => c.mask.getLsbD t && (el s .f32 c.e.a t).2)).raiseFlags c.g (redTree s op c.e c.mask).2) := by
  have hleaf : (fun t => if c.mask.getLsbD t then (el s .f32 c.e.a t).1 else identity op) = leafOf s op c.e c.mask := rfl
  simp only [sredEff, if_neg hm, hread, hmode, redCombine_eq, redIdentity_eq, hleaf, reduceTree_threads, redExtend_eq, any_threadsOf, redTree]

/-! ### The statement (R96, R204, R209) -/

/-- VSHFL is the element-wise frame, a thread reading `a` in the thread that its `b` names. -/
theorem vshfl_vec32 : Vec32 .vshfl (fun s e t =>
    let b := el s .i32 e.b t
    let a := el s .i32 e.a (b.1.toNat % 32)
    (a.1, a.2 || b.2, 0)) :=
  vec32_of_vApply .vshfl vshflEff _ (fun _ _ => rfl) fun _ _ _ ha => by
    simp only [vshflEff, cxAt, read32_begun ha]

/-- Settles O15: the shuffle is an element-wise instruction, and a reduction's effect is none under an empty mask and the
pairwise tree's value and flags under any other. -/
theorem shuffleAndReduce : Obligations.ShuffleAndReduce := by
  refine ⟨vshfl_vec32, fun op s e => ?_⟩
  intro i m hr r A
  refine issue_registers s i e _ (sredEff op) hr _ fun s1 h1 ha => ?_
  by_cases hm : m = 0
  · rw [if_pos hm]
    exact ⟨s1, sredEff_empty op _ s1 hm, Quiet.refl _ _, ha⟩
  · rw [if_neg hm]
    refine ⟨_, sredEff_active op (cxAt s i e) s s1 hm (read32_begun ha .f32 e.a) (congrArg (·.regs.mode) ha),
      (Quiet.modR s1 _).trans (Quiet.raiseFlags _ _), ?_⟩
    refine (arch_putS_raiseFlags s1 s.cur _ _ _ _ (h1.size ▸ hr.group)).trans ?_
    rw [ha]
    rfl

end Sys2Proof.Safety

/-! SUPPORT. Scalar instructions of two operands (R170 to R172): the one shape of their effect, and what the model's high
products, quotients and remainders are as integers. -/

namespace Sys2Proof.Safety

open Sys2Proof.Machine Sys2Proof.Claim

/-! ### The shape -/

/-- With the issue begun, a two-operand effect writes its operation on the operands from before the issue, and nothing else. -/
theorem sBin_begun {s s1 : State} {i : Instr} {e : Enc} (w : SWidth) (op : ∀ n, BitVec n → BitVec n → BitVec n)
    (ha : (s1.grp s.cur).arch = begunArch s i) :
    sBin w op (cxAt s i e) s1 = .ok (s1.modR s.cur fun r =>
      r.setS (opReg e.d) (atWidth w op (src s e.a).1 (src s e.b).1) ((src s e.a).2 || (src s e.b).2)) := by
  simp only [sBin, sArg_begun ha]
  rfl

/-- An instruction whose effect has that shape completes with the destination written. -/
theorem gives_sBin {s : State} {i : Instr} {e : Enc} (w : SWidth) (op : ∀ n, BitVec n → BitVec n → BitVec n)
    (hexec : exec i s = issue i e (sBin w op) s) (hr : Ready s i e) :
    Gives s i (putS s i e.d (atWidth w op (src s e.a).1 (src s e.b).1) ((src s e.a).2 || (src s e.b).2)) := by
  obtain ⟨t, hstep, hquiet, harch⟩ := issue_modR s i e Tr.none (sBin w op) hr _ fun _ _ ha => sBin_begun w op ha
  exact ⟨t, hexec.trans hstep, hquiet, harch⟩

/-- Both widths of a mnemonic compute `f` where the model's operation is `f` at every width. -/
theorem scalarOp_of_sBin (c : SWidth → Enc → Instr) (op f : ∀ n, BitVec n → BitVec n → BitVec n)
    (hexec : ∀ w e s, exec (c w e) s = issue (c w e) e (sBin w op) s) (hop : ∀ n (a b : BitVec n), op n a b = f n a b) :
    ScalarOp c f := by
  obtain rfl : op = f := by funext n a b; exact hop n a b
  exact fun s e => ⟨gives_sBin .w64 op (hexec .w64 e s), gives_sBin .w32 op (hexec .w32 e s)⟩

/-! ### Quotients and remainders as integers

The one quotient that does not fit, −2^(n−1) by −1, is 2^(n−1) and wraps to −2^(n−1); its remainder is 0 (R172). -/

theorem sdiv_eq_ofInt_tdiv {n : Nat} (a b : BitVec n) : a.sdiv b = BitVec.ofInt n (a.toInt.tdiv b.toInt) := by
  apply BitVec.eq_of_toInt_eq
  rw [BitVec.toInt_sdiv, BitVec.toInt_ofInt]

theorem srem_eq_ofInt_sub {n : Nat} (a b : BitVec n) :
    a.srem b = BitVec.ofInt n (a.toInt - b.toInt * a.toInt.tdiv b.toInt) := by
  rw [← Int.tmod_def, ← BitVec.toInt_srem, BitVec.ofInt_toInt]

theorem divS_eq {n : Nat} (a b : BitVec n) :
    divS a b = if b = 0 then BitVec.allOnes n else BitVec.ofInt n (a.toInt.tdiv b.toInt) := by
  rw [divS, sdiv_eq_ofInt_tdiv]

theorem divU_eq {n : Nat} (a b : BitVec n) :
    divU a b = if b = 0 then BitVec.allOnes n else BitVec.ofNat n (a.toNat / b.toNat) := by
  rw [divU, BitVec.udiv_def]

theorem remS_eq {n : Nat} (a b : BitVec n) :
    remS a b = if b = 0 then a else BitVec.ofInt n (a.toInt - b.toInt * a.toInt.tdiv b.toInt) := by
  rw [remS, srem_eq_ofInt_sub]

theorem remU_eq {n : Nat} (a b : BitVec n) : remU a b = if b = 0 then a else BitVec.ofNat n (a.toNat % b.toNat) := by
  rw [remU, BitVec.umod_def]

/-! ### The statement (R171, R172) -/

/-- Settles O2: each mnemonic has the two-operand shape, the high products over the statement's own formula, and the
quotients and remainders over the model's, which are the integers' own apart from a divisor of 0. -/
theorem scalarDivision : Obligations.ScalarDivision := by
  refine ⟨?smulh, ?smulhu, ?sdiv, ?sdivu, ?srem, ?sremu⟩
  case smulh => exact scalarOp_of_sBin .smulh (fun _ => mulHS) _ (fun _ _ _ => rfl) fun _ _ _ => rfl
  case smulhu => exact scalarOp_of_sBin .smulhu (fun _ => mulHU) _ (fun _ _ _ => rfl) fun _ _ _ => rfl
  case sdiv => exact scalarOp_of_sBin .sdiv (fun _ => divS) _ (fun _ _ _ => rfl) fun _ => divS_eq
  case sdivu => exact scalarOp_of_sBin .sdivu (fun _ => divU) _ (fun _ _ _ => rfl) fun _ => divU_eq
  case srem => exact scalarOp_of_sBin .srem (fun _ => remS) _ (fun _ _ _ => rfl) fun _ => remS_eq
  case sremu => exact scalarOp_of_sBin .sremu (fun _ => remU) _ (fun _ _ _ => rfl) fun _ => remU_eq

end Sys2Proof.Safety
